-- ==== Sys2Proof/Word.lean ====
section
/-! DEFINITION. The word types of the machine and the sparse table type that every register file and memory uses. -/

namespace Sys2Proof

/-- A scalar register, a program counter, a system register: 64 bits (R22). -/
abbrev Word := BitVec 64

/-- The unit of memory (R1). -/
abbrev Byte := BitVec 8

/-- A slot register of the widest gang, 128 * 4 bytes (R22, R40). A task of gang width G uses the low 1,024 * G bits. -/
abbrev VReg := BitVec 4096

/-- A slot predicate of the widest gang (R22, R40). -/
abbrev PReg := BitVec 512

/-- Sparse data by number: pairs in strictly rising order of their number, none equal to the table's default. -/
abbrev Tbl (α : Type) := List (Nat × α)

/-- An exact dyadic real, `m * 2^e` (the exact reals of R5). -/
structure Dy where
  m : Int := 0
  e : Int := 0
deriving DecidableEq, Repr, Inhabited

end Sys2Proof
end

