-- ==== Sys2Proof/Syntax.lean ====
section
/-! DEFINITION. The syntax of everything that can happen as one step of the machine: one constructor of `Instr` for each
row of the opcode table. Stream words and the V and L operations carry their operands: the raw field values of the encoding
(R46, R54, R58), which WellFormed bounds. The C, M and X operations take theirs from the head of their slot's queue, which
holds the bundle's fields as captured at dispatch (R38, R79), and an event takes its input from the state's `arg`. (Lean's
code generator allows 245 constructors with operands.) -/

namespace Sys2Proof

/-- What a slot operation takes with it from the dispatch of its bundle (R35, R38, R79): the bundle index, the stream PC
and the CWT entry of the issue parcel, and the captured scalar operand. -/
structure BCtx where
  idx : Nat := 0
  pc : Word := 0
  entry : Nat := 0
  scal : Word := 0
deriving DecidableEq, Repr, Inhabited

/-- The fields of a V slot (R54) other than its op and dup bits; register fields hold run-time names, after bias (R62). -/
structure VF where
  zero : Bool := false
  sat : Bool := false
  form : Nat := 0
  rnd : Nat := 0
  imm : Nat := 0
  vc : Nat := 0
  vb : Nat := 0
  va : Nat := 0
  vd : Nat := 0
  pred : Nat := 0
  ty : Nat := 0
  width : Nat := 0
deriving DecidableEq, Repr, Inhabited

/-- The fields of the L slot (R58) other than its op. -/
structure LF where
  hole : Nat := 0
  pred : Nat := 0
  off : Nat := 0
  mode : Nat := 0
  areg : Nat := 0
  vreg : Nat := 0
  file : Nat := 0
  width : Nat := 0
deriving DecidableEq, Repr, Inhabited

/-- The fields of the M slot (R60) other than its op. -/
structure MF where
  row : Nat := 0
  plane : Nat := 0
  accdis : Bool := false
  neg : Bool := false
  shape : Nat := 0
  acc : Nat := 0
deriving DecidableEq, Repr, Inhabited

/-- The fields of the X slot (R61) other than its op. -/
structure XF where
  b : Nat := 0
  a : Nat := 0
deriving DecidableEq, Repr, Inhabited

/-- A fabric packet: the header fields of R334 and the payload bytes. -/
structure Packet where
  kind : Nat := 0
  vc : Nat := 0
  last : Bool := false
  addfmt : Nat := 0
  srcPkg : Nat := 0
  node : Nat := 0
  tgtPkg : Nat := 0
  seq : Nat := 0
  fg : Nat := 0
  tg : Nat := 0
  off : Nat := 0
  len : Nat := 0
  /-- the reduction domain, 0 where the packet carries no reduction tag -/
  dom : Nat := 0
  member : Nat := 0
  incl : Nat := 0
  rctr : Nat := 0
  ren : Bool := false
  first : Bool := false
  /-- the job tag: the handle of the job that sent it (R308), in its three fields -/
  jobCore : Nat := 0
  jobEntry : Nat := 0
  jobSeq : Nat := 0
  rstate : Nat := 0
  rreason : Nat := 0
  payload : List Byte := []
deriving DecidableEq, Repr, Inhabited

/-- A membership change carried on VC4 to a package that holds a bound reduction region (R345). -/
structure Notice where
  dom : Nat := 0
  gen : Nat := 0
  member : Nat := 0
  leaves : Bool := true
  live : Nat := 0
deriving DecidableEq, Repr, Inhabited

/-- What a VC4 notice tells the entry of a fabric-level domain, or the entry tells the other packages (R386, R387). -/
inductive BarNotice where
  /-- to the entry: a member has arrived -/
  | arrival (dom tag : Nat)
  /-- to the entry: a task asks to join -/
  | join (dom tag : Nat)
  /-- to the entry: member `tag` is to be withdrawn, at the wish of task `asker` -/
  | leave (dom tag asker : Nat)
  /-- from the entry: a task has joined, with its index and the new GEN -/
  | joined (dom tag idx gen : Nat)
  /-- from the entry: a member is withdrawn, with the new GEN and the phase then current -/
  | left (dom tag asker gen phase : Nat)
  /-- from the entry: what task `asker` asked for cannot be done -/
  | denied (dom asker : Nat)
  /-- from the entry: a phase has completed -/
  | completion (dom phase gen count : Nat)
  /-- a fabric-level domain whose entry package `home` holds, with its members, as the other packages see it -/
  | entry (dom home asid phase gen : Nat) (members : List (Nat × Nat))
  /-- counter `n` of RDVCNT of a member that runs on another package (R98) -/
  | rdv (dom tag n count : Nat)
deriving DecidableEq, Repr, Inhabited

/-- A VPUB.f transfer as it has arrived whole at a target (R360): the handle, what the sender declared, and the bytes. -/
structure Broadcast where
  srcPkg : Nat := 0
  srcCore : Nat := 0
  handle : Nat := 0
  version : Nat := 0
  wlen : Nat := 0
  slen : Nat := 0
  wdata : Tbl Byte := []
  sdata : Tbl Byte := []
deriving DecidableEq, Repr, Inhabited

/-- One local end of the switch's new circuit map (R349): a fibre, and the package and fibre it now reaches, if any. -/
structure Circuit where
  fibre : Nat := 0
  peer : Option (Nat × Nat) := none
deriving DecidableEq, Repr, Inhabited

/-- What the scrubber or an access finds in a storage granule (R482, R483, R491). -/
inductive Finding where
  | clean
  /-- a corrected error in structure `str` (1 to 5, the rows of R481) at `addr`, on the half `half` if one holds it; `again`: a
  type-9 record of this granule was written within the last second (R498) -/
  | corrected (str addr : Nat) (half : Option Nat) (again : Bool)
  /-- an uncorrectable error in structure `str` at `addr` (a physical address, or a granule of the registers as State numbers
  them), on the half `half` if one holds it -/
  | uncorrectable (str addr : Nat) (half : Option Nat)
  /-- an uncorrectable error in the scratchpad of the event's core, at offset `off` -/
  | scratchpad (off : Nat)
  /-- an uncorrectable error in a line that the L1 of the event's core holds, at physical address `pa` -/
  | l1 (pa : Nat)
  /-- an uncorrectable error in the tag of line `line`, in the L2, a scratch bank or the sidecar -/
  | tag (line : Nat)
deriving DecidableEq, Repr, Inhabited

/-- A host access through CXL or BAR0 (R252, R473). -/
inductive HostReq where
  | read (pa len : Nat)
  | write (pa : Nat) (data : List Byte)
  /-- the host sets HDM decoder `k` to a range of HBM (R473) -/
  | decoder (k base len : Nat)
  /-- the management mailbox reads 8 bytes of the black box of a die (R479, R497) -/
  | mailbox (die off : Nat)
deriving DecidableEq, Repr, Inhabited

/-- What the boot ROM and the monitor find in one start (R478, R479). -/
structure Boot where
  romOk : Bool := true
  supOk : Bool := true
  hbmOk : Bool := true
  noiseOk : Bool := true
  secver : Nat := 0
  /-- the SHA-256 digests of the images, by which the monitor extends M0 to M7 in order -/
  digests : List Nat := []
  /-- what the monitor places in memory, where it puts the roots of the tables, and how it configures letterbox 0 -/
  image : List (Nat × List Byte) := []
  ptbase : Nat := 0
  lba : Word := 0
  lbb : Word := 0
  /-- the supervisor's envelope: its address under letterbox 0's ASID -/
  envelope : Option Nat := none
deriving DecidableEq, Repr, Inhabited

/-- The fields of the C slot that its operations use (R53), and whether the bundle holds a duplicate (R57). -/
structure CF where
  rdv : Option Nat := none
  side : Nat := 0
  hole : Nat := 0
  dup : Bool := false
deriving DecidableEq, Repr, Inhabited

/-- The input of an event: what the world outside the cores hands to the device with it. -/
inductive Arg where
  | none
  /-- a number: a line, a beat, a fibre, a task's tag, an amount, a nonce -/
  | num (n : Nat)
  /-- a job-table entry of a core -/
  | job (core entry : Nat)
  | packet (p : Packet)
  | notice (n : Notice)
  | bar (n : BarNotice)
  | broadcast (b : Broadcast)
  | finding (f : Finding)
  /-- a new topology generation and the local circuits it changes -/
  | circuits (tg : Nat) (cs : List Circuit)
  /-- corrected symbols of a lane, and whether its window ends with them -/
  | lane (fibre lane corrected : Nat) (ends : Bool)
  /-- an uncorrectable codeword of a flit on a lane -/
  | flit (fibre lane flit vc : Nat)
  /-- a doorbell of a letterbox -/
  | doorbell (k producer : Nat)
  | host (a : HostReq)
  /-- a snoop of a host line: 0 data wanted shared, 1 wanted exclusive, 2 to be invalidated -/
  | snoop (line kind : Nat)
  | boot (b : Boot)
  /-- a new image in the mailbox, with what its signature check found and its security version -/
  | image (verifies : Bool) (secver : Nat)
  /-- the switch's answer to an OCSET that moved no circuit, with the TG it holds -/
  | answer (stale : Bool) (switchTg : Nat)
  /-- a target's answer to a VPUB.f -/
  | target (handle version node : Nat) (published : Bool)
deriving DecidableEq, Repr, Inhabited

/-- One step of the machine: a stream word, a slot operation, or an event. -/
inductive Instr where
  /-- ISSUE_PARCEL (R79). -/
  | issueParcel (entry bp bias : Nat)
  /-- ADD (R141). -/
  | add (rd ra rb : Nat)
  /-- SUB (R141). -/
  | sub (rd ra rb : Nat)
  /-- AND (R141). -/
  | and (rd ra rb : Nat)
  /-- OR (R141). -/
  | or (rd ra rb : Nat)
  /-- XOR (R141). -/
  | xor (rd ra rb : Nat)
  /-- ANDN (R141). -/
  | andn (rd ra rb : Nat)
  /-- SHL (R141). -/
  | shl (rd ra rb : Nat)
  /-- SHR (R141). -/
  | shr (rd ra rb : Nat)
  /-- SAR (R141). -/
  | sar (rd ra rb : Nat)
  /-- ROL (R141). -/
  | rol (rd ra rb : Nat)
  /-- MUL (R141). -/
  | mul (rd ra rb : Nat)
  /-- MULH (R141). -/
  | mulh (rd ra rb : Nat)
  /-- MULHN (R141). -/
  | mulhn (rd ra rb : Nat)
  /-- DIV (R142). -/
  | div (rd ra rb : Nat)
  /-- DIVN (R142). -/
  | divn (rd ra rb : Nat)
  /-- REM (R142). -/
  | rem (rd ra rb : Nat)
  /-- REMN (R142). -/
  | remn (rd ra rb : Nat)
  /-- MIN (R141). -/
  | min (rd ra rb : Nat)
  /-- MAX (R141). -/
  | max (rd ra rb : Nat)
  /-- MINN (R141). -/
  | minn (rd ra rb : Nat)
  /-- MAXN (R141). -/
  | maxn (rd ra rb : Nat)
  /-- CLZ (R144). -/
  | clz (rd ra : Nat)
  /-- CTZ (R144). -/
  | ctz (rd ra : Nat)
  /-- POPC (R144). -/
  | popc (rd ra : Nat)
  /-- BSWAP (R144). -/
  | bswap (rd ra : Nat)
  /-- BEXT (R145). -/
  | bext (rd ra rb : Nat)
  /-- BINS (R145). -/
  | bins (rd ra rb : Nat)
  /-- SEL (R146). -/
  | sel (n rd ra rb : Nat)
  /-- CMP (R146). -/
  | cmp (c rd ra rb : Nat)
  /-- CMPQ (R146). -/
  | cmpq (c qd ra rb : Nat)
  /-- SEWMA (R148). -/
  | sewma (rd ra rb : Nat)
  /-- FADD (R150). -/
  | fadd (rm p rd ra rb : Nat)
  /-- FSUB (R150). -/
  | fsub (rm p rd ra rb : Nat)
  /-- FMUL (R150). -/
  | fmul (rm p rd ra rb : Nat)
  /-- FFMA (R150). -/
  | ffma (rm p rd ra rb : Nat)
  /-- FDIV (R150). -/
  | fdiv (rm p rd ra rb : Nat)
  /-- FSQRT (R150). -/
  | fsqrt (rm p rd ra : Nat)
  /-- FMIN (R151). -/
  | fmin (p rd ra rb : Nat)
  /-- FMAX (R151). -/
  | fmax (p rd ra rb : Nat)
  /-- FCMPQ (R152). -/
  | fcmpq (cc p qd ra rb : Nat)
  /-- FCVT (R153). -/
  | fcvt (rm code rd ra : Nat)
  /-- FCLASS (R154). -/
  | fclass (p rd ra : Nat)
  /-- FRCP (R150). -/
  | frcp (rm p rd ra : Nat)
  /-- ADDI (R147). -/
  | addi (rd ra imm : Nat)
  /-- ANDI (R147). -/
  | andi (rd ra imm : Nat)
  /-- ORI (R147). -/
  | ori (rd ra imm : Nat)
  /-- XORI (R147). -/
  | xori (rd ra imm : Nat)
  /-- SHLI (R147). -/
  | shli (rd ra n : Nat)
  /-- SHRI (R147). -/
  | shri (rd ra n : Nat)
  /-- SARI (R147). -/
  | sari (rd ra n : Nat)
  /-- CMPQI (R147). -/
  | cmpqi (c qd ra imm : Nat)
  /-- LUI (R147). -/
  | lui (rd imm : Nat)
  /-- ADDPC (R147). -/
  | addpc (rd imm : Nat)
  /-- PBR (R82). -/
  | pbr (b off : Nat)
  /-- PBRX_LOAD (R82). -/
  | pbrxLoad (b ra : Nat)
  /-- PBRX_READ (R82). -/
  | pbrxRead (rd b : Nat)
  /-- BR (R83). -/
  | br (b q neg : Nat)
  /-- CALL (R83). -/
  | call (b q neg : Nat)
  /-- RET (R83). -/
  | ret (q neg : Nat)
  /-- LOOPX (R88). -/
  | loopx (lc q neg : Nat)
  /-- CWTLD (R93). -/
  | cwtld (ra rb : Nat)
  /-- CWTCLR (R94). -/
  | cwtclr (ra : Nat)
  /-- QOP (R89). -/
  | qop (f qd qa qb : Nat)
  /-- LOOP (R86). -/
  | loop (lc ra imm : Nat)
  /-- LD (R259). -/
  | ld (rd ra sz sp hint off : Nat)
  /-- ST (R259). -/
  | st (rd ra sz sp hint off : Nat)
  /-- LDLAST (R256). -/
  | ldlast (rd ra sz off : Nat)
  /-- LDA (R261). -/
  | lda (rd ra sz off : Nat)
  /-- STL (R261). -/
  | stl (rd ra sz off : Nat)
  /-- AADD (R263). -/
  | aadd (w ord rd ra rb : Nat)
  /-- AMIN (R263). -/
  | amin (w ord rd ra rb : Nat)
  /-- AMAX (R263). -/
  | amax (w ord rd ra rb : Nat)
  /-- AMINN (R263). -/
  | aminn (w ord rd ra rb : Nat)
  /-- AMAXN (R263). -/
  | amaxn (w ord rd ra rb : Nat)
  /-- AAND (R263). -/
  | aand (w ord rd ra rb : Nat)
  /-- AOR (R263). -/
  | aor (w ord rd ra rb : Nat)
  /-- AXOR (R263). -/
  | axor (w ord rd ra rb : Nat)
  /-- ASWAP (R263). -/
  | aswap (w ord rd ra rb : Nat)
  /-- ACAS (R263). -/
  | acas (w ord rd ra rb : Nat)
  /-- AFADD (R264). -/
  | afadd (w ord rd ra rb : Nat)
  /-- FENCE_FULL (R267). -/
  | fenceFull (scope : Nat)
  /-- FENCE_REL (R267). -/
  | fenceRel (scope : Nat)
  /-- FENCE_ACQ (R267). -/
  | fenceAcq (scope : Nat)
  /-- CLEAN (R268). -/
  | clean (ra rb : Nat)
  /-- INVAL (R268). -/
  | inval (ra rb : Nat)
  /-- PHCFG (R272). -/
  | phcfg (h ra spm : Nat)
  /-- PHQRY (R273). -/
  | phqry (rd h f : Nat)
  /-- ESET (R316). -/
  | eset (eng k ra rb : Nat)
  /-- EGO_COPY (R317). -/
  | egoCopy (rd : Nat)
  /-- EGO_GATHER (R317). -/
  | egoGather (rd : Nat)
  /-- EGO_SCATTER (R317). -/
  | egoScatter (rd : Nat)
  /-- EGO_TRACK (R324). -/
  | egoTrack (rd : Nat)
  /-- EGO_TRAJ (R366). -/
  | egoTraj (rd : Nat)
  /-- EGO_SINK (R368). -/
  | egoSink (rd : Nat)
  /-- EGO_NMRED (R343). -/
  | egoNmred (rd : Nat)
  /-- EGO_PORT (R338). -/
  | egoPort (rd : Nat)
  /-- ESTAT (R320). -/
  | estat (rd rb : Nat)
  /-- EWAIT (R320). -/
  | ewait (rd rb : Nat)
  /-- ECANCEL (R321). -/
  | ecancel (rd rb : Nat)
  /-- MSHAPE_LOAD (R230). -/
  | mshapeLoad (sh ra spm : Nat)
  /-- MSHAPE_WORD (R230). -/
  | mshapeWord (sh ra f : Nat)
  /-- MSHQ (R231). -/
  | mshq (rd sh f : Nat)
  /-- MGEO (R232). -/
  | mgeo (rd c : Nat)
  /-- MACCSAVE (R234). -/
  | maccsave (acc ra spm : Nat)
  /-- MACCLOAD (R235). -/
  | maccload (acc ra spm : Nat)
  /-- MSTAT (R236). -/
  | mstat (rd ra sl : Nat)
  /-- MSTAT_RESET (R236). -/
  | mstatReset (rd : Nat)
  /-- CNTINC (R328). -/
  | cntinc (rd ra rb : Nat)
  /-- CNTWAIT (R328). -/
  | cntwait (rd ra rb : Nat)
  /-- CNTRD (R328). -/
  | cntrd (rd ra : Nat)
  /-- CNTSET (R328). -/
  | cntset (ra rb : Nat)
  /-- OCSET (R349). -/
  | ocset (rd ra rb : Nat)
  /-- TOPOQ (R350). -/
  | topoq (rd ra sl : Nat)
  /-- FWSET (R351). -/
  | fwset (ra rb : Nat)
  /-- FWQ (R352). -/
  | fwq (rd ra sl : Nat)
  /-- VPUB_STAGE (R358). -/
  | vpubStage (ra rb : Nat)
  /-- VPUB (R359). -/
  | vpub (rd ra : Nat)
  /-- VPUB_F (R360). -/
  | vpubF (rd ra rb : Nat)
  /-- VADOPT_SEQ (R361). -/
  | vadoptSeq (rd ra : Nat)
  /-- VADOPT_STEP (R361). -/
  | vadoptStep (rd ra : Nat)
  /-- VPIN (R362). -/
  | vpin (rd ra rb : Nat)
  /-- VUNPIN (R363). -/
  | vunpin (ra : Nat)
  /-- VQRY (R364). -/
  | vqry (rd ra sl : Nat)
  /-- TSPAWN (R390). -/
  | tspawn (rd ra : Nat)
  /-- TWAIT (R391). -/
  | twait (rd ra : Nat)
  /-- TKILL_KILL (R396). -/
  | tkillKill (ra : Nat)
  /-- TKILL_HALT (R396). -/
  | tkillHalt (ra : Nat)
  /-- TSELF (R391). -/
  | tself (rd sl : Nat)
  /-- DBAR (R394). -/
  | dbar (rd ra : Nat)
  /-- DJOIN (R392). -/
  | djoin (rd ra : Nat)
  /-- DJOIN_NEW (R392). -/
  | djoinNew (rd ra rb : Nat)
  /-- DLEAVE (R392). -/
  | dleave (rd ra : Nat)
  /-- DEVICT (R393). -/
  | devict (rd ra rb : Nat)
  /-- DPHASE (R395). -/
  | dphase (rd ra sl : Nat)
  /-- SPEC (R420). -/
  | spec (b ra rb : Nat)
  /-- SCOMMIT (R427). -/
  | scommit (rd : Nat)
  /-- SSTAT (R429). -/
  | sstat (rd sl : Nat)
  /-- YIELDPT (R408). -/
  | yieldpt (k : Nat)
  /-- MFSR (R463). -/
  | mfsr (r num : Nat)
  /-- MTSR (R463). -/
  | mtsr (r num : Nat)
  /-- MTSR_FMT (R29). -/
  | mtsrFmt (rs : Nat)
  /-- MTSR_TIMER (R472). -/
  | mtsrTimer (rs : Nat)
  /-- MTSR_TRAPPC (R465). -/
  | mtsrTrappc (rs : Nat)
  /-- REPARTITION (R417). -/
  | repartition (rs k : Nat)
  /-- PREEMPT (R406). -/
  | preempt (rs : Nat)
  /-- VSEALDROP_CLEAR (R470). -/
  | vsealdropClear (rs : Nat)
  /-- BOOTOK (R478). -/
  | bootok (rs : Nat)
  /-- RESUMETASK (R461). -/
  | resumetask (rs : Nat)
  /-- TRAP (R464). -/
  | trap (code : Nat)
  /-- TLBINV_PAGE (R466). -/
  | tlbinvPage (ra rb : Nat)
  /-- TLBINV_ASID (R466); `ra` names the register the form does not use, s0 where the field is 0. A k = 2 word that names a register
  other than s0 has no row of its own in the opcode table and stands here too, as `ra` + 64. -/
  | tlbinvAsid (ra rb : Nat)
  /-- TNOISE (R467). -/
  | tnoise (rd : Nat)
  /-- BIND (R468). -/
  | bind (ra rb : Nat)
  /-- WFE (R469). -/
  | wfe (ra : Nat)
  /-- CHKQ (R500). -/
  | chkq (ra rb : Nat)
  /-- CHKQ_Q (R500). -/
  | chkqQ (qa qb : Nat)
  /-- QUARQ (R501). -/
  | quarq (rd ra sl : Nat)
  /-- QUARQ_QUARANTINE (R501). -/
  | quarqQuarantine (rd ra : Nat)
  /-- QUARQ_CLEAR (R501). -/
  | quarqClear (rd ra : Nat)
  /-- VADD (R162). -/
  | vadd (v : Nat) (f : VF) (x : BCtx)
  /-- VSUB (R162). -/
  | vsub (v : Nat) (f : VF) (x : BCtx)
  /-- VMUL (R162). -/
  | vmul (v : Nat) (f : VF) (x : BCtx)
  /-- VMULH (R162). -/
  | vmulh (v : Nat) (f : VF) (x : BCtx)
  /-- VMAD (R162). -/
  | vmad (v : Nat) (f : VF) (x : BCtx)
  /-- VMIN (R162). -/
  | vmin (v : Nat) (f : VF) (x : BCtx)
  /-- VMAX (R162). -/
  | vmax (v : Nat) (f : VF) (x : BCtx)
  /-- VABS (R163). -/
  | vabs (v : Nat) (f : VF) (x : BCtx)
  /-- VNEG (R163). -/
  | vneg (v : Nat) (f : VF) (x : BCtx)
  /-- VAND (R162). -/
  | vand (v : Nat) (f : VF) (x : BCtx)
  /-- VOR (R162). -/
  | vor (v : Nat) (f : VF) (x : BCtx)
  /-- VXOR (R162). -/
  | vxor (v : Nat) (f : VF) (x : BCtx)
  /-- VNOT (R162). -/
  | vnot (v : Nat) (f : VF) (x : BCtx)
  /-- VSHL (R164). -/
  | vshl (v : Nat) (f : VF) (x : BCtx)
  /-- VSHR (R164). -/
  | vshr (v : Nat) (f : VF) (x : BCtx)
  /-- VSAR (R164). -/
  | vsar (v : Nat) (f : VF) (x : BCtx)
  /-- VCMP (R165). -/
  | vcmp (v : Nat) (f : VF) (x : BCtx)
  /-- VSEL (R166). -/
  | vsel (v : Nat) (f : VF) (x : BCtx)
  /-- VLI (R162). -/
  | vli (v : Nat) (f : VF) (x : BCtx)
  /-- VMOV (R162). -/
  | vmov (v : Nat) (f : VF) (x : BCtx)
  /-- VFADD (R168). -/
  | vfadd (v : Nat) (f : VF) (x : BCtx)
  /-- VFSUB (R168). -/
  | vfsub (v : Nat) (f : VF) (x : BCtx)
  /-- VFMUL (R168). -/
  | vfmul (v : Nat) (f : VF) (x : BCtx)
  /-- VFMA (R168). -/
  | vfma (v : Nat) (f : VF) (x : BCtx)
  /-- VFMS (R168). -/
  | vfms (v : Nat) (f : VF) (x : BCtx)
  /-- VFNMA (R168). -/
  | vfnma (v : Nat) (f : VF) (x : BCtx)
  /-- VFMIN (R170). -/
  | vfmin (v : Nat) (f : VF) (x : BCtx)
  /-- VFMAX (R170). -/
  | vfmax (v : Nat) (f : VF) (x : BCtx)
  /-- VFABS (R170). -/
  | vfabs (v : Nat) (f : VF) (x : BCtx)
  /-- VFNEG (R170). -/
  | vfneg (v : Nat) (f : VF) (x : BCtx)
  /-- VFDIV (R168). -/
  | vfdiv (v : Nat) (f : VF) (x : BCtx)
  /-- VFSQRT (R168). -/
  | vfsqrt (v : Nat) (f : VF) (x : BCtx)
  /-- VFRCP (R169). -/
  | vfrcp (v : Nat) (f : VF) (x : BCtx)
  /-- VFRSQ (R169). -/
  | vfrsq (v : Nat) (f : VF) (x : BCtx)
  /-- VFEXP2 (R169). -/
  | vfexp2 (v : Nat) (f : VF) (x : BCtx)
  /-- VFLOG2 (R169). -/
  | vflog2 (v : Nat) (f : VF) (x : BCtx)
  /-- VFCMP (R171). -/
  | vfcmp (v : Nat) (f : VF) (x : BCtx)
  /-- VFCVT (R172). -/
  | vfcvt (v : Nat) (f : VF) (x : BCtx)
  /-- VICVT (R173). -/
  | vicvt (v : Nat) (f : VF) (x : BCtx)
  /-- VNARROW (R174). -/
  | vnarrow (v : Nat) (f : VF) (x : BCtx)
  /-- VWIDEN (R175). -/
  | vwiden (v : Nat) (f : VF) (x : BCtx)
  /-- VACC (R177). -/
  | vacc (v : Nat) (f : VF) (x : BCtx)
  /-- VNORM (R177). -/
  | vnorm (v : Nat) (f : VF) (x : BCtx)
  /-- VPERM (R185). -/
  | vperm (v : Nat) (f : VF) (x : BCtx)
  /-- VBCAST (R185). -/
  | vbcast (v : Nat) (f : VF) (x : BCtx)
  /-- VSLIDE (R185). -/
  | vslide (v : Nat) (f : VF) (x : BCtx)
  /-- VZIP (R185). -/
  | vzip (v : Nat) (f : VF) (x : BCtx)
  /-- VUNZIP (R185). -/
  | vunzip (v : Nat) (f : VF) (x : BCtx)
  /-- VINS (R185). -/
  | vins (v : Nat) (f : VF) (x : BCtx)
  /-- VEXT (R185). -/
  | vext (v : Nat) (f : VF) (x : BCtx)
  /-- VCOMPRESS (R189). -/
  | vcompress (v : Nat) (f : VF) (x : BCtx)
  /-- VREDADD_I (R186). -/
  | vredaddI (v : Nat) (f : VF) (x : BCtx)
  /-- VREDMAX_I (R186). -/
  | vredmaxI (v : Nat) (f : VF) (x : BCtx)
  /-- VREDMIN_I (R186). -/
  | vredminI (v : Nat) (f : VF) (x : BCtx)
  /-- VARGMAX_I (R187). -/
  | vargmaxI (v : Nat) (f : VF) (x : BCtx)
  /-- VSCAN_I (R188). -/
  | vscanI (v : Nat) (f : VF) (x : BCtx)
  /-- VREDADD_F (R186). -/
  | vredaddF (v : Nat) (f : VF) (x : BCtx)
  /-- VREDMAX_F (R186). -/
  | vredmaxF (v : Nat) (f : VF) (x : BCtx)
  /-- VREDMIN_F (R186). -/
  | vredminF (v : Nat) (f : VF) (x : BCtx)
  /-- VARGMAX_F (R187). -/
  | vargmaxF (v : Nat) (f : VF) (x : BCtx)
  /-- VSCAN_F (R188). -/
  | vscanF (v : Nat) (f : VF) (x : BCtx)
  /-- PAND (R190). -/
  | pand (v : Nat) (f : VF) (x : BCtx)
  /-- POR (R190). -/
  | por (v : Nat) (f : VF) (x : BCtx)
  /-- PXOR (R190). -/
  | pxor (v : Nat) (f : VF) (x : BCtx)
  /-- PNOT (R190). -/
  | pnot (v : Nat) (f : VF) (x : BCtx)
  /-- PFIRST (R190). -/
  | pfirst (v : Nat) (f : VF) (x : BCtx)
  /-- PPOP (R190). -/
  | ppop (v : Nat) (f : VF) (x : BCtx)
  /-- PCNT (R190). -/
  | pcnt (v : Nat) (f : VF) (x : BCtx)
  /-- VRAND (R196). -/
  | vrand (v : Nat) (f : VF) (x : BCtx)
  /-- VRKEY (R196). -/
  | vrkey (v : Nat) (f : VF) (x : BCtx)
  /-- VRSKIP (R196). -/
  | vrskip (v : Nat) (f : VF) (x : BCtx)
  /-- VRSAVE (R196). -/
  | vrsave (v : Nat) (f : VF) (x : BCtx)
  /-- VCHK (R191). -/
  | vchk (v : Nat) (f : VF) (x : BCtx)
  /-- VLD (R276). -/
  | vld (f : LF) (x : BCtx)
  /-- VST (R276). -/
  | vst (f : LF) (x : BCtx)
  /-- VLDFF (R277). -/
  | vldff (f : LF) (x : BCtx)
  /-- VLDX (R278). -/
  | vldx (f : LF) (x : BCtx)
  /-- VSTX (R278). -/
  | vstx (f : LF) (x : BCtx)
  /-- VLDW (R279). -/
  | vldw (f : LF) (x : BCtx)
  /-- VSTW (R279). -/
  | vstw (f : LF) (x : BCtx)
  /-- PHPOP (R280). -/
  | phpop (f : LF) (x : BCtx)
  /-- PHPUSH (R280). -/
  | phpush (f : LF) (x : BCtx)
  /-- AINC (R281). -/
  | ainc (f : LF) (x : BCtx)
  /-- ASET (R281). -/
  | aset (f : LF) (x : BCtx)
  /-- NOP (R90). -/
  | nop
  /-- END (R91). -/
  | endTask
  /-- CLEAN_ALL (R268). -/
  | cleanAll
  /-- INVAL_ALL (R268). -/
  | invalAll
  /-- YIELD (R391). -/
  | yield
  /-- SABORT (R428). -/
  | sabort
  /-- SYSRET_RESUME (R465). -/
  | sysretResume
  /-- SYSRET_SUSPEND (R465). -/
  | sysretSuspend
  /-- SYSRET_KILL (R465). -/
  | sysretKill
  /-- SYNC (R96). -/
  | sync
  /-- SEG (R97). -/
  | seg
  /-- RDV (R98). -/
  | rdv
  /-- FMTW (R99). -/
  | fmtw
  /-- PHA (R100). -/
  | pha
  /-- CHK (R101). -/
  | chk
  /-- TRC (R102). -/
  | trc
  /-- MNOP (R222). -/
  | mnop
  /-- MWL (R223). -/
  | mwl
  /-- MPUSH (R224). -/
  | mpush
  /-- MSWAP (R222). -/
  | mswap
  /-- MDRAIN (R225). -/
  | mdrain
  /-- MCLR (R226). -/
  | mclr
  /-- MCHK (R227). -/
  | mchk
  /-- MNORM (R226). -/
  | mnorm
  /-- XMV (R103). -/
  | xmv
  /-- XTS (R103). -/
  | xts
  /-- XFS (R103). -/
  | xfs
  /-- XTA (R103). -/
  | xta
  /-- XFA (R103). -/
  | xfa
  /-- XPC (R103). -/
  | xpc
  /-- TLBINV_ALL (R466), both registers s0. -/
  | tlbinvAll
  /-- TRAP_ENTRY (R456). -/
  | trapEntry
  /-- TIMER_EXPIRY (R472). -/
  | timerExpiry
  /-- SPEC_ABORT (R426). -/
  | specAbort
  /-- REWIND (R486). -/
  | rewind
  /-- SCORE_DECAY (R491). -/
  | scoreDecay
  /-- SCRUB (R482). -/
  | scrub
  /-- L1_EVICTION (R253). -/
  | l1Eviction
  /-- EPOCH_TICK (R298). -/
  | epochTick
  /-- TAG_PATROL (R303). -/
  | tagPatrol
  /-- WINDOW_BEAT (R245). -/
  | windowBeat
  /-- JOB_START (R310). -/
  | jobStart
  /-- JOB_END (R318). -/
  | jobEnd
  /-- ARMPUT_FIRE (R342). -/
  | armputFire
  /-- PUT_ARRIVAL (R335). -/
  | putArrival
  /-- PUTADD_ARRIVAL (R344). -/
  | putaddArrival
  /-- GET_REQUEST_ARRIVAL (R505). -/
  | getRequestArrival
  /-- DATA_RESPONSE_ARRIVAL (R339). -/
  | dataResponseArrival
  /-- ACKNOWLEDGEMENT_ARRIVAL (R340). -/
  | acknowledgementArrival
  /-- MOVED_RESPONSE (R351). -/
  | movedResponse
  /-- REFUSAL_RESPONSE (R341). -/
  | refusalResponse
  /-- DOMAIN_NOTICE (R345). -/
  | domainNotice
  /-- WEIGHT_BROADCAST_ARRIVAL (R360). -/
  | weightBroadcastArrival
  /-- OCS_QUIESCE (R349). -/
  | ocsQuiesce
  /-- OCS_CONFIRMATION (R349). -/
  | ocsConfirmation
  /-- FEC_WINDOW_END (R494). -/
  | fecWindowEnd
  /-- UNCORRECTABLE_FLIT (R495). -/
  | uncorrectableFlit
  /-- PORT_UP (R495). -/
  | portUp
  /-- CORE_DISPATCH (R402). -/
  | coreDispatch
  /-- AGING_PROMOTION (R401). -/
  | agingPromotion
  /-- AFFINITY_HOLD_LAPSE (R403). -/
  | affinityHoldLapse
  /-- QUANTUM_EXPIRY (R407). -/
  | quantumExpiry
  /-- FORCED_FREEZE (R412). -/
  | forcedFreeze
  /-- BUDGET_PERIOD (R453). -/
  | budgetPeriod
  /-- LETTERBOX_DOORBELL (R475). -/
  | letterboxDoorbell
  /-- HOST_ACCESS (R252). -/
  | hostAccess
  /-- ENTROPY_HEALTH_FAILURE (R467). -/
  | entropyHealthFailure
  /-- COLD_RESET (R12). -/
  | coldReset
  /-- WARM_RESET (R479). -/
  | warmReset
  /-- BOOT_TIMEOUT (R479). -/
  | bootTimeout
  /-- MAILBOX_IMAGE (R479). -/
  | mailboxImage
  /-- MAILBOX_ATTESTATION (R480). -/
  | mailboxAttestation
  /-- MAILBOX_RESET (R479). -/
  | mailboxReset
  /-- L2_EVICTION (R249). -/
  | l2Eviction
  /-- HOST_SNOOP (R252). -/
  | hostSnoop
  /-- WFE_TIMEOUT (R469). -/
  | wfeTimeout
  /-- NOISE_SOURCE_RESTART (R467). -/
  | noiseSourceRestart
  /-- SWITCH_STALE_ANSWER (R349). -/
  | switchStaleAnswer
  /-- TARGET_ANSWER_ARRIVAL (R360). -/
  | targetAnswerArrival
  /-- BARRIER_NOTICE (R386). -/
  | barrierNotice
  /-- THROTTLING (R21). -/
  | throttling
deriving DecidableEq, Repr, Inhabited

end Sys2Proof
end

