-- ==== Sys2Proof/WellFormed.lean ====
section
/-! DEFINITION. Which instructions are well formed: the operand ranges of the stream words (R47, R48, R81 and the owning
chapters) and, for slot operations, every check that CWTLD makes of a slot field (R54 to R61, R118, R160, R161, R176, R182,
R195, R275). The C, M and X operations and the events carry no operands; wfM and wfX check the fields they use, and CSlot.wf in Decode the
C slot's. -/

namespace Sys2Proof

/-- What one V operation accepts (R161): which of its four register fields it uses, which of those name a register of the
slot's own file and so take the bias (R62), the forms, and the element types; whether sat is accepted; the largest rnd. -/
structure VRow where
  uses : List Bool          -- vd, va, vb, vc
  bias : List Bool
  forms : List Nat
  types : List Nat
  sat : Bool
  rnd : Nat
deriving DecidableEq, Repr

namespace VRow
def ints : List Nat := [0, 1, 2, 4, 5, 6]
def signed : List Nat := [0, 1, 2]
def floats : List Nat := [2, 3, 4]
def allFloats : List Nat := [0, 1, 2, 3, 4]
def rsi : List Nat := [0, 1, 2]
/-- `vd va vb` operations. -/
def bin (types : List Nat) (sat : Bool) (rnd : Nat) : VRow :=
  { uses := [true, true, true, false], bias := [true, true, true, false], forms := rsi, types, sat, rnd }
/-- `vd va vb vc` operations. -/
def tri (types : List Nat) (sat : Bool) (rnd : Nat) : VRow :=
  { uses := [true, true, true, true], bias := [true, true, true, true], forms := rsi, types, sat, rnd }
/-- `vd va` operations, register form. -/
def un (types : List Nat) (sat : Bool) (rnd : Nat) : VRow :=
  { uses := [true, true, false, false], bias := [true, true, false, false], forms := [0], types, sat, rnd }
/-- Compares: vd is a predicate number and vc a condition, never biased. -/
def cmp (types : List Nat) : VRow :=
  { uses := [true, true, true, true], bias := [false, true, true, false], forms := rsi, types, sat := false, rnd := 0 }
/-- Predicate operations: no field is biased. -/
def prd (u : List Bool) (forms : List Nat) : VRow :=
  { uses := u, bias := [false, false, false, false], forms, types := ints, sat := false, rnd := 0 }
/-- Accumulator writers: vd names the accumulator. -/
def accw : VRow :=
  { uses := [true, true, false, false], bias := [false, true, false, false], forms := [0], types := floats, sat := false, rnd := 0 }

/-- The row of an op value; `none` for a reserved value (R56). -/
def of (op : Nat) : Option VRow :=
  match op with
  | 0x00 | 0x01 | 0x02 => some (bin ints true 0)
  | 0x03 => some (bin ints false 0)
  | 0x04 => some (tri ints true 0)
  | 0x05 | 0x06 => some (bin ints false 0)
  | 0x07 | 0x08 => some (un signed true 0)
  | 0x09 | 0x0A | 0x0B => some (bin ints false 0)
  | 0x0C => some (un ints false 0)
  | 0x0D => some (bin ints true 0)
  | 0x0E | 0x0F => some (bin ints false 0)
  | 0x10 => some (cmp ints)
  | 0x11 => some { tri ints false 0 with bias := [true, true, true, false] }
  | 0x12 => some { un ints false 0 with uses := [true, false, false, false], bias := [true, false, false, false], forms := [1] }
  | 0x13 => some { un ints false 0 with forms := [0, 2] }
  | 0x20 | 0x21 | 0x22 => some (bin floats true 3)
  | 0x23 | 0x24 | 0x25 => some (tri floats true 3)
  | 0x26 | 0x27 => some (bin floats false 0)
  | 0x28 | 0x29 => some (un allFloats false 0)
  | 0x2A => some (bin floats true 3)
  | 0x2B | 0x2D | 0x2F => some (un floats false 3)
  | 0x2C | 0x2E => some (un floats true 3)
  | 0x30 => some (cmp floats)
  | 0x31 => some (un allFloats true 3)
  | 0x32 => some (un ints true 3)
  | 0x33 => some { bin allFloats true 3 with forms := [0] }
  | 0x34 => some (un allFloats false 0)
  | 0x50 => some { bin ints false 0 with forms := [0] }
  | 0x51 => some { un ints false 0 with forms := [1, 2] }
  | 0x52 => some { un ints false 0 with uses := [true, true, false, true], bias := [true, true, false, true], forms := [1, 2] }
  | 0x53 | 0x54 => some { bin ints false 0 with forms := [0] }
  | 0x55 | 0x56 => some { un ints false 0 with forms := [1, 2] }
  | 0x57 => some (un ints false 0)
  | 0x58 => some (un ints true 0)
  | 0x59 | 0x5A | 0x5B => some (un ints false 0)
  | 0x5C => some (un ints true 0)
  | 0x60 | 0x64 => some (un floats true 2)
  | 0x61 | 0x62 | 0x63 => some (un floats false 0)
  | 0x70 | 0x71 | 0x72 => some (prd [true, true, true, false] [0])
  | 0x73 | 0x74 | 0x75 => some (prd [true, true, false, false] [0])
  | 0x76 => some (prd [true, false, false, false] [1, 2])
  | 0x80 | 0x83 => some { un [6] false 0 with uses := [true, false, false, false], bias := [true, false, false, false] }
  | 0x81 => some { un [6] false 0 with uses := [false, true, false, false], bias := [false, true, false, false] }
  | 0x82 => some { un [6] false 0 with uses := [false, true, false, false], bias := [false, true, false, false], forms := [0, 1, 2] }
  | 0x88 => some { bin ints false 0 with uses := [false, true, true, false], bias := [false, true, true, false], forms := [0] }
  | 0x90 | 0x91 => some accw
  | _ => none
end VRow

/-- Element size in bytes of a type code, in the integer column of R55. -/
def esizeI (ty : Nat) : Nat := match ty % 4 with | 0 => 1 | 1 => 2 | _ => 4
/-- Element size in bytes of a type code, in the floating column of R55. -/
def esizeF (ty : Nat) : Nat := match ty with | 0 | 1 => 1 | 2 | 3 => 2 | _ => 4

/-- Register width in bytes of the width field at gang width `g` (R40, R54). -/
def vbytes (g width : Nat) : Nat := match width with | 1 => 32 * g | 2 => 64 * g | 3 => 128 * g | _ => 0

/-- The limit on an immediate second source by integer element type (R160). -/
def immFitsI (ty imm : Nat) : Bool :=
  match ty with
  | 0 => imm < 128 || 0xFF80 <= imm
  | 4 => imm < 256
  | _ => true

/-- What imm16 may hold, by op and form (R54, R160, R172 to R176, R184, R190, R195). -/
def immOk (g op : Nat) (f : VF) : Bool :=
  let n := vbytes g f.width / esizeI f.ty
  match op with
  | 0x31 => f.imm < 16 && VRow.allFloats.contains (f.imm % 8)
  | 0x32 =>
    (match f.imm / 8 with
     | 0 => VRow.allFloats.contains (f.imm % 8) && f.rnd < 3
     | 1 => VRow.allFloats.contains (f.imm % 8)
     | 2 => VRow.ints.contains (f.imm % 8) && f.rnd == 0
     | _ => false)
  | 0x33 => (f.imm == 4 && (f.ty == 2 || f.ty == 3)) || ((f.imm == 2 || f.imm == 3) && (f.ty == 0 || f.ty == 1))
  | 0x34 =>
    (f.imm / 16 < 2 && f.imm / 8 % 2 == 0) &&
    ((f.ty == 4 && (f.imm % 8 == 2 || f.imm % 8 == 3)) || ((f.ty == 2 || f.ty == 3) && f.imm % 8 < 2))
  | 0x53 | 0x54 | 0x5C | 0x64 => f.imm < 2
  | 0x51 | 0x55 | 0x56 => if f.form == 1 then f.imm < n else f.imm < 64
  | 0x80 => f.imm < 16
  | 0x81 | 0x83 => f.imm < 5 && (f.imm < 4 || (f.pred == 0 && !f.zero))
  | 0x82 => f.form == 0 && f.imm == 0 || f.form == 1 || f.form == 2 && f.imm < 64
  | 0x90 | 0x91 => f.imm < 16384 && (f.imm / 128 % 32 + 1) * (vbytes g f.width / esizeF f.ty) <= 256 * g
  | _ =>
    match f.form with
    | 0 => f.imm == 0
    | 2 => f.imm < 64
    | _ =>
      if op == 0x52 || op == 0x76 then true
      else if op == 0x0D || op == 0x0E || op == 0x0F then f.imm < 8 * esizeI f.ty
      else if op < 0x20 then immFitsI f.ty f.imm
      else (if esizeF f.ty == 1 then f.imm < 256 else true)

/-- Fields that name a predicate, an accumulator or a condition are short (R165, R166, R171, R176, R182). -/
def shortOk (op : Nat) (f : VF) : Bool :=
  match op with
  | 0x10 | 0x30 => f.vd < 8 && f.vc < 8
  | 0x11 => f.vc < 8
  | 0x70 | 0x71 | 0x72 | 0x73 | 0x74 | 0x75 | 0x76 => f.vd < 8 && f.va < 8 && f.vb < 8
  | 0x90 | 0x91 => f.vd < 4
  | _ => true

/-- zero must be 0 in the reductions and in VCHK (R183, R191). -/
def zeroOk (op : Nat) (f : VF) : Bool :=
  match op with
  | 0x58 | 0x59 | 0x5A | 0x5B | 0x60 | 0x61 | 0x62 | 0x63 | 0x88 => !f.zero
  | _ => true

/-- The range of each V field (R54). -/
def VF.inRange (f : VF) : Bool :=
  f.form < 3 && f.rnd < 4 && f.imm < 65536 && f.vc < 32 && f.vb < 32 && f.va < 32 && f.vd < 32 && f.pred < 8 && f.ty < 8 &&
  0 < f.width && f.width < 4

/-- Every check of R54 to R56, R118 and R159 to R161 on a V operation that is not idle and not a duplicate. -/
def wfV (g op : Nat) (f : VF) : Bool :=
  match VRow.of op with
  | none => false
  | some r =>
    f.inRange && r.forms.contains f.form && r.types.contains f.ty && (r.sat || !f.sat) && f.rnd <= r.rnd &&
    (r.uses.getD 0 false || f.vd == 0) &&
    ((r.uses.getD 1 false && !(op == 0x13 && f.form == 2) && !(op == 0x82 && f.form != 0)) || f.va == 0) &&
    ((r.uses.getD 2 false && f.form == 0) || f.vb == 0) && (r.uses.getD 3 false || f.vc == 0) &&
    immOk g op f && shortOk op f && zeroOk op f

/-- The range of each L field (R58). -/
def LF.inRange (f : LF) : Bool :=
  f.hole < 16 && f.pred < 8 && f.off < 65536 && f.mode < 8 && f.areg < 16 && f.vreg < 32 && f.file < 2 && f.width < 4

/-- Every check of R59 and R275 on an L operation. -/
def wfL (op : Nat) (f : LF) : Bool :=
  f.inRange &&
  (match op with
   | 1 | 2 => f.mode < 3 && f.hole == 0 && f.width != 0
   | 3 => f.mode < 2 && f.hole == 0 && f.width != 0 && f.pred != 0
   | 4 | 5 => f.mode == 3 && f.hole == 0 && f.width != 0
   | 6 | 7 => f.mode == 4 && f.hole == 0 && f.width != 0
   | 8 | 9 => f.mode < 2 && f.width != 0
   | 10 | 11 => f.mode == 0 && f.width == 0 && f.hole == 0 && f.pred == 0 && f.vreg == 0 && f.file == 0
   | _ => false)

/-- Every check of R60 and R218 on an M operation. -/
def wfM (op : Nat) (f : MF) : Bool :=
  f.row < 128 && f.plane < 2 && f.shape < 16 && f.acc < 4 &&
  (match op with
   | 0 | 3 => f.row == 0 && f.plane == 0 && !f.accdis && !f.neg && f.shape == 0 && f.acc == 0
   | 1 => f.acc == 0 && !f.neg && !f.accdis
   | 2 => true
   | 4 => !f.neg && !f.accdis
   | 5 | 7 => f.shape == 0 && !f.neg && f.plane == 0 && (!f.accdis || f.row == 0)
   | 6 => f.shape == 0 && !f.neg && !f.accdis && f.plane == 0 && f.row == 0
   | _ => false)

/-- Every check of R61 on an X operation. -/
def wfX (op : Nat) (f : XF) : Bool :=
  f.a < 64 && f.b < 64 &&
  (match op with
   | 1 | 2 | 3 => true
   | 4 => f.a < 16
   | 5 => f.b < 16
   | 6 => f.b < 8 || (32 <= f.b && f.b < 40)
   | _ => false)

/-- The op value, slot, fields and context of a V operation. -/
def Instr.vParts (i : Instr) : Option (Nat × Nat × VF × BCtx) :=
  match i with
  | .vadd v f x => some (0x00, v, f, x)
  | .vsub v f x => some (0x01, v, f, x)
  | .vmul v f x => some (0x02, v, f, x)
  | .vmulh v f x => some (0x03, v, f, x)
  | .vmad v f x => some (0x04, v, f, x)
  | .vmin v f x => some (0x05, v, f, x)
  | .vmax v f x => some (0x06, v, f, x)
  | .vabs v f x => some (0x07, v, f, x)
  | .vneg v f x => some (0x08, v, f, x)
  | .vand v f x => some (0x09, v, f, x)
  | .vor v f x => some (0x0A, v, f, x)
  | .vxor v f x => some (0x0B, v, f, x)
  | .vnot v f x => some (0x0C, v, f, x)
  | .vshl v f x => some (0x0D, v, f, x)
  | .vshr v f x => some (0x0E, v, f, x)
  | .vsar v f x => some (0x0F, v, f, x)
  | .vcmp v f x => some (0x10, v, f, x)
  | .vsel v f x => some (0x11, v, f, x)
  | .vli v f x => some (0x12, v, f, x)
  | .vmov v f x => some (0x13, v, f, x)
  | .vfadd v f x => some (0x20, v, f, x)
  | .vfsub v f x => some (0x21, v, f, x)
  | .vfmul v f x => some (0x22, v, f, x)
  | .vfma v f x => some (0x23, v, f, x)
  | .vfms v f x => some (0x24, v, f, x)
  | .vfnma v f x => some (0x25, v, f, x)
  | .vfmin v f x => some (0x26, v, f, x)
  | .vfmax v f x => some (0x27, v, f, x)
  | .vfabs v f x => some (0x28, v, f, x)
  | .vfneg v f x => some (0x29, v, f, x)
  | .vfdiv v f x => some (0x2A, v, f, x)
  | .vfsqrt v f x => some (0x2B, v, f, x)
  | .vfrcp v f x => some (0x2C, v, f, x)
  | .vfrsq v f x => some (0x2D, v, f, x)
  | .vfexp2 v f x => some (0x2E, v, f, x)
  | .vflog2 v f x => some (0x2F, v, f, x)
  | .vfcmp v f x => some (0x30, v, f, x)
  | .vfcvt v f x => some (0x31, v, f, x)
  | .vicvt v f x => some (0x32, v, f, x)
  | .vnarrow v f x => some (0x33, v, f, x)
  | .vwiden v f x => some (0x34, v, f, x)
  | .vacc v f x => some (0x90, v, f, x)
  | .vnorm v f x => some (0x91, v, f, x)
  | .vperm v f x => some (0x50, v, f, x)
  | .vbcast v f x => some (0x51, v, f, x)
  | .vslide v f x => some (0x52, v, f, x)
  | .vzip v f x => some (0x53, v, f, x)
  | .vunzip v f x => some (0x54, v, f, x)
  | .vins v f x => some (0x55, v, f, x)
  | .vext v f x => some (0x56, v, f, x)
  | .vcompress v f x => some (0x57, v, f, x)
  | .vredaddI v f x => some (0x58, v, f, x)
  | .vredmaxI v f x => some (0x59, v, f, x)
  | .vredminI v f x => some (0x5A, v, f, x)
  | .vargmaxI v f x => some (0x5B, v, f, x)
  | .vscanI v f x => some (0x5C, v, f, x)
  | .vredaddF v f x => some (0x60, v, f, x)
  | .vredmaxF v f x => some (0x61, v, f, x)
  | .vredminF v f x => some (0x62, v, f, x)
  | .vargmaxF v f x => some (0x63, v, f, x)
  | .vscanF v f x => some (0x64, v, f, x)
  | .pand v f x => some (0x70, v, f, x)
  | .por v f x => some (0x71, v, f, x)
  | .pxor v f x => some (0x72, v, f, x)
  | .pnot v f x => some (0x73, v, f, x)
  | .pfirst v f x => some (0x74, v, f, x)
  | .ppop v f x => some (0x75, v, f, x)
  | .pcnt v f x => some (0x76, v, f, x)
  | .vrand v f x => some (0x80, v, f, x)
  | .vrkey v f x => some (0x81, v, f, x)
  | .vrskip v f x => some (0x82, v, f, x)
  | .vrsave v f x => some (0x83, v, f, x)
  | .vchk v f x => some (0x88, v, f, x)
  | _ => none

/-- The V operation of an op value (R56). -/
def Instr.ofV (op : Nat) (v : Nat) (f : VF) (x : BCtx) : Option Instr :=
  match op with
  | 0x00 => some (.vadd v f x)
  | 0x01 => some (.vsub v f x)
  | 0x02 => some (.vmul v f x)
  | 0x03 => some (.vmulh v f x)
  | 0x04 => some (.vmad v f x)
  | 0x05 => some (.vmin v f x)
  | 0x06 => some (.vmax v f x)
  | 0x07 => some (.vabs v f x)
  | 0x08 => some (.vneg v f x)
  | 0x09 => some (.vand v f x)
  | 0x0A => some (.vor v f x)
  | 0x0B => some (.vxor v f x)
  | 0x0C => some (.vnot v f x)
  | 0x0D => some (.vshl v f x)
  | 0x0E => some (.vshr v f x)
  | 0x0F => some (.vsar v f x)
  | 0x10 => some (.vcmp v f x)
  | 0x11 => some (.vsel v f x)
  | 0x12 => some (.vli v f x)
  | 0x13 => some (.vmov v f x)
  | 0x20 => some (.vfadd v f x)
  | 0x21 => some (.vfsub v f x)
  | 0x22 => some (.vfmul v f x)
  | 0x23 => some (.vfma v f x)
  | 0x24 => some (.vfms v f x)
  | 0x25 => some (.vfnma v f x)
  | 0x26 => some (.vfmin v f x)
  | 0x27 => some (.vfmax v f x)
  | 0x28 => some (.vfabs v f x)
  | 0x29 => some (.vfneg v f x)
  | 0x2A => some (.vfdiv v f x)
  | 0x2B => some (.vfsqrt v f x)
  | 0x2C => some (.vfrcp v f x)
  | 0x2D => some (.vfrsq v f x)
  | 0x2E => some (.vfexp2 v f x)
  | 0x2F => some (.vflog2 v f x)
  | 0x30 => some (.vfcmp v f x)
  | 0x31 => some (.vfcvt v f x)
  | 0x32 => some (.vicvt v f x)
  | 0x33 => some (.vnarrow v f x)
  | 0x34 => some (.vwiden v f x)
  | 0x90 => some (.vacc v f x)
  | 0x91 => some (.vnorm v f x)
  | 0x50 => some (.vperm v f x)
  | 0x51 => some (.vbcast v f x)
  | 0x52 => some (.vslide v f x)
  | 0x53 => some (.vzip v f x)
  | 0x54 => some (.vunzip v f x)
  | 0x55 => some (.vins v f x)
  | 0x56 => some (.vext v f x)
  | 0x57 => some (.vcompress v f x)
  | 0x58 => some (.vredaddI v f x)
  | 0x59 => some (.vredmaxI v f x)
  | 0x5A => some (.vredminI v f x)
  | 0x5B => some (.vargmaxI v f x)
  | 0x5C => some (.vscanI v f x)
  | 0x60 => some (.vredaddF v f x)
  | 0x61 => some (.vredmaxF v f x)
  | 0x62 => some (.vredminF v f x)
  | 0x63 => some (.vargmaxF v f x)
  | 0x64 => some (.vscanF v f x)
  | 0x70 => some (.pand v f x)
  | 0x71 => some (.por v f x)
  | 0x72 => some (.pxor v f x)
  | 0x73 => some (.pnot v f x)
  | 0x74 => some (.pfirst v f x)
  | 0x75 => some (.ppop v f x)
  | 0x76 => some (.pcnt v f x)
  | 0x80 => some (.vrand v f x)
  | 0x81 => some (.vrkey v f x)
  | 0x82 => some (.vrskip v f x)
  | 0x83 => some (.vrsave v f x)
  | 0x88 => some (.vchk v f x)
  | _ => none

/-- The op value, fields and context of an L operation. -/
def Instr.lParts (i : Instr) : Option (Nat × LF × BCtx) :=
  match i with
  | .vld f x => some (0x01, f, x)
  | .vst f x => some (0x02, f, x)
  | .vldff f x => some (0x03, f, x)
  | .vldx f x => some (0x04, f, x)
  | .vstx f x => some (0x05, f, x)
  | .vldw f x => some (0x06, f, x)
  | .vstw f x => some (0x07, f, x)
  | .phpop f x => some (0x08, f, x)
  | .phpush f x => some (0x09, f, x)
  | .ainc f x => some (0x0A, f, x)
  | .aset f x => some (0x0B, f, x)
  | _ => none

/-- The L operation of an op value (R59). -/
def Instr.ofL (op : Nat) (f : LF) (x : BCtx) : Option Instr :=
  match op with
  | 0x01 => some (.vld f x)
  | 0x02 => some (.vst f x)
  | 0x03 => some (.vldff f x)
  | 0x04 => some (.vldx f x)
  | 0x05 => some (.vstx f x)
  | 0x06 => some (.vldw f x)
  | 0x07 => some (.vstw f x)
  | 0x08 => some (.phpop f x)
  | 0x09 => some (.phpush f x)
  | 0x0A => some (.ainc f x)
  | 0x0B => some (.aset f x)
  | _ => none

/-- The M operation of an op value (R60). -/
def Instr.ofM (op : Nat) : Option Instr :=
  match op with
  | 0x00 => some .mnop
  | 0x01 => some .mwl
  | 0x02 => some .mpush
  | 0x03 => some .mswap
  | 0x04 => some .mdrain
  | 0x05 => some .mclr
  | 0x06 => some .mchk
  | 0x07 => some .mnorm
  | _ => none

/-- The X operation of an op value (R61). -/
def Instr.ofX (op : Nat) : Option Instr :=
  match op with
  | 0x01 => some .xmv
  | 0x02 => some .xts
  | 0x03 => some .xfs
  | 0x04 => some .xta
  | 0x05 => some .xfa
  | 0x06 => some .xpc
  | _ => none

/-- The system registers whose MTSR is a row of its own in the opcode table. -/
def specialMtsr (num : Nat) : Bool :=
  num == 0x001 || num == 0x024 || num == 0x081 || (0x100 <= num && num < 0x108) || num == 0x10E || num == 0x207 ||
  num == 0x213 || num == 0x214

/-- Well-formedness of an instruction at gang width `g` (which only immediate lane indices and VACC blocks read). -/
def Instr.wf (g : Nat) (i : Instr) : Bool :=
  match i with
  | .issueParcel entry bp bias => entry < 512 && bp < 4 && bias < 16
  | .add rd ra rb => rd < 64 && ra < 64 && rb < 64
  | .sub rd ra rb => rd < 64 && ra < 64 && rb < 64
  | .and rd ra rb => rd < 64 && ra < 64 && rb < 64
  | .or rd ra rb => rd < 64 && ra < 64 && rb < 64
  | .xor rd ra rb => rd < 64 && ra < 64 && rb < 64
  | .andn rd ra rb => rd < 64 && ra < 64 && rb < 64
  | .shl rd ra rb => rd < 64 && ra < 64 && rb < 64
  | .shr rd ra rb => rd < 64 && ra < 64 && rb < 64
  | .sar rd ra rb => rd < 64 && ra < 64 && rb < 64
  | .rol rd ra rb => rd < 64 && ra < 64 && rb < 64
  | .mul rd ra rb => rd < 64 && ra < 64 && rb < 64
  | .mulh rd ra rb => rd < 64 && ra < 64 && rb < 64
  | .mulhn rd ra rb => rd < 64 && ra < 64 && rb < 64
  | .div rd ra rb => rd < 64 && ra < 64 && rb < 64
  | .divn rd ra rb => rd < 64 && ra < 64 && rb < 64
  | .rem rd ra rb => rd < 64 && ra < 64 && rb < 64
  | .remn rd ra rb => rd < 64 && ra < 64 && rb < 64
  | .min rd ra rb => rd < 64 && ra < 64 && rb < 64
  | .max rd ra rb => rd < 64 && ra < 64 && rb < 64
  | .minn rd ra rb => rd < 64 && ra < 64 && rb < 64
  | .maxn rd ra rb => rd < 64 && ra < 64 && rb < 64
  | .clz rd ra => rd < 64 && ra < 64
  | .ctz rd ra => rd < 64 && ra < 64
  | .popc rd ra => rd < 64 && ra < 64
  | .bswap rd ra => rd < 64 && ra < 64
  | .bext rd ra rb => rd < 64 && ra < 64 && rb < 64
  | .bins rd ra rb => rd < 64 && ra < 64 && rb < 64
  | .sel n rd ra rb => n < 8 && rd < 64 && ra < 64 && rb < 64
  | .cmp c rd ra rb => c < 8 && rd < 64 && ra < 64 && rb < 64
  | .cmpq c qd ra rb => c < 8 && qd < 8 && ra < 64 && rb < 64
  | .sewma rd ra rb => rd < 64 && ra < 64 && rb < 64
  | .fadd rm p rd ra rb => rm < 3 && p < 2 && rd < 64 && ra < 64 && rb < 64
  | .fsub rm p rd ra rb => rm < 3 && p < 2 && rd < 64 && ra < 64 && rb < 64
  | .fmul rm p rd ra rb => rm < 3 && p < 2 && rd < 64 && ra < 64 && rb < 64
  | .ffma rm p rd ra rb => rm < 3 && p < 2 && rd < 64 && ra < 64 && rb < 64
  | .fdiv rm p rd ra rb => rm < 3 && p < 2 && rd < 64 && ra < 64 && rb < 64
  | .fsqrt rm p rd ra => rm < 3 && p < 2 && rd < 64 && ra < 64
  | .fmin p rd ra rb => p < 2 && rd < 64 && ra < 64 && rb < 64
  | .fmax p rd ra rb => p < 2 && rd < 64 && ra < 64 && rb < 64
  | .fcmpq cc p qd ra rb => cc < 4 && p < 2 && qd < 8 && ra < 64 && rb < 64
  | .fcvt rm code rd ra => rm < 3 && code < 10 && rd < 64 && ra < 64
  | .fclass p rd ra => p < 2 && rd < 64 && ra < 64
  | .frcp rm p rd ra => rm < 3 && p < 2 && rd < 64 && ra < 64
  | .addi rd ra imm => rd < 64 && ra < 64 && imm < 8192
  | .andi rd ra imm => rd < 64 && ra < 64 && imm < 8192
  | .ori rd ra imm => rd < 64 && ra < 64 && imm < 8192
  | .xori rd ra imm => rd < 64 && ra < 64 && imm < 8192
  | .shli rd ra n => rd < 64 && ra < 64 && n < 64
  | .shri rd ra n => rd < 64 && ra < 64 && n < 64
  | .sari rd ra n => rd < 64 && ra < 64 && n < 64
  | .cmpqi c qd ra imm => c < 8 && qd < 8 && ra < 64 && imm < 1024
  | .lui rd imm => rd < 64 && imm < 524288
  | .addpc rd imm => rd < 64 && imm < 524288
  | .pbr b off => b < 8 && off < 4194304
  | .nop => true
  | .pbrxLoad b ra => b < 8 && ra < 64
  | .pbrxRead rd b => rd < 64 && b < 8
  | .br b q neg => b < 8 && q < 8 && neg < 2
  | .call b q neg => b < 8 && q < 8 && neg < 2
  | .ret q neg => q < 8 && neg < 2
  | .loopx lc q neg => lc < 4 && q < 8 && neg < 2
  | .endTask => true
  | .cwtld ra rb => ra < 64 && rb < 64
  | .cwtclr ra => ra < 64
  | .qop f qd qa qb => f < 8 && qd < 8 && qa < 8 && qb < 8
  | .loop lc ra imm => lc < 4 && ra < 64 && imm < 8192 && 3 <= imm
  | .ld rd ra sz sp hint off => rd < 64 && ra < 64 && sz < 4 && sp < 2 && hint < 4 && off < 256
  | .st rd ra sz sp hint off => rd < 64 && ra < 64 && sz < 4 && sp < 2 && hint < 4 && off < 256
  | .ldlast rd ra sz off => rd < 64 && ra < 64 && sz < 4 && off < 256
  | .lda rd ra sz off => rd < 64 && ra < 64 && sz < 4 && off < 256
  | .stl rd ra sz off => rd < 64 && ra < 64 && sz < 4 && off < 256
  | .aadd w ord rd ra rb => w < 2 && ord < 4 && rd < 64 && ra < 64 && rb < 64
  | .amin w ord rd ra rb => w < 2 && ord < 4 && rd < 64 && ra < 64 && rb < 64
  | .amax w ord rd ra rb => w < 2 && ord < 4 && rd < 64 && ra < 64 && rb < 64
  | .aminn w ord rd ra rb => w < 2 && ord < 4 && rd < 64 && ra < 64 && rb < 64
  | .amaxn w ord rd ra rb => w < 2 && ord < 4 && rd < 64 && ra < 64 && rb < 64
  | .aand w ord rd ra rb => w < 2 && ord < 4 && rd < 64 && ra < 64 && rb < 64
  | .aor w ord rd ra rb => w < 2 && ord < 4 && rd < 64 && ra < 64 && rb < 64
  | .axor w ord rd ra rb => w < 2 && ord < 4 && rd < 64 && ra < 64 && rb < 64
  | .aswap w ord rd ra rb => w < 2 && ord < 4 && rd < 64 && ra < 64 && rb < 64
  | .acas w ord rd ra rb => w < 2 && ord < 4 && rd < 64 && ra < 64 && rb < 64
  | .afadd w ord rd ra rb => w < 2 && ord < 4 && rd < 64 && ra < 64 && rb < 64
  | .fenceFull scope => scope < 5
  | .fenceRel scope => scope < 5
  | .fenceAcq scope => scope < 5
  | .clean ra rb => ra < 64 && rb < 64
  | .cleanAll => true
  | .inval ra rb => ra < 64 && rb < 64
  | .invalAll => true
  | .phcfg h ra spm => h < 16 && ra < 64 && spm < 2
  | .phqry rd h f => rd < 64 && h < 16 && f < 4
  | .eset eng k ra rb => eng < 8 && k < 16 && ra < 64 && rb < 64
  | .egoCopy rd => rd < 64
  | .egoGather rd => rd < 64
  | .egoScatter rd => rd < 64
  | .egoTrack rd => rd < 64
  | .egoTraj rd => rd < 64
  | .egoSink rd => rd < 64
  | .egoNmred rd => rd < 64
  | .egoPort rd => rd < 64
  | .estat rd rb => rd < 64 && rb < 64
  | .ewait rd rb => rd < 64 && rb < 64
  | .ecancel rd rb => rd < 64 && rb < 64
  | .mshapeLoad sh ra spm => sh < 16 && ra < 64 && spm < 2
  | .mshapeWord sh ra f => sh < 16 && ra < 64 && f < 4
  | .mshq rd sh f => rd < 64 && sh < 16 && f < 4
  | .mgeo rd c => rd < 64 && c < 4
  | .maccsave acc ra spm => acc < 4 && ra < 64 && spm < 2
  | .maccload acc ra spm => acc < 4 && ra < 64 && spm < 2
  | .mstat rd ra sl => rd < 64 && ra < 64 && sl < 7 && sl != 5 && (sl != 0 && sl != 1 || ra == 0)
  | .mstatReset rd => rd < 64
  | .cntinc rd ra rb => rd < 64 && ra < 64 && rb < 64
  | .cntwait rd ra rb => rd < 64 && ra < 64 && rb < 64
  | .cntrd rd ra => rd < 64 && ra < 64
  | .cntset ra rb => ra < 64 && rb < 64
  | .ocset rd ra rb => rd < 64 && ra < 64 && rb < 64
  | .topoq rd ra sl => rd < 64 && ra < 64 && sl < 3 && (sl != 0 || ra == 0)
  | .fwset ra rb => ra < 64 && rb < 64
  | .fwq rd ra sl => rd < 64 && ra < 64 && sl < 3 && (sl == 1 || ra == 0)
  | .vpubStage ra rb => ra < 64 && rb < 64
  | .vpub rd ra => rd < 64 && ra < 64
  | .vpubF rd ra rb => rd < 64 && ra < 64 && rb < 64
  | .vadoptSeq rd ra => rd < 64 && ra < 64
  | .vadoptStep rd ra => rd < 64 && ra < 64
  | .vpin rd ra rb => rd < 64 && ra < 64 && rb < 64
  | .vunpin ra => ra < 64
  | .vqry rd ra sl => rd < 64 && ra < 64 && sl < 6
  | .tspawn rd ra => rd < 64 && ra < 64
  | .twait rd ra => rd < 64 && ra < 64
  | .yield => true
  | .tkillKill ra => ra < 64
  | .tkillHalt ra => ra < 64
  | .tself rd sl => rd < 64 && sl < 4
  | .dbar rd ra => rd < 64 && ra < 64
  | .djoin rd ra => rd < 64 && ra < 64
  | .djoinNew rd ra rb => rd < 64 && ra < 64 && rb < 64
  | .dleave rd ra => rd < 64 && ra < 64
  | .devict rd ra rb => rd < 64 && ra < 64 && rb < 64
  | .dphase rd ra sl => rd < 64 && ra < 64 && sl < 6
  | .spec b ra rb => b < 8 && ra < 64 && rb < 64
  | .scommit rd => rd < 64
  | .sabort => true
  | .sstat rd sl => rd < 64 && sl < 4
  | .yieldpt k => k < 4
  | .mfsr r num => r < 64 && num < 4096
  | .mtsr r num => r < 64 && num < 4096 && !specialMtsr num
  | .mtsrFmt rs => rs < 64
  | .mtsrTimer rs => rs < 64
  | .mtsrTrappc rs => rs < 64
  | .repartition rs k => rs < 64 && k < 8
  | .preempt rs => rs < 64
  | .vsealdropClear rs => rs < 64
  | .bootok rs => rs < 64
  | .resumetask rs => rs < 64
  | .trap code => code < 4096
  | .sysretResume => true
  | .sysretSuspend => true
  | .sysretKill => true
  | .tlbinvPage ra rb => ra < 64 && rb < 64
  | .tlbinvAsid ra rb => ra < 128 && rb < 64 && (ra ≠ 64 || rb ≠ 0)
  | .tlbinvAll => true
  | .tnoise rd => rd < 64
  | .bind ra rb => ra < 64 && rb < 64
  | .wfe ra => ra < 64
  | .chkq ra rb => ra < 64 && rb < 64
  | .chkqQ qa qb => qa < 8 && qb < 8
  | .quarq rd ra sl => rd < 64 && ra < 64 && sl < 6
  | .quarqQuarantine rd ra => rd < 64 && ra < 64
  | .quarqClear rd ra => rd < 64 && ra < 64
  | .vadd v f _ => v < 2 && wfV g 0x00 f
  | .vsub v f _ => v < 2 && wfV g 0x01 f
  | .vmul v f _ => v < 2 && wfV g 0x02 f
  | .vmulh v f _ => v < 2 && wfV g 0x03 f
  | .vmad v f _ => v < 2 && wfV g 0x04 f
  | .vmin v f _ => v < 2 && wfV g 0x05 f
  | .vmax v f _ => v < 2 && wfV g 0x06 f
  | .vabs v f _ => v < 2 && wfV g 0x07 f
  | .vneg v f _ => v < 2 && wfV g 0x08 f
  | .vand v f _ => v < 2 && wfV g 0x09 f
  | .vor v f _ => v < 2 && wfV g 0x0A f
  | .vxor v f _ => v < 2 && wfV g 0x0B f
  | .vnot v f _ => v < 2 && wfV g 0x0C f
  | .vshl v f _ => v < 2 && wfV g 0x0D f
  | .vshr v f _ => v < 2 && wfV g 0x0E f
  | .vsar v f _ => v < 2 && wfV g 0x0F f
  | .vcmp v f _ => v < 2 && wfV g 0x10 f
  | .vsel v f _ => v < 2 && wfV g 0x11 f
  | .vli v f _ => v < 2 && wfV g 0x12 f
  | .vmov v f _ => v < 2 && wfV g 0x13 f
  | .vfadd v f _ => v < 2 && wfV g 0x20 f
  | .vfsub v f _ => v < 2 && wfV g 0x21 f
  | .vfmul v f _ => v < 2 && wfV g 0x22 f
  | .vfma v f _ => v < 2 && wfV g 0x23 f
  | .vfms v f _ => v < 2 && wfV g 0x24 f
  | .vfnma v f _ => v < 2 && wfV g 0x25 f
  | .vfmin v f _ => v < 2 && wfV g 0x26 f
  | .vfmax v f _ => v < 2 && wfV g 0x27 f
  | .vfabs v f _ => v < 2 && wfV g 0x28 f
  | .vfneg v f _ => v < 2 && wfV g 0x29 f
  | .vfdiv v f _ => v < 2 && wfV g 0x2A f
  | .vfsqrt v f _ => v < 2 && wfV g 0x2B f
  | .vfrcp v f _ => v < 2 && wfV g 0x2C f
  | .vfrsq v f _ => v < 2 && wfV g 0x2D f
  | .vfexp2 v f _ => v < 2 && wfV g 0x2E f
  | .vflog2 v f _ => v < 2 && wfV g 0x2F f
  | .vfcmp v f _ => v < 2 && wfV g 0x30 f
  | .vfcvt v f _ => v < 2 && wfV g 0x31 f
  | .vicvt v f _ => v < 2 && wfV g 0x32 f
  | .vnarrow v f _ => v < 2 && wfV g 0x33 f
  | .vwiden v f _ => v < 2 && wfV g 0x34 f
  | .vacc v f _ => v < 2 && wfV g 0x90 f
  | .vnorm v f _ => v < 2 && wfV g 0x91 f
  | .vperm v f _ => v < 2 && wfV g 0x50 f
  | .vbcast v f _ => v < 2 && wfV g 0x51 f
  | .vslide v f _ => v < 2 && wfV g 0x52 f
  | .vzip v f _ => v < 2 && wfV g 0x53 f
  | .vunzip v f _ => v < 2 && wfV g 0x54 f
  | .vins v f _ => v < 2 && wfV g 0x55 f
  | .vext v f _ => v < 2 && wfV g 0x56 f
  | .vcompress v f _ => v < 2 && wfV g 0x57 f
  | .vredaddI v f _ => v < 2 && wfV g 0x58 f
  | .vredmaxI v f _ => v < 2 && wfV g 0x59 f
  | .vredminI v f _ => v < 2 && wfV g 0x5A f
  | .vargmaxI v f _ => v < 2 && wfV g 0x5B f
  | .vscanI v f _ => v < 2 && wfV g 0x5C f
  | .vredaddF v f _ => v < 2 && wfV g 0x60 f
  | .vredmaxF v f _ => v < 2 && wfV g 0x61 f
  | .vredminF v f _ => v < 2 && wfV g 0x62 f
  | .vargmaxF v f _ => v < 2 && wfV g 0x63 f
  | .vscanF v f _ => v < 2 && wfV g 0x64 f
  | .pand v f _ => v < 2 && wfV g 0x70 f
  | .por v f _ => v < 2 && wfV g 0x71 f
  | .pxor v f _ => v < 2 && wfV g 0x72 f
  | .pnot v f _ => v < 2 && wfV g 0x73 f
  | .pfirst v f _ => v < 2 && wfV g 0x74 f
  | .ppop v f _ => v < 2 && wfV g 0x75 f
  | .pcnt v f _ => v < 2 && wfV g 0x76 f
  | .vrand v f _ => v < 2 && wfV g 0x80 f
  | .vrkey v f _ => v < 2 && wfV g 0x81 f
  | .vrskip v f _ => v < 2 && wfV g 0x82 f
  | .vrsave v f _ => v < 2 && wfV g 0x83 f
  | .vchk v f _ => v < 2 && wfV g 0x88 f
  | .vld f _ => wfL 0x01 f
  | .vst f _ => wfL 0x02 f
  | .vldff f _ => wfL 0x03 f
  | .vldx f _ => wfL 0x04 f
  | .vstx f _ => wfL 0x05 f
  | .vldw f _ => wfL 0x06 f
  | .vstw f _ => wfL 0x07 f
  | .phpop f _ => wfL 0x08 f
  | .phpush f _ => wfL 0x09 f
  | .ainc f _ => wfL 0x0A f
  | .aset f _ => wfL 0x0B f
  | .sync => true
  | .seg => true
  | .rdv => true
  | .fmtw => true
  | .pha => true
  | .chk => true
  | .trc => true
  | .mnop => true
  | .mwl => true
  | .mpush => true
  | .mswap => true
  | .mdrain => true
  | .mclr => true
  | .mchk => true
  | .mnorm => true
  | .xmv => true
  | .xts => true
  | .xfs => true
  | .xta => true
  | .xfa => true
  | .xpc => true
  | .trapEntry => true
  | .timerExpiry => true
  | .specAbort => true
  | .rewind => true
  | .scoreDecay => true
  | .scrub => true
  | .l1Eviction => true
  | .epochTick => true
  | .tagPatrol => true
  | .windowBeat => true
  | .jobStart => true
  | .jobEnd => true
  | .armputFire => true
  | .putArrival => true
  | .putaddArrival => true
  | .getRequestArrival => true
  | .dataResponseArrival => true
  | .acknowledgementArrival => true
  | .movedResponse => true
  | .refusalResponse => true
  | .domainNotice => true
  | .weightBroadcastArrival => true
  | .ocsQuiesce => true
  | .ocsConfirmation => true
  | .fecWindowEnd => true
  | .uncorrectableFlit => true
  | .portUp => true
  | .coreDispatch => true
  | .agingPromotion => true
  | .affinityHoldLapse => true
  | .quantumExpiry => true
  | .forcedFreeze => true
  | .budgetPeriod => true
  | .letterboxDoorbell => true
  | .hostAccess => true
  | .entropyHealthFailure => true
  | .coldReset => true
  | .warmReset => true
  | .bootTimeout => true
  | .mailboxImage => true
  | .mailboxAttestation => true
  | .mailboxReset => true
  | .l2Eviction => true
  | .hostSnoop => true
  | .wfeTimeout => true
  | .noiseSourceRestart => true
  | .switchStaleAnswer => true
  | .targetAnswerArrival => true
  | .barrierNotice => true
  | .throttling => true

end Sys2Proof
end

