-- ==== Sys2Proof/Decode.lean ====
section
/-! DEFINITION. Decoding and encoding: issue parcels and scalar words (R43 to R50) and the slot fields of a CWT entry (R51 to
R61). Every decoder is total on any bits and rejects by name. Encodings are read with division and remainder, so that a
linear-arithmetic procedure can follow them. -/

namespace Sys2Proof

/-- Why an encoding is no instruction. Words raise IllegalInstruction for it, slot fields IllegalBundle. -/
inductive Reject where
  /-- a major opcode, fn, eng and fn pair, or slot op that nothing assigns (R50, R56, R59 to R61) -/
  | unassigned
  /-- a nonzero value in a field the instruction does not use (R48) -/
  | unusedField
  /-- a field value outside the range its instruction accepts (R47, R53 to R61) -/
  | fieldRange
  /-- fewer bytes than the instruction has -/
  | truncated
deriving DecidableEq, Repr

/-- Bits `hi` to `lo` of `w` (R1). -/
def bits (w hi lo : Nat) : Nat := w / 2 ^ lo % 2 ^ (hi + 1 - lo)

/-- The instruction, if its unused fields are zero (R48) and every field is in range (R47). -/
def used (zeros : Bool) (i : Instr) : Except Reject Instr :=
  if !zeros then .error .unusedField else if i.wf 1 then .ok i else .error .fieldRange

/-- An issue parcel (R44); the kind bit is bit 15. -/
def decodeParcel (p : Nat) : Except Reject Instr :=
  used true (.issueParcel (bits p 14 6) (bits p 5 4) (bits p 3 0))

/-- Major opcode 0x00: ADD SUB AND OR XOR ANDN SHL SHR SAR ROL. -/
def decodeMO00 (w : Nat) : Except Reject Instr :=
  let d := bits w 24 19
  let a := bits w 18 13
  let b := bits w 12 7
  let fn := bits w 6 0
  match fn with
  | 0x01 => used true (.add d a b)
  | 0x02 => used true (.sub d a b)
  | 0x03 => used true (.and d a b)
  | 0x04 => used true (.or d a b)
  | 0x05 => used true (.xor d a b)
  | 0x06 => used true (.andn d a b)
  | 0x07 => used true (.shl d a b)
  | 0x08 => used true (.shr d a b)
  | 0x09 => used true (.sar d a b)
  | 0x0A => used true (.rol d a b)
  | _ => .error .unassigned

/-- Major opcode 0x01: MUL MULH MULHN DIV DIVN REM REMN MIN MAX MINN MAXN. -/
def decodeMO01 (w : Nat) : Except Reject Instr :=
  let d := bits w 24 19
  let a := bits w 18 13
  let b := bits w 12 7
  let fn := bits w 6 0
  match fn with
  | 0x01 => used true (.mul d a b)
  | 0x02 => used true (.mulh d a b)
  | 0x03 => used true (.mulhn d a b)
  | 0x04 => used true (.div d a b)
  | 0x05 => used true (.divn d a b)
  | 0x06 => used true (.rem d a b)
  | 0x07 => used true (.remn d a b)
  | 0x08 => used true (.min d a b)
  | 0x09 => used true (.max d a b)
  | 0x0A => used true (.minn d a b)
  | 0x0B => used true (.maxn d a b)
  | _ => .error .unassigned

/-- Major opcode 0x02: CLZ CTZ POPC BSWAP BEXT BINS SEL CMP CMPQ SEWMA. -/
def decodeMO02 (w : Nat) : Except Reject Instr :=
  let d := bits w 24 19
  let a := bits w 18 13
  let b := bits w 12 7
  let fn := bits w 6 0
  match fn with
  | 0x01 => used (b == 0) (.clz d a)
  | 0x02 => used (b == 0) (.ctz d a)
  | 0x03 => used (b == 0) (.popc d a)
  | 0x04 => used (b == 0) (.bswap d a)
  | 0x05 => used true (.bext d a b)
  | 0x06 => used true (.bins d a b)
  | 0x40 => used true (.sewma d a b)
  | _ =>
    match bits w 6 3 with
    | 2 => used true (.sel (bits w 2 0) d a b)
    | 4 => used true (.cmp (bits w 2 0) d a b)
    | 6 => used true (.cmpq (bits w 2 0) d a b)
    | _ => .error .unassigned

/-- Major opcode 0x03: FADD FSUB FMUL FFMA FDIV FSQRT FMIN FMAX FCMPQ FCVT FCLASS FRCP. -/
def decodeMO03 (w : Nat) : Except Reject Instr :=
  let d := bits w 24 19
  let a := bits w 18 13
  let b := bits w 12 7
  match bits w 3 0 with
  | 1 => used true (.fadd (bits w 6 5) (bits w 4 4) d a b)
  | 2 => used true (.fsub (bits w 6 5) (bits w 4 4) d a b)
  | 3 => used true (.fmul (bits w 6 5) (bits w 4 4) d a b)
  | 4 => used true (.ffma (bits w 6 5) (bits w 4 4) d a b)
  | 5 => used true (.fdiv (bits w 6 5) (bits w 4 4) d a b)
  | 6 => used (b == 0) (.fsqrt (bits w 6 5) (bits w 4 4) d a)
  | 7 => used (bits w 6 5 == 0) (.fmin (bits w 4 4) d a b)
  | 8 => used (bits w 6 5 == 0) (.fmax (bits w 4 4) d a b)
  | 9 => used true (.fcmpq (bits w 6 5) (bits w 4 4) d a b)
  | 10 => used (bits w 4 4 == 0) (.fcvt (bits w 6 5) b d a)
  | 11 => used (b == 0 && bits w 6 5 == 0) (.fclass (bits w 4 4) d a)
  | 12 => used (b == 0) (.frcp (bits w 6 5) (bits w 4 4) d a)
  | _ => .error .unassigned

/-- Major opcode 0x04: ADDI. -/
def decodeMO04 (w : Nat) : Except Reject Instr :=
  let d := bits w 24 19
  let a := bits w 18 13
  used true (.addi d a (bits w 12 0))

/-- Major opcode 0x05: ANDI. -/
def decodeMO05 (w : Nat) : Except Reject Instr :=
  let d := bits w 24 19
  let a := bits w 18 13
  used true (.andi d a (bits w 12 0))

/-- Major opcode 0x06: ORI. -/
def decodeMO06 (w : Nat) : Except Reject Instr :=
  let d := bits w 24 19
  let a := bits w 18 13
  used true (.ori d a (bits w 12 0))

/-- Major opcode 0x07: XORI. -/
def decodeMO07 (w : Nat) : Except Reject Instr :=
  let d := bits w 24 19
  let a := bits w 18 13
  used true (.xori d a (bits w 12 0))

/-- Major opcode 0x08: SHLI SHRI SARI. -/
def decodeMO08 (w : Nat) : Except Reject Instr :=
  let d := bits w 24 19
  let a := bits w 18 13
  match bits w 12 6 with
  | 0 => used true (.shli d a (bits w 5 0))
  | 1 => used true (.shri d a (bits w 5 0))
  | 2 => used true (.sari d a (bits w 5 0))
  | _ => .error .unassigned

/-- Major opcode 0x09: CMPQI. -/
def decodeMO09 (w : Nat) : Except Reject Instr :=
  let d := bits w 24 19
  let a := bits w 18 13
  used true (.cmpqi (bits w 12 10) d a (bits w 9 0))

/-- Major opcode 0x0A: LUI. -/
def decodeMO0A (w : Nat) : Except Reject Instr :=
  let d := bits w 24 19
  used true (.lui d (bits w 18 0))

/-- Major opcode 0x0B: ADDPC. -/
def decodeMO0B (w : Nat) : Except Reject Instr :=
  let d := bits w 24 19
  used true (.addpc d (bits w 18 0))

/-- Major opcode 0x0C: PBR. -/
def decodeMO0C (w : Nat) : Except Reject Instr :=
  used true (.pbr (bits w 24 22) (bits w 21 0))

/-- Major opcode 0x0D: NOP PBRX_LOAD PBRX_READ BR CALL RET LOOPX END CWTLD CWTCLR QOP. -/
def decodeMO0D (w : Nat) : Except Reject Instr :=
  let d := bits w 24 19
  let a := bits w 18 13
  let b := bits w 12 7
  let fn := bits w 6 0
  match fn with
  | 0x01 => used (d == 0 && a == 0 && b == 0) (.nop)
  | 0x02 => if b == 0 then used true (.pbrxLoad d a) else if b == 1 then used true (.pbrxRead d a) else .error .unusedField
  | 0x03 => used (bits w 12 8 == 0) (.br d a (bits w 7 7))
  | 0x04 => used (bits w 12 8 == 0) (.call d a (bits w 7 7))
  | 0x05 => used (d == 0 && bits w 12 8 == 0) (.ret a (bits w 7 7))
  | 0x06 => used (bits w 12 8 == 0) (.loopx d a (bits w 7 7))
  | 0x07 => used (d == 0 && a == 0 && b == 0) (.endTask)
  | 0x08 => used (d == 0) (.cwtld a b)
  | 0x09 => used (d == 0 && b == 0) (.cwtclr a)
  | _ =>
    match bits w 6 3 with
    | 2 => used true (.qop (bits w 2 0) d a b)
    | _ => .error .unassigned

/-- Major opcode 0x0E: LOOP. -/
def decodeMO0E (w : Nat) : Except Reject Instr :=
  let d := bits w 24 19
  let a := bits w 18 13
  used true (.loop d a (bits w 12 0))

/-- Major opcode 0x10: LD. -/
def decodeMO10 (w : Nat) : Except Reject Instr :=
  let d := bits w 24 19
  let a := bits w 18 13
  used true (.ld d a (bits w 12 11) (bits w 10 10) (bits w 9 8) (bits w 7 0))

/-- Major opcode 0x11: ST. -/
def decodeMO11 (w : Nat) : Except Reject Instr :=
  let d := bits w 24 19
  let a := bits w 18 13
  used true (.st d a (bits w 12 11) (bits w 10 10) (bits w 9 8) (bits w 7 0))

/-- Major opcode 0x12: LDLAST. -/
def decodeMO12 (w : Nat) : Except Reject Instr :=
  let d := bits w 24 19
  let a := bits w 18 13
  used (bits w 10 8 == 0) (.ldlast d a (bits w 12 11) (bits w 7 0))

/-- Major opcode 0x13: LDA. -/
def decodeMO13 (w : Nat) : Except Reject Instr :=
  let d := bits w 24 19
  let a := bits w 18 13
  used (bits w 10 8 == 0) (.lda d a (bits w 12 11) (bits w 7 0))

/-- Major opcode 0x14: STL. -/
def decodeMO14 (w : Nat) : Except Reject Instr :=
  let d := bits w 24 19
  let a := bits w 18 13
  used (bits w 10 8 == 0) (.stl d a (bits w 12 11) (bits w 7 0))

/-- Major opcode 0x15: AADD AMIN AMAX AMINN AMAXN AAND AOR AXOR ASWAP ACAS AFADD. -/
def decodeMO15 (w : Nat) : Except Reject Instr :=
  let d := bits w 24 19
  let a := bits w 18 13
  let b := bits w 12 7
  match bits w 6 3 with
  | 1 => used true (.aadd (bits w 2 2) (bits w 1 0) d a b)
  | 2 => used true (.amin (bits w 2 2) (bits w 1 0) d a b)
  | 3 => used true (.amax (bits w 2 2) (bits w 1 0) d a b)
  | 4 => used true (.aminn (bits w 2 2) (bits w 1 0) d a b)
  | 5 => used true (.amaxn (bits w 2 2) (bits w 1 0) d a b)
  | 6 => used true (.aand (bits w 2 2) (bits w 1 0) d a b)
  | 7 => used true (.aor (bits w 2 2) (bits w 1 0) d a b)
  | 8 => used true (.axor (bits w 2 2) (bits w 1 0) d a b)
  | 9 => used true (.aswap (bits w 2 2) (bits w 1 0) d a b)
  | 10 => used true (.acas (bits w 2 2) (bits w 1 0) d a b)
  | 11 => used true (.afadd (bits w 2 2) (bits w 1 0) d a b)
  | _ => .error .unassigned

/-- Major opcode 0x16: FENCE_FULL FENCE_REL FENCE_ACQ CLEAN CLEAN_ALL INVAL INVAL_ALL. -/
def decodeMO16 (w : Nat) : Except Reject Instr :=
  let d := bits w 24 19
  let a := bits w 18 13
  let b := bits w 12 7
  let fn := bits w 6 0
  match fn with
  | 0x01 => if a == 0 && b == 0 then used true (.fenceFull d) else if a == 1 && b == 0 then used true (.fenceRel d) else if a == 2 && b == 0 then used true (.fenceAcq d) else .error .unusedField
  | 0x02 => if d == 1 && a == 0 && b == 0 then used true (.cleanAll) else if d == 0 then used true (.clean a b) else .error .unusedField
  | 0x03 => if d == 1 && a == 0 && b == 0 then used true (.invalAll) else if d == 0 then used true (.inval a b) else .error .unusedField
  | _ => .error .unassigned

/-- Major opcode 0x18: PHCFG PHQRY. -/
def decodeMO18 (w : Nat) : Except Reject Instr :=
  let d := bits w 24 19
  let a := bits w 18 13
  let fn := bits w 6 0
  match fn with
  | 0x01 => used (bits w 12 8 == 0) (.phcfg d a (bits w 7 7))
  | 0x02 => used (bits w 12 9 == 0) (.phqry d a (bits w 8 7))
  | _ => .error .unassigned

/-- Major opcode 0x20: ESET EGO_COPY EGO_GATHER EGO_SCATTER EGO_TRACK EGO_TRAJ EGO_SINK EGO_NMRED EGO_PORT ESTAT EWAIT ECANCEL. -/
def decodeMO20 (w : Nat) : Except Reject Instr :=
  if bits w 20 20 == 0 then used (bits w 19 19 == 0 && bits w 18 16 == 0) (.eset (bits w 24 21) (bits w 15 12) (bits w 11 6) (bits w 5 0))
  else match bits w 24 12 with
  | 0x0100 => used (bits w 5 0 == 0) (.egoCopy (bits w 11 6))
  | 0x0300 => used (bits w 5 0 == 0) (.egoGather (bits w 11 6))
  | 0x0500 => used (bits w 5 0 == 0) (.egoScatter (bits w 11 6))
  | 0x0700 => used (bits w 5 0 == 0) (.egoTrack (bits w 11 6))
  | 0x0900 => used (bits w 5 0 == 0) (.egoTraj (bits w 11 6))
  | 0x0B00 => used (bits w 5 0 == 0) (.egoSink (bits w 11 6))
  | 0x0D00 => used (bits w 5 0 == 0) (.egoNmred (bits w 11 6))
  | 0x0F00 => used (bits w 5 0 == 0) (.egoPort (bits w 11 6))
  | 0x0101 => used true (.estat (bits w 11 6) (bits w 5 0))
  | 0x0102 => used true (.ewait (bits w 11 6) (bits w 5 0))
  | 0x0103 => used true (.ecancel (bits w 11 6) (bits w 5 0))
  | _ => .error .unassigned

/-- Major opcode 0x21: MSHAPE_LOAD MSHAPE_WORD MSHQ MGEO MACCSAVE MACCLOAD MSTAT MSTAT_RESET. -/
def decodeMO21 (w : Nat) : Except Reject Instr :=
  let d := bits w 24 19
  let a := bits w 18 13
  let b := bits w 12 7
  let fn := bits w 6 0
  match fn with
  | 0x01 => used (bits w 12 8 == 0) (.mshapeLoad d a (bits w 7 7))
  | 0x02 => used (bits w 12 9 == 0) (.mshapeWord d a (bits w 8 7))
  | 0x03 => used (bits w 12 9 == 0) (.mshq d a (bits w 8 7))
  | 0x04 => used (a == 0 && bits w 12 9 == 0) (.mgeo d (bits w 8 7))
  | 0x05 => used (bits w 12 8 == 0) (.maccsave d a (bits w 7 7))
  | 0x06 => used (bits w 12 8 == 0) (.maccload d a (bits w 7 7))
  | 0x07 => if a == 0 && b == 5 then used true (.mstatReset d) else if bits w 12 10 == 0 then used true (.mstat d a (bits w 9 7)) else .error .unusedField
  | _ => .error .unassigned

/-- Major opcode 0x22: CNTINC CNTWAIT CNTRD CNTSET. -/
def decodeMO22 (w : Nat) : Except Reject Instr :=
  let d := bits w 24 19
  let a := bits w 18 13
  let b := bits w 12 7
  let fn := bits w 6 0
  match fn with
  | 0x01 => used true (.cntinc d a b)
  | 0x02 => used true (.cntwait d a b)
  | 0x03 => used (b == 0) (.cntrd d a)
  | 0x04 => used (d == 0) (.cntset a b)
  | _ => .error .unassigned

/-- Major opcode 0x23: OCSET TOPOQ FWSET FWQ. -/
def decodeMO23 (w : Nat) : Except Reject Instr :=
  let d := bits w 24 19
  let a := bits w 18 13
  let b := bits w 12 7
  let fn := bits w 6 0
  match fn with
  | 0x01 => used true (.ocset d a b)
  | 0x02 => used (bits w 12 9 == 0) (.topoq d a (bits w 8 7))
  | 0x03 => used (d == 0) (.fwset a b)
  | 0x04 => used (bits w 12 9 == 0) (.fwq d a (bits w 8 7))
  | _ => .error .unassigned

/-- Major opcode 0x24: VPUB_STAGE VPUB VPUB_F VADOPT_SEQ VADOPT_STEP VPIN VUNPIN VQRY. -/
def decodeMO24 (w : Nat) : Except Reject Instr :=
  let d := bits w 24 19
  let a := bits w 18 13
  let b := bits w 12 7
  let fn := bits w 6 0
  match fn with
  | 0x01 => used (d == 0) (.vpubStage a b)
  | 0x02 => used (b == 0) (.vpub d a)
  | 0x03 => used true (.vpubF d a b)
  | 0x04 => used (b == 0) (.vadoptSeq d a)
  | 0x05 => used (b == 0) (.vadoptStep d a)
  | 0x06 => used true (.vpin d a b)
  | 0x07 => used (d == 0 && b == 0) (.vunpin a)
  | 0x08 => used (bits w 12 10 == 0) (.vqry d a (bits w 9 7))
  | _ => .error .unassigned

/-- Major opcode 0x28: TSPAWN TWAIT YIELD TKILL_KILL TKILL_HALT TSELF. -/
def decodeMO28 (w : Nat) : Except Reject Instr :=
  let d := bits w 24 19
  let a := bits w 18 13
  let b := bits w 12 7
  let fn := bits w 6 0
  match fn with
  | 0x01 => used (b == 0) (.tspawn d a)
  | 0x02 => used (b == 0) (.twait d a)
  | 0x03 => used (d == 0 && a == 0 && b == 0) (.yield)
  | 0x04 => if d == 0 && b == 0 then used true (.tkillKill a) else if d == 0 && b == 1 then used true (.tkillHalt a) else .error .unusedField
  | 0x05 => used (a == 0 && bits w 12 9 == 0) (.tself d (bits w 8 7))
  | _ => .error .unassigned

/-- Major opcode 0x29: DBAR DJOIN DJOIN_NEW DLEAVE DEVICT DPHASE. -/
def decodeMO29 (w : Nat) : Except Reject Instr :=
  let d := bits w 24 19
  let a := bits w 18 13
  let b := bits w 12 7
  let fn := bits w 6 0
  match fn with
  | 0x01 => used (b == 0) (.dbar d a)
  | 0x02 => used (b == 0) (.djoin d a)
  | 0x03 => used true (.djoinNew d a b)
  | 0x04 => used (b == 0) (.dleave d a)
  | 0x05 => used true (.devict d a b)
  | 0x06 => used (bits w 12 10 == 0) (.dphase d a (bits w 9 7))
  | _ => .error .unassigned

/-- Major opcode 0x2A: SPEC SCOMMIT SABORT SSTAT. -/
def decodeMO2A (w : Nat) : Except Reject Instr :=
  let d := bits w 24 19
  let a := bits w 18 13
  let b := bits w 12 7
  let fn := bits w 6 0
  match fn with
  | 0x01 => used true (.spec d a b)
  | 0x02 => used (a == 0 && b == 0) (.scommit d)
  | 0x03 => used (d == 0 && a == 0 && b == 0) (.sabort)
  | 0x04 => used (a == 0 && bits w 12 9 == 0) (.sstat d (bits w 8 7))
  | _ => .error .unassigned

/-- Major opcode 0x2B: YIELDPT. -/
def decodeMO2B (w : Nat) : Except Reject Instr :=
  let d := bits w 24 19
  let a := bits w 18 13
  let b := bits w 12 7
  used (d == 0 && a == 0 && b == 0 && bits w 6 2 == 0) (.yieldpt (bits w 1 0))

/-- Major opcode 0x30: MFSR MTSR MTSR_FMT MTSR_TIMER MTSR_TRAPPC REPARTITION PREEMPT VSEALDROP_CLEAR BOOTOK RESUMETASK TRAP SYSRET_RESUME SYSRET_SUSPEND SYSRET_KILL TLBINV_PAGE TLBINV_ASID TLBINV_ALL TNOISE BIND WFE. -/
def decodeMO30 (w : Nat) : Except Reject Instr :=
  let d := bits w 24 19
  let a := bits w 18 13
  let b := bits w 12 7
  let fn := bits w 6 0
  match fn with
  | 0x01 => used true (.mfsr d (bits w 18 7))
  | 0x02 => if a == 0 && b == 1 then used true (.mtsrFmt d) else if a == 0 && b == 36 then used true (.mtsrTimer d) else if a == 2 && b == 1 then used true (.mtsrTrappc d) else if a == 4 && b == 14 then used true (.preempt d) else if a == 8 && b == 7 then used true (.vsealdropClear d) else if a == 8 && b == 19 then used true (.bootok d) else if a == 8 && b == 20 then used true (.resumetask d) else if a == 4 && bits w 12 10 == 0 then used true (.repartition d (bits w 9 7)) else used true (.mtsr d (bits w 18 7))
  | 0x03 => used (d == 0) (.trap (bits w 18 7))
  | 0x04 => if d == 0 && a == 0 && b == 0 then used true (.sysretResume) else if d == 0 && a == 0 && b == 1 then used true (.sysretSuspend) else if d == 0 && a == 0 && b == 2 then used true (.sysretKill) else .error .unusedField
  | 0x05 => if d == 2 && a == 0 && b == 0 then used true .tlbinvAll else if d == 2 then used true (.tlbinvAsid (a + 64) b) else if d == 1 then used true (.tlbinvAsid a b) else if d == 0 then used true (.tlbinvPage a b) else .error .unusedField
  | 0x06 => used (a == 0 && b == 0) (.tnoise d)
  | 0x07 => used (d == 0) (.bind a b)
  | 0x08 => used (d == 0 && b == 0) (.wfe a)
  | _ => .error .unassigned

/-- Major opcode 0x31: CHKQ CHKQ_Q QUARQ QUARQ_QUARANTINE QUARQ_CLEAR. -/
def decodeMO31 (w : Nat) : Except Reject Instr :=
  let d := bits w 24 19
  let a := bits w 18 13
  let b := bits w 12 7
  let fn := bits w 6 0
  match fn with
  | 0x01 => used (d == 0) (.chkq a b)
  | 0x02 => used (d == 0) (.chkqQ a b)
  | 0x03 => if b == 6 then used true (.quarqQuarantine d a) else if b == 7 then used true (.quarqClear d a) else if bits w 12 10 == 0 then used true (.quarq d a (bits w 9 7)) else .error .unusedField
  | _ => .error .unassigned

/-- A scalar word (R45, R46): W[31] is 0 and W[30:25] is the major opcode (R49, R50). -/
def decodeWord (w : Nat) : Except Reject Instr :=
  match w / 2 ^ 25 with
  | 0x00 => decodeMO00 w
  | 0x01 => decodeMO01 w
  | 0x02 => decodeMO02 w
  | 0x03 => decodeMO03 w
  | 0x04 => decodeMO04 w
  | 0x05 => decodeMO05 w
  | 0x06 => decodeMO06 w
  | 0x07 => decodeMO07 w
  | 0x08 => decodeMO08 w
  | 0x09 => decodeMO09 w
  | 0x0A => decodeMO0A w
  | 0x0B => decodeMO0B w
  | 0x0C => decodeMO0C w
  | 0x0D => decodeMO0D w
  | 0x0E => decodeMO0E w
  | 0x10 => decodeMO10 w
  | 0x11 => decodeMO11 w
  | 0x12 => decodeMO12 w
  | 0x13 => decodeMO13 w
  | 0x14 => decodeMO14 w
  | 0x15 => decodeMO15 w
  | 0x16 => decodeMO16 w
  | 0x18 => decodeMO18 w
  | 0x20 => decodeMO20 w
  | 0x21 => decodeMO21 w
  | 0x22 => decodeMO22 w
  | 0x23 => decodeMO23 w
  | 0x24 => decodeMO24 w
  | 0x28 => decodeMO28 w
  | 0x29 => decodeMO29 w
  | 0x2A => decodeMO2A w
  | 0x2B => decodeMO2B w
  | 0x30 => decodeMO30 w
  | 0x31 => decodeMO31 w
  | _ => .error .unassigned

/-- A field value at its place in the word. -/
def put (v lo : Nat) : Nat := v * 2 ^ lo

/-- The word of a stream instruction: the 16 bits of an issue parcel or the 32 bits of a scalar word; `none` for a slot
operation or an event, which has no word. Operand fields go where the decoding tables put them. -/
def encode (i : Instr) : Option Nat :=
  match i with
  | .issueParcel entry bp bias => some (0x8000 + put entry 6 + put bp 4 + bias)
  | .add rd ra rb => some (0x00000001 + put rd 19 + put ra 13 + put rb 7)
  | .sub rd ra rb => some (0x00000002 + put rd 19 + put ra 13 + put rb 7)
  | .and rd ra rb => some (0x00000003 + put rd 19 + put ra 13 + put rb 7)
  | .or rd ra rb => some (0x00000004 + put rd 19 + put ra 13 + put rb 7)
  | .xor rd ra rb => some (0x00000005 + put rd 19 + put ra 13 + put rb 7)
  | .andn rd ra rb => some (0x00000006 + put rd 19 + put ra 13 + put rb 7)
  | .shl rd ra rb => some (0x00000007 + put rd 19 + put ra 13 + put rb 7)
  | .shr rd ra rb => some (0x00000008 + put rd 19 + put ra 13 + put rb 7)
  | .sar rd ra rb => some (0x00000009 + put rd 19 + put ra 13 + put rb 7)
  | .rol rd ra rb => some (0x0000000A + put rd 19 + put ra 13 + put rb 7)
  | .mul rd ra rb => some (0x02000001 + put rd 19 + put ra 13 + put rb 7)
  | .mulh rd ra rb => some (0x02000002 + put rd 19 + put ra 13 + put rb 7)
  | .mulhn rd ra rb => some (0x02000003 + put rd 19 + put ra 13 + put rb 7)
  | .div rd ra rb => some (0x02000004 + put rd 19 + put ra 13 + put rb 7)
  | .divn rd ra rb => some (0x02000005 + put rd 19 + put ra 13 + put rb 7)
  | .rem rd ra rb => some (0x02000006 + put rd 19 + put ra 13 + put rb 7)
  | .remn rd ra rb => some (0x02000007 + put rd 19 + put ra 13 + put rb 7)
  | .min rd ra rb => some (0x02000008 + put rd 19 + put ra 13 + put rb 7)
  | .max rd ra rb => some (0x02000009 + put rd 19 + put ra 13 + put rb 7)
  | .minn rd ra rb => some (0x0200000A + put rd 19 + put ra 13 + put rb 7)
  | .maxn rd ra rb => some (0x0200000B + put rd 19 + put ra 13 + put rb 7)
  | .clz rd ra => some (0x04000001 + put rd 19 + put ra 13)
  | .ctz rd ra => some (0x04000002 + put rd 19 + put ra 13)
  | .popc rd ra => some (0x04000003 + put rd 19 + put ra 13)
  | .bswap rd ra => some (0x04000004 + put rd 19 + put ra 13)
  | .bext rd ra rb => some (0x04000005 + put rd 19 + put ra 13 + put rb 7)
  | .bins rd ra rb => some (0x04000006 + put rd 19 + put ra 13 + put rb 7)
  | .sel n rd ra rb => some (0x04000010 + put rd 19 + put ra 13 + put rb 7 + n)
  | .cmp c rd ra rb => some (0x04000020 + put rd 19 + put ra 13 + put rb 7 + c)
  | .cmpq c qd ra rb => some (0x04000030 + put qd 19 + put ra 13 + put rb 7 + c)
  | .sewma rd ra rb => some (0x04000040 + put rd 19 + put ra 13 + put rb 7)
  | .fadd rm p rd ra rb => some (0x06000001 + put rd 19 + put ra 13 + put rb 7 + put rm 5 + put p 4)
  | .fsub rm p rd ra rb => some (0x06000002 + put rd 19 + put ra 13 + put rb 7 + put rm 5 + put p 4)
  | .fmul rm p rd ra rb => some (0x06000003 + put rd 19 + put ra 13 + put rb 7 + put rm 5 + put p 4)
  | .ffma rm p rd ra rb => some (0x06000004 + put rd 19 + put ra 13 + put rb 7 + put rm 5 + put p 4)
  | .fdiv rm p rd ra rb => some (0x06000005 + put rd 19 + put ra 13 + put rb 7 + put rm 5 + put p 4)
  | .fsqrt rm p rd ra => some (0x06000006 + put rd 19 + put ra 13 + put rm 5 + put p 4)
  | .fmin p rd ra rb => some (0x06000007 + put rd 19 + put ra 13 + put rb 7 + put p 4)
  | .fmax p rd ra rb => some (0x06000008 + put rd 19 + put ra 13 + put rb 7 + put p 4)
  | .fcmpq cc p qd ra rb => some (0x06000009 + put qd 19 + put ra 13 + put rb 7 + put cc 5 + put p 4)
  | .fcvt rm code rd ra => some (0x0600000A + put rd 19 + put ra 13 + put code 7 + put rm 5)
  | .fclass p rd ra => some (0x0600000B + put rd 19 + put ra 13 + put p 4)
  | .frcp rm p rd ra => some (0x0600000C + put rd 19 + put ra 13 + put rm 5 + put p 4)
  | .addi rd ra imm => some (0x08000000 + put rd 19 + put ra 13 + imm)
  | .andi rd ra imm => some (0x0A000000 + put rd 19 + put ra 13 + imm)
  | .ori rd ra imm => some (0x0C000000 + put rd 19 + put ra 13 + imm)
  | .xori rd ra imm => some (0x0E000000 + put rd 19 + put ra 13 + imm)
  | .shli rd ra n => some (0x10000000 + put rd 19 + put ra 13 + n)
  | .shri rd ra n => some (0x10000040 + put rd 19 + put ra 13 + n)
  | .sari rd ra n => some (0x10000080 + put rd 19 + put ra 13 + n)
  | .cmpqi c qd ra imm => some (0x12000000 + put qd 19 + put ra 13 + put c 10 + imm)
  | .lui rd imm => some (0x14000000 + put rd 19 + imm)
  | .addpc rd imm => some (0x16000000 + put rd 19 + imm)
  | .pbr b off => some (0x18000000 + put b 22 + off)
  | .nop => some (0x1A000001)
  | .pbrxLoad b ra => some (0x1A000002 + put b 19 + put ra 13)
  | .pbrxRead rd b => some (0x1A000082 + put rd 19 + put b 13)
  | .br b q neg => some (0x1A000003 + put b 19 + put q 13 + put neg 7)
  | .call b q neg => some (0x1A000004 + put b 19 + put q 13 + put neg 7)
  | .ret q neg => some (0x1A000005 + put q 13 + put neg 7)
  | .loopx lc q neg => some (0x1A000006 + put lc 19 + put q 13 + put neg 7)
  | .endTask => some (0x1A000007)
  | .cwtld ra rb => some (0x1A000008 + put ra 13 + put rb 7)
  | .cwtclr ra => some (0x1A000009 + put ra 13)
  | .qop f qd qa qb => some (0x1A000010 + put qd 19 + put qa 13 + put qb 7 + f)
  | .loop lc ra imm => some (0x1C000000 + put lc 19 + put ra 13 + imm)
  | .ld rd ra sz sp hint off => some (0x20000000 + put rd 19 + put ra 13 + put sz 11 + put sp 10 + put hint 8 + off)
  | .st rd ra sz sp hint off => some (0x22000000 + put rd 19 + put ra 13 + put sz 11 + put sp 10 + put hint 8 + off)
  | .ldlast rd ra sz off => some (0x24000000 + put rd 19 + put ra 13 + put sz 11 + off)
  | .lda rd ra sz off => some (0x26000000 + put rd 19 + put ra 13 + put sz 11 + off)
  | .stl rd ra sz off => some (0x28000000 + put rd 19 + put ra 13 + put sz 11 + off)
  | .aadd w ord rd ra rb => some (0x2A000008 + put rd 19 + put ra 13 + put rb 7 + put w 2 + ord)
  | .amin w ord rd ra rb => some (0x2A000010 + put rd 19 + put ra 13 + put rb 7 + put w 2 + ord)
  | .amax w ord rd ra rb => some (0x2A000018 + put rd 19 + put ra 13 + put rb 7 + put w 2 + ord)
  | .aminn w ord rd ra rb => some (0x2A000020 + put rd 19 + put ra 13 + put rb 7 + put w 2 + ord)
  | .amaxn w ord rd ra rb => some (0x2A000028 + put rd 19 + put ra 13 + put rb 7 + put w 2 + ord)
  | .aand w ord rd ra rb => some (0x2A000030 + put rd 19 + put ra 13 + put rb 7 + put w 2 + ord)
  | .aor w ord rd ra rb => some (0x2A000038 + put rd 19 + put ra 13 + put rb 7 + put w 2 + ord)
  | .axor w ord rd ra rb => some (0x2A000040 + put rd 19 + put ra 13 + put rb 7 + put w 2 + ord)
  | .aswap w ord rd ra rb => some (0x2A000048 + put rd 19 + put ra 13 + put rb 7 + put w 2 + ord)
  | .acas w ord rd ra rb => some (0x2A000050 + put rd 19 + put ra 13 + put rb 7 + put w 2 + ord)
  | .afadd w ord rd ra rb => some (0x2A000058 + put rd 19 + put ra 13 + put rb 7 + put w 2 + ord)
  | .fenceFull scope => some (0x2C000001 + put scope 19)
  | .fenceRel scope => some (0x2C002001 + put scope 19)
  | .fenceAcq scope => some (0x2C004001 + put scope 19)
  | .clean ra rb => some (0x2C000002 + put ra 13 + put rb 7)
  | .cleanAll => some (0x2C080002)
  | .inval ra rb => some (0x2C000003 + put ra 13 + put rb 7)
  | .invalAll => some (0x2C080003)
  | .phcfg h ra spm => some (0x30000001 + put h 19 + put ra 13 + put spm 7)
  | .phqry rd h f => some (0x30000002 + put rd 19 + put h 13 + put f 7)
  | .eset eng k ra rb => some (0x40000000 + put eng 21 + put k 12 + put ra 6 + rb)
  | .egoCopy rd => some (0x40100000 + put rd 6)
  | .egoGather rd => some (0x40300000 + put rd 6)
  | .egoScatter rd => some (0x40500000 + put rd 6)
  | .egoTrack rd => some (0x40700000 + put rd 6)
  | .egoTraj rd => some (0x40900000 + put rd 6)
  | .egoSink rd => some (0x40B00000 + put rd 6)
  | .egoNmred rd => some (0x40D00000 + put rd 6)
  | .egoPort rd => some (0x40F00000 + put rd 6)
  | .estat rd rb => some (0x40101000 + put rd 6 + rb)
  | .ewait rd rb => some (0x40102000 + put rd 6 + rb)
  | .ecancel rd rb => some (0x40103000 + put rd 6 + rb)
  | .mshapeLoad sh ra spm => some (0x42000001 + put sh 19 + put ra 13 + put spm 7)
  | .mshapeWord sh ra f => some (0x42000002 + put sh 19 + put ra 13 + put f 7)
  | .mshq rd sh f => some (0x42000003 + put rd 19 + put sh 13 + put f 7)
  | .mgeo rd c => some (0x42000004 + put rd 19 + put c 7)
  | .maccsave acc ra spm => some (0x42000005 + put acc 19 + put ra 13 + put spm 7)
  | .maccload acc ra spm => some (0x42000006 + put acc 19 + put ra 13 + put spm 7)
  | .mstat rd ra sl => some (0x42000007 + put rd 19 + put ra 13 + put sl 7)
  | .mstatReset rd => some (0x42000287 + put rd 19)
  | .cntinc rd ra rb => some (0x44000001 + put rd 19 + put ra 13 + put rb 7)
  | .cntwait rd ra rb => some (0x44000002 + put rd 19 + put ra 13 + put rb 7)
  | .cntrd rd ra => some (0x44000003 + put rd 19 + put ra 13)
  | .cntset ra rb => some (0x44000004 + put ra 13 + put rb 7)
  | .ocset rd ra rb => some (0x46000001 + put rd 19 + put ra 13 + put rb 7)
  | .topoq rd ra sl => some (0x46000002 + put rd 19 + put ra 13 + put sl 7)
  | .fwset ra rb => some (0x46000003 + put ra 13 + put rb 7)
  | .fwq rd ra sl => some (0x46000004 + put rd 19 + put ra 13 + put sl 7)
  | .vpubStage ra rb => some (0x48000001 + put ra 13 + put rb 7)
  | .vpub rd ra => some (0x48000002 + put rd 19 + put ra 13)
  | .vpubF rd ra rb => some (0x48000003 + put rd 19 + put ra 13 + put rb 7)
  | .vadoptSeq rd ra => some (0x48000004 + put rd 19 + put ra 13)
  | .vadoptStep rd ra => some (0x48000005 + put rd 19 + put ra 13)
  | .vpin rd ra rb => some (0x48000006 + put rd 19 + put ra 13 + put rb 7)
  | .vunpin ra => some (0x48000007 + put ra 13)
  | .vqry rd ra sl => some (0x48000008 + put rd 19 + put ra 13 + put sl 7)
  | .tspawn rd ra => some (0x50000001 + put rd 19 + put ra 13)
  | .twait rd ra => some (0x50000002 + put rd 19 + put ra 13)
  | .yield => some (0x50000003)
  | .tkillKill ra => some (0x50000004 + put ra 13)
  | .tkillHalt ra => some (0x50000084 + put ra 13)
  | .tself rd sl => some (0x50000005 + put rd 19 + put sl 7)
  | .dbar rd ra => some (0x52000001 + put rd 19 + put ra 13)
  | .djoin rd ra => some (0x52000002 + put rd 19 + put ra 13)
  | .djoinNew rd ra rb => some (0x52000003 + put rd 19 + put ra 13 + put rb 7)
  | .dleave rd ra => some (0x52000004 + put rd 19 + put ra 13)
  | .devict rd ra rb => some (0x52000005 + put rd 19 + put ra 13 + put rb 7)
  | .dphase rd ra sl => some (0x52000006 + put rd 19 + put ra 13 + put sl 7)
  | .spec b ra rb => some (0x54000001 + put b 19 + put ra 13 + put rb 7)
  | .scommit rd => some (0x54000002 + put rd 19)
  | .sabort => some (0x54000003)
  | .sstat rd sl => some (0x54000004 + put rd 19 + put sl 7)
  | .yieldpt k => some (0x56000000 + k)
  | .mfsr r num => some (0x60000001 + put r 19 + put num 7)
  | .mtsr r num => some (0x60000002 + put r 19 + put num 7)
  | .mtsrFmt rs => some (0x60000082 + put rs 19)
  | .mtsrTimer rs => some (0x60001202 + put rs 19)
  | .mtsrTrappc rs => some (0x60004082 + put rs 19)
  | .repartition rs k => some (0x60008002 + put rs 19 + put k 7)
  | .preempt rs => some (0x60008702 + put rs 19)
  | .vsealdropClear rs => some (0x60010382 + put rs 19)
  | .bootok rs => some (0x60010982 + put rs 19)
  | .resumetask rs => some (0x60010A02 + put rs 19)
  | .trap code => some (0x60000003 + put code 7)
  | .sysretResume => some (0x60000004)
  | .sysretSuspend => some (0x60000084)
  | .sysretKill => some (0x60000104)
  | .tlbinvPage ra rb => some (0x60000005 + put ra 13 + put rb 7)
  | .tlbinvAsid ra rb => some (if ra < 64 then 0x60080005 + put ra 13 + put rb 7 else 0x60100005 + put (ra - 64) 13 + put rb 7)
  | .tlbinvAll => some 0x60100005
  | .tnoise rd => some (0x60000006 + put rd 19)
  | .bind ra rb => some (0x60000007 + put ra 13 + put rb 7)
  | .wfe ra => some (0x60000008 + put ra 13)
  | .chkq ra rb => some (0x62000001 + put ra 13 + put rb 7)
  | .chkqQ qa qb => some (0x62000002 + put qa 13 + put qb 7)
  | .quarq rd ra sl => some (0x62000003 + put rd 19 + put ra 13 + put sl 7)
  | .quarqQuarantine rd ra => some (0x62000303 + put rd 19 + put ra 13)
  | .quarqClear rd ra => some (0x62000383 + put rd 19 + put ra 13)
  | _ => none
/-- The instruction at the head of `bytes` and the bytes after it (R43, R45): parcels are little-endian, and a scalar word's
head parcel, at the lower address, supplies its upper half. -/
def decodeBytes (bytes : List Byte) : Except Reject (Instr × List Byte) :=
  match bytes with
  | b0 :: b1 :: rest =>
    let head := b0.toNat + b1.toNat * 256
    if head / 2 ^ 15 == 1 then
      match decodeParcel head with
      | .ok i => .ok (i, rest)
      | .error e => .error e
    else
      match rest with
      | b2 :: b3 :: rest' =>
        match decodeWord (head * 2 ^ 16 + (b2.toNat + b3.toNat * 256)) with
        | .ok i => .ok (i, rest')
        | .error e => .error e
      | _ => .error .truncated
  | _ => .error .truncated

/-- A 16-bit parcel as it is stored (R1, R43). -/
def parcelBytes (p : Nat) : List Byte := [BitVec.ofNat 8 p, BitVec.ofNat 8 (p / 256)]

/-- A scalar word as it is stored: the head parcel, then the tail (R45). -/
def wordBytes (w : Nat) : List Byte := parcelBytes (w / 2 ^ 16) ++ parcelBytes (w % 2 ^ 16)

/-- The bytes of an instruction that has a word. -/
def encodeBytes (i : Instr) : Option (List Byte) :=
  match encode i with
  | none => none
  | some w => match i with | .issueParcel .. => some (parcelBytes w) | _ => some (wordBytes w)

/-- The bytes of an opcode-table word: an issue parcel is 16 bits, a scalar word W 32 bits, both numbered as R44 and R46
number them. -/
def tableWordBytes (nbits w : Nat) : List Byte :=
  if nbits ≤ 16 then parcelBytes w ++ [0, 0] else wordBytes w

/-- What the decoder reads from an opcode-table word laid out as the hardware stores it. -/
def decodeTableWord (nbits w : Nat) : Option Instr :=
  match decodeBytes (tableWordBytes nbits w) with
  | .ok (i, _) => some i
  | .error _ => none

/-! ## The slot fields of a CWT entry -/

/-- Whether a value may be held in FMT (R53, R133). -/
def fmtOk (v : Nat) : Bool := v < 2 ^ 15 && v % 8 != 7 && v / 8 % 8 != 7 && v / 64 % 8 != 7

/-- The C slot (R53): each part is absent when its enabling bit is 0. -/
structure CSlot where
  trc : Bool := false
  chk : Bool := false
  /-- side and handle of a pigeonhole advance -/
  pha : Option (Nat × Nat) := none
  fmtw : Option Nat := none
  rdv : Option Nat := none
  seg : Bool := false
  sync : Bool := false
deriving DecidableEq, Repr, Inhabited

/-- A V slot (R54, R57). -/
inductive VSlot where
  | idle
  | dup
  | op (code : Nat) (f : VF)
deriving DecidableEq, Repr, Inhabited

/-- An L, M or X slot, idle or an op value with its fields. -/
abbrev LSlot := Option (Nat × LF)
abbrev MSlot := Option (Nat × MF)
abbrev XSlot := Option (Nat × XF)

/-- The check of one C slot's ranges (R53). -/
def CSlot.wf (c : CSlot) : Bool :=
  (match c.pha with | none => true | some (side, hole) => side < 2 && hole < 16) &&
  (match c.fmtw with | none => true | some v => fmtOk v) &&
  (match c.rdv with | none => true | some v => v < 8)

/-- C slot (R53). -/
def decodeC (w : Nat) : Except Reject CSlot :=
  let pha := bits w 23 23
  let fm := bits w 22 7
  let rid := bits w 5 3
  if bits w 31 31 != 0 then .error .unusedField
  else if pha == 0 && bits w 28 24 != 0 then .error .unusedField
  else if bits w 6 6 == 0 && fm != 0 then .error .unusedField
  else if bits w 2 2 == 0 && rid != 0 then .error .unusedField
  else if bits w 6 6 == 1 && !fmtOk fm then .error .fieldRange
  else .ok
    { trc := bits w 30 30 == 1, chk := bits w 29 29 == 1,
      pha := if pha == 1 then some (bits w 28 28, bits w 27 24) else none,
      fmtw := if bits w 6 6 == 1 then some fm else none,
      rdv := if bits w 2 2 == 1 then some rid else none,
      seg := bits w 1 1 == 1, sync := bits w 0 0 == 1 }

/-- The bits of a C slot. -/
def encodeC (c : CSlot) : Nat :=
  c.trc.toNat * 2 ^ 30 + c.chk.toNat * 2 ^ 29 +
  (match c.pha with | none => 0 | some (side, hole) => side * 2 ^ 28 + hole * 2 ^ 24 + 2 ^ 23) +
  (match c.fmtw with | none => 0 | some v => v * 2 ^ 7 + 2 ^ 6) +
  (match c.rdv with | none => 0 | some v => v * 2 ^ 3 + 2 ^ 2) + c.seg.toNat * 2 + c.sync.toNat

/-- A V slot of a kernel of gang width `g` (R54 to R57). -/
def decodeV (g w : Nat) : Except Reject VSlot :=
  if bits w 52 52 == 1 then (if w == 2 ^ 52 then .ok .dup else .error .unusedField)
  else if bits w 9 8 == 0 then (if w == 0 then .ok .idle else .error .unusedField)
  else if bits w 63 59 != 0 then .error .unusedField
  else
    let f : VF :=
      { zero := bits w 58 58 == 1, sat := bits w 57 57 == 1, form := bits w 56 55, rnd := bits w 54 53,
        imm := bits w 51 36, vc := bits w 35 31, vb := bits w 30 26, va := bits w 25 21, vd := bits w 20 16,
        pred := bits w 15 13, ty := bits w 12 10, width := bits w 9 8 }
    match VRow.of (bits w 7 0) with
    | none => .error .unassigned
    | some _ => if wfV g (bits w 7 0) f then .ok (.op (bits w 7 0) f) else .error .fieldRange

/-- The bits of a V slot. -/
def encodeV (v : VSlot) : Nat :=
  match v with
  | .idle => 0
  | .dup => 2 ^ 52
  | .op code f =>
    f.zero.toNat * 2 ^ 58 + f.sat.toNat * 2 ^ 57 + f.form * 2 ^ 55 + f.rnd * 2 ^ 53 + f.imm * 2 ^ 36 + f.vc * 2 ^ 31 +
    f.vb * 2 ^ 26 + f.va * 2 ^ 21 + f.vd * 2 ^ 16 + f.pred * 2 ^ 13 + f.ty * 2 ^ 10 + f.width * 2 ^ 8 + code

/-- The L slot (R58, R59). -/
def decodeL (w : Nat) : Except Reject LSlot :=
  if bits w 5 0 == 0 then (if w == 0 then .ok none else .error .unusedField)
  else if bits w 47 44 != 0 then .error .unusedField
  else
    let f : LF :=
      { hole := bits w 43 40, pred := bits w 39 37, off := bits w 36 21, mode := bits w 20 18, areg := bits w 17 14,
        vreg := bits w 13 9, file := bits w 8 8, width := bits w 7 6 }
    if bits w 5 0 > 11 then .error .unassigned
    else if wfL (bits w 5 0) f then .ok (some (bits w 5 0, f)) else .error .fieldRange

/-- The bits of an L slot. -/
def encodeL (l : LSlot) : Nat :=
  match l with
  | none => 0
  | some (code, f) =>
    f.hole * 2 ^ 40 + f.pred * 2 ^ 37 + f.off * 2 ^ 21 + f.mode * 2 ^ 18 + f.areg * 2 ^ 14 + f.vreg * 2 ^ 9 +
    f.file * 2 ^ 8 + f.width * 2 ^ 6 + code

/-- The M slot (R60). An MNOP is the idle slot. -/
def decodeM (w : Nat) : Except Reject MSlot :=
  if w == 0 then .ok none
  else if bits w 31 20 != 0 then .error .unusedField
  else
    let f : MF :=
      { row := bits w 19 13, plane := bits w 12 12, accdis := bits w 11 11 == 1, neg := bits w 10 10 == 1,
        shape := bits w 9 6, acc := bits w 5 4 }
    if bits w 3 0 > 7 then .error .unassigned
    else if wfM (bits w 3 0) f then .ok (some (bits w 3 0, f)) else .error .fieldRange

/-- The bits of an M slot. -/
def encodeM (m : MSlot) : Nat :=
  match m with
  | none => 0
  | some (code, f) =>
    f.row * 2 ^ 13 + f.plane * 2 ^ 12 + f.accdis.toNat * 2 ^ 11 + f.neg.toNat * 2 ^ 10 + f.shape * 2 ^ 6 + f.acc * 2 ^ 4 +
    code

/-- The X slot (R61). -/
def decodeX (w : Nat) : Except Reject XSlot :=
  if bits w 3 0 == 0 then (if w == 0 then .ok none else .error .unusedField)
  else
    let f : XF := { b := bits w 15 10, a := bits w 9 4 }
    if bits w 3 0 > 6 then .error .unassigned
    else if wfX (bits w 3 0) f then .ok (some (bits w 3 0, f)) else .error .fieldRange

/-- The bits of an X slot. -/
def encodeX (x : XSlot) : Nat :=
  match x with
  | none => 0
  | some (code, f) => f.b * 2 ^ 10 + f.a * 2 ^ 4 + code

/-- A bundle: the six slots of a CWT entry (R51). -/
structure Bundle where
  c : CSlot := {}
  l : LSlot := none
  v0 : VSlot := .idle
  v1 : VSlot := .idle
  m : MSlot := none
  x : XSlot := none
deriving DecidableEq, Repr, Inhabited

/-- The operations whose duplicate an entry may not hold: the data movement, predicate and generator operations (R199), VACC and
VNORM (R158). -/
def noDup (code : Nat) : Bool := 0x50 <= code

/-- The first slot of an entry that fails its check, in the order C, L, V0, V1, M, X, or the bundle (R51, R57, R63, R158). Slots are
numbered 0 to 5 in that order; a duplicate that the entry may not hold is found last, and its V slot is named, V0 before V1 (DESIGN
CHOICE, log entry 73: R63 names one slot and gives no order among several that fail). -/
def decodeEntry (g w : Nat) : Except (Nat × Reject) Bundle :=
  match decodeC (bits w 31 0) with
  | .error e => .error (0, e)
  | .ok c =>
  match decodeL (bits w 79 32) with
  | .error e => .error (1, e)
  | .ok l =>
  match decodeV g (bits w 143 80) with
  | .error e => .error (2, e)
  | .ok v0 =>
  match decodeV g (bits w 207 144) with
  | .error e => .error (3, e)
  | .ok v1 =>
  match decodeM (bits w 239 208) with
  | .error e => .error (4, e)
  | .ok m =>
  match decodeX (bits w 255 240) with
  | .error e => .error (5, e)
  | .ok x =>
    match v0, v1 with
    | .dup, .op code _ => if noDup code then .error (2, .fieldRange) else .ok { c, l, v0, v1, m, x }
    | .op code _, .dup => if noDup code then .error (3, .fieldRange) else .ok { c, l, v0, v1, m, x }
    | .dup, _ => .error (2, .fieldRange)
    | _, .dup => .error (3, .fieldRange)
    | _, _ => .ok { c, l, v0, v1, m, x }

/-- The 256 bits of a bundle (R51). -/
def encodeEntry (b : Bundle) : Nat :=
  encodeX b.x * 2 ^ 240 + encodeM b.m * 2 ^ 208 + encodeV b.v1 * 2 ^ 144 + encodeV b.v0 * 2 ^ 80 + encodeL b.l * 2 ^ 32 +
  encodeC b.c

end Sys2Proof
end

