-- ==== Sys2Proof/Machine/State.lean ====
section
/-! DEFINITION. The state of one RQ-740 package, all of it plain data: what the spec gives a task (R22, R200, R419, R470), a
core, a die and the package, the work in flight, and the model's own inputs (which agent moves next, what an event carries,
the hardware errors to come, and the counter of free values). A value no table lists is the table's default. -/

namespace Sys2Proof.Machine

/-! ## Why a step stops -/

/-- Reasons a step stops with a fault of the model. A trap of the hardware is not one of these: it is a next state. -/
inductive Fault where
  /-- Raised by `step` for a turn that names a core above 255 or a slot above 5, and by an event whose input in the state is
  not of that event's kind: nothing of the hardware corresponds to it. Safe: the machine stops where nothing could happen. -/
  | noSuchEvent
deriving DecidableEq, Repr, Inhabited

/-- Reasons a step is refused. -/
inductive Refusal where
  /-- Raised by `exec` for an instruction that has no meaning yet. Safe. -/
  | notModelled (mnemonic : String)
  /-- Raised by a load, a store or a host access of an MMIO address for which the spec gives no register (R246 names engine
  registers there and gives no address for them). Safe: the machine stops where the hardware goes on. -/
  | unknownMmio
deriving DecidableEq, Repr

/-! ## Slots, queues and results in flight -/

/-- The destination of an exposed result (R33, R38). -/
inductive Dest where
  /-- register `n` of slot file `file` (0 x, 1 y) -/
  | vec (file n : Nat)
  /-- predicate `n` of slot file `file` -/
  | pred (file n : Nat)
  | addr (n : Nat)
  | key
  | stride
  /-- the counter of lane generator `lane` -/
  | ctr (lane : Nat)
deriving DecidableEq, Repr, Inhabited

/-- A shadow latch (R38): one exposed result that some slot may not see yet. `mask` marks the bits it writes. -/
structure Latch where
  dest : Dest := .key
  mask : VReg := 0
  tgt : Nat := 0
  cls : Nat := 0
  iss : Nat := 0
  val : VReg := 0
deriving DecidableEq, Repr, Inhabited

/-- A write of FMT and the bundle index at which it takes effect (R29); later in the list is later in stream order. -/
structure FmtWrite where
  eff : Nat := 0
  iss : Nat := 0
  val : Nat := 0
deriving DecidableEq, Repr, Inhabited

/-- A scalar write of a shape record (`hole` false) or a pigeonhole handle (`hole` true) that slots see from bundle `bound` on
(R35). `word` is the word written, or none for the whole record. -/
structure CfgWrite where
  bound : Nat := 0
  hole : Bool := false
  num : Nat := 0
  word : Option Nat := none
  val : BitVec 256 := 0
deriving DecidableEq, Repr, Inhabited

/-- An active hardware loop (R86). The list of them has the most recently entered first. -/
structure LoopRec where
  lc : Nat := 0
  s : Word := 0
  e : Word := 0
deriving DecidableEq, Repr, Inhabited

/-- One entry of a slot queue (R38, R79): the bundle's index and context, the operations the slot has still to perform for it,
in order (none for a skipped or idle entry), and the captured fields of the C, M and X slots. `hold` is the hold of SYNC, SEG
or RDV, which every slot of the bundle carries (R36, R95); `dup` marks that this V slot, or its twin, holds a duplicate. -/
structure QEntry where
  idx : Nat := 0
  ctx : BCtx := {}
  ops : List Instr := []
  hold : Bool := false
  dup : Bool := false
  /-- the op value of the slot's field, 0 for C and for a skipped or idle entry -/
  code : Nat := 0
  vf : VF := {}
  lf : LF := {}
  cf : CF := {}
  fmtw : Nat := 0
  mf : MF := {}
  xf : XF := {}
  /-- the loop records at dispatch, for SEG (R97) -/
  loops : List LoopRec := []
deriving DecidableEq, Repr, Inhabited

/-- The six slot queues and what the slots have in flight (R22, R29 to R39). Slots are numbered 0 C, 1 L, 2 V0, 3 V1, 4 M,
5 X. -/
structure Slots where
  /-- the next bundle index of each slot: FRONTIER (R38) -/
  front : Tbl Nat := []
  queue : Tbl (List QEntry) := []
  latches : List Latch := []
  cfg : List CfgWrite := []
  /-- the writes of FMT still distinguishable by index; the base value is `fmt` -/
  fmtw : List FmtWrite := []
  fmt : Nat := 0
  /-- the next bundle index to dispatch (R30) -/
  next : Nat := 0
  /-- V operations whose duplicate differed, with what each copy held, waiting for CHK (R101, R489) -/
  votes : List (Nat × Nat) := []
  /-- window-store beats not yet accepted: the target core and offset of the 32-byte word, and the mask and bytes (R245) -/
  beats : List (Nat × Nat × BitVec 32 × BitVec 256) := []
  /-- the 32-byte words of the window that beats of the window load at the head of the L queue have read already (R245) -/
  early : Tbl (Option (BitVec 256)) := []
deriving DecidableEq, Repr, Inhabited

/-! ## The matrix side (R200 to R216) -/

/-- An accumulator row: one exponent, and the nonzero mantissas by column (R112). -/
structure AccRow where
  e : Int := -512
  m : Tbl Int := []
deriving DecidableEq, Repr, Inhabited

/-- One beat of a check window (R215): the row written, neg, whether the row has been made empty or replaced since (`dead`), the scale
product of each half as f32 bits, and whether its row check failed (`bad`, R216). -/
structure Beat where
  row : Nat := 0
  neg : Bool := false
  dead : Bool := false
  bad : Bool := false
  scale : Tbl (BitVec 32) := []
deriving DecidableEq, Repr, Inhabited

/-- An open ABFT window (R215): its plane, its beats, and the running sums of the activation vectors, of the chunks of every column, and
of the chunks' tolerances (R216); `exact` while its beats are of e4m3, i8 or INT4 alone (R216), `spoiled` when its saved block failed
its check word (R414). -/
structure Window where
  plane : Nat := 0
  beats : List Beat := []
  act : Tbl Dy := []
  sum : Tbl Dy := []
  tol : Tbl Dy := []
  exact : Bool := true
  spoiled : Bool := false
deriving DecidableEq, Repr, Inhabited

/-- The accumulators and the weight side (R22, R200). Accumulators 4 and 5 are sacc0 and sacc1. -/
structure Mat where
  /-- row `r` of accumulator `a` at `128 * a + r` -/
  acc : Tbl AccRow := []
  /-- open window of each accumulator -/
  win : Tbl (Option Window) := []
  /-- weight row `r` of physical plane `p` at `128 * p + r`, by column -/
  wp : Tbl (Tbl Dy) := []
  /-- format class of each plane: 0 8-bit floating, 1 integer, 2 16-bit floating -/
  cls : Tbl Nat := []
  /-- the format code with which weight row `r` of plane `p` was loaded, at `128 * p + r` (R414) -/
  rowFmt : Tbl Nat := []
  /-- half scale `h` of plane `p` at `16 * p + h`, as f32 bits; 1.0 where none is listed -/
  half : Tbl Nat := []
  psel : Bool := false
  rnm : Nat := 0
  /-- shape records -/
  sh : Tbl (BitVec 256) := []
deriving DecidableEq, Repr, Inhabited

/-! ## Speculation and segments -/

/-- The registers a speculation checkpoint holds (R420). -/
structure SpecSave where
  s : Tbl Word := []
  b : Tbl Word := []
  q : Tbl Bool := []
  lc : Tbl (BitVec 32) := []
  loops : List LoopRec := []
  fmt : Nat := 0
  a : Tbl Word := []
  sh : Tbl (BitVec 256) := []
  v : Tbl VReg := []
  p : Tbl PReg := []
deriving DecidableEq, Repr, Inhabited

/-- A queued store: address, size code and data (R423, R430). -/
structure SpecStore where
  va : Nat := 0
  sz : Nat := 0
  data : Word := 0
deriving DecidableEq, Repr, Inhabited

/-- The speculation state (R420 to R429). -/
structure Spec where
  isOpen : Bool := false
  /-- the opening of the region: the first bundle index that may be dispatched in it -/
  first : Nat := 0
  cond : Word := 0
  exp : Word := 0
  alt : Word := 0
  /-- the physical address of the watched word -/
  pa : Nat := 0
  drops : Nat := 0
  last : Nat := 0
  /-- the accumulator mapped to each shadow -/
  map0 : Option Nat := none
  map1 : Option Nat := none
  store : List SpecStore := []
  /-- a 65th store waits -/
  full : Bool := false
  save : SpecSave := {}
  /-- an abort waits to be taken, with its cause (R426) -/
  pending : Option Nat := none
  /-- a matching write commits the region for the waiting store (R423) -/
  commit : Bool := false
deriving DecidableEq, Repr, Inhabited

/-- The checkpoint of an open segment (R97, R484, R487). -/
structure Seg where
  pc : Word := 0
  idx : Nat := 0
  v : Tbl VReg := []
  p : Tbl PReg := []
  a : Tbl Word := []
  latches : List Latch := []
  loops : List LoopRec := []
  fmt : Nat := 0
  fmtw : List FmtWrite := []
  rdv : Tbl (BitVec 32) := []
  rewinds : Nat := 0
deriving DecidableEq, Repr, Inhabited

/-- What the C slot restores when a later field of one bundle raises a fault (R37): the operations of the bundle and the segment as they
stood before its first field acted. `counted` marks that its RDV has counted (R98). -/
structure CUndo where
  ops : List Instr := []
  seg : Option Seg := none
  rewound : Option (Nat × Nat) := none
  counted : Bool := false
deriving DecidableEq, Repr, Inhabited

/-- A sync record of an aligned 8-byte word (R290). -/
structure SyncRec where
  tag : Nat := 0
  core : Nat := 0
  pkg : Nat := 0
  scope : Nat := 0
deriving DecidableEq, Repr, Inhabited

/-! ## Tasks -/

/-- The resource header as read at first dispatch (R380, R450). -/
structure Header where
  spm : Nat := 0
  cwt : Nat := 0
  holes : Nat := 0
  domains : Nat := 0
  barriers : Nat := 0
  counters : Nat := 0
  extent : Nat := 0
  base : Word := 0
  stubs : Nat := 0
deriving DecidableEq, Repr, Inhabited

/-- What the device holds of a task beside its registers, from TSPAWN or the letterbox to retirement: the envelope (R378), its
ASID and launch data (R440, R474), and where the scheduler has it. -/
structure TaskRec where
  tag : Nat := 0
  env : Nat := 0
  asid : Nat := 0
  pc : Word := 0
  hdr : Nat := 0
  save : Nat := 0
  inE : Nat := 0
  outE : Nat := 0
  exit : Nat := 0
  susp : Nat := 0
  st : Nat := 0
  dom : Nat := 0
  gw : Nat := 0
  prio : Nat := 0
  cls : Nat := 0
  tint : Nat := 0
  age : Nat := 0
  intens : Nat := 0
  adopt : Nat := 0
  lcv : Bool := false
  last : Nat := 0
  parent : Nat := 0
  cntbase : Nat := 0
  topoen : Nat := 0
  /-- the letterbox that launched it, if any -/
  lbox : Option Nat := none
  /-- the die whose sorting frame it was given to -/
  die : Nat := 0
  /-- a hold for its last core is in force (R403) -/
  held : Bool := false
  /-- dispatched at least once -/
  ran : Bool := false
  /-- the word that suspended it completes with this result in its destination register (R391, R393, R394) -/
  result : Option Word := none
  /-- it resumes through the acquire of that completion, at this scope -/
  acquire : Option Nat := none
  /-- the tag it awaits in TWAIT, or the domain in whose DBAR it is suspended -/
  awaits : Option Nat := none
deriving DecidableEq, Repr, Inhabited

/-- The per-task system registers (R470) other than STS, FMT and RNMCOUNT, which have their own homes. -/
structure TaskRegs where
  adoptpol : Nat := 0
  vhold : Word := 0
  /-- VPINS0 to VPINS3 -/
  vpins : Tbl Word := []
  rdvdom : Nat := 0
  acqepoch : Nat := 0
  rdvcnt : Tbl (BitVec 32) := []
  cntbase : Nat := 0
  topoen : Nat := 0
  spawnasid : Nat := 0
  rnme : Bool := false
  timerPending : Bool := false
  rnmPending : Bool := false
  timer : Nat := 0
deriving DecidableEq, Repr, Inhabited

/-- A task's context on the core that runs it. -/
structure Task where
  pc : Word := 0
  s : Tbl Word := []
  b : Tbl Word := []
  q : Tbl Bool := []
  lc : Tbl (BitVec 32) := []
  loops : List LoopRec := []
  /-- loaded CWT entries -/
  cwt : Tbl (Option (BitVec 256)) := []
  sts : Word := 0
  /-- x registers at 0 to 31, y registers at 32 to 63 -/
  v : Tbl VReg := []
  /-- xp0 to xp7 at 0 to 7, yp0 to yp7 at 8 to 15 -/
  p : Tbl PReg := []
  a : Tbl Word := []
  key : BitVec 128 := 0
  stride : BitVec 128 := 0
  ctr : Tbl (BitVec 128) := []
  /-- residue of lane `l` of V slot `v` at `128 * v + l`, as f32 bits (R127) -/
  rsd : Tbl (BitVec 32) := []
  hole : Tbl (BitVec 256) := []
  slots : Slots := {}
  mat : Mat := {}
  spec : Spec := {}
  seg : Option Seg := none
  /-- the rewinds already taken from the entry being issued again, at its index (R487) -/
  rewound : Option (Nat × Nat) := none
  /-- the C slot has performed fields of the bundle at its head (R37) -/
  undo : Option CUndo := none
  /-- the pending-mismatch latch (R101) -/
  mismatch : Bool := false
  /-- engine shadow sets: parameter `k` of engine `e` at `32 * e + k` (R305) -/
  eng : Tbl Word := []
  /-- the launch count that gives SEQ (R308) -/
  seq : Nat := 0
  /-- the latest releasing FENCE's scope, if one was executed (R290) -/
  fenced : Option Nat := none
  /-- the sync records its scalar reads have met (R289) -/
  seen : List SyncRec := []
  /-- a release waits for a tick: the epoch when it was first attempted (R298) -/
  tick : Option Nat := none
  regs : TaskRegs := {}
  hdr : Header := {}
  me : TaskRec := {}
  /-- gang width 1, 2 or 4 -/
  g : Nat := 1
  /-- stub mode, its resume PC and its record (R408 to R411) -/
  stub : Bool := false
  resume : Word := 0
  stubrec : List Byte := []
  /-- storage-side granules of its registers marked poisoned (R481, R483): 0 to 63 the scalar registers, 64 to 71 the branch
  registers, 72 the q file, 73 and 74 the loop counters two by two, `128 + 4 n + w` word `w` of shape record `n`, `192 + 4 n + w`
  that of handle `n`, `0x1000 + r` system register `r` below 0x100, `0x2000 + 4 k + w` word `w` of CWT entry `k` -/
  poison : List Nat := []
  /-- a word of the stream that waits has begun: 1 an OCSET that has sent its descriptor, 2 a WFE with a time bound, 3 a WFE
  without one -/
  begun : Nat := 0
  /-- run statistics for INTENS: HBM bytes, array beats, V operations, and whether the run reached 1 µs (R404) -/
  hbmBytes : Nat := 0
  beats : Nat := 0
  vops : Nat := 0
  ranUs : Bool := false
deriving DecidableEq, Repr, Inhabited

/-! ## Cores and jobs -/

/-- An L1 line: its bytes and a dirty bit for each (R253), and the sync records its words had when it was filled (R290). -/
structure L1Line where
  data : BitVec 1024 := 0
  dirty : BitVec 128 := 0
  recs : Tbl (Option SyncRec) := []
deriving DecidableEq, Repr, Inhabited

/-- The filter state of one request of a SINK job in one HBM stack (R368): m and s as f32 bits, the counts, and the shortlist in
descending order. -/
structure SinkReq where
  m : Nat := 0xFF800000
  s : Nat := 0
  c : Nat := 0
  nan : Nat := 0
  top : List (Nat × Nat) := []
deriving DecidableEq, Repr, Inhabited

/-- A packet a port job has sent and that is not answered yet, with the fibre it went by and how often it was moved. -/
structure InFlight where
  pkt : Packet := {}
  fibre : Nat := 0
  tg : Nat := 0
  moved : Bool := false
deriving DecidableEq, Repr, Inhabited

/-- A job-table entry (R308 to R321). -/
structure Job where
  /-- the entry has been used: the status, tag and SEQ below are those of the last job -/
  used : Bool := false
  eng : Nat := 0
  par : Tbl Word := []
  /-- STATE of R319 -/
  st : Nat := 0
  reason : Nat := 0
  units : Nat := 0
  ack : Bool := false
  fva : Nat := 0
  seq : Nat := 0
  tag : Nat := 0
  dom : Nat := 0
  acq : Nat := 0
  asid : Nat := 0
  priv : Bool := false
  tint : Nat := 0
  g : Nat := 1
  spm : Nat := 0
  core : Nat := 0
  /-- unfinished jobs it depends on: core, entry and SEQ (R309) -/
  deps : List (Nat × Nat × Nat) := []
  /-- the mapped package counters: completion, ARMPUT trigger and ARMPUT failure -/
  cnt : Nat := 0
  trig : Nat := 0
  failc : Nat := 0
  /-- it holds its armed units (R313) -/
  armed : Bool := false
  /-- physical ranges of an armed range: base and length (R324, R343, R368) -/
  ranges : List (Nat × Nat) := []
  /-- bytes a tracker has counted -/
  count : Nat := 0
  /-- next unit to perform, for a job that has paused -/
  pos : Nat := 0
  /-- the element of an index list that it is in, and its index, read once (R323) -/
  idx : Option (Nat × Nat) := none
  /-- request `r` in stack `k` of the die at `3 * r + k` -/
  sink : Tbl SinkReq := []
  /-- bytes acknowledged of each member, for NMRED (R344) -/
  acked : Tbl Nat := []
  /-- resolution of a port job (R338) -/
  route : Option (Nat × Nat) := none
  fg : Nat := 0
  tg : Nat := 0
  member : Nat := 0
  flight : List InFlight := []
  unsent : List Packet := []
  /-- packets answered Moved that go out once more, in ascending offset (R351) -/
  resend : List InFlight := []
  /-- the trigger of an ARMPUT has met its threshold (R342) -/
  fired : Bool := false
  /-- its place among the starts of its core's jobs (R333) -/
  order : Nat := 0
  /-- it has stopped and waits only for responses (R321) -/
  stopping : Option Nat := none
deriving DecidableEq, Repr, Inhabited

/-- A suspension that the core has begun and that waits for the task's jobs on its scratchpad (R413): the kind of save, SUSP and
STATE, the resume PC, and the fault record to write, if any: TRAPCAUSE, TRAPPC, TRAPINFO0 to 3 and the original cause. -/
structure Leave where
  kind : Nat := 3
  susp : Nat := 0
  st : Nat := 1
  pc : Word := 0
  record : Option (Word × Word × List Nat × Word) := none
deriving DecidableEq, Repr, Inhabited

/-- A core's own hardware. -/
structure CoreHw where
  /-- it runs a task -/
  busy : Bool := false
  /-- the lead of the gang that holds it as a parked member -/
  lead : Option Nat := none
  l1 : Tbl (Option L1Line) := []
  /-- poisoned 8-byte granules of the lines the L1 holds, by number (R481) -/
  l1Poison : List Nat := []
  /-- the L1 TLB, at most 64 leaf translations, the latest first: ASID, base of the page, level and leaf (R18, R446) -/
  tlb : List (Nat × Nat × Nat × Nat) := []
  spm : Tbl Byte := []
  spmPoison : List Nat := []
  /-- the job table: entry `e` at `e`, and the job that left it last, while a later one holds it, at `32 + e` (R308) -/
  jobs : Tbl Job := []
  trap : Bool := false
  cause : Word := 0
  trappc : Word := 0
  /-- TRAPINFO0 to TRAPINFO3 -/
  info : Tbl Word := []
  /-- the trap bank: the task's s60 to s63 while in trap mode, the handler's otherwise (R456) -/
  bank : Tbl Word := []
  /-- which of the bank's registers are marked poisoned, 60 to 63 (R481, R483) -/
  bankPoison : List Nat := []
  priv : Bool := false
  prior : Bool := false
  /-- pending pre-emption request (R406) -/
  req : Option Nat := none
  /-- GRACE has run out in trap mode (R412) -/
  frozenDue : Bool := false
  /-- a rewind waits to be taken, with its cause (R486) -/
  rewind : Option Nat := none
  /-- the tint byte in force until the core takes a new one (R417) -/
  tint : Nat := 3
  /-- a doorbell of a letterbox of its die has rung under a supervisor since WFE began, or WFE's time has run out -/
  woken : Bool := false
  /-- slots whose issue a regulator withholds (R21) -/
  throttled : List Nat := []
  /-- half cleared of its binding when the task suspends (R492) -/
  unbind : Bool := false
  /-- a suspension has begun -/
  leaving : Option Leave := none
  /-- GRACE of a request that a YIELDPT honoured still counts, while its stub runs (R410) -/
  grace : Bool := false
deriving DecidableEq, Repr, Inhabited

/-- What one core holds, for the cores other than the one in focus. -/
structure CoreCtx where
  c : CoreHw := {}
  t : Task := {}
deriving DecidableEq, Repr, Inhabited

/-! ## Dies -/

/-- A die: its scheduler, regulators, trap registers and black box (R398 to R406, R452, R470, R497). -/
structure Die where
  tintmap : Tbl Nat := []
  bindmap : Tbl Nat := []
  weight : Tbl Nat := []
  ageLimit : Nat := 500
  quantum : Tbl Nat := []
  grace : Nat := 50
  /-- BUDGET_HBM, BUDGET_FAB, BUDGET_ADD -/
  budget : Tbl Nat := []
  /-- spend of the period: tint `t` of regulator `r` at `4 * r + t`, in bytes or operations -/
  spend : Tbl Nat := []
  trapvec : Word := 0
  trapext : Word := 0
  faultring : Word := 0
  faultcnt : Nat := 0
  /-- tags waiting in queue (tint, class, effective priority) at `16 * tint + 4 * class + priority` -/
  queues : Tbl (List Nat) := []
  /-- deficits and the class served last, by tint (R402) -/
  deficit : Tbl Nat := []
  served : Tbl (Option Nat) := []
  /-- black box: bytes of its records, the records written and lost -/
  box : Tbl Byte := []
  written : Nat := 0
  lost : Nat := 0
  /-- RNMCOUNT events of each core in the period (R498) -/
  storm : Tbl Nat := []
  /-- the last-level TLB, at most 16,384 leaf translations, the latest first: ASID, base of the page, level and leaf (R18, R446) -/
  tlb : List (Nat × Nat × Nat × Nat) := []
deriving DecidableEq, Repr, Inhabited

/-! ## The package -/

/-- A race tag (R297). -/
structure Tag where
  wv : Bool := false
  wtask : Nat := 0
  wdom : Nat := 0
  wphase : Nat := 0
  wepoch : Nat := 0
  rv : Bool := false
  rmulti : Bool := false
  rtask : Nat := 0
  repoch : Nat := 0
deriving DecidableEq, Repr, Inhabited

/-- An L2 line that is resident: its retention hint, its place in the order of use within its set, and the tint its write-back is
charged to, 4 where that is none (R249, R452). -/
structure L2Line where
  hint : Nat := 1
  last : Nat := 0
  tint : Nat := 4
deriving DecidableEq, Repr, Inhabited

/-- One field of SCOPEREC (R329). -/
inductive ScopeField where
  | none
  | one (origin : Nat)
  | mixed
deriving DecidableEq, Repr, Inhabited

/-- SCOPEREC of a counter: fields for .t, .c and .d. -/
structure ScopeRec where
  t : ScopeField := .none
  c : ScopeField := .none
  d : ScopeField := .none
deriving DecidableEq, Repr, Inhabited

/-- A live domain (R386). -/
structure Domain where
  level : Nat := 0
  parent : Nat := 0
  anchor : Nat := 0
  asid : Nat := 0
  list : Option Nat := none
  /-- members: bit index (0 in list form), tag, and whether its first DBAR has been counted (R451) -/
  members : List (Nat × Nat × Bool) := []
  phase : BitVec 32 := 0
  gen : Nat := 0
  arrived : List Nat := []
  /-- the package that holds the entry of a fabric-level domain, where that is another one (R386) -/
  home : Option Nat := none
  /-- what tasks of this package have asked an entry elsewhere: the asker, and the answer once it is known, a GEN or a refusal -/
  asks : List (Nat × Option (Option Nat)) := []
  /-- the RDVCNT of members that run on other packages, by tag and counter, as they last told (R98): counter `n` of tag `t` at
  `8 * t + n` -/
  rdv : Tbl (BitVec 32) := []
  /-- the last completion record: phase, generation, member count and mask -/
  record : Word × Nat × Nat × Nat := (0, 0, 0, 0)
deriving DecidableEq, Repr, Inhabited

/-- A version-table entry (R354) with the physical 64 KiB pages it sealed (R359). -/
structure VEntry where
  st : Nat := 0
  version : Nat := 0
  pins : Nat := 0
  wbase : Nat := 0
  sbase : Nat := 0
  slen : Nat := 0
  wlen : Nat := 0
  pages : List Nat := []
deriving DecidableEq, Repr, Inhabited

/-- A VPUB.f whose targets have not all answered (R360). -/
structure Publish where
  handle : Nat := 0
  index : Nat := 0
  version : Nat := 0
  waiting : List Nat := []
  published : Nat := 0
  refused : Nat := 0
  list : Nat := 0
  asid : Nat := 0
  priv : Bool := false
  cen : Bool := false
  cnt : Nat := 0
  core : Nat := 0
  tag : Nat := 0
  tint : Nat := 0
  /-- TG as the transfer began (R341) -/
  tg : Nat := 0
  /-- the nodes to which it has not gone out whole, and how many packets of it each has still to be sent -/
  left : List (Nat × Nat) := []
deriving DecidableEq, Repr, Inhabited

/-- A receiving lane (R493, R494). -/
structure Lane where
  corr : Nat := 0
  uncorr : Nat := 0
  preber : Nat := 0
  /-- symbols corrected in the current window so far -/
  win : Nat := 0
  /-- uncorrectable codewords in the current window -/
  bad : Nat := 0
  out : Bool := false
  /-- it left service within the current window, which is not a full one of its retraining -/
  cut : Bool := false
  removals : Nat := 0
deriving DecidableEq, Repr, Inhabited

/-- A flit being replayed on a port: its number, its VC and the replays so far (R495). -/
structure Replay where
  flit : Nat := 0
  vc : Nat := 0
  count : Nat := 0
deriving DecidableEq, Repr, Inhabited

/-- A letterbox's ring position and error register (R474). -/
structure LetterBox where
  prod : Nat := 0
  cons : Nat := 0
  rejected : Nat := 0
  firstBad : Nat := 0
deriving DecidableEq, Repr, Inhabited

/-- An OCSET in progress (R349): the core that issued it, its destination register, the TG it asked for, and the switch's answer once it
is known. -/
structure Ocset where
  core : Nat := 0
  rd : Nat := 0
  tg : Nat := 0
  answer : Option (Bool × Nat) := none
deriving DecidableEq, Repr, Inhabited

/-- What the device keeps of a suspended task beside its save area, because R414's layout has no place for it: the header's values
(R450), the launch count, the FENCE and sync records of R289 and R290, poisoned registers, and the results and configuration writes in
flight beyond the room of their areas (log entry 72). -/
structure Parked where
  hdr : Header := {}
  /-- the per-task system registers, whose pins a kill releases where the save area cannot be read (R383) -/
  regs : TaskRegs := {}
  seq : Nat := 0
  fenced : Option Nat := none
  seen : List SyncRec := []
  poison : List Nat := []
  latches : List Latch := []
  fmtw : List FmtWrite := []
  cfg : List CfgWrite := []
deriving DecidableEq, Repr, Inhabited

/-- What the package sends to the outside: packets on its fibres, descriptors to the switch, and interrupts and answers to the host and
the mailbox. -/
inductive Out where
  | packet (fibre : Nat) (p : Packet)
  | quiesced (fibre : Nat)
  | descriptor (tg : Nat) (entries : List Nat)
  | msix (vector : Nat)
  | data (bytes : List Byte) (poison : Bool)
  | snooped (line : Nat) (bytes : List Byte)
  | attestation (nonce : Nat) (digests : List Nat) (bootstat : Nat)
deriving DecidableEq, Repr, Inhabited

/-- Everything the package holds once. -/
structure Pkg where
  /-- bytes of HBM, package scratch and host memory, by physical address -/
  mem : List Host.Cell := []
  /-- bytes the L2 holds dirty over memory -/
  dirty : Tbl (Option Byte) := []
  l2 : Tbl (Option L2Line) := []
  /-- poisoned granules: first byte, length and structure, 4 of the L2's copy of a line or of the scratch banks, 5 of memory (R481, R483) -/
  poison : List (Nat × Nat × Nat) := []
  /-- poisoned system registers from 0x100 on: register `r` at `0x1000 * die + r`, those of the package at die 0 -/
  regPoison : List Nat := []
  tags : Tbl Tag := []
  sidecar : Tbl Tag := []
  /-- lines whose tag is poisoned, in the L2 or scratch bank or, of a line that the L2 does not hold, in the sidecar (R481) -/
  tagPoison : List Nat := []
  /-- the sync record of each aligned word as its order point holds it, and as memory below the L2 does (R256, R290) -/
  sync : Tbl (Option SyncRec) := []
  syncMem : Tbl (Option SyncRec) := []
  /-- adder residues: lane `l` of unit `u` at `32 * u + l`, as f32 bits (R131) -/
  adder : Tbl (BitVec 32) := []
  epoch : Nat := 0
  tickWanted : Bool := false
  counters : Tbl (BitVec 32) := []
  scoperec : Tbl ScopeRec := []
  domains : Tbl (Option Domain) := []
  versions : Tbl VEntry := []
  publishes : List Publish := []
  tasks : Tbl (Option TaskRec) := []
  parked : Tbl (Option Parked) := []
  /-- idle cores for which the frame selects at once, before anything else moves (R403) -/
  atOnce : List Nat := []
  lastTag : Nat := 0
  /-- the package's own physical number in the fabric -/
  number : Nat := 0
  tg : Nat := 0
  fibgen : Tbl Nat := []
  circuit : Tbl (Option (Nat × Nat)) := []
  fg : Nat := 0
  fwd : Tbl Word := []
  /-- next sequence number by VC and target package, at `4096 * vc + package` -/
  pktSeq : Tbl Nat := []
  /-- how many more attempts to send on VC `v` of fibre `f` will find it without a credit, at `8 * f + v` (R332) -/
  stall : Tbl Nat := []
  /-- responses and control packets that wait for their fibre or a credit (R332, R349) -/
  held : List Packet := []
  /-- packets that have arrived behind one of their VC whose flit is in replay, with the kind of their arrival (R495) -/
  reseq : List (Nat × Packet) := []
  /-- generation and live mask of a domain of another package, as a notice last told (R345) -/
  told : Tbl (Option (Nat × Nat)) := []
  /-- jobs of other packages, by package, core and entry, and SEQ, of which this package has refused a packet (R341) -/
  spoilt : List (Nat × Nat × Nat) := []
  quiet : List Nat := []
  ocset : Option Ocset := none
  lanes : Tbl Lane := []
  portDown : List Nat := []
  /-- flit `n` of fibre `f` at `32 * n + f` -/
  replay : Tbl Replay := []
  ptbase : Nat := 0
  nodeid : Nat := 0
  fwinbase : Nat := 0
  fwinlen : Nat := 0
  fwinasid : Nat := 0
  fcntbase : Nat := 0
  vsealdrop : Nat := 0
  /-- owner ASID by handle (VOWNER0 to 7) -/
  vowner : Tbl Nat := []
  laneLimit : Word := 0x0000080000008000
  suspectLimit : Nat := 0x140
  bootReason : Nat := 0
  bootCount : Nat := 0
  minimal : Bool := false
  secver : Nat := 0
  minSecver : Nat := 0
  measure : Tbl Nat := []
  booted : Bool := false
  bootWatch : Bool := false
  lba : Tbl Word := []
  lbb : Tbl Word := []
  boxes : Tbl LetterBox := []
  /-- suspect score of a half, by its number (R501) -/
  score : Tbl Nat := []
  quarantined : List Nat := []
  /-- the halves found defective at test, which no reset changes (R12) -/
  defective : List Nat := []
  /-- the host's decoders of exposed HBM: base and length, in bytes, of decoder 0 to 3 (R473) -/
  hdm : Tbl (Nat × Nat) := []
  /-- the noise source has failed its health test (R467) -/
  noiseBad : Bool := false
  /-- noise outputs given -/
  noiseN : Nat := 0
deriving DecidableEq, Repr, Inhabited

/-! ## The model's own inputs -/

/-- Which agent moves next. -/
inductive Turn where
  /-- core `n`, by its own order: an event that is due, a slot that is ready, or the stream -/
  | core (n : Nat)
  /-- slot `k` of core `n` -/
  | slot (n k : Nat)
  /-- the next stream item of core `n` -/
  | stream (n : Nat)
  /-- the region of core `n`, whose commit a write of its condition word has decided (R423) -/
  | commit (n : Nat)
  /-- the ports: a packet that waits, or the next packet of a broadcast (R332, R360) -/
  | ports
  /-- an event of core `n` (the lead core where it is one of a task), with its input -/
  | event (n : Nat) (i : Instr) (a : Arg)
deriving DecidableEq, Repr, Inhabited

/-- A hardware error to come, consumed by the operation it strikes. -/
inductive Upset where
  /-- elements of the next duplicated operation: the element, and the xors that change the original, the duplicate and the third -/
  | dup (elements : List (Nat × Nat × Nat × Nat))
  /-- column `n` of the next beat's chunks is off by `d` -/
  | chunk (n : Nat) (d : Dy)
deriving DecidableEq, Repr, Inhabited

/-- The machine. `cur` is the core in focus, whose hardware and task are `c` and `t`; the other cores are in `others`. -/
structure State where
  cur : Nat := 0
  t : Task := {}
  c : CoreHw := {}
  others : Tbl CoreCtx := []
  dies : Tbl Die := []
  pkg : Pkg := {}
  /-- who moves next; empty means the model's own order, starting at the core in focus -/
  turns : List Turn := []
  /-- the input of the event being performed -/
  arg : Arg := .none
  outbox : List Out := []
  upsets : List Upset := []
  /-- free values already used (the model's own field) -/
  free : Nat := 0
deriving DecidableEq, Repr, Inhabited

/-- The machine right after a cold reset: every table empty, so every entry at its default. What those defaults are where the
spec states no reset value is named in the assumption log. -/
def State.reset : State := {}

end Sys2Proof.Machine
end

