-- ==== Sys2Proof/Machine/Table.lean ====
section
/-! DEFINITION. The operations on sparse tables and on byte lists, once for registers, memory and everything else. -/

namespace Sys2Proof.Machine

/-- The value at `k`; `d` where the table lists none. -/
def tget {α : Type} (d : α) (m : Tbl α) (k : Nat) : α :=
  match m with
  | [] => d
  | (j, v) :: rest => if j = k then v else tget d rest k

/-- The table without an entry at `k`. -/
def terase {α : Type} (m : Tbl α) (k : Nat) : Tbl α :=
  match m with
  | [] => []
  | (j, v) :: rest => if j = k then terase rest k else (j, v) :: terase rest k

/-- The table with an entry put before the first larger key. -/
def tinsert {α : Type} (m : Tbl α) (k : Nat) (v : α) : Tbl α :=
  match m with
  | [] => [(k, v)]
  | (j, w) :: rest => if k < j then (k, v) :: (j, w) :: rest else (j, w) :: tinsert rest k v

/-- Write `v` at `k`; a value equal to the default removes the entry. -/
def tset {α : Type} [DecidableEq α] (d : α) (m : Tbl α) (k : Nat) (v : α) : Tbl α :=
  if v = d then terase m k else tinsert (terase m k) k v

/-- Keys strictly rising and no entry equal to the default. -/
def twf {α : Type} [DecidableEq α] (d : α) (m : Tbl α) : Bool :=
  match m with
  | [] => true
  | (k, v) :: rest => decide (v ≠ d) && rest.all (fun e => k < e.1) && twf d rest

/-- The entries with keys in [lo, lo + n), keys counted from `lo`. -/
def tslice {α : Type} (m : Tbl α) (lo n : Nat) : Tbl α :=
  (m.filter fun e => lo ≤ e.1 && e.1 < lo + n).map fun e => (e.1 - lo, e.2)

/-- The entries with keys outside [lo, lo + n). -/
def tclear {α : Type} (m : Tbl α) (lo n : Nat) : Tbl α :=
  m.filter fun e => !(lo ≤ e.1 && e.1 < lo + n)

/-- The entries with keys shifted up by `k`. -/
def tshift {α : Type} (m : Tbl α) (k : Nat) : Tbl α := m.map fun e => (e.1 + k, e.2)

/-- Write the listed values one after another. -/
def tputs {α : Type} [DecidableEq α] (d : α) (m : Tbl α) (vs : List (Nat × α)) : Tbl α :=
  vs.foldl (fun m e => tset d m e.1 e.2) m

/-- Memory (R246): the canonical list of bytes. An unlisted byte reads 0 (DESIGN CHOICE, log entry 2). -/
def Memory.wf (m : List Host.Cell) : Bool := twf 0 m

/-- A little-endian natural (R1). -/
def leNat (bs : List Byte) : Nat :=
  match bs with
  | [] => 0
  | b :: rest => b.toNat + 256 * leNat rest

/-- The `n` little-endian bytes of a natural. -/
def leBytes (n v : Nat) : List Byte :=
  match n with
  | 0 => []
  | n + 1 => BitVec.ofNat 8 v :: leBytes n (v / 256)

/-- Bytes `lo` to `lo + n - 1` of a table of bytes. -/
def tbytes (m : Tbl Byte) (lo n : Nat) : List Byte := (List.range n).map fun k => tget 0 m (lo + k)

/-- Write a list of bytes from `lo` on. -/
def tputBytes (m : Tbl Byte) (lo : Nat) (bs : List Byte) : Tbl Byte :=
  match bs with
  | [] => m
  | b :: rest => tputBytes (tset 0 m lo b) (lo + 1) rest

/-- A bit field of a wide word. -/
def fld {w : Nat} (x : BitVec w) (hi lo : Nat) : Nat := (x.toNat / 2 ^ lo) % 2 ^ (hi + 1 - lo)

/-- The signed value of the low `n` bits of a natural. -/
def sext (n v : Nat) : Int :=
  let x := v % 2 ^ n
  if x < 2 ^ (n - 1) then (x : Int) else (x : Int) - 2 ^ n

/-- An integer wrapped to `n` bits. -/
def wrapN (n : Nat) (x : Int) : Nat := (x % (2 ^ n : Nat)).toNat

/-- Whether two ranges share a byte. -/
def overlaps (a n b m : Nat) : Bool := 0 < n && 0 < m && a < b + m && b < a + n

end Sys2Proof.Machine
end

