-- ==== Sys2Proof/Machine/Arith.lean ====
section
/-! DEFINITION. Number formats, rounding and the exact arithmetic under them (R105 to R131). Exact reals are dyadic: a quotient
or a root is carried with far more bits than any format has and a last bit that says whether something was left over, which
rounds as the exact value does. -/

namespace Sys2Proof.Machine

/-! ## Exact reals -/

/-- bitlength (R114). -/
def bitlen (n : Nat) : Nat := if n = 0 then 0 else Nat.log2 n + 1

/-- floor(log2 |x|) of `m * 2^e`, `m ≠ 0`. -/
def dyLog (x : Dy) : Int := (bitlen x.m.natAbs : Int) - 1 + x.e

def dyZero : Dy := { m := 0, e := 0 }
def dyOfInt (n : Int) : Dy := { m := n, e := 0 }

/-- The mantissa of `x` on the grid 2^q, `q ≤ x.e`. -/
def dyAt (x : Dy) (q : Int) : Int := x.m * 2 ^ (x.e - q).toNat

def dyAdd (x y : Dy) : Dy :=
  if x.m = 0 then y
  else if y.m = 0 then x
  else
    let q := if x.e ≤ y.e then x.e else y.e
    { m := dyAt x q + dyAt y q, e := q }

def dyNeg (x : Dy) : Dy := { m := -x.m, e := x.e }
def dyMul (x y : Dy) : Dy := if x.m = 0 || y.m = 0 then dyZero else { m := x.m * y.m, e := x.e + y.e }
def dyAbs (x : Dy) : Dy := { m := (x.m.natAbs : Int), e := x.e }

/-- Sign of x - y: -1, 0 or 1. -/
def dyCmp (x y : Dy) : Int := Int.sign (dyAdd x (dyNeg y)).m
def dyLt (x y : Dy) : Bool := dyCmp x y < 0
def dyEq (x y : Dy) : Bool := dyCmp x y = 0

/-- The same real with an odd mantissa, or zero. `fuel` bounds the shifts. -/
def dyNorm (fuel : Nat) (x : Dy) : Dy :=
  match fuel with
  | 0 => x
  | fuel + 1 => if x.m = 0 then dyZero else if x.m % 2 = 0 then dyNorm fuel { m := x.m / 2, e := x.e + 1 } else x

/-- align_trunc (R114) as the multiple of 2^q. -/
def alignM (x : Dy) (q : Int) : Int := if q ≤ x.e then dyAt x q else x.m.fdiv (2 ^ (q - x.e).toNat)

/-! ## Formats (R108) -/

/-- A floating format: width, mantissa bits, exponent bits and bias. -/
structure Fmt where
  bits : Nat
  mb : Nat
  eb : Nat
  bias : Nat
deriving DecidableEq, Repr, Inhabited

def e4m3 : Fmt := { bits := 8, mb := 3, eb := 4, bias := 7 }
def e5m2 : Fmt := { bits := 8, mb := 2, eb := 5, bias := 15 }
def bf16 : Fmt := { bits := 16, mb := 7, eb := 8, bias := 127 }
def f16 : Fmt := { bits := 16, mb := 10, eb := 5, bias := 15 }
def f32 : Fmt := { bits := 32, mb := 23, eb := 8, bias := 127 }
def f64 : Fmt := { bits := 64, mb := 52, eb := 11, bias := 1023 }

/-- The format of a vector type code (R55). -/
def fmtOf (ty : Nat) : Fmt :=
  match ty with
  | 0 => e4m3
  | 1 => e5m2
  | 2 => bf16
  | 3 => f16
  | _ => f32

def Fmt.emin (f : Fmt) : Int := 1 - (f.bias : Int)
def Fmt.isE4 (f : Fmt) : Bool := f.bits == 8 && f.mb == 3

/-- The largest finite value (R108, R109). -/
def Fmt.maxFin (f : Fmt) : Dy :=
  if f.isE4 then { m := 14, e := 5 }
  else { m := 2 ^ (f.mb + 1) - 1, e := (2 ^ f.eb - 2 : Nat) - (f.bias : Int) - (f.mb : Int) }

/-- The encoding of the largest finite value. -/
def Fmt.maxBits (f : Fmt) : Nat := if f.isE4 then 0x7E else (2 ^ f.eb - 1) * 2 ^ f.mb - 1

/-- The canonical NaN (R110, R126). -/
def Fmt.nan (f : Fmt) : Nat :=
  if f.isE4 then 0x7F else (2 ^ f.eb - 1) * 2 ^ f.mb + 2 ^ (f.mb - 1)

/-- The encoding of infinity, where the format has one. -/
def Fmt.inf (f : Fmt) : Nat := (2 ^ f.eb - 1) * 2 ^ f.mb

def Fmt.signBit (f : Fmt) (neg : Bool) : Nat := if neg then 2 ^ (f.bits - 1) else 0

/-- A decoded value: NaN (signalling or not), infinity, or a sign and a magnitude `m * 2^e`, which keeps the sign of zero. -/
inductive FV where
  | nan (sig : Bool)
  | inf (neg : Bool)
  | val (neg : Bool) (m : Nat) (e : Int)
deriving DecidableEq, Repr, Inhabited

/-- The value of an encoding (R108 to R110). -/
def decodeF (f : Fmt) (b : Nat) : FV :=
  let neg := b / 2 ^ (f.bits - 1) % 2 = 1
  let ex := b / 2 ^ f.mb % 2 ^ f.eb
  let m := b % 2 ^ f.mb
  if f.isE4 && ex = 15 && m = 7 then .nan false
  else if !f.isE4 && ex = 2 ^ f.eb - 1 then
    (if m = 0 then .inf neg else .nan (f.bits != 8 && m < 2 ^ (f.mb - 1)))
  else if ex = 0 then .val neg m (f.emin - f.mb)
  else .val neg (m + 2 ^ f.mb) ((ex : Int) - f.bias - f.mb)

/-- The signed real of a finite value. -/
def FV.dy (x : FV) : Dy :=
  match x with
  | .val neg m e => { m := if neg then -(m : Int) else m, e }
  | _ => dyZero

def FV.neg (x : FV) : Bool :=
  match x with
  | .nan _ => false
  | .inf n => n
  | .val n _ _ => n

def FV.isNan (x : FV) : Bool := match x with | .nan _ => true | _ => false
def FV.isSig (x : FV) : Bool := match x with | .nan s => s | _ => false
def FV.isInf (x : FV) : Bool := match x with | .inf _ => true | _ => false
def FV.isZero (x : FV) : Bool := match x with | .val _ 0 _ => true | _ => false
def FV.flip (x : FV) : FV :=
  match x with
  | .nan s => .nan s
  | .inf n => .inf (!n)
  | .val n m e => .val (!n) m e

/-- A real as a value, with the sign a zero takes. -/
def fvOf (zneg : Bool) (x : Dy) : FV := if x.m = 0 then .val zneg 0 0 else .val (x.m < 0) x.m.natAbs x.e

/-! ## Rounding (R113) -/

/-- Round a magnitude `m / 2^k` to an integer; modes are 0 RNE, 1 RTZ, 2 RDN, 3 RUP. -/
def roundMag (mode : Nat) (neg : Bool) (m k : Nat) : Nat :=
  let t := m / 2 ^ k
  let r := m % 2 ^ k
  match mode with
  | 0 => if 2 ^ k < 2 * r || (2 * r = 2 ^ k && t % 2 = 1) then t + 1 else t
  | 1 => t
  | 2 => if neg && r ≠ 0 then t + 1 else t
  | _ => if !neg && r ≠ 0 then t + 1 else t

/-- A magnitude `m * 2^e` rounded to a multiple of 2^q: the rounded magnitude as `n * 2^q`. -/
def roundGrid (mode : Nat) (neg : Bool) (m : Nat) (e q : Int) : Nat × Int :=
  if q ≤ e then (m * 2 ^ (e - q).toNat, q) else (roundMag mode neg m (q - e).toNat, q)

/-- floor(log2 x) of a nonzero magnitude `m * 2^e`. -/
def magLog (m : Nat) (e : Int) : Int := (bitlen m : Int) - 1 + e

/-- round_to of a nonzero magnitude `m * 2^e`: the rounded magnitude as `n * 2^q`. -/
def roundTo (f : Fmt) (mode : Nat) (neg : Bool) (m : Nat) (e : Int) : Nat × Int :=
  roundGrid mode neg m e ((if magLog m e < f.emin then f.emin else magLog m e) - f.mb)

/-- Whether a nonzero magnitude is tiny after rounding as IEEE 754 has it (R126): rounded with an exponent of unbounded range, it
lies below 2^emin. -/
def tinyAfter (f : Fmt) (mode : Nat) (neg : Bool) (m : Nat) (e : Int) : Bool :=
  let (n, q) := roundGrid mode neg m e (magLog m e - f.mb)
  dyLt { m := n, e := q } { m := 1, e := f.emin }

/-- Encode a finite magnitude that the format holds exactly. -/
def encodeF (f : Fmt) (neg : Bool) (n : Nat) (q : Int) : Nat :=
  if n = 0 then f.signBit neg
  else
    let l : Int := (bitlen n : Int) - 1 + q
    if l < f.emin then f.signBit neg + (alignM { m := n, e := q } (f.emin - f.mb)).toNat
    else
      f.signBit neg + (l + f.bias).toNat * 2 ^ f.mb + ((alignM { m := n, e := q } (l - f.mb)).toNat - 2 ^ f.mb)

/-- Flag sets (R25, R125) as masks of STS. -/
def fNV : Nat := 1
def fDZ : Nat := 2
def fOF : Nat := 4
def fUF : Nat := 8
def fNX : Nat := 16
def fSATV : Nat := 64

/-- What an overflow stores outside the scalar unit (R119). -/
def overflowVec (f : Fmt) (sat neg : Bool) : Nat × Nat :=
  if sat then (f.signBit neg + f.maxBits, fOF + fNX + fSATV)
  else if f.isE4 then (f.nan, fOF + fNX)
  else (f.signBit neg + f.inf, fOF + fNX)

/-- What a NaN or infinite result stores (R110, R120). -/
def specialVec (f : Fmt) (sat : Bool) (x : FV) : Nat × Nat :=
  match x with
  | .inf neg =>
    if f.isE4 then (if sat then (f.signBit neg + f.maxBits, fSATV) else (f.nan, fNV)) else (f.signBit neg + f.inf, 0)
  | _ => (f.nan, 0)

/-- The stored encoding and the flags of an exact result outside the scalar unit, rounded once (R113, R119, R120, R123). -/
def storeVec (f : Fmt) (mode : Nat) (sat ftz : Bool) (x : FV) : Nat × Nat :=
  match x with
  | .val neg m e =>
    if m = 0 then (f.signBit neg, 0)
    else
      let (n, q) := roundTo f mode neg m e
      let exact := dyEq { m := n, e := q } { m := m, e }
      if dyLt f.maxFin { m := n, e := q } then overflowVec f sat neg
      else if dyLt { m := n, e := q } { m := 1, e := f.emin } then
        if ftz then (f.signBit neg, fUF + fNX)
        else (encodeF f neg n q, if exact then 0 else fUF + fNX)
      else (encodeF f neg n q, if exact then 0 else fNX)
  | _ => specialVec f sat x

/-- The stored encoding and the flags of an exact result of the scalar unit (R126). -/
def storeScalar (f : Fmt) (mode : Nat) (x : FV) : Nat × Nat :=
  match x with
  | .nan _ => (f.nan, 0)
  | .inf neg => (f.signBit neg + f.inf, 0)
  | .val neg m e =>
    if m = 0 then (f.signBit neg, 0)
    else
      let (n, q) := roundTo f mode neg m e
      let exact := dyEq { m := n, e := q } { m := m, e }
      if dyLt f.maxFin { m := n, e := q } then
        let big := mode = 1 || (mode = 2 && !neg) || (mode = 3 && neg)
        (f.signBit neg + (if big then f.maxBits else f.inf), fOF + fNX)
      else (encodeF f neg n q, if exact then 0 else if tinyAfter f mode neg m e then fUF + fNX else fNX)

/-- rne onto f32 of a finite or special value, as a value; overflow gives infinity. -/
def rneF32 (x : FV) : FV := decodeF f32 (storeVec f32 0 false false x).1

/-! ## Operations on values: the exact result and the flags that do not come from rounding (R125) -/

def sigFlag (xs : List FV) : Nat := if xs.any FV.isSig then fNV else 0

/-- a + b; `rdn` is true when the mode rounds toward -infinity, which decides the sign of an exact zero (R113). -/
def fvAdd (rdn : Bool) (a b : FV) : FV × Nat :=
  match a, b with
  | .nan _, _ => (.nan false, sigFlag [a, b])
  | _, .nan _ => (.nan false, sigFlag [a, b])
  | .inf x, .inf y => if x = y then (.inf x, 0) else (.nan false, fNV)
  | .inf x, _ => (.inf x, 0)
  | _, .inf y => (.inf y, 0)
  | .val x m _, .val y n _ =>
    if m = 0 && n = 0 then (.val (if x = y then x else rdn) 0 0, 0) else (fvOf rdn (dyAdd a.dy b.dy), 0)

/-- ns_round (R128): the stored encoding, the flags and the new residue, from the residue `r` (f32 bits). A NaN or an infinite
result sets the residue to 0, as its first line says, although R168 computes such a result beside ns_round (DEDUCED, log entry
64). -/
def nsRound (f : Fmt) (sat ftz : Bool) (x : FV) (r : Nat) : Nat × Nat × Nat :=
  match x with
  | .val _ m _ =>
    let xd := x.dy
    let u := rneF32 (fvAdd false x (decodeF f32 r)).1
    match u with
    | .val un um ue =>
      if um = 0 then
        let bits := f.signBit un
        (bits, if m = 0 then 0 else fNX + fUF, 0)
      else
        let (n, q) := roundTo f 1 un um ue
        if dyLt f.maxFin { m := n, e := q } then
          let (b, fl) := overflowVec f sat un
          (b, fl, 0)
        else
          let tiny := dyLt { m := n, e := q } { m := 1, e := f.emin }
          let n' := if ftz && tiny then 0 else n
          let y : Dy := { m := if un then -(n' : Int) else n', e := q }
          let same := dyEq y xd
          let r' := dyAdd u.dy (dyNeg y)
          (encodeF f un n' q,
            (if same then 0 else fNX) + (if m ≠ 0 && tiny && !same then fUF else 0),
            (storeVec f32 0 false false (fvOf false r')).1)
    | _ =>
      let (b, fl) := overflowVec f sat u.neg
      (b, fl, 0)
  | _ =>
    let (b, fl) := specialVec f sat x
    (b, fl, 0)

/-- a * b. -/
def fvMul (a b : FV) : FV × Nat :=
  match a, b with
  | .nan _, _ => (.nan false, sigFlag [a, b])
  | _, .nan _ => (.nan false, sigFlag [a, b])
  | .inf x, _ => if b.isZero then (.nan false, fNV) else (.inf (x != b.neg), 0)
  | _, .inf y => if a.isZero then (.nan false, fNV) else (.inf (y != a.neg), 0)
  | .val x m e, .val y n d => (.val (x != y) (m * n) (e + d), 0)

/-- a * b + c, rounded once by the caller. -/
def fvFma (rdn : Bool) (a b c : FV) : FV × Nat :=
  let (p, f) := fvMul a b
  if p.isNan || c.isNan then (.nan false, f ||| sigFlag [a, b, c]) else fvAdd rdn p c

/-- The quotient's surrogate: at least 200 significant bits and a sticky last bit. -/
def divMag (m n : Nat) : Nat × Int :=
  let k := 200 + bitlen n
  (2 * (m * 2 ^ k / n) + (if m * 2 ^ k % n = 0 then 0 else 1), -(k : Int) - 1)

/-- a / b. -/
def fvDiv (a b : FV) : FV × Nat :=
  match a, b with
  | .nan _, _ => (.nan false, sigFlag [a, b])
  | _, .nan _ => (.nan false, sigFlag [a, b])
  | .inf _, .inf _ => (.nan false, fNV)
  | .inf x, .val y _ _ => (.inf (x != y), 0)
  | .val x _ _, .inf y => (.val (x != y) 0 0, 0)
  | .val x m e, .val y n d =>
    if n = 0 then (if m = 0 then (.nan false, fNV) else (.inf (x != y), fDZ))
    else if m = 0 then (.val (x != y) 0 0, 0)
    else
      let (q, k) := divMag m n
      (.val (x != y) q (e - d + k), 0)

/-- The integer square root, one bit at a time from bit `b` down. -/
def isqrtFrom (n : Nat) (b : Nat) (r : Nat) : Nat :=
  match b with
  | 0 => r
  | b + 1 => let t := r + 2 ^ b; isqrtFrom n b (if t * t ≤ n then t else r)

def isqrt (n : Nat) : Nat := isqrtFrom n (bitlen n / 2 + 1) 0

/-- The root of a magnitude, with at least 130 bits and a sticky last bit. -/
def sqrtMag (m : Nat) (e : Int) : Nat × Int :=
  let m' := if e % 2 = 0 then m else 2 * m
  let e' := if e % 2 = 0 then e else e - 1
  let n := m' * 2 ^ 280
  let r := isqrt n
  (2 * r + (if r * r = n then 0 else 1), (e' - 280) / 2 - 1)

/-- The square root. -/
def fvSqrt (a : FV) : FV × Nat :=
  match a with
  | .nan _ => (.nan false, sigFlag [a])
  | .inf neg => if neg then (.nan false, fNV) else (.inf false, 0)
  | .val neg m e =>
    if m = 0 then (.val neg 0 0, 0)
    else if neg then (.nan false, fNV)
    else
      let (r, k) := sqrtMag m e
      (.val false r k, 0)

/-- daz (R114, R122): flush a subnormal bf16, f16 or f32 source. -/
def dazF (daz : Bool) (f : Fmt) (x : FV) : FV :=
  match x with
  | .val neg m e => if daz && f.bits ≠ 8 && m < 2 ^ f.mb && m ≠ 0 then .val neg 0 e else x
  | _ => x

/-- Compare two values that are not NaN: -1, 0 or 1; zeros are equal. -/
def fvCmp (a b : FV) : Int :=
  match a, b with
  | .inf x, .inf y => if x = y then 0 else if x then -1 else 1
  | .inf x, _ => if x then -1 else 1
  | _, .inf y => if y then 1 else -1
  | _, _ => dyCmp a.dy b.dy

/-- A value rounded to an integer by a mode. -/
def roundInt (mode : Nat) (neg : Bool) (m : Nat) (e : Int) : Int :=
  let n := if 0 ≤ e then m * 2 ^ e.toNat else roundMag mode neg m (-e).toNat
  if neg then -(n : Int) else n

/-- Conversion of a floating value to an integer range (R107): the result and the flags. -/
def toInt (mode : Nat) (sat : Bool) (lo hi : Int) (x : FV) : Int × Nat :=
  match x with
  | .nan _ => (0, fNV)
  | .inf neg => (if neg then lo else hi, fNV + (if sat then fSATV else 0))
  | .val neg m e =>
    let n := roundInt mode neg m e
    let nx := if dyEq (dyOfInt n) x.dy then 0 else fNX
    if n < lo then (lo, fNV + (if sat then fSATV else 0) + nx)
    else if hi < n then (hi, fNV + (if sat then fSATV else 0) + nx)
    else (n, nx)

/-! ## Powers and logarithms of two (R167, R169)

Their values are irrational but for whole powers; each is taken on the grid 2^-400 with a sticky bit below it, which decides
every rounding to 24 bits unless the value lies within 2^-370 of a rounding boundary. -/

/-- ln 2 on the grid 2^-400, rounded down. -/
def ln2q : Int :=
  1789879222497203190815761498240779176894896805856420935579692301363062920687047601279850318367644315849030039181347319086

/-- Partial sum of the exponential series on the grid 2^-400: `fuel` terms from term `k`, whose value is `term`. -/
def expTerms (fuel k : Nat) (x term : Int) : Int :=
  match fuel with
  | 0 => 0
  | fuel + 1 => term + expTerms fuel (k + 1) x ((term * x).fdiv ((2 : Int) ^ (400 : Nat) * ((k : Int) + 1)))

/-- 2^a for a real `a`. -/
def exp2Dy (a : Dy) : Dy :=
  if dyLt { m := 200, e := 0 } a then { m := 1, e := 200 }
  else if dyLt a { m := -400, e := 0 } then { m := 1, e := -401 }
  else
    let y := alignM a (-400)
    let n := y.fdiv ((2 : Int) ^ (400 : Nat))
    let r := y - n * (2 : Int) ^ (400 : Nat)
    if r = 0 then { m := 1, e := n }
    else
      let x := (r * ln2q).fdiv ((2 : Int) ^ (400 : Nat))
      { m := 2 * expTerms 110 0 x ((2 : Int) ^ (400 : Nat)) + 1, e := n - 401 }

/-- Partial sum of the series of atanh on the grid 2^-400: `p` is the power z^(2k+1). -/
def atanhTerms (fuel k : Nat) (z2 p : Int) : Int :=
  match fuel with
  | 0 => 0
  | fuel + 1 => p.fdiv (2 * (k : Int) + 1) + atanhTerms fuel (k + 1) z2 ((p * z2).fdiv ((2 : Int) ^ (400 : Nat)))

/-- log2 of a magnitude `m * 2^e`, `m ≠ 0`. -/
def log2Dy (m : Nat) (e : Int) : Dy :=
  let l := dyLog { m := m, e }
  let x := alignM { m := m, e := e - l } (-400)
  let one := (2 : Int) ^ (400 : Nat)
  if x = one then dyOfInt l
  else
    let z := ((x - one) * one).fdiv (x + one)
    let ln := 2 * atanhTerms 140 0 ((z * z).fdiv one) z
    { m := 2 * (l * one + (ln * one).fdiv ln2q) + 1, e := -401 }

/-- 2^a (R169). -/
def fvExp2 (a : FV) : FV × Nat :=
  match a with
  | .nan _ => (.nan false, sigFlag [a])
  | .inf neg => (if neg then .val false 0 0 else .inf false, 0)
  | .val _ _ _ => (fvOf false (exp2Dy a.dy), 0)

/-- log2 a (R169). -/
def fvLog2 (a : FV) : FV × Nat :=
  match a with
  | .nan _ => (.nan false, sigFlag [a])
  | .inf neg => if neg then (.nan false, fNV) else (.inf false, 0)
  | .val neg m e => if m = 0 then (.inf true, fDZ) else if neg then (.nan false, fNV) else (fvOf false (log2Dy m e), 0)

/-- 1 / a (R169). -/
def fvRcp (a : FV) : FV × Nat := fvDiv (.val false 1 0) a

/-- 1 / sqrt a (R169). -/
def fvRsq (a : FV) : FV × Nat :=
  match a with
  | .nan _ => (.nan false, sigFlag [a])
  | .inf neg => if neg then (.nan false, fNV) else (.val false 0 0, 0)
  | .val neg m e =>
    if m = 0 then (.inf neg, fDZ)
    else if neg then (.nan false, fNV)
    else (fvSqrt (fvDiv (.val false 1 0) (.val false m e)).1)

/-- The smaller, or the larger where `big`, of two values: -0 is below +0, and a NaN gives way (R151, R170). -/
def fvPick (big : Bool) (a b : FV) : FV × Nat :=
  let fl := sigFlag [a, b]
  if a.isNan then (if b.isNan then .nan false else b, fl)
  else if b.isNan then (a, fl)
  else
    let c := fvCmp a b
    let aless := c < 0 || (c = 0 && a.neg && !b.neg)
    (if aless == big then b else a, fl)

/-! ## lmix (R115) -/

def rotl32 (x : BitVec 32) (n : Nat) : BitVec 32 := x.rotateLeft n

/-- One round of lmix. -/
def lmixRound (k : Nat → BitVec 32) (i : Nat) (x : BitVec 32 × BitVec 32 × BitVec 32 × BitVec 32) :
    BitVec 32 × BitVec 32 × BitVec 32 × BitVec 32 :=
  let (x0, x1, x2, x3) := x
  let x0 := x0 + x1 + k (i % 4) + BitVec.ofNat 32 (i * 0x9E3779B9)
  let x3 := rotl32 (x3 ^^^ x0) (if i % 2 = 0 then 13 else 17)
  let x2 := x2 + x3 + k ((i + 1) % 4)
  let x1 := rotl32 (x1 ^^^ x2) (if i % 2 = 0 then 9 else 23)
  (x1, x2, x3, x0)

/-- lmix(K, C). -/
def lmix (key c : BitVec 128) : BitVec 128 :=
  let k := fun i : Nat => (key >>> (32 * i)).setWidth 32
  let w := fun i : Nat => (c >>> (32 * i)).setWidth 32
  let (x0, x1, x2, x3) := (List.range 10).foldl (fun x i => lmixRound k i x) (w 0, w 1, w 2, w 3)
  (x3 ^^^ k 3) ++ (x2 ^^^ k 2) ++ (x1 ^^^ k 1) ++ (x0 ^^^ k 0)

end Sys2Proof.Machine
end

