-- ==== Sys2Proof/Machine/Images.lean ====
section
/-! DEFINITION. The images that a save area holds of the slot queues, the results in flight, the weight planes and the check windows
(R38, R414). R414 gives their places and sizes; the layout inside a queue image, a latch record and a window block is the model's
(DESIGN CHOICE, log entry 72). Every image is read back as it is found. -/

namespace Sys2Proof.Machine

def kib : Nat := 1024

/-- Nonzero bytes of a little-endian value of `n` bytes at `off`. -/
def fieldCells (off n v : Nat) : Tbl Byte :=
  ((leBytes n v).zipIdx.map fun e => (off + e.2, e.1)).filter fun e => e.2 ≠ 0

/-- A field read back. -/
def cellN (m : Tbl Byte) (off n : Nat) : Nat := leNat (tbytes m off n)

/-- A field read back as a signed value. -/
def cellInt (m : Tbl Byte) (off n : Nat) : Int := sext (8 * n) (cellN m off n)

/-- Registers of a table at a stride. -/
def regCells {w : Nat} (off stride : Nat) (m : Tbl (BitVec w)) : Tbl Byte :=
  m.flatMap fun e => fieldCells (off + stride * e.1) stride e.2.toNat

/-- A table of registers read back from a stride. -/
def readRegs (w n off stride : Nat) (m : Tbl Byte) : Tbl (BitVec w) :=
  let m := tslice m off (n * stride)
  (List.range n).filterMap fun k =>
    let v := BitVec.ofNat w (cellN (tslice m (stride * k) stride) 0 stride)
    if v = 0 then none else some (k, v)

/-- A bit of a flag byte. -/
def bitIf (b : Bool) (k : Nat) : Nat := if b then 2 ^ k else 0

/-! ## Loop records -/

/-- The four loop records at `off`, 16 bytes each. -/
def loopCells (off : Nat) (ls : List LoopRec) : Tbl Byte :=
  (List.range 4).flatMap fun n =>
    match ls.find? fun l => l.lc = n with
    | some l => fieldCells (off + 16 * n) 8 l.s.toNat ++ fieldCells (off + 16 * n + 8) 8 (l.e.toNat / 2 * 2 + 1)
    | none => []

/-- The order of entry of loop records, two bits each, the most recent first. -/
def loopOrder (ls : List LoopRec) : Nat := ls.foldr (fun l n => 4 * n + l.lc) 0

/-- The loop records read back, in their order of entry. -/
def readLoops (off order : Nat) (m : Tbl Byte) : List LoopRec :=
  let get := fun n : Nat =>
    let e := cellN m (off + 16 * n + 8) 8
    if e % 2 = 1 then
      some ({ lc := n, s := BitVec.ofNat 64 (cellN m (off + 16 * n) 8), e := BitVec.ofNat 64 (e / 2 * 2) } : LoopRec)
    else none
  (([order % 4, order / 4 % 4, order / 16 % 4, order / 64 % 4] ++ List.range 4).eraseDups).filterMap get

/-! ## The queues (R38, R79, R95) -/

/-- The operations of a C slot in the order of R95. -/
def cOps (c : CSlot) : List Instr :=
  (if c.sync then [.sync] else []) ++ (if c.rdv.isSome then [.rdv] else []) ++ (if c.seg then [.seg] else []) ++
  (if c.fmtw.isSome then [.fmtw] else []) ++ (if c.pha.isSome then [.pha] else []) ++ (if c.chk then [.chk] else []) ++
  (if c.trc then [.trc] else [])

/-- The C slot that queued operations and captured fields stand for. -/
def cSlotOf (ops : List Instr) (cf : CF) (fmtw : Nat) : CSlot :=
  { trc := ops.contains .trc, chk := ops.contains .chk, pha := if ops.contains .pha then some (cf.side, cf.hole) else none,
    fmtw := if ops.contains .fmtw then some fmtw else none, rdv := if ops.contains .rdv then cf.rdv else none,
    seg := ops.contains .seg, sync := ops.contains .sync }

/-- The fields of a C slot, whatever their values. -/
def rawC (w : Nat) : CSlot :=
  { trc := bits w 30 30 = 1, chk := bits w 29 29 = 1, pha := if bits w 23 23 = 1 then some (bits w 28 28, bits w 27 24) else none,
    fmtw := if bits w 6 6 = 1 then some (bits w 22 7) else none, rdv := if bits w 2 2 = 1 then some (bits w 5 3) else none,
    seg := bits w 1 1 = 1, sync := bits w 0 0 = 1 }

/-- The fields of a V slot, whatever their values. -/
def rawV (w : Nat) : VF :=
  { zero := bits w 58 58 = 1, sat := bits w 57 57 = 1, form := bits w 56 55, rnd := bits w 54 53, imm := bits w 51 36,
    vc := bits w 35 31, vb := bits w 30 26, va := bits w 25 21, vd := bits w 20 16, pred := bits w 15 13, ty := bits w 12 10,
    width := bits w 9 8 }

/-- The fields of an L, M or X slot, whatever their values. -/
def rawL (w : Nat) : LF :=
  { hole := bits w 43 40, pred := bits w 39 37, off := bits w 36 21, mode := bits w 20 18, areg := bits w 17 14,
    vreg := bits w 13 9, file := bits w 8 8, width := bits w 7 6 }
def rawM (w : Nat) : MF :=
  { row := bits w 19 13, plane := bits w 12 12, accdis := bits w 11 11 = 1, neg := bits w 10 10 = 1, shape := bits w 9 6,
    acc := bits w 5 4 }
def rawX (w : Nat) : XF := { b := bits w 15 10, a := bits w 9 4 }

/-- The operations a C slot entry had when it was dispatched: those of its head are kept with what the C slot may have to undo. -/
def fullOps (undo : Option CUndo) (e : QEntry) : List Instr := match undo with | some u => u.ops | none => e.ops

/-- The slot field of an entry of slot `k`, with run-time register names. Bit 63 of a V slot's says that it has an operation, since the code
of VADD is 0 (R162). -/
def slotField (k : Nat) (full : List Instr) (e : QEntry) : Nat :=
  match k with
  | 0 => encodeC (cSlotOf full e.cf e.fmtw)
  | 1 => if e.code = 0 then 0 else encodeL (some (e.code, e.lf))
  | 4 => if e.code = 0 then 0 else encodeM (some (e.code, e.mf))
  | 5 => if e.code = 0 then 0 else encodeX (some (e.code, e.xf))
  | _ => if e.code = 0 && e.ops.isEmpty then 0 else 2 ^ 63 + encodeV (.op e.code e.vf)

/-- The operations that a slot field stands for. -/
def slotOps (k w : Nat) (x : BCtx) : List Instr :=
  match k with
  | 0 => cOps (rawC w)
  | 1 => (Instr.ofL (bits w 5 0) (rawL w) x).toList
  | 4 => if w = 0 then [] else (Instr.ofM (bits w 3 0)).toList
  | 5 => (Instr.ofX (bits w 3 0)).toList
  | _ => if w < 2 ^ 63 then [] else (Instr.ofV (bits w 7 0) (k - 2) (rawV w) x).toList

/-- The image of entry `j` of slot `k`'s queue, 64 bytes: index, PC, captured scalar, slot field, CWT entry, flags, and how many of
its operations are done. `votes` are the votes that wait for its CHK. -/
def entryCells (off k : Nat) (undo : Option CUndo) (votes : List (Nat × Nat)) (e : QEntry) : Tbl Byte :=
  let full := if k = 0 then fullOps undo e else if e.ops.isEmpty then slotOps k (slotField k [] e) e.ctx else e.ops
  let counted := k = 0 && (match undo with | some u => u.counted | none => false)
  let vote := fun v => k = 0 && votes.contains (e.idx, v)
  fieldCells off 8 e.idx ++ fieldCells (off + 8) 8 e.ctx.pc.toNat ++ fieldCells (off + 16) 8 e.ctx.scal.toNat ++
  fieldCells (off + 24) 8 (slotField k full e) ++ fieldCells (off + 32) 2 e.ctx.entry ++
  fieldCells (off + 34) 1 (bitIf e.hold 0 + bitIf e.dup 1 + bitIf counted 2 + bitIf (vote 0) 3 + bitIf (vote 1) 4 + 128) ++
  fieldCells (off + 35) 1 (full.length - e.ops.length) ++ fieldCells (off + 36) 1 (loopOrder e.loops)

/-- An entry read back; `ls` holds the loop records of an entry with SEG. -/
def readEntry (m : Tbl Byte) (off k : Nat) (ls : Nat → List LoopRec) : QEntry :=
  let m := tslice m off 64
  let w := cellN m 24 8
  let x : BCtx := { idx := cellN m 0 8, pc := BitVec.ofNat 64 (cellN m 8 8), entry := cellN m 32 2, scal := BitVec.ofNat 64 (cellN m 16 8) }
  let flags := cellN m 34 1
  let dup := flags.testBit 1
  let c := rawC w
  { idx := x.idx, ctx := x, ops := (slotOps k w x).drop (cellN m 35 1), hold := flags.testBit 0, dup,
    code := match k with | 0 => 0 | 1 => bits w 5 0 | 4 => bits w 3 0 | 5 => bits w 3 0 | _ => bits w 7 0,
    vf := if (k = 2 || k = 3) && w ≠ 0 then rawV w else {}, lf := if k = 1 && w ≠ 0 then rawL w else {},
    mf := if k = 4 && w ≠ 0 then rawM w else {}, xf := if k = 5 && w ≠ 0 then rawX w else {},
    fmtw := if k = 0 then c.fmtw.getD 0 else 0,
    cf := if k = 0 && (w ≠ 0 || dup) then { rdv := c.rdv, side := (c.pha.getD (0, 0)).1, hole := (c.pha.getD (0, 0)).2, dup } else {},
    loops := if k = 0 && c.seg then ls (cellN m 36 1) else [] }

/-- The place of the image of entry `j` of slot `k`, and of the loop records that entry `j` of the C slot captured for SEG. -/
def offEntry (k j : Nat) : Nat := 0x6000 + 64 * (16 * k + j)
def offSegLoops (j : Nat) : Nat := 0x7B00 + 64 * j

/-- The six queue images. -/
def queueCells (q : Slots) (undo : Option CUndo) : Tbl Byte :=
  (List.range 6).flatMap fun k =>
    ((tget [] q.queue k).take 16).zipIdx.flatMap fun e => entryCells (offEntry k e.2) k (if e.2 = 0 then undo else none) q.votes e.1

/-- The loop records captured for SEG. -/
def segCells (q : Slots) : Tbl Byte :=
  ((tget [] q.queue 0).take 16).zipIdx.flatMap fun e => loopCells (offSegLoops e.2) e.1.loops

/-- Whether an image holds an entry. -/
def entryThere (m : Tbl Byte) (k j : Nat) : Bool := 128 ≤ cellN m (offEntry k j + 34) 1

/-- The queue of slot `k` read back. -/
def readQueue (m : Tbl Byte) (k : Nat) : List QEntry :=
  ((List.range 16).filter (entryThere m k)).map fun j => readEntry m (offEntry k j) k fun o => readLoops (offSegLoops j) o m

/-- The votes read back. -/
def readVotes (m : Tbl Byte) : List (Nat × Nat) :=
  (List.range 16).flatMap fun j =>
    [0, 1].filterMap fun v =>
      if entryThere m 0 j && (cellN m (offEntry 0 j + 34) 1).testBit (3 + v) then some (cellN m (offEntry 0 j) 8, v) else none

/-- What the C slot has done of its head bundle, read back; no segment is open then. -/
def readUndo (m : Tbl Byte) : Option CUndo :=
  let counted := (cellN m (offEntry 0 0 + 34) 1).testBit 2
  if entryThere m 0 0 && (counted || cellN m (offEntry 0 0 + 35) 1 ≠ 0) then
    some { ops := cOps (rawC (cellN m (offEntry 0 0 + 24) 8)), counted }
  else none

/-! ## Configuration writes in flight (R35) -/

/-- The place of the image of queued write `j`, 40 bytes. -/
def offCfg (j : Nat) : Nat := 0x7848 + 40 * j

def cfgCells (cs : List CfgWrite) : Tbl Byte :=
  (cs.take 16).zipIdx.flatMap fun e =>
    let c := e.1
    fieldCells (offCfg e.2) 6 c.bound ++ fieldCells (offCfg e.2 + 6) 1 c.num ++
    fieldCells (offCfg e.2 + 7) 1 (bitIf c.hole 0 + (match c.word with | some w => 2 + 4 * w | none => 0) + 128) ++
    fieldCells (offCfg e.2 + 8) 32 c.val.toNat

def readCfg (m : Tbl Byte) : List CfgWrite :=
  (List.range 16).filterMap fun j =>
    let f := cellN m (offCfg j + 7) 1
    if f < 128 then none
    else
      some { bound := cellN m (offCfg j) 6, hole := f.testBit 0, num := cellN m (offCfg j + 6) 1 % 16,
             word := if f.testBit 1 then some (f / 4 % 4) else none, val := BitVec.ofNat 256 (cellN m (offCfg j + 8) 32) }

/-! ## Results in flight (R38) -/

/-- The number of a destination in a latch record; 7 is FMT. -/
def Dest.num (d : Dest) : Nat :=
  match d with
  | .vec f n => 1 + 16 * (32 * f + n)
  | .pred f n => 2 + 16 * (8 * f + n)
  | .addr n => 3 + 16 * n
  | .key => 4
  | .stride => 5
  | .ctr l => 6 + 16 * l

/-- The destination of a number. -/
def destOf (v : Nat) : Dest :=
  match v % 16 with
  | 1 => .vec (v / 16 / 32 % 2) (v / 16 % 32)
  | 2 => .pred (v / 16 / 8 % 2) (v / 16 % 8)
  | 3 => .addr (v / 16 % 16)
  | 4 => .key
  | 5 => .stride
  | _ => .ctr (v / 16)

/-- The mask as it is recorded: a bit for each byte of a vector register, and the bits themselves for any other destination. -/
def packMask (d : Dest) (m : VReg) : Nat :=
  match d with
  | .vec _ _ => ((List.range 512).map fun k => bitIf (m.getLsbD (8 * k)) k).sum
  | _ => m.toNat
def unpackMask (d : Dest) (v : Nat) : VReg :=
  match d with
  | .vec _ _ => BitVec.ofNat 4096 ((List.range 512).map fun k => if v.testBit k then 255 * 2 ^ (8 * k) else 0).sum
  | _ => BitVec.ofNat 4096 v

/-- A latch record of 32 + 160·G bytes: destination, class, target, issuing index, mask and value. -/
def latchCells (off g num mask : Nat) (l : Latch) : Tbl Byte :=
  fieldCells off 2 num ++ fieldCells (off + 2) 1 l.cls ++ fieldCells (off + 8) 8 l.tgt ++ fieldCells (off + 16) 8 l.iss ++
  fieldCells (off + 32) (16 * g) mask ++ fieldCells (off + 32 + 16 * g) (128 * g) l.val.toNat

/-- The latch area: the writes of FMT in flight, then the other results, at most 64 in all. -/
def latchAreaCells (off g : Nat) (q : Slots) : Tbl Byte :=
  let fs := q.fmtw.map fun w => (7, 0xFFFF, ({ tgt := w.eff, iss := w.iss, val := BitVec.ofNat 4096 w.val } : Latch))
  let ls := q.latches.map fun l => (l.dest.num, packMask l.dest l.mask, l)
  ((fs ++ ls).take 64).zipIdx.flatMap fun e => latchCells (off + (32 + 160 * g) * e.2) g e.1.1 e.1.2.1 e.1.2.2

/-- The records of the latch area read back: destination number and latch. -/
def readLatches (off g : Nat) (m : Tbl Byte) : List (Nat × Latch) :=
  let m := tslice m off (12 * kib * g)
  (List.range 64).filterMap fun j =>
    let r := tslice m ((32 + 160 * g) * j) (32 + 160 * g)
    let num := cellN r 0 2
    let d := destOf num
    if num % 16 = 0 then none
    else
      some (num,
        { dest := d, mask := unpackMask d (cellN r 32 (16 * g)), tgt := cellN r 8 8, cls := cellN r 2 1, iss := cellN r 16 8,
          val := BitVec.ofNat 4096 (cellN r (32 + 16 * g) (128 * g)) })

/-! ## Weight planes (R414) -/

/-- The format of a floating format code of R133. -/
def fmtOfCode (code : Nat) : Fmt := match code with | 0 => e4m3 | 1 => e5m2 | 2 => bf16 | _ => f16

/-- The encoding of a finite value, which the format has. -/
def encodeDy (code : Nat) (x : Dy) : Nat := (storeVec (fmtOfCode code) 0 false false (fvOf false x)).1

/-- The encodings of a weight row loaded under a format code. -/
def weightCells (off code : Nat) (row : Tbl Dy) : Tbl Byte :=
  match code with
  | 4 => row.flatMap fun e => fieldCells (off + e.1) 1 (wrapN 8 (dyAt e.2 0))
  | 5 =>
    (row.map (·.1 / 2)).eraseDups.flatMap fun k =>
      let v := fun n => wrapN 4 (dyAt (tget dyZero row n) 0)
      fieldCells (off + k) 1 (v (2 * k) + 16 * v (2 * k + 1))
  | 2 => row.flatMap fun e => fieldCells (off + 2 * e.1) 2 (encodeDy 2 e.2)
  | 3 => row.flatMap fun e => fieldCells (off + 2 * e.1) 2 (encodeDy 3 e.2)
  | c => row.flatMap fun e => fieldCells (off + e.1) 1 (encodeDy c e.2)

/-- The finite value of an encoding, zero for a NaN or an infinity. -/
def finiteOf (code raw : Nat) : Dy :=
  let x := decodeF (fmtOfCode code) raw
  if x.isNan || x.isInf then dyZero else x.dy

/-- A weight row read back under a format code. -/
def readWeights (g code : Nat) (m : Tbl Byte) : Tbl Dy :=
  let at' := fun (n : Nat) (v : Nat → Dy) => (List.range n).filterMap fun k => if (v k).m = 0 then none else some (k, v k)
  if m.isEmpty then []
  else
    match code with
    | 4 => at' (256 * g) fun k => dyOfInt (sext 8 (cellN m k 1))
    | 5 => at' (256 * g) fun k => dyOfInt (sext 4 (cellN m (k / 2) 1 / 16 ^ (k % 2)))
    | 2 => at' (128 * g) fun k => finiteOf 2 (cellN m (2 * k) 2)
    | 3 => at' (128 * g) fun k => finiteOf 3 (cellN m (2 * k) 2)
    | c => at' (256 * g) fun k => finiteOf c (cellN m k 1)

def planeLen (g : Nat) : Nat := 128 + 128 * 256 * g

/-- The weight planes at `off`: of each plane its table of row formats and its rows, then the half scales, PSEL and the classes. -/
def planeCells (off g : Nat) (m : Mat) : Tbl Byte :=
  ((List.range 2).flatMap fun p =>
    let o := off + planeLen g * p
    ((tslice m.rowFmt (128 * p) 128).flatMap fun e => fieldCells (o + e.1) 1 e.2) ++
    (tslice m.wp (128 * p) 128).flatMap fun e => weightCells (o + 128 + 256 * g * e.1) (tget 0 m.rowFmt (128 * p + e.1)) e.2) ++
  (let o := off + 2 * planeLen g
   ((List.range 2).flatMap fun p => (List.range (2 * g)).flatMap fun h =>
      fieldCells (o + 8 * g * p + 4 * h) 4 (tget 0x3F800000 m.half (16 * p + h))) ++
   fieldCells (o + 16 * g) 1 (bitIf m.psel 0) ++ fieldCells (o + 16 * g + 1) 1 (tget 0 m.cls 0) ++
   fieldCells (o + 16 * g + 2) 1 (tget 0 m.cls 1))

/-- A table of values that are not zero. -/
def readNats (n : Nat) (v : Nat → Nat) : Tbl Nat := (List.range n).filterMap fun k => if v k = 0 then none else some (k, v k)

/-- The weight planes read back. -/
def readPlanes (off g : Nat) (m : Tbl Byte) : Mat :=
  let m := tslice m off (66 * kib * g)
  let tail := tslice m (2 * planeLen g) 0x400
  { rowFmt := (List.range 2).flatMap fun p =>
      let t := tslice m (planeLen g * p) 128
      if t.isEmpty then [] else tshift (readNats 128 fun r => cellN t r 1) (128 * p),
    wp := (List.range 2).flatMap fun p =>
      let pm := tslice m (planeLen g * p) (planeLen g)
      if pm.isEmpty then []
      else
        (List.range 128).filterMap fun r =>
          let row := readWeights g (cellN pm r 1) (tslice pm (128 + 256 * g * r) (256 * g))
          if row = [] then none else some (128 * p + r, row),
    half := (List.range 2).flatMap fun p => (List.range (2 * g)).filterMap fun h =>
      let v := cellN tail (8 * g * p + 4 * h) 4
      if v = 0x3F800000 then none else some (16 * p + h, v),
    psel := cellN tail (16 * g) 1 % 2 = 1,
    cls := readNats 2 fun p => cellN tail (16 * g + 1 + p) 1 % 3 }

/-! ## Check windows (R215, R414) -/

/-- The bytes of a window block before its check word. -/
def winLen (g : Nat) : Nat := 24 * kib * g - 8

/-- The sizes of the image of a column's sum, of its tolerance, and of an activation's sum, and the columns and activations there are,
by the class of the plane: what the exact sums of R216 need. -/
def winSizes (cls g : Nat) : Nat × Nat × Nat × Nat × Nat := if cls = 2 then (80, 72, 40, 128 * g, 64) else (24, 16, 16, 256 * g, 128)

/-- An exact sum in `n` bytes: its exponent, then its mantissa. -/
def dyCells (off n : Nat) (x : Dy) : Tbl Byte := fieldCells off 4 (wrapN 32 x.e) ++ fieldCells (off + 4) (n - 4) (wrapN (8 * (n - 4)) x.m)
def readDy (m : Tbl Byte) (off n : Nat) : Dy :=
  let x : Dy := { m := cellInt m (off + 4) (n - 4), e := cellInt m off 4 }
  if x.m = 0 then dyZero else x

def sumCells (off n : Nat) (t : Tbl Dy) : Tbl Byte := t.flatMap fun e => dyCells (off + n * e.1) n e.2
def readSums (m : Tbl Byte) (off n k : Nat) : Tbl Dy :=
  let m := tslice m off (n * k)
  if m.isEmpty then []
  else (List.range k).filterMap fun i => let x := readDy (tslice m (n * i) n) 0 n; if x = dyZero then none else some (i, x)

/-- The content of a window block. -/
def windowCells (g cls : Nat) (w : Window) : Tbl Byte :=
  let (nq, nt, na, cols, acts) := winSizes cls g
  let o := 64 + (2 + 8 * g) * 128
  fieldCells 0 4 (1 + 2 * w.plane + 4 * cls + bitIf w.exact 4 + bitIf w.spoiled 5) ++ fieldCells 4 4 w.beats.length ++
  (w.beats.zipIdx.flatMap fun e =>
    let b := 64 + (2 + 8 * g) * e.2
    fieldCells b 1 e.1.row ++ fieldCells (b + 1) 1 (bitIf e.1.neg 0 + bitIf e.1.dead 1 + bitIf e.1.bad 2) ++ regCells (b + 2) 4 e.1.scale) ++
  sumCells o na (w.act.filter (·.1 < acts)) ++ sumCells (o + na * acts) nq (w.sum.filter (·.1 < cols)) ++
  sumCells (o + na * acts + nq * cols) nt (w.tol.filter (·.1 < cols))

/-- The check word of the content of a block. -/
def checkWord (g : Nat) (m : Tbl Byte) : Nat :=
  if m.isEmpty then 0 else (tbytes m 0 (winLen g)).foldl (fun a b => (a * 257 + b.toNat) % (2 ^ 64 - 59)) 1

/-- A window block at `off`, ending in its check word; all zero where no window is open. -/
def blockCells (off g cls : Nat) (w : Option Window) : Tbl Byte :=
  match w with
  | none => []
  | some w =>
    let m := (windowCells g cls w).filter (·.1 < winLen g)
    tshift m off ++ fieldCells (off + winLen g) 8 (checkWord g m)

/-- A window block read back: a block whose check word fails leaves a window that no check passes (R414). -/
def readBlock (off g : Nat) (m : Tbl Byte) : Option Window :=
  let m := tslice m off (24 * kib * g)
  if m.isEmpty then none
  else if cellN m (winLen g) 8 ≠ checkWord g (m.filter (·.1 < winLen g)) then some { spoiled := true }
  else
    let h := cellN m 0 4
    let (nq, nt, na, cols, acts) := winSizes (h / 4 % 4) g
    let o := 64 + (2 + 8 * g) * 128
    if h % 2 = 0 then none
    else
      some
        { plane := h / 2 % 2, exact := h.testBit 4, spoiled := h.testBit 5,
          beats := (List.range (Nat.min 128 (cellN m 4 4))).map fun k =>
            let b := tslice m (64 + (2 + 8 * g) * k) (2 + 8 * g)
            let f := cellN b 1 1
            { row := cellN b 0 1 % 128, neg := f.testBit 0, dead := f.testBit 1, bad := f.testBit 2, scale := readRegs 32 (2 * g) 2 4 b },
          act := readSums m o na acts, sum := readSums m (o + na * acts) nq cols, tol := readSums m (o + na * acts + nq * cols) nt cols }

end Sys2Proof.Machine
end

