-- ==== Sys2Proof/Config.lean ====
section
/-! DEFINITION. What the spec leaves open as a value: opaque constants without a body, so that no proof can see what they are.
Each is applied to the state's counter of free values (or of noise outputs). -/

namespace Sys2Proof.Config

/-- The n-th output of the true noise source (R467). -/
opaque noise : Nat → Word

/-- The number of datapath cycles a black-box record shows (R498); time is not modelled. -/
opaque cycles : Nat → Word

/-- Whether the black box loses a record because it cannot take it at once (R497 does not say when). -/
opaque boxLoses : Nat → Bool

/-- Whether e(y) of the logit sink takes the upper of the two f32 values around exp(y) (R368). -/
opaque sinkUp : Nat → Bool

/-- e(y) of the logit sink, as f32 bits, where y is the difference of two infinities (R368 states no value). -/
opaque sinkNone : Nat → BitVec 32

/-- The live mask and the generation of a domain of which a package has been told nothing (R344). -/
opaque liveMask : Nat → BitVec 64
opaque liveGen : Nat → BitVec 16

/-- Which stack's state is the first of three when the states of a request are merged (R137, R368 state no order). -/
opaque sinkOrder : Nat → Nat

/-- Whether an access uses the translation that the core's TLB (0) or its die's (1) still holds where the tables now say otherwise
(R446, R447). -/
opaque stale : Nat → Nat → Bool

/-- Whether the run just ended counts as a run of a microsecond or more (R404); time is not modelled. -/
opaque longRun : Nat → Bool

/-- The bits below bit 63 that TOPOQ shows for a fibre without a circuit (R350 states bit 63 alone). -/
opaque noCircuit : Nat → Word

/-- What a read of a black box finds that is not one of 8 bytes at a multiple of 8 (R497 states those alone). -/
opaque boxOther : Nat → BitVec 512

end Sys2Proof.Config
end

