-- ==== Sys2Proof/Machine/Regs.lean ====
section
/-! DEFINITION. Reading and writing registers, and finding the other cores, dies and jobs. Every read and write of a numbered
register goes through these. -/

namespace Sys2Proof.Machine

/-! ## Cores and dies (R9) -/

/-- The context of core `n`. -/
def coreCtx (s : State) (n : Nat) : CoreCtx := if n = s.cur then { c := s.c, t := s.t } else tget {} s.others n

/-- Write the context of core `n`. -/
def setCoreCtx (s : State) (n : Nat) (x : CoreCtx) : State :=
  if n = s.cur then { s with c := x.c, t := x.t } else { s with others := tset {} s.others n x }

/-- Bring core `n` into focus. -/
def focus (s : State) (n : Nat) : State :=
  if n = s.cur then s
  else
    let x := tget {} s.others n
    { s with cur := n, c := x.c, t := x.t, others := tset {} (tset {} s.others s.cur { c := s.c, t := s.t }) n {} }

/-- The cores that hold anything. -/
def coreList (s : State) : List Nat := s.cur :: (s.others.map (·.1)).filter (· ≠ s.cur)

def dieOf (core : Nat) : Nat := core / 64
def clusterOf (core : Nat) : Nat := core / 8

def getDie (s : State) (d : Nat) : Die := tget {} s.dies d
def setDie (s : State) (d : Nat) (x : Die) : State := { s with dies := tset {} s.dies d x }
def onDie (s : State) (d : Nat) (f : Die → Die) : State := setDie s d (f (getDie s d))
def onPkg (s : State) (f : Pkg → Pkg) : State := { s with pkg := f s.pkg }
def onT (s : State) (f : Task → Task) : State := { s with t := f s.t }
def onC (s : State) (f : CoreHw → CoreHw) : State := { s with c := f s.c }
def onSlots (s : State) (f : Slots → Slots) : State := onT s fun t => { t with slots := f t.slots }
def onMat (s : State) (f : Mat → Mat) : State := onT s fun t => { t with mat := f t.mat }
def onSpec (s : State) (f : Spec → Spec) : State := onT s fun t => { t with spec := f t.spec }
def onRegs (s : State) (f : TaskRegs → TaskRegs) : State := onT s fun t => { t with regs := f t.regs }
def onMe (s : State) (f : TaskRec → TaskRec) : State := onT s fun t => { t with me := f t.me }

/-- Apply `f` to the context of core `n`. -/
def onCore (s : State) (n : Nat) (f : CoreCtx → CoreCtx) : State := setCoreCtx s n (f (coreCtx s n))

/-- Put a message in the outbox. -/
def emit (s : State) (o : Out) : State := { s with outbox := s.outbox ++ [o] }

/-- A used-up free value. -/
def bumpFree (s : State) : State := { s with free := s.free + 1 }

/-! ## Poisoned registers (R481, R483) -/

/-- Where the poison of a system register stands: in the task, or, from 0x100 on, in the package by die and register. -/
def regKey (s : State) (num : Nat) : Nat := (if num < 0x200 then 0x1000 * dieOf s.cur else 0) + num

/-- `n` granules of the task's registers from `g` on have been written whole. -/
def mend (s : State) (g n : Nat) : State := { s with t := { s.t with poison := s.t.poison.filter fun k => !(g ≤ k && k < g + n) } }

/-- A system register has been written whole. -/
def mendReg (s : State) (num : Nat) : State :=
  if num < 0x100 then mend s (0x1000 + num) 1
  else { s with pkg := { s.pkg with regPoison := s.pkg.regPoison.filter (· ≠ regKey s num) } }

/-- Whether a granule of the registers is poisoned. -/
def granulePoisoned (s : State) (g : Nat) : Bool :=
  if 0x1100 ≤ g && g < 0x2000 then s.pkg.regPoison.contains (regKey s (g - 0x1000)) else s.t.poison.contains g

/-- The register or entry number of a granule, as a fault shows it (R483). -/
def granuleNum (g : Nat) : Nat :=
  if g < 64 then g else if g < 72 then g - 64 else if g < 128 then 2 * (g - 73) else if g < 192 then (g - 128) / 4
  else if g < 256 then (g - 192) / 4 else if g < 0x2000 then g - 0x1000 else (g - 0x2000) / 4

/-! ## The sequencer's registers (R22) -/

/-- s0 reads as zero. -/
def getS (s : State) (n : Nat) : Word := if n = 0 then 0 else tget 0 s.t.s n

/-- A write of s0 is discarded. A whole write clears the register's poison (R483). -/
def setS (s : State) (n : Nat) (v : Word) : State :=
  if n = 0 then s
  else { s with t := { s.t with s := tset 0 s.t.s n v, poison := s.t.poison.filter (· ≠ n) } }

def getB (s : State) (n : Nat) : Word := tget 0 s.t.b n
def setB (s : State) (n : Nat) (v : Word) : State :=
  { s with t := { s.t with b := tset 0 s.t.b n v, poison := s.t.poison.filter (· ≠ 64 + n) } }

/-- q0 reads as true. -/
def getQ (s : State) (n : Nat) : Bool := if n = 0 then true else tget false s.t.q n

/-- A write of q0 is discarded. -/
def setQ (s : State) (n : Nat) (v : Bool) : State :=
  if n = 0 then s else { s with t := { s.t with q := tset false s.t.q n v } }

def getLc (s : State) (n : Nat) : BitVec 32 := tget 0 s.t.lc n
def setLc (s : State) (n : Nat) (v : BitVec 32) : State := { s with t := { s.t with lc := tset 0 s.t.lc n v } }

/-- STS flags of R25, by bit. -/
def stsNV : Nat := 0
def stsDZ : Nat := 1
def stsOF : Nat := 2
def stsUF : Nat := 3
def stsNX : Nat := 4
def stsSATV : Nat := 6
def stsRNM : Nat := 7
def stsWCOLL : Nat := 8
def stsSCOPEMISS : Nat := 9
def stsABFTC : Nat := 10

/-- Set sticky flags: the bits of `m`. -/
def orSts (s : State) (m : Word) : State := { s with t := { s.t with sts := s.t.sts ||| m } }

/-- Set one sticky flag. -/
def setFlag (s : State) (bit : Nat) : State := orSts s (BitVec.ofNat 64 (2 ^ bit))

/-! ## Jobs (R308) -/

def getJob (s : State) (core e : Nat) : Job := tget {} (coreCtx s core).c.jobs e
def setJob (s : State) (core e : Nat) (j : Job) : State :=
  onCore s core fun x => { x with c := { x.c with jobs := tset {} x.c.jobs e j } }
def onJob (s : State) (core e : Nat) (f : Job → Job) : State := setJob s core e (f (getJob s core e))

/-- States 3 and above are ended (R319). -/
def Job.live (j : Job) : Bool := j.used && j.st < 3

/-- Every unfinished job with its core and entry. -/
def liveJobs (s : State) : List (Nat × Nat × Job) :=
  (coreList s).flatMap fun n => ((coreCtx s n).c.jobs.filter fun e => Job.live e.2).map fun e => (n, e.1, e.2)

/-! ## Counters (R326) -/

def getCnt (s : State) (n : Nat) : BitVec 32 := tget 0 s.pkg.counters n
def setCnt (s : State) (n : Nat) (v : BitVec 32) : State :=
  onPkg s fun p => { p with counters := tset 0 p.counters n v }

/-- Whether a counter has reached a threshold (R328). -/
def cntMet (c : BitVec 32) (thr : Nat) : Bool := ((c.toNat + 2 ^ 32 - thr % 2 ^ 32) % 2 ^ 32) < 2 ^ 31

/-- Two generations compared (R338). -/
def genAfter (a b : Nat) : Bool :=
  let d := (a % 2 ^ 32 + 2 ^ 32 - b % 2 ^ 32) % 2 ^ 32
  1 ≤ d && d < 2 ^ 31

/-- Two epochs compared (R298). -/
def epAfter (a b : Nat) : Bool :=
  let d := (a + 2 ^ 28 - b % 2 ^ 28) % 2 ^ 28
  1 ≤ d && d < 2 ^ 27

end Sys2Proof.Machine
end

