-- ==== Sys2Proof/Machine/Xlate.lean ====
section
/-! DEFINITION. Physical bytes at their order points and the translation of virtual addresses (R246, R442 to R448). -/

namespace Sys2Proof.Machine

/-- A fault before it is taken: its cause code (R454), the faulting virtual address, and the details of TRAPINFO2 and
TRAPINFO3 (R457). -/
structure Trap where
  code : Nat := 0
  va : Nat := 0
  i2 : Nat := 0
  i3 : Nat := 0
deriving DecidableEq, Repr, Inhabited

/-- Cause codes (R454). -/
def cIllegal : Nat := 0x01
def cBundle : Nat := 0x02
def cFetchBound : Nat := 0x03
def cMisaligned : Nat := 0x04
def cOperand : Nat := 0x05
def cAddress : Nat := 0x06
def cResource : Nat := 0x07
def cLoopNest : Nat := 0x08
def cPrivilege : Nat := 0x09
def cTranslation : Nat := 0x0A
def cAccess : Nat := 0x0B
def cFabric : Nat := 0x0C
def cWindow : Nat := 0x0D
def cPigeon : Nat := 0x0E
def cFootprint : Nat := 0x0F
def cRace : Nat := 0x10
def cSealed : Nat := 0x11
def cVDenied : Nat := 0x12
def cVState : Nat := 0x13
def cShape : Nat := 0x14
def cFormat : Nat := 0x15
def cScale : Nat := 0x16
def cAccRange : Nat := 0x17
def cAccOperand : Nat := 0x18
def cAbft : Nat := 0x19
def cDup : Nat := 0x1A
def cCheck : Nat := 0x1B
def cSoft : Nat := 0x1C
def cEngine : Nat := 0x1D
def cRaceDetected : Nat := 0x1E
def cTopoDenied : Nat := 0x1F
def cStale : Nat := 0x20
def cTaskState : Nat := 0x21
def cTint : Nat := 0x22
def cDomain : Nat := 0x23
def cSpecState : Nat := 0x24
def cSpecLimit : Nat := 0x25
def cSpecForbidden : Nat := 0x26
def cEntropy : Nat := 0x27
def cSoftware : Nat := 0x28
def cSegmentLost : Nat := 0x29
def cTimer : Nat := 0x80
def cRenorm : Nat := 0x81

/-- The first fault of a list of checks, in the order in which the spec makes them. -/
def firstFault (checks : List (Bool × Trap)) : Option Trap :=
  match checks with
  | [] => none
  | (bad, t) :: rest => if bad then some t else firstFault rest

/-! ## Physical memory (R246 to R249) -/

def hbmEnd : Nat := 0xC000000000
def scratchBase : Nat := 0x10000000000
def scratchEnd : Nat := 0x10010000000
def mmioBase : Nat := 0x20000000000
def mmioEnd : Nat := 0x20100000000
def hostBase : Nat := 0x8000000000000
def hostEnd : Nat := 0x10000000000000

/-- The page kind whose range holds a physical address: 0 HBM, 1 package scratch, 2 host, 3 MMIO (R246, R443). -/
def paKind (pa : Nat) : Option Nat :=
  if pa < hbmEnd then some 0
  else if scratchBase ≤ pa && pa < scratchEnd then some 1
  else if mmioBase ≤ pa && pa < mmioEnd then some 3
  else if hostBase ≤ pa && pa < hostEnd then some 2
  else none

/-- The die that owns an HBM or scratch byte, or the home die of a host line (R246, R247). -/
def paDie (pa : Nat) : Nat :=
  if pa < hbmEnd then pa / 0x3000000000
  else if pa < scratchEnd then (pa - scratchBase) / 0x4000000
  else pa / 128 % 4

/-- The number of the adder unit at a line's order point: L2 slices 0 to 127, then scratch banks 128 to 255 (R247). -/
def adderUnit (pa : Nat) : Nat :=
  if pa < hbmEnd then paDie pa * 32 + (pa - paDie pa * 0x3000000000) / 128 % 32
  else if pa < scratchEnd then 128 + paDie pa * 32 + pa / 128 % 32
  else paDie pa * 32 + pa / 512 % 32

/-- A byte as its order point holds it: the L2's dirty byte, or memory's (R248). -/
def peek (s : State) (pa : Nat) : Byte :=
  match tget none s.pkg.dirty pa with
  | some b => b
  | none => tget 0 s.pkg.mem pa

/-- `n` bytes at their order points. -/
def peekBytes (s : State) (pa n : Nat) : List Byte :=
  match n with
  | 0 => []
  | n + 1 => peek s pa :: peekBytes s (pa + 1) n

/-- A little-endian value at its order point. -/
def peekN (s : State) (pa n : Nat) : Nat := leNat (peekBytes s pa n)

/-- Put a byte at its order point. A byte of HBM or the host stays dirty in the L2 unless the write bypasses it (R249). -/
def poke (s : State) (bypass : Bool) (pa : Nat) (b : Byte) : State :=
  if bypass || (scratchBase ≤ pa && pa < mmioEnd) then
    { s with pkg := { s.pkg with mem := tset 0 s.pkg.mem pa b, dirty := tset none s.pkg.dirty pa none } }
  else { s with pkg := { s.pkg with dirty := tset none s.pkg.dirty pa (some b) } }

/-- Put bytes at their order points. -/
def pokeBytes (s : State) (bypass : Bool) (pa : Nat) (bs : List Byte) : State :=
  match bs with
  | [] => s
  | b :: rest => pokeBytes (poke s bypass pa b) bypass (pa + 1) rest

/-- The poisoned granule an access of `n` bytes meets, with its structure number (R483). -/
def poisoned (s : State) (pa n : Nat) : Option (Nat × Nat) :=
  match s.pkg.poison.find? (fun g => overlaps g.1 g.2.1 pa n) with
  | some g => some (g.1, g.2.2)
  | none => none

/-- A write that covers a whole granule clears its poison (R483). -/
def clearPoison (s : State) (pa n : Nat) : State :=
  if s.pkg.poison.isEmpty then s
  else onPkg s fun p => { p with poison := p.poison.filter fun g => !(pa ≤ g.1 && g.1 + g.2.1 ≤ pa + n) }

/-! ## Translation (R442 to R448) -/

/-- The kinds of access of R448. -/
inductive Acc where
  | fetch | read | write | atomic
deriving DecidableEq, Repr, Inhabited

/-- The number of an access kind in TRAPINFO2 (R448). -/
def Acc.num (a : Acc) : Nat := match a with | .fetch => 0 | .read => 1 | .write => 2 | .atomic => 3

/-- One step of the walk at `level`, with `fuel` levels left: a leaf entry and its level, or the level at which the walk stopped
(R442, R443). -/
def walkFrom (s : State) (va : Nat) (fuel level table : Nat) : Except Nat (Nat × Nat) :=
  match fuel with
  | 0 => .error 3
  | fuel + 1 =>
    let e := peekN s (table + 8 * (va / 2 ^ (46 - 10 * level) % 1024)) 8
    if e % 2 = 0 || e / 2 ^ 52 ≠ 0 || e / 2 ^ 12 % 2 ≠ 0 then .error level
    else if e / 2 % 2 = 1 then
      if level < 2 then .error level
      else if level = 2 && e / 2 ^ 13 % 2 ^ 13 ≠ 0 then .error level
      else if level = 3 && e / 2 ^ 13 % 8 ≠ 0 then .error level
      else .ok (e, level)
    else
      let next := e / 2 ^ 13 % 2 ^ 39 * 2 ^ 13
      if e / 4 % 1024 ≠ 0 || level = 3 then .error level
      else if hbmEnd < next + 8192 then .error (level + 1)
      else walkFrom s va fuel (level + 1) next

/-- The walk under an ASID (R442). -/
def walk (s : State) (asid va : Nat) : Except Nat (Nat × Nat) :=
  let root := peekN s (s.pkg.ptbase + 8 * asid) 8
  if root / 2 ^ 52 ≠ 0 || root % 2 ^ 13 ≠ 0 || hbmEnd < root + 8192 then .error 0 else walkFrom s va 4 0 root

/-- The size of a page by the level of its leaf. -/
def pageSize (level : Nat) : Nat := if level = 2 then 2 ^ 26 else 2 ^ 16

/-- A TLB (R446): ASID, base of the page, level and leaf of each translation it holds, the latest first. -/
abbrev Tlb := List (Nat × Nat × Nat × Nat)

/-- The leaf and its level that a TLB holds for an address. -/
def tlbFind (t : Tlb) (asid va : Nat) : Option (Nat × Nat) :=
  match t.find? (fun e => e.1 = asid && e.2.1 = va / pageSize e.2.2.1 * pageSize e.2.2.1) with
  | some e => some (e.2.2.2, e.2.2.1)
  | none => none

/-- Put a translation in a TLB of `cap` entries; the oldest makes room (DESIGN CHOICE, log entry 68: R446 names no order). -/
def tlbPut (cap asid page level leaf : Nat) (t : Tlb) : Tlb :=
  ((asid, page, level, leaf) :: t.filter fun e => !(e.1 = asid && e.2.1 = page && e.2.2.1 = level)).take cap

/-- The leaves held for an address by the TLB of the core in focus and by that of its die. The accesses of an engine job go by the TLBs of
the core in focus at its event too (DESIGN CHOICE, log entry 95: R18, R446 and R449 name no TLB for a job). -/
def heldLeaves (s : State) (asid va : Nat) : List (Option (Nat × Nat)) :=
  [tlbFind s.c.tlb asid va, tlbFind (getDie s (dieOf s.cur)).tlb asid va]

/-- Whether a held leaf is another one than the tables give now. -/
def isStale (now : Except Nat (Nat × Nat)) (held : Option (Nat × Nat)) : Bool :=
  match held, now with
  | none, _ => false
  | some h, .ok n => decide (h ≠ n)
  | some _, .error _ => true

/-- The leaf an access uses: the tables' own, or, where a TLB holds another one, whichever the hardware takes (R446, R447; free
choice). -/
def leafOf (s : State) (asid va : Nat) : Except Nat (Nat × Nat) :=
  let now := walk s asid va
  match (heldLeaves s asid va).zipIdx.find? fun e => isStale now e.1 && Config.stale s.free e.2 with
  | some (some h, _) => .ok h
  | _ => now

/-- Keep the leaf that an access used in both TLBs (R446); a choice made uses up a free value. -/
def noteLeaf (s : State) (asid va : Nat) : State :=
  match leafOf s asid va with
  | .error _ => s
  | .ok (leaf, level) =>
    let held := heldLeaves s asid va
    let old := held.any (isStale (walk s asid va))
    if !old && held.all (·.isSome) then s
    else
      let page := va / pageSize level * pageSize level
      let s := if old then bumpFree s else s
      let s := onC s fun c => { c with tlb := tlbPut 64 asid page level leaf c.tlb }
      onDie s (dieOf s.cur) fun d => { d with tlb := tlbPut 16384 asid page level leaf d.tlb }

/-- The level that a fault of an access to a page shows (R448): that of its leaf, or where the walk stopped. -/
def levelAt (s : State) (asid va : Nat) : Nat :=
  match leafOf s asid va with
  | .ok (_, level) => level
  | .error level => level

/-- What a translation gives an access: the physical address, and the page's kind, checked attribute and default hint. -/
structure PageInfo where
  pa : Nat := 0
  kind : Nat := 0
  checked : Bool := false
  hint : Nat := 1
deriving DecidableEq, Repr, Inhabited

/-- Whether the 64 KiB page of a physical byte is sealed by a published version (R359). -/
def sealedPage (s : State) (pa : Nat) : Bool :=
  s.pkg.versions.any fun e => 2 ≤ e.2.st && e.2.pages.contains (pa / 2 ^ 16)

/-- The checks of a leaf, in the order of R444. `io` marks an LD or ST of 4 or 8 bytes, the only accesses a page of kind MMIO takes
(R259). -/
def leafCheck (s : State) (sup : Bool) (va leaf level : Nat) (a : Acc) (io : Bool := false) : Option Trap :=
  let pa := leaf / 2 ^ 13 % 2 ^ 39 * 2 ^ 13 + va % pageSize level
  let kind := leaf / 2 ^ 8 % 4
  let bad : Trap := { code := cAccess, va, i2 := a.num, i3 := level }
  let r := leaf / 4 % 2 = 1
  let w := leaf / 8 % 2 = 1
  let x := leaf / 16 % 2 = 1
  firstFault
    [ (paKind pa ≠ some kind, bad),
      (!sup && leaf / 32 % 2 = 0, bad),
      (a = .fetch && !x, bad),
      (a = .read && !r, bad),
      (a = .write && !w, bad),
      (a = .atomic && !(r && w), bad),
      (!io && kind = 3, bad),
      ((a = .write || a = .atomic) && (leaf / 128 % 2 = 1 || sealedPage s pa),
        { code := cSealed, va, i2 := a.num, i3 := level }) ]

/-- Whether an address is a fabric address, which no page table translates (R255). -/
def isFabric (va : Nat) : Bool := va / 2 ^ 55 % 2 = 1

/-- Translate one byte's address for an access under an ASID and a privilege (R255, R442 to R448). -/
def translate (s : State) (asid : Nat) (sup : Bool) (va : Nat) (a : Acc) (io : Bool := false) : Except Trap PageInfo :=
  if isFabric va then .error { code := cFabric, va }
  else
  match leafOf s asid va with
  | .error l => .error { code := cTranslation, va, i2 := a.num, i3 := l }
  | .ok (leaf, level) =>
    match leafCheck s sup va leaf level a io with
    | some t => .error t
    | none =>
      .ok
        { pa := leaf / 2 ^ 13 % 2 ^ 39 * 2 ^ 13 + va % pageSize level, kind := leaf / 2 ^ 8 % 4,
          checked := leaf / 64 % 2 = 1 && leaf / 2 ^ 8 % 4 ≠ 3, hint := leaf / 2 ^ 10 % 4 }

/-- A piece of a range that lies in one 64 KiB page: offset in the range, length, and its translation. -/
structure Piece where
  off : Nat := 0
  len : Nat := 0
  pg : PageInfo := {}
deriving DecidableEq, Repr, Inhabited

/-- Translate `n` bytes from `va`, page by page; the first page that faults gives the fault (R447). `fuel` bounds the pages. -/
def piecesFrom (s : State) (asid : Nat) (sup : Bool) (a : Acc) (io : Bool) (fuel va off n : Nat) : Except Trap (List Piece) :=
  match fuel with
  | 0 => .ok []
  | fuel + 1 =>
    if n = 0 then .ok []
    else
      match translate s asid sup va a io with
      | .error t => .error t
      | .ok pg =>
        let len := Nat.min n (2 ^ 16 - va % 2 ^ 16)
        match piecesFrom s asid sup a io fuel (va + len) (off + len) (n - len) with
        | .error t => .error t
        | .ok rest => .ok ({ off, len, pg } :: rest)

/-- The pieces of a range. -/
def pieces (s : State) (asid : Nat) (sup : Bool) (va n : Nat) (a : Acc) (io : Bool := false) : Except Trap (List Piece) :=
  piecesFrom s asid sup a io (n / 2 ^ 16 + 2) va 0 n

/-- The physical address of byte `k` of a translated range. -/
def pieceAt (ps : List Piece) (k : Nat) : Nat :=
  match ps with
  | [] => 0
  | p :: rest => if p.off ≤ k && k < p.off + p.len then p.pg.pa + (k - p.off) else pieceAt rest k

/-- The bytes of a translated range at their order points. -/
def peekPieces (s : State) (ps : List Piece) : List Byte := ps.flatMap fun p => peekBytes s p.pg.pa p.len

/-- Keep every leaf a range used. -/
def notePieces (s : State) (asid va : Nat) (ps : List Piece) : State :=
  ps.foldl (fun s p => noteLeaf s asid (va + p.off)) s

/-- The task's own ASID and privilege. -/
def myPieces (s : State) (va n : Nat) (a : Acc) (io : Bool := false) : Except Trap (List Piece) :=
  pieces s s.t.me.asid s.c.priv va n a io

end Sys2Proof.Machine
end

