-- ==== Sys2Proof/Machine/Cache.lean ====
section
/-! DEFINITION. The regulators' charges (R452, R453), what the L2 holds (R249), the race tags that go with its lines (R296 to R300), the
lines of the L1 data caches (R253, R254) and the bytes of the scratchpads (R205, R242). -/

namespace Sys2Proof.Machine

/-! ## Budgets (R452, R453) -/

def tint (s : State) : Nat := s.t.me.tint

/-- The lines of a physical range. -/
def linesOf (pa n : Nat) : List Nat := (List.range ((pa + n + 127) / 128 - pa / 128)).map (· + pa / 128)

/-- Spend `n` units of regulator `r` of a die for a tint: 0 HBM bytes, 1 fabric bytes, 2 adder operations. -/
def charge (s : State) (die r tint n : Nat) : State :=
  onDie s die fun d => { d with spend := tset 0 d.spend (4 * r + tint) (tget 0 d.spend (4 * r + tint) + n) }

/-- Whether a regulator withholds new accesses of a tint in this period. -/
def overBudget (s : State) (die r tint : Nat) : Bool :=
  let d := getDie s die
  let b := tget 0xFFFFFFFFFFFFFFFF d.budget r / 2 ^ (16 * tint) % 2 ^ 16
  b ≠ 0xFFFF && b * (if r = 2 then 64 else 4096) ≤ tget 0 d.spend (4 * r + tint)

/-! ## Residency in the L2 (R249, R452) -/

/-- Whether an access to a line needs HBM now, because the L2 does not hold it or because it writes `through`, and its tint's budget is
spent. -/
def hbmWithheld (s : State) (pa tint : Nat) (through : Bool := false) : Bool :=
  pa < hbmEnd && (through || (tget none s.pkg.l2 (pa / 128)).isNone) && overBudget s (paDie pa) 0 tint

/-- Charge `n` bytes moved between the L2 and HBM to a tint, if there is one, and to the run of the task in focus where it is the one. -/
def chargeHbm (s : State) (pa tint n : Nat) (mine : Bool) : State :=
  if pa < hbmEnd && tint < 4 then
    let s := charge s (paDie pa) 0 tint n
    if mine then onT s fun t => { t with hbmBytes := t.hbmBytes + n } else s
  else s

/-- The sync records of written bytes reach memory with them. -/
def syncThrough (s : State) (pa n : Nat) : State :=
  if s.pkg.sync.isEmpty && s.pkg.syncMem.isEmpty then s
  else
    let lo := pa / 8
    let k := (pa + n + 7) / 8 - lo
    onPkg s fun p => { p with syncMem := tputs none (tclear p.syncMem lo k) (tshift (tslice p.sync lo k) lo) }

/-- A poisoned granule of the L2's copy of a line, and whether bytes of it are dirty. -/
def l2Granule (line : Nat) (g : Nat × Nat × Nat) : Bool := g.2.2 = 4 && g.1 / 128 = line && !(scratchBase ≤ g.1 && g.1 < mmioEnd)
def granuleDirty (s : State) (g : Nat × Nat × Nat) : Bool := !(tslice s.pkg.dirty g.1 g.2.1).isEmpty

/-- The poison of memory after a line's dirty bytes reach it: a granule of HBM takes that of the bytes written to it (R481, R483). -/
def flushPoison (s : State) (line : Nat) : List (Nat × Nat × Nat) :=
  if s.pkg.poison.isEmpty then []
  else
    ((s.pkg.poison.filter fun g => l2Granule line g && g.1 < hbmEnd && granuleDirty s g).map fun g => (g.1 / 32 * 32, 32, 5)) ++ s.pkg.poison

/-- The dirty bytes of a line, as its order point holds them, reach memory. -/
def flushLine (s : State) (line : Nat) : State :=
  onPkg (syncThrough s (128 * line) 128) fun p =>
    { p with
      poison := flushPoison s line,
      mem := (tslice p.dirty (128 * line) 128).foldl (fun m e => tset 0 m (128 * line + e.1) (peek s (128 * line + e.1))) p.mem,
      dirty := tclear p.dirty (128 * line) 128 }

/-- The tint a line of the L2 was allocated for, 4 where there is none. -/
def lineTint (s : State) (line : Nat) : Nat := match tget none s.pkg.l2 line with | some l => l.tint | none => 4

/-- An L2 line is written back, where bytes of it are dirty; that is charged to the tint the line records (R452). -/
def l2Clean (s : State) (line : Nat) : State :=
  if (tslice s.pkg.dirty (128 * line) 128).isEmpty then s
  else chargeHbm (flushLine s line) (128 * line) (lineTint s line) 128 false

/-- A line leaves the L2. The tag of an HBM line goes to the sidecar, and that of a host line is lost (R296), and the poison of the L2's
copy goes with it, but for dirty bytes of a host line. -/
def l2Drop (s : State) (line : Nat) : State :=
  onPkg (l2Clean s line) fun p =>
    { p with
      l2 := tset none p.l2 line none,
      poison := p.poison.filter fun g => !(l2Granule line g && (g.1 < hbmEnd || !granuleDirty s g)),
      tagPoison := if 128 * line < hbmEnd then p.tagPoison else p.tagPoison.filter (· ≠ line),
      sidecar := if 128 * line < hbmEnd then tset {} p.sidecar line (tget {} p.tags line) else p.sidecar,
      tags := if 128 * line < hbmEnd then p.tags else tset {} p.tags line {} }

/-- The set of a line: 2048 sets of 16 ways in a slice of 4 MiB (R17, R249); the address bits above the slice's choose among them
(DESIGN CHOICE, log entry 19). -/
def l2Set (line : Nat) : Nat :=
  adderUnit (128 * line) * 2048 + (if 128 * line < hbmEnd then line / 32 else line / 128) % 2048

/-- The other lines that the L2 holds in the set of a line. -/
def l2Peers (s : State) (line : Nat) : List (Nat × L2Line) :=
  s.pkg.l2.filterMap fun e =>
    match e.2 with
    | some l => if e.1 ≠ line && l2Set e.1 = l2Set line then some (e.1, l) else none
    | none => none

/-- A line after an access with a hint: the most recently used of its set, and default where a ninth would be sticky (R249). -/
def l2Mark (ps : List (Nat × L2Line)) (hint : Nat) (l : L2Line) : L2Line :=
  { l with
    hint := if hint = 2 && 8 ≤ (ps.filter fun e => e.2.hint = 2).length then 1 else hint,
    last := ps.foldl (fun m e => max m (e.2.last + 1)) l.last }

/-- Which of two lines of a set is replaced first: streaming, then default, then sticky, the least recently used of each first. -/
def l2Before (a b : L2Line) : Bool := a.hint < b.hint || (a.hint = b.hint && a.last < b.last)

/-- The line that makes room in a set for one more, none while a way is invalid (R249). -/
def l2Victim (ps : List (Nat × L2Line)) : Option Nat :=
  if ps.length < 16 then none
  else
    (ps.foldl (fun m e => match m with | some x => if l2Before e.2 x.2 then some e else some x | none => some e) none).map (·.1)

/-- A line enters the L2; where its set is full another is replaced in the same step. -/
def l2Fill (s : State) (line hint tint : Nat) : State :=
  let ps := l2Peers s line
  let s := match l2Victim ps with | some v => l2Drop s v | none => s
  onPkg s fun p => { p with l2 := tset none p.l2 line (some (l2Mark ps hint { tint })) }

/-- An access of `n` bytes of one line with a hint reaches the home slice: a miss fills the line unless the hint is bypass, a hit with
another hint than bypass records that hint and its use, and a bypass write goes through to HBM in either case. -/
def l2touch (s : State) (pa n hint tint : Nat) (mine write : Bool) : State :=
  if scratchBase ≤ pa && pa < mmioEnd then s
  else
    match tget none s.pkg.l2 (pa / 128) with
    | some l =>
      if hint = 3 then (if write then chargeHbm s pa tint n mine else s)
      else onPkg s fun p => { p with l2 := tset none p.l2 (pa / 128) (some (l2Mark (l2Peers s (pa / 128)) hint l)) }
    | none =>
      if hint = 3 then chargeHbm s pa tint n mine
      else chargeHbm (l2Fill s (pa / 128) hint tint) pa tint 128 mine

/-- An access to a physical range reaches the home slices of its lines, line by line. -/
def touchLines (s : State) (pa n hint tint : Nat) (mine write : Bool) : State :=
  (linesOf pa n).foldl
    (fun s l =>
      let lo := Nat.max pa (128 * l)
      l2touch s lo (Nat.min (pa + n) (128 * l + 128) - lo) hint tint mine write) s

/-- The hint an access uses (R444). -/
def effHint (pg : PageInfo) (hint : Nat) : Nat := if hint = 1 then pg.hint else hint

/-- A write at the home slice allocates the lines of it that the L2 does not hold (R249), charged to a tint, or to none. -/
def allocLines (s : State) (pa n tint : Nat) : State :=
  (linesOf pa n).foldl
    (fun s l =>
      if (scratchBase ≤ pa && pa < mmioEnd) || (tget none s.pkg.l2 l).isSome then s
      else chargeHbm (l2Fill s l 1 tint) (128 * l) tint 128 false) s

/-! ## Race tags (R296 to R300) -/

/-- Who an access is made for. -/
structure Agent where
  tag : Nat := 0
  dom : Nat := 0
  acq : Nat := 0
deriving DecidableEq, Repr, Inhabited

def meAgent (s : State) : Agent := { tag := s.t.me.tag, dom := s.t.me.dom, acq := s.t.regs.acqepoch }

/-- Whether `a` is an ancestor of domain `d` (R386). -/
def ancestorOf (s : State) (fuel a d : Nat) : Bool :=
  match fuel with
  | 0 => false
  | fuel + 1 =>
    match tget none s.pkg.domains d with
    | none => false
    | some x => x.parent ≠ 0 && (x.parent = a || ancestorOf s fuel a x.parent)

/-- The phase of a domain, mod 2^16; 0 for the null domain and a free one. -/
def phase16 (s : State) (d : Nat) : Nat :=
  match tget none s.pkg.domains d with
  | some x => x.phase.toNat % 2 ^ 16
  | none => 0

def getTag (s : State) (line : Nat) : Tag := tget {} s.pkg.tags line

/-- Write a line's tag, whole: its poison is cleared (R483). A line of HBM that is not in the L2 has its tag in the sidecar, and a host
line that is not has none (R296). -/
def setTag (s : State) (line : Nat) (t : Tag) : State :=
  let mended := s.pkg.tagPoison.filter (· ≠ line)
  if (tget none s.pkg.l2 line).isSome then onPkg s fun p => { p with tags := tset {} p.tags line t, tagPoison := mended }
  else if 128 * line < hbmEnd then
    onPkg s fun p => { p with tags := tset {} p.tags line t, sidecar := tset {} p.sidecar line t, tagPoison := mended }
  else if 128 * line < hostBase then onPkg s fun p => { p with tags := tset {} p.tags line t, tagPoison := mended }
  else s

/-- The conflict a plain access meets: its kind (1 writer, 2 reader) and the other task's tag (R299, R300). -/
def tagConflict (s : State) (x : Agent) (write : Bool) (t : Tag) : Option (Nat × Nat) :=
  let wok := !t.wv || t.wtask = x.tag ||
    ((t.wdom = x.dom || ancestorOf s 1024 t.wdom x.dom) && phase16 s t.wdom ≠ t.wphase) || epAfter x.acq t.wepoch
  if !wok then some (1, t.wtask)
  else if write && t.rv && (t.rtask ≠ x.tag || t.rmulti) && !epAfter x.acq t.repoch then
    some (2, if t.rtask = x.tag then 0xFFFFF else t.rtask)
  else none

/-- The tag after an access (R299). -/
def tagAfter (s : State) (x : Agent) (write : Bool) (t : Tag) : Tag :=
  if write then
    { wv := true, wtask := x.tag, wdom := x.dom, wphase := phase16 s x.dom, wepoch := s.pkg.epoch }
  else if t.wv && t.wtask = x.tag then t
  else
    let t := if !t.rv then { t with rv := true, rtask := x.tag } else if t.rtask ≠ x.tag then { t with rmulti := true } else t
    { t with repoch := s.pkg.epoch }

/-- The first conflict of a list of lines. -/
def linesConflict (s : State) (x : Agent) (write : Bool) (ls : List Nat) : Option (Nat × Nat) :=
  match ls with
  | [] => none
  | l :: rest =>
    match tagConflict s x write (getTag s l) with
    | some c => some c
    | none => linesConflict s x write rest

/-- The first of a list of lines whose tag is poisoned: the structure that holds the tag, and the line's address (R481, R483). -/
def tagPoisoned (s : State) (ls : List Nat) : Option (Nat × Nat) :=
  (ls.find? s.pkg.tagPoison.contains).map fun l =>
    (128 * l, if (tget none s.pkg.l2 l).isSome || hbmEnd ≤ 128 * l then 4 else 5)

/-- Apply the step of R299 to every line of a checked range. -/
def tagLines (s : State) (x : Agent) (write : Bool) (ls : List Nat) : State :=
  ls.foldl (fun s l => setTag s l (tagAfter s x write (getTag s l))) s

/-- The checked lines of a translated range. -/
def checkedLines (ps : List Piece) : List Nat :=
  ps.flatMap fun p => if p.pg.checked then linesOf p.pg.pa p.len else []

/-- The ticks of the epoch since `w`. -/
def ageOf (e w : Nat) : Nat := (e + 2 ^ 28 - w % 2 ^ 28) % 2 ^ 28

/-- An epoch field is 2^25 ticks old or older (R303). -/
def aged (e w : Nat) : Bool := 2 ^ 25 ≤ ageOf e w

/-- What a visit of the patrol leaves of a tag at epoch `e` (R303). -/
def patrolled (e : Nat) (t : Tag) : Tag :=
  { t with wv := t.wv && !aged e t.wepoch, rv := t.rv && !aged e t.repoch, rmulti := t.rmulti && !aged e t.repoch }

/-- A tag that the patrol must have visited by epoch `e`: it visits each tag once in each 2^25 ticks (R303). -/
def patrolDue (e : Nat) (t : Tag) : Bool := (t.wv && 2 ^ 26 ≤ ageOf e t.wepoch) || (t.rv && 2 ^ 26 ≤ ageOf e t.repoch)

/-- The tags after the visits that epoch `e` makes due. -/
def patrolAll (e : Nat) (m : Tbl Tag) : Tbl Tag :=
  if m.any fun x => patrolDue e x.2 then m.foldl (fun t x => tset {} t x.1 (if patrolDue e x.2 then patrolled e x.2 else x.2)) [] else m

/-- A tick of the release epoch, which serves every request pending (R298). A release that the device performs as part of a longer
action (the end of a job or a task, a suspension, an arrival) has its tick within the action, after the accesses it orders. -/
def tickEpoch (s : State) : State :=
  onPkg s fun p =>
    let e := (p.epoch + 1) % 2 ^ 28
    { p with epoch := e, tickWanted := false, tags := patrolAll e p.tags, sidecar := patrolAll e p.sidecar }

/-! ## The lines of an L1 (R253, R254) -/

/-- How a write is made: through to memory (R249), with a sync record for its words (R290), clearing the tag of its lines as host,
base-die and fabric writes do (R296), by a unit of the base dies (R251), and the tint that a line it allocates is charged to, 4 for
none (R452). `touch` is the hint with which the write itself reaches the home slice, none where its agent has reached it before. -/
structure WHow where
  bypass : Bool := false
  sync : Option SyncRec := none
  clearTag : Bool := false
  base : Bool := false
  tint : Nat := 4
  touch : Option Nat := none
deriving DecidableEq, Repr, Inhabited

/-- A write of bytes at a physical address, as one access at its order point, by one who is told how it is made. -/
abbrev Writer := WHow → State → Nat → List Byte → State

def l1Get (s : State) (line : Nat) : Option L1Line := tget none s.c.l1 line
/-- Set a line; the poison of one that is dropped goes with it. -/
def l1Set (s : State) (line : Nat) (l : Option L1Line) : State :=
  onC s fun c =>
    { c with l1 := tset none c.l1 line l, l1Poison := if l.isSome then c.l1Poison else c.l1Poison.filter (· / 16 ≠ line) }

/-- Byte `k` of a line. -/
def L1Line.byte (l : L1Line) (k : Nat) : Byte := (l.data >>> (8 * k)).setWidth 8
def L1Line.isDirty (l : L1Line) (k : Nat) : Bool := l.dirty.getLsbD k

/-- Write back the run of dirty bytes that starts at byte `k`, and the runs after it. `fuel` bounds the bytes. -/
def writeRuns (l : L1Line) (fuel k : Nat) (run : List Byte) : List (Nat × List Byte) :=
  match fuel with
  | 0 => if run.isEmpty then [] else [(k - run.length, run)]
  | fuel + 1 =>
    if l.isDirty k then writeRuns l fuel (k + 1) (run ++ [l.byte k])
    else if run.isEmpty then writeRuns l fuel (k + 1) []
    else (k - run.length, run) :: writeRuns l fuel (k + 1) []

/-- Granules join the poisoned ones. -/
def markPoisoned (s : State) (gs : List (Nat × Nat × Nat)) : State :=
  if gs.isEmpty then s else onPkg s fun p => { p with poison := gs ++ p.poison }

/-- The granules of a line that the L1 holds poisoned with dirty bytes in them: the L2 takes their poison with the bytes (R483). -/
def spilled (s : State) (l : L1Line) (line : Nat) : List (Nat × Nat × Nat) :=
  (s.c.l1Poison.filter fun g => g / 16 = line && (List.range 8).any fun k => l.isDirty (8 * (g % 16) + k)).map fun g => (8 * g, 8, 4)

/-- Write back the dirty bytes of a line as plain writes at the home slice (R254), made by `wr`; they stay valid. A page that a
published version has sealed since is not written (R359). -/
def l1CleanBy (wr : Writer) (s : State) (line : Nat) : State :=
  match l1Get s line with
  | none => s
  | some l =>
    if l.dirty = 0 then s
    else
      let s := if sealedPage s (128 * line) then s
        else
          markPoisoned
            ((writeRuns l 128 0 []).foldl
              (fun s r => wr { tint := tint s } (l2touch s (128 * line) 128 1 (tint s) true true) (128 * line + r.1) r.2) s)
            (spilled s l line)
      l1Set s line (some { l with dirty := 0 })

/-- Drop a line, its dirty bytes lost. -/
def l1Inval (s : State) (line : Nat) : State := l1Set s line none

/-- Write back and drop a line. -/
def l1DropBy (wr : Writer) (s : State) (line : Nat) : State := l1Inval (l1CleanBy wr s line) line

/-- Write back and drop lines in the L1 of core `core` (R253). -/
def l1DropOn (wr : Writer) (s : State) (core : Nat) (lines : List Nat) : State :=
  if core = s.cur then lines.foldl (l1DropBy wr) s else focus (lines.foldl (l1DropBy wr) (focus s core)) s.cur

/-! ## The bytes of scratchpads (R205, R242) -/

def mib8 : Nat := 0x800000

/-- A byte of the scratchpad of the gang led by core `lead`. -/
def spmByteOf (s : State) (lead a : Nat) : Byte := tget 0 (coreCtx s (lead + a / mib8)).c.spm (a % mib8)

/-- Write a byte of the scratchpad of the gang led by `lead`. -/
def setSpmByteOf (s : State) (lead a : Nat) (b : Byte) : State :=
  onCore s (lead + a / mib8) fun x => { x with c := { x.c with spm := tset 0 x.c.spm (a % mib8) b } }

/-- Write bytes and clear the poison of the 8-byte granules they cover whole (R483). -/
def setSpmBytesOf (s : State) (lead a : Nat) (bs : List Byte) : State :=
  let s := (List.range bs.length).foldl (fun s k => setSpmByteOf s lead (a + k) (bs.getD k 0)) s
  if (coreCtx s (lead + a / mib8)).c.spmPoison.isEmpty then s
  else
    onCore s (lead + a / mib8) fun x =>
      { x with c := { x.c with spmPoison := x.c.spmPoison.filter fun g => !(a % mib8 ≤ g && g + 8 ≤ a % mib8 + bs.length) } }

end Sys2Proof.Machine
end

