-- ==== Sys2Proof/Machine/Sched.lean ====
section
/-! DEFINITION. The sorting frame's queues, the envelope's device-owned bytes, graph edges and counter changes (R378, R384,
R385, R400, R403, R329). Writes of memory are made by a writer given as an argument, the order-point write of Watch. -/

namespace Sys2Proof.Machine

/-- Bytes read at their order points under an ASID and a privilege; none where a translation or its checks fail. -/
def readVA (s : State) (asid : Nat) (sup : Bool) (va n : Nat) : Option (List Byte) :=
  match pieces s asid sup va n .read with
  | .ok ps => some (peekPieces s ps)
  | .error _ => none

/-- Write bytes under an ASID and a privilege for a tint, piece by piece; nothing where a translation or its checks fail. -/
def writeVA (wr : Writer) (s : State) (tint asid : Nat) (sup : Bool) (va : Nat) (bs : List Byte) : State :=
  match pieces s asid sup va bs.length .write with
  | .ok ps => ps.foldl (fun s p => wr { tint, touch := some (effHint p.pg 1) } s p.pg.pa ((bs.drop p.off).take p.len)) s
  | .error _ => s

/-- White tasks have supervisor privilege (R438, R439). -/
def TaskRec.sup (r : TaskRec) : Bool := r.tint == 2

/-! ## Task records -/

def getTask (s : State) (tag : Nat) : Option TaskRec := tget none s.pkg.tasks tag
def setTask (s : State) (tag : Nat) (r : Option TaskRec) : State :=
  onPkg s fun p => { p with tasks := tset none p.tasks tag r }

/-- The live tasks' records, each under the tag it is kept by. -/
def taskList (s : State) : List TaskRec := s.pkg.tasks.filterMap fun e => e.2.map fun r => { r with tag := e.1 }

/-- The task at an envelope address under an ASID. -/
def taskAt (s : State) (env asid : Nat) : Option TaskRec :=
  match s.pkg.tasks.find? (fun e => match e.2 with | some r => r.env = env && r.asid = asid | none => false) with
  | some (_, r) => r
  | none => none

/-- The core that runs a task, if any. -/
def runningOn (s : State) (tag : Nat) : Option Nat :=
  (coreList s).find? fun n => (coreCtx s n).c.busy && (coreCtx s n).t.me.tag = tag

/-- EXIT, SUSP and STATE as bytes 48 to 51 of the envelope (R378). -/
def statusWord (r : TaskRec) : Nat := r.exit * 256 + r.susp * 16 + r.st

/-- Write the device-owned status of an envelope. -/
def envStatus (wr : Writer) (s : State) (r : TaskRec) : State :=
  writeVA wr s r.tint r.asid r.sup (r.env + 48) (leBytes 4 (statusWord r))

/-- Write every device-owned field of an envelope but the status (R378, R381). -/
def envFields (wr : Writer) (s : State) (r : TaskRec) (vhold : Word) : State :=
  let s := writeVA wr s r.tint r.asid r.sup r.env (leBytes 8 r.pc.toNat)
  let s := writeVA wr s r.tint r.asid r.sup (r.env + 24) (leBytes 8 vhold.toNat)
  let s := writeVA wr s r.tint r.asid r.sup (r.env + 57) [BitVec.ofNat 8 (r.age * 16 + r.intens * 4 + r.adopt)]
  writeVA wr s r.tint r.asid r.sup (r.env + 58) (leBytes 2 ((if r.lcv then 256 else 0) + r.last))

/-! ## Queues (R400 to R403) -/

/-- The tint byte a core shows: its TINTMAP byte in force, or grey without a binding (R398, R417). -/
def bindByte (s : State) (core : Nat) : Nat := tget 3 (getDie s (dieOf core)).bindmap (core % 64)
def coreByte (s : State) (core : Nat) : Nat := if bindByte s core = 0 then 3 else (coreCtx s core).c.tint

def queueKey (tint cls prio : Nat) : Nat := 16 * tint + 4 * cls + prio
def effPrio (r : TaskRec) : Nat := Nat.min 3 (r.prio + r.age)

/-- The die whose frame a task enters (R400). -/
def homeDie (r : TaskRec) : Nat := if r.ran then dieOf r.last else r.die

/-- Put a READY task at the tail of its queue, held for its last core where R403 says so; where that core is idle, the frame selects for it
at once. -/
def enqueue (s : State) (r : TaskRec) : State :=
  let d := homeDie r
  let same := r.lcv && dieOf r.last = d && coreByte s r.last = r.gw * 4 + r.tint
  let r := { r with st := 1, die := d, held := same }
  let s := setTask s r.tag (some r)
  let k := queueKey r.tint r.cls (effPrio r)
  let s := if same && !(coreCtx s r.last).c.busy && !s.pkg.atOnce.contains r.last
    then onPkg s fun p => { p with atOnce := p.atOnce ++ [r.last] } else s
  onDie s d fun x => { x with queues := tset [] x.queues k (tget [] x.queues k ++ [r.tag]) }

/-- Make a task READY: its envelope's status is written and it enters its queue. -/
def makeReady (wr : Writer) (s : State) (r : TaskRec) : State :=
  let r := { r with st := 1 }
  enqueue (envStatus wr s r) r

/-! ## Graph edges (R384, R385) -/

/-- An edge of a block: its counter as a task number, its threshold, and its regions. -/
structure Edge where
  cnt : Nat := 0
  thr : Nat := 0
  regions : List (Nat × Nat) := []
deriving DecidableEq, Repr, Inhabited

/-- The regions of edge `e` of a block at `va`. -/
def readRegions (s : State) (r : TaskRec) (va e n : Nat) : Option (List (Nat × Nat)) :=
  match n with
  | 0 => some []
  | n + 1 =>
    match readRegions s r va e n, readVA s r.asid r.sup (va + 64 + 64 * e + 16 * n) 16 with
    | some rest, some bs => some (rest ++ [(leNat (bs.take 8), leNat (bs.drop 8))])
    | _, _ => none

/-- The first `n` edges of a block; none where it cannot be read or breaks R384's layout. -/
def readEdgesN (s : State) (r : TaskRec) (va n : Nat) : Option (List Edge) :=
  match n with
  | 0 => some []
  | n + 1 =>
    match readEdgesN s r va n, readVA s r.asid r.sup (va + 8 + 8 * n) 8 with
    | some rest, some bs =>
      let w := leNat bs
      let k := w / 2 ^ 12 % 8
      if w / 2 ^ 15 % 2 ^ 17 ≠ 0 || 4 < k then none
      else
        match readRegions s r va n k with
        | some rs =>
          if rs.any fun x => 2 ^ 40 < x.2 then none
          else some (rest ++ [{ cnt := w % 2 ^ 12, thr := w / 2 ^ 32, regions := rs }])
        | none => none
    | _, _ => none

/-- An edge block (R384). -/
def readEdges (s : State) (r : TaskRec) (va : Nat) : Option (List Edge) :=
  if va = 0 then some []
  else
    match readVA s r.asid r.sup va 8 with
    | some bs => if 4 < leNat bs then none else readEdgesN s r va (leNat bs)
    | none => none

/-- The package counter of a task number (R326). -/
def mapCnt (base n : Nat) : Nat := (base + n) % 4096

/-- COUNTERS of a task's resource header (R380), where it can be read. -/
def headerCounters (s : State) (r : TaskRec) : Option Nat := (readVA s r.asid r.sup (r.hdr + 12) 2).map leNat

/-- Whether an edge names a counter at or beyond its task's header (R384, R450). A header that cannot be read refuses none here; that
comes at the first dispatch (R382, R390). -/
def beyondCounters (s : State) (r : TaskRec) (es : List Edge) : Bool :=
  match headerCounters s r with
  | some n => es.any fun e => n ≤ e.cnt
  | none => false

/-- The edges of a block are all satisfied (R385). -/
def edgesHold (s : State) (r : TaskRec) (es : List Edge) : Bool := es.all fun e => cntMet (getCnt s (mapCnt r.cntbase e.cnt)) e.thr

/-- The lines of translated pieces that the device reads for a task reach the L2, charged to its tint (R452). -/
def touchPieces (s : State) (tint : Nat) (ps : List Piece) : State :=
  ps.foldl (fun s p => touchLines s p.pg.pa p.len (effHint p.pg 1) tint false false) s

/-- The same for a range of the task's addresses, where it translates. -/
def touchVA (s : State) (r : TaskRec) (va n : Nat) : State :=
  match pieces s r.asid r.sup va n .read with | .ok ps => touchPieces s r.tint ps | .error _ => s

/-- The bytes of a block of edges. -/
def blockLen (n : Nat) : Nat := if n = 0 then 8 else 64 + 64 * n

/-- The device reads a block of edges for a task (R452). -/
def touchBlock (s : State) (r : TaskRec) (va : Nat) (es : List Edge) : State :=
  if va = 0 then s else touchVA s r va (blockLen es.length)

/-- Re-examine the EDGEWAIT tasks after counter `n` changed (R385). -/
def examineEdges (wr : Writer) (s : State) (n : Nat) : State :=
  (taskList s).foldl
    (fun s r =>
      if r.st ≠ 4 then s
      else
        match readEdges s r r.inE with
        | none => s
        | some es =>
          if es.any fun x => mapCnt r.cntbase x.cnt = n then
            let s := touchBlock s r r.inE es
            if edgesHold s r es then makeReady wr s r else s
          else s)
    s

/-! ## Counters (R328, R329) -/

/-- One field of SCOPEREC after an increment from `origin`. -/
def ScopeField.add (f : ScopeField) (origin : Nat) : ScopeField :=
  match f with
  | .none => .one origin
  | .one o => if o = origin then .one o else .mixed
  | .mixed => .mixed

/-- SCOPEREC after a releasing increment at `scope` by the task `tag` on `core`. -/
def ScopeRec.add (r : ScopeRec) (scope tag core : Nat) : ScopeRec :=
  match scope with
  | 0 => { r with t := r.t.add tag }
  | 1 => { r with c := r.c.add (clusterOf core) }
  | 2 => { r with d := r.d.add (dieOf core) }
  | _ => r

/-- Whether a waiter synchronises with every increment a counter includes (R329). -/
def scopeRecOk (r : ScopeRec) (tag core : Nat) : Bool :=
  let ok := fun (f : ScopeField) (me : Nat) => match f with | .none => true | .one o => o = me | .mixed => false
  ok r.t tag && ok r.c (clusterOf core) && ok r.d (dieOf core)

/-- Parameter `k` of a job (R305). -/
def jpar (j : Job) (k : Nat) : Nat := (tget 0 j.par k).toNat

def isArmput (j : Job) : Bool := j.eng == 7 && jpar j 12 % 4 == 3

/-- An ARMPUT fires at the first instant at which its trigger meets its threshold, and acquires the trigger's increments where its
SCOPEREC lets it (R329, R342). -/
def meetArmput (s : State) (core e : Nat) : State :=
  onJob s core e fun j =>
    if j.live && j.armed && isArmput j && !j.fired && j.stopping.isNone && cntMet (getCnt s j.trig) (jpar j 16 / 2 ^ 32) then
      { j with fired := true, acq := if scopeRecOk (tget {} s.pkg.scoperec j.trig) j.tag core then s.pkg.epoch else j.acq }
    else j

/-- What a change of counter `n` sets off: the ARMPUTs that it fires, and the EDGEWAIT tasks that it makes READY (R342, R385). -/
def counterChanged (wr : Writer) (s : State) (n : Nat) : State :=
  let s := ((liveJobs s).filter fun x => isArmput x.2.2 && x.2.2.trig = n).foldl (fun s x => meetArmput s x.1 x.2.1) s
  examineEdges wr s n

/-- Add to a counter as a release at `scope`, with what that sets off. -/
def cntInc (wr : Writer) (s : State) (n amount scope tag core : Nat) : State :=
  let s := setCnt s n (getCnt s n + BitVec.ofNat 32 amount)
  let s := onPkg s fun p =>
    { p with scoperec := tset {} p.scoperec n ((tget {} p.scoperec n).add scope tag core) }
  counterChanged wr s n

end Sys2Proof.Machine
end

