-- ==== Sys2Proof/Machine/Watch.lean ====
section
/-! DEFINITION. A write at its order point with everything that watches it: sync records, race tags, poison, condition words of
speculation regions (R425), trackers (R324) and the logit sink (R368, R369). -/

namespace Sys2Proof.Machine

/-- A write goes through to memory: a bypass write and one of the base dies (R249, R251). -/
def WHow.through (how : WHow) : Bool := how.base || how.bypass || how.touch = some 3

/-- Give every aligned word of a write its sync record, or clear it (R290); where the write goes through, the word has that record in memory
too. -/
def setSync (s : State) (pa n : Nat) (r : Option SyncRec) (through : Bool) : State :=
  if r = none && s.pkg.sync.isEmpty && s.pkg.syncMem.isEmpty then s
  else
    let put := fun m => ((List.range ((pa + n + 7) / 8 - pa / 8)).map (· + pa / 8)).foldl (fun m w => tset none m w r) m
    onPkg s fun p => { p with sync := put p.sync, syncMem := if through then put p.syncMem else p.syncMem }

/-- Clear the tags of the lines of a write; the tag of a line that the L2 does not hold is in the sidecar. -/
def clearTags (s : State) (pa n : Nat) : State :=
  if s.pkg.tags.isEmpty && s.pkg.sidecar.isEmpty && s.pkg.tagPoison.isEmpty then s
  else
    onPkg s fun p =>
      { p with
        tagPoison := p.tagPoison.filter fun l => !(linesOf pa n).contains l,
        tags := (linesOf pa n).foldl (fun m l => tset {} m l {}) p.tags,
        sidecar := (linesOf pa n).foldl (fun m l => if (tget none p.l2 l).isSome then m else tset {} m l {}) p.sidecar }

/-- A write reaches the home slice: as an access with its hint, or, where its agent has brought the lines in, only those of them that have
left again. -/
def reachSlice (s : State) (pa n : Nat) (how : WHow) : State :=
  match how.touch with
  | some h => touchLines s pa n h how.tint false true
  | none => if how.bypass then s else allocLines s pa n how.tint

/-- The write itself. A base-die unit writes the DRAM row directly, after the home slice has written back and dropped its copy of the
line (R251); any other write but a bypass one is held in the L2, which allocates the line (R249). -/
def baseWrite (s : State) (pa : Nat) (bs : List Byte) (how : WHow) : State :=
  let s := if how.base then (linesOf pa bs.length).foldl l2Drop s else reachSlice s pa bs.length how
  let s := pokeBytes s how.through pa bs
  let s := setSync s pa bs.length how.sync how.through
  let s := if how.clearTag then clearTags s pa bs.length else s
  clearPoison s pa bs.length

/-- Tell every open speculation region about a write (R425): another value than SEXP aborts it with cause 3; SEXP commits it where a
store waits (R423). What one write decides, no later one changes. -/
def watchSpec (s : State) (pa n : Nat) : State :=
  (coreList s).foldl
    (fun s k =>
      let x := coreCtx s k
      if x.c.busy && x.t.spec.isOpen && overlaps x.t.spec.pa 8 pa n then
        let now := peekN s x.t.spec.pa 8
        let sp := x.t.spec
        let sp' :=
          if sp.pending.isSome || sp.commit then sp
          else if now ≠ sp.exp.toNat then { sp with pending := some 3 }
          else if sp.full then { sp with commit := true }
          else sp
        setCoreCtx s k { x with t := { x.t with spec := sp' } }
      else s)
    s

/-- The bytes of a write inside a list of physical ranges. -/
def bytesIn (ranges : List (Nat × Nat)) (pa n : Nat) : Nat :=
  ranges.foldl (fun acc r => acc + (Nat.min (r.1 + r.2) (pa + n) - Nat.max r.1 pa)) 0

/-! ## The logit sink (R368, R369) -/

/-- exp(y) for a real `y ≤ 0`: partial sums of the series on the grid 2^-g, by `fuel` terms of x^k/k! from term `k`. -/
def expSeries (fuel k : Nat) (x term : Int) (g : Nat) : Int :=
  match fuel with
  | 0 => 0
  | fuel + 1 => term + expSeries fuel (k + 1) x ((term * x).fdiv ((2 : Int) ^ g * ((k : Int) + 1))) g

/-- ln 2 on the grid 2^-200, rounded down. -/
def ln2g : Int := 1113844574712631719546256151097547306333272293549090750737802

/-- exp(y) of a real `y ≤ 0`, to about 2^-150 of its value: exp(y) = 2^-n * exp(r), with y = r - n ln 2. -/
def expNeg (y : Dy) : Dy :=
  let g : Nat := 200
  let yi := alignM y (-(g : Int))
  let n := ((-yi) / ln2g + 1).toNat
  let r := yi + (n : Int) * ln2g
  { m := expSeries 80 0 r ((2 : Int) ^ g) g, e := -(g : Int) - n }

/-- exp(y) for y ≤ 0, none where y is a NaN. What lies below e^-200 is less than any f32, and counts as 0. -/
def sinkExact (y : FV) : Option Dy :=
  match y with
  | .inf _ => some dyZero
  | .val _ 0 _ => some { m := 1, e := 0 }
  | .val _ _ _ => some (if dyLt y.dy { m := -200, e := 0 } then dyZero else expNeg y.dy)
  | _ => none

/-- e(y) of R368 for y ≤ 0: one of the two f32 values around exp(y), at the choice of the hardware, and a free value where y has
none. -/
def sinkExp (n : Nat) (y : FV) : FV :=
  match sinkExact y with
  | none => decodeF f32 (Config.sinkNone n).toNat
  | some x => decodeF f32 (storeVec f32 (if Config.sinkUp n then 3 else 1) false false (fvOf false x)).1

/-- The total order of the shortlist (R368): by value, and between equal values the lower entry is greater. -/
def sinkBefore (a b : Nat × Nat) : Bool :=
  let c := fvCmp (decodeF f32 a.1) (decodeF f32 b.1)
  c > 0 || (c = 0 && a.2 < b.2)

/-- Put a pair in its place in the shortlist. -/
def sinkInsert (top : List (Nat × Nat)) (x : Nat × Nat) : List (Nat × Nat) :=
  match top with
  | [] => [x]
  | y :: rest => if sinkBefore x y then x :: y :: rest else y :: sinkInsert rest x

/-- x - m, and an f32 rounded to nearest. -/
def sinkSub (a b : FV) : FV := (fvAdd false a b.flip).1
def sinkRound (a : FV) : Nat := (storeVec f32 0 false false a).1

/-- One logit `x` (f32 bits) of entry `v` filtered into a request's state (R368). -/
def sinkStep (k n : Nat) (r : SinkReq) (x v : Nat) : SinkReq :=
  let xv := decodeF f32 x
  if xv.isNan then { r with nan := r.nan + 1, c := r.c + 1 }
  else
    let m := decodeF f32 r.m
    let s := decodeF f32 r.s
    let r' :=
      if fvCmp xv m > 0 then
        let y := sinkSub m xv
        let t := rneF32 (fvMul s (sinkExp n y)).1
        { r with s := sinkRound (fvAdd false t (.val false 1 0)).1, m := x }
      else
        let y := sinkSub xv m
        { r with s := sinkRound (fvAdd false s (sinkExp n y)).1 }
    { r' with c := r'.c + 1, top := (sinkInsert r'.top (x, v)).take k }

/-- The state of one stack merged into that of another: the greater m, the sums on its scale, the counts, and the shortlists. -/
def sinkJoin (k n : Nat) (a b : SinkReq) : SinkReq :=
  let hi := if fvCmp (decodeF f32 b.m) (decodeF f32 a.m) > 0 then b else a
  let part := fun r : SinkReq =>
    if r.m = hi.m || fvCmp (decodeF f32 r.m) (decodeF f32 hi.m) = 0 then decodeF f32 r.s
    else rneF32 (fvMul (decodeF f32 r.s) (sinkExp n (sinkSub (decodeF f32 r.m) (decodeF f32 hi.m)))).1
  { m := hi.m, s := sinkRound (fvAdd false (part a) (part b)).1, c := a.c + b.c, nan := a.nan + b.nan,
    top := (b.top.foldl sinkInsert a.top).take k }

/-- The state of request `r` when the job completes: the three stacks' states merged in an order that the spec leaves open, each addition
exactly rounded (R137, R368; log entry 12). -/
def sinkMerged (k n : Nat) (t : Tbl SinkReq) (r : Nat) : SinkReq :=
  let o := Config.sinkOrder n
  let at' := fun i : Nat => tget {} t (3 * r + (o + i) % 3)
  sinkJoin k n (sinkJoin k n (at' 0) (at' 1)) (at' 2)

/-- The 576-byte result of a request (R369). -/
def sinkResult (r : SinkReq) : List Byte :=
  leBytes 4 r.m ++ leBytes 4 r.s ++ leBytes 4 r.c ++ leBytes 4 r.nan ++ leBytes 4 r.top.length ++ leBytes 44 0 ++
  (r.top.flatMap fun e => leBytes 4 e.1 ++ leBytes 4 e.2) ++ leBytes (8 * (64 - r.top.length)) 0

/-- Where a physical byte of an armed range lies in the range. -/
def rangeOff (ranges : List (Nat × Nat)) (base pa : Nat) : Option Nat :=
  match ranges with
  | [] => none
  | (a, n) :: rest => if a ≤ pa && pa < a + n then some (base + (pa - a)) else rangeOff rest (base + n) pa

/-- Filter the aligned word at region offset `off`, of physical address `pa`, in the stack that holds it (R247, R368). -/
def sinkWord (s : State) (j : Job) (off pa : Nat) : Job × State :=
  let v := jpar j 14
  let q := off / 4
  if q / v < jpar j 17 then
    let k := 3 * (q / v) + pa / 256 % 3
    ({ j with sink := tset {} j.sink k (sinkStep (jpar j 15) s.free (tget {} j.sink k) (peekN s pa 4) (q % v)) }, bumpFree s)
  else (j, s)

/-- The logits counted of request `r`. -/
def sinkCount (j : Job) (r : Nat) : Nat := (tget {} j.sink (3 * r)).c + (tget {} j.sink (3 * r + 1)).c + (tget {} j.sink (3 * r + 2)).c

/-- The requests of a SINK job that have all their logits: its UNITS (R318). -/
def sinkUnits (j : Job) : Nat := ((List.range (jpar j 17)).filter fun r => sinkCount j r = jpar j 14).length

/-- Whether every request of a SINK job has all its logits (R369). -/
def sinkDone (j : Job) : Bool := sinkUnits j = jpar j 17

/-- Filter `n` words of a write from physical address `pa`; those after completion are stored but not filtered (R369). -/
def sinkWords (s : State) (j : Job) (pa n : Nat) : Job × State :=
  match n with
  | 0 => (j, s)
  | n + 1 =>
    if sinkDone j then (j, s)
    else
      match rangeOff j.ranges 0 pa with
      | none => sinkWords s j (pa + 4) n
      | some off =>
        let (j, s) := sinkWord s j off pa
        sinkWords s j (pa + 4) n

/-- The parts of a write that lie in the pieces of an armed range: address and length. -/
def cutBy (ranges : List (Nat × Nat)) (pa n : Nat) : List (Nat × Nat) :=
  (ranges.map fun r => (Nat.max r.1 pa, Nat.min (r.1 + r.2) (pa + n) - Nat.max r.1 pa)).filter fun x => 0 < x.2

/-! ## The accesses of a job (R307, R311, R449) -/

/-- How an access of a job ends it: state, reason and faulting address. -/
structure JErr where
  st : Nat := 5
  reason : Nat := 0
  va : Nat := 0
deriving DecidableEq, Repr, Inhabited

/-- The end a translation fault makes (R449). -/
def errOf (t : Trap) : JErr :=
  { st := 5, reason := if t.code = cTranslation then 1 else if t.code = cFabric then 3 else if t.code = cSealed then 6 else 2, va := t.va }

def parSpm (v : Nat) : Bool := v / 2 ^ 56 % 2 = 1
def parAddr (v : Nat) : Nat := v % 2 ^ 56
def jobHint (j : Job) : Nat := jpar j 2 / 2 ^ 21 % 4
def jobAgent (j : Job) : Agent := { tag := j.tag, dom := j.dom, acq := j.acq }

def failJob (s : State) (core e : Nat) (x : JErr) : State :=
  onJob s core e fun j => { j with stopping := some x.st, reason := x.reason, fva := x.va }

/-! ## The end of a job (R318, R329) -/

def jobCen (j : Job) : Bool := jpar j 2 / 2 ^ 12 % 2 = 1

/-- The status value of a job in state `st` (R318): no REASON before it has ended (R319). -/
def statusValue (j : Job) (st : Nat) : Nat :=
  (if st < 3 then 0 else j.reason) * 2 ^ 48 + j.units % 2 ^ 32 * 2 ^ 16 + j.eng * 2 ^ 8 + (if j.ack then 16 else 0) + st

/-- A job writes its status record, its last access: checked and tagged as every access of it, and dropped where it faults (R296,
R311, R318), or meets a race: the job then ends as it would have (DEDUCED, log entry 98: R301 ends a job RACE at its accesses, R318 drops a
record write that cannot be made). -/
def writeStatus (wr : Writer) (s : State) (j : Job) (st : Nat) : State :=
  let va := jpar j 3
  if va = 0 then s
  else
    match pieces s j.asid j.priv va 16 .write with
    | .error _ => s
    | .ok ps =>
      let ls := checkedLines ps
      if (tagPoisoned s ls).isSome || (linesConflict s (jobAgent j) true ls).isSome then s
      else
        let bs := leBytes 8 (statusValue j st) ++ leBytes 8 (if st = 5 then j.fva else 0)
        let s := l1DropOn wr s j.core (ps.flatMap fun p => linesOf p.pg.pa p.len)
        let s := ps.foldl (fun s p => touchLines s p.pg.pa p.len (effHint p.pg (jobHint j)) j.tint false true) s
        let s := tagLines s (jobAgent j) true ls
        ps.foldl (fun s p =>
          wr { bypass := effHint p.pg (jobHint j) = 3, tint := j.tint } s p.pg.pa ((bs.drop p.off).take p.len)) s

/-- A job ends: it writes its status record, and in state DONE, after a tick, its counter's increment follows (R298). -/
def closeJob (wr : Writer) (s : State) (core e st : Nat) : State :=
  let j := getJob s core e
  let s := setJob s core e { j with st, armed := false, stopping := none, unsent := [], resend := [], flight := [] }
  let s := writeStatus wr s j st
  if st = 3 then
    let s := tickEpoch s
    if jobCen j then cntInc wr s j.cnt 1 (if j.eng = 3 then 3 else jpar j 2 / 2 ^ 18 % 8) j.tag core else s
  else s

/-- The results of a SINK job, request by request. -/
def sinkResults (n : Nat) (j : Job) : List Byte :=
  (List.range (jpar j 17)).flatMap fun r => sinkResult (sinkMerged (jpar j 15) (n + r) j.sink r)

/-- The result area of a SINK job, written whole by the base dies or not at all (R321, R369): the state after it, or the end its fault
makes. -/
def writeResults (wr : Writer) (s : State) (j : Job) : Except JErr State :=
  let bs := sinkResults s.free j
  let s := { s with free := s.free + jpar j 17 }
  let a := parAddr (jpar j 16)
  if parSpm (jpar j 16) then
    if j.spm < a + bs.length || mib8 * j.g < a + bs.length then .error { reason := 5 } else .ok (setSpmBytesOf s j.core a bs)
  else
    match pieces s j.asid j.priv a bs.length .write with
    | .error t => .error (errOf t)
    | .ok ps => .ok (ps.foldl (fun s p => wr { base := true, clearTag := true } s p.pg.pa ((bs.drop p.off).take p.len)) s)

/-- A write meets an armed tracker, which counts it and may fire (R324). -/
def watchTrack (wr : Writer) (s : State) (core e hit : Nat) : State :=
  let j := getJob s core e
  let count := j.count + hit
  let s := setJob s core e { j with count, units := Nat.min count (jpar j 14) }
  if jpar j 14 ≤ count then closeJob wr s core e 3 else s

/-- A write meets an armed sink, which filters it word by word and may complete (R368, R369). -/
def watchSink (wr : Writer) (s : State) (core e pa n : Nat) : State :=
  let j := getJob s core e
  let parts := cutBy j.ranges pa n
  match parts.find? fun x => x.1 % 4 ≠ 0 || x.2 % 4 ≠ 0 with
  | some x => failJob s core e { reason := 2, va := parAddr (jpar j 12) + (rangeOff j.ranges 0 x.1).getD 0 }
  | none =>
    let (j, s) := parts.foldl (fun r x => sinkWords r.2 r.1 x.1 (x.2 / 4)) (j, s)
    let s := setJob s core e { j with units := sinkUnits j }
    if sinkDone j then
      match writeResults wr (setJob s core e { j with units := sinkUnits j, armed := false }) j with
      | .error x => failJob s core e x
      | .ok s => closeJob wr s core e 3
    else s

/-- A write meets one armed job. -/
def watchJob (wr : Writer) (s : State) (core e pa n : Nat) : State :=
  let j := getJob s core e
  let hit := bytesIn j.ranges pa n
  if !(j.live && j.armed && j.stopping = none && 0 < hit) then s
  else if j.eng = 3 then watchTrack wr s core e hit
  else if j.eng = 5 then watchSink wr s core e pa n
  else s

/-- The bytes of a sink's region that a write left in the L2 go through to HBM (R368). -/
def sinkThrough (s : State) (pa n : Nat) : State :=
  if (liveJobs s).any fun x => x.2.2.eng = 5 && x.2.2.armed && 0 < bytesIn x.2.2.ranges pa n then
    syncThrough (pokeBytes (chargeHbm s pa (lineTint s (pa / 128)) n false) true pa (peekBytes s pa n)) pa n
  else s

/-- What a performed write sets off. `fuel` bounds the chain of completions that one write can start; every job completes at
most once. -/
def afterWrite (fuel : Nat) (s : State) (pa n : Nat) : State :=
  match fuel with
  | 0 => s
  | fuel + 1 =>
    let s := watchSpec s pa n
    let js := (liveJobs s).filter fun x => x.2.2.armed && (x.2.2.eng = 3 || x.2.2.eng = 5)
    if js.isEmpty then s
    else
      js.foldl
        (fun s x =>
          watchJob (fun how s pa bs => afterWrite fuel (baseWrite s pa bs how) pa bs.length) s x.1 x.2.1 pa n)
        (sinkThrough s pa n)

/-- More than the number of armed units of the package, which bounds a chain of completions. -/
def chainBound : Nat := 1024

/-- A write performed at its order point, with what it sets off. -/
def orderWrite (s : State) (pa : Nat) (bs : List Byte) (how : WHow) : State :=
  afterWrite chainBound (baseWrite s pa bs how) pa bs.length

/-- A write of a whole range given by its nonzero bytes, through to memory, for a tint: what a save of a context does (R414, R452). -/
def orderWriteRange (s : State) (tint pa n : Nat) (cells : Tbl Byte) : State :=
  let s := onPkg (chargeHbm s pa tint n false) fun p =>
    { p with
      mem := tputs 0 (tclear p.mem pa n) (tshift cells pa),
      dirty := tclear p.dirty pa n, sync := p.sync.filter fun e => !overlaps (8 * e.1) 8 pa n,
      syncMem := p.syncMem.filter fun e => !overlaps (8 * e.1) 8 pa n }
  afterWrite chainBound (clearPoison s pa n) pa n

/-- The nonzero bytes of a range at their order points, counted from its start. -/
def readRange (s : State) (pa n : Nat) : Tbl Byte :=
  (tslice s.pkg.dirty pa n).foldl (fun m e => tset 0 m e.1 (e.2.getD 0)) (tslice s.pkg.mem pa n)

/-- The writer of whole accesses, with what they set off. -/
def wrPlain : Writer := fun how s pa bs => orderWrite s pa bs how

/-- Add to a counter as a release. -/
def cntAdd (s : State) (n amount scope tag core : Nat) : State := cntInc wrPlain s n amount scope tag core

end Sys2Proof.Machine
end

