-- ==== Sys2Proof/Machine/Mem.lean ====
section
/-! DEFINITION. Accesses of the task in focus to global memory and to its scratchpad: budgets, residency in the L2, race tags, the
L1 data cache, footprints and poison (R241 to R260, R282, R296 to R300, R452, R453, R483). -/

namespace Sys2Proof.Machine

/-! ## The L1 data cache (R253) -/

/-- Write back the dirty bytes of a line of the core in focus; they stay valid. -/
def l1Clean (s : State) (line : Nat) : State := l1CleanBy wrPlain s line

/-- Write back and drop a line of the core in focus. -/
def l1Drop (s : State) (line : Nat) : State := l1DropBy wrPlain s line

/-- Write back and drop a core's copies of lines, before an engine access by that core. -/
def l1DropOf (s : State) (core : Nat) (lines : List Nat) : State := l1DropOn wrPlain s core lines

/-- Write back every dirty byte and drop every line. -/
def l1DropAll (s : State) : State := s.c.l1.foldl (fun s e => l1Drop s e.1) s

/-- Write back every dirty byte. -/
def l1CleanAll (s : State) : State := s.c.l1.foldl (fun s e => l1Clean s e.1) s

/-- The lines of the L1 that overlap physical ranges. -/
def l1Covered (s : State) (ps : List Piece) : List Nat :=
  (s.c.l1.map (·.1)).filter fun l => ps.any fun p => overlaps (128 * l) 128 p.pg.pa p.len

/-- The 1024 bits of a line at its order point. -/
def lineBits (s : State) (line : Nat) : BitVec 1024 := BitVec.ofNat 1024 (peekN s (128 * line) 128)

/-- Bring a line into the L1, if it is not there; 512 lines fit. -/
def l1Fill (s : State) (line hint : Nat) : State :=
  match l1Get s line with
  | some _ => s
  | none =>
    let s := l2touch s (128 * line) 128 hint (tint s) true false
    let s := match s.c.l1 with
      | (old, _) :: _ => if 512 ≤ s.c.l1.length then l1Drop s old else s
      | [] => s
    l1Set s line (some { data := lineBits s line, dirty := 0, recs := tslice s.pkg.sync (16 * line) 16 })

/-- Overwrite bytes of a line from byte `k` on. -/
def L1Line.put (l : L1Line) (k : Nat) (bs : List Byte) : L1Line :=
  let mask : BitVec 1024 := BitVec.ofNat 1024 ((2 ^ (8 * bs.length) - 1) * 2 ^ (8 * k))
  { l with
    data := (l.data &&& ~~~mask) ||| BitVec.ofNat 1024 (leNat bs * 2 ^ (8 * k)),
    dirty := l.dirty ||| BitVec.ofNat 128 ((2 ^ bs.length - 1) * 2 ^ k) }

/-- Whether an access may use the L1: a page of kind HBM or host with a hint other than bypass. -/
def usesL1 (pg : PageInfo) (hint : Nat) : Bool := (pg.kind = 0 || pg.kind = 2) && hint ≠ 3

/-! ## Footprints (R282, R306) -/

/-- The footprint ranges of a job from parameter `k`: space, address, length. -/
def fpRange (j : Job) (k : Nat) : Bool × Nat × Nat :=
  (jpar j k / 2 ^ 56 % 2 = 1, jpar j k % 2 ^ 56, jpar j (k + 1))

def readFp (j : Job) : List (Bool × Nat × Nat) := [fpRange j 4, fpRange j 6]
def writeFp (j : Job) : List (Bool × Nat × Nat) := [fpRange j 8, fpRange j 10]

/-- Whether bytes of a space touch the write footprint of an unfinished job of the task. -/
def fpConflict (s : State) (spm : Bool) (a n : Nat) : Bool :=
  (liveJobs s).any fun x =>
    x.2.2.tag = s.t.me.tag && (writeFp x.2.2).any fun r => r.1 == spm && overlaps r.2.1 r.2.2 a n

/-! ## Global accesses of the task -/

def fabricVA (va n : Nat) : Bool := 0 < n && 2 ^ 55 ≤ va + n - 1

/-- The faults of a global access of `n` bytes under an ASID and a privilege up to FootprintConflict, in the order of R283, or its
translation; `io` for an LD or ST of 4 or 8 bytes, which may meet a page of kind MMIO (R259). -/
def accCheckAs (s : State) (asid : Nat) (sup : Bool) (va n : Nat) (a : Acc) (io : Bool := false) : Except Trap (List Piece) :=
  if fabricVA va n then .error { code := cFabric, va }
  else
    match pieces s asid sup va n a io with
    | .error t => .error t
    | .ok ps => if fpConflict s false va n then .error { code := cFootprint, va } else .ok ps

/-- The same under the task's own ASID and privilege. -/
def accCheck (s : State) (va n : Nat) (a : Acc) (io : Bool := false) : Except Trap (List Piece) :=
  accCheckAs s s.t.me.asid s.c.priv va n a io

/-- A poisoned tag that an access to checked lines reads (R296, R483). -/
def tagCheck (s : State) (va : Nat) (ps : List Piece) : Option Trap :=
  (tagPoisoned s (checkedLines ps)).map fun g => { code := cSoft, va, i2 := g.2, i3 := g.1 }

/-- A race of a plain access, as its trap (R300), but for a tag that cannot be read (R483). -/
def raceCheck (s : State) (x : Agent) (write : Bool) (va : Nat) (ps : List Piece) : Option Trap :=
  (tagCheck s va ps).orElse fun _ =>
  match linesConflict s x write (checkedLines ps) with
  | some (k, other) => some { code := cRace, va, i2 := k, i3 := other }
  | none => none

/-- Poison at the order point that a read consumes, of its bytes or its tags (R483). -/
def softCheck (s : State) (va : Nat) (ps : List Piece) : Option Trap :=
  match ps.findSome? fun p => poisoned s p.pg.pa p.len with
  | some (pa, str) => some { code := cSoft, va, i2 := str, i3 := pa }
  | none => tagCheck s va ps

/-- Poison that a load consumes in a line the L1 holds (R483). -/
def l1Check (s : State) (hint va : Nat) (ps : List Piece) : Option Trap :=
  (ps.findSome? fun p =>
    if usesL1 p.pg (effHint p.pg hint) then s.c.l1Poison.find? fun g => overlaps (8 * g) 8 p.pg.pa p.len else none).map
    fun g => { code := cSoft, va, i2 := 4, i3 := 8 * g }

/-- Whether a budget withholds an access to any line of a range, with a hint; `point` for one at the order point, which the L1 does not
serve. -/
def piecesWithheld (s : State) (ps : List Piece) (hint : Nat := 1) (write point : Bool := false) : Bool :=
  ps.any fun p =>
    let h := effHint p.pg hint
    (linesOf p.pg.pa p.len).any fun l =>
      !(!point && usesL1 p.pg h && (l1Get s l).isSome) && hbmWithheld s (128 * l) (tint s) (write && h = 3)

/-- Whether a budget withholds the write-back of the dirty bytes of one of these lines of the L1. -/
def cleanWithheld (s : State) (ls : List Nat) : Bool :=
  ls.any fun l => (match l1Get s l with | some x => x.dirty ≠ 0 | none => false) && hbmWithheld s (128 * l) (tint s)

/-- Remember a sync record that a read met (R289). -/
def noteRec (s : State) (r : Option SyncRec) : State :=
  match r with
  | some x => if s.t.seen.contains x then s else onT s fun t => { t with seen := x :: t.seen }
  | none => s

/-- A read at the order point meets the records of the words it reads. -/
def noteRecs (s : State) (pa n : Nat) : State :=
  if s.pkg.sync.isEmpty then s
  else (tslice s.pkg.sync (pa / 8) ((pa + n + 7) / 8 - pa / 8)).foldl (fun s e => noteRec s e.2) s

/-- A load served by the L1 meets the records of its fill, but for bytes the core itself has stored since. -/
def noteL1 (s : State) (l : L1Line) (k n : Nat) : State :=
  l.recs.foldl
    (fun s e =>
      if (List.range n).any fun i => (k + i) / 8 = e.1 && !l.isDirty (k + i) then noteRec s e.2 else s) s

/-- The bytes of one line that a plain load reads, through the L1 where it may. A line with poison is not kept. -/
def loadLine (s : State) (pg : PageInfo) (hint pa n : Nat) : List Byte × State :=
  let line := pa / 128
  if usesL1 pg hint then
    let s := if (poisoned s (128 * line) 128).isSome then s else l1Fill s line hint
    match l1Get s line with
    | some l => ((List.range n).map fun k => l.byte (pa % 128 + k), noteL1 s l (pa % 128) n)
    | none => (peekBytes s pa n, l2touch (noteRecs s pa n) pa n hint (tint s) true false)
  else
    let s := l2touch (l1Drop s line) pa n hint (tint s) true false
    (peekBytes s pa n, noteRecs s pa n)

/-- Plain load of a physical range, line by line. `fuel` bounds the lines. -/
def loadLines (s : State) (pg : PageInfo) (hint fuel pa n : Nat) : List Byte × State :=
  match fuel with
  | 0 => ([], s)
  | fuel + 1 =>
    if n = 0 then ([], s)
    else
      let k := Nat.min n (128 - pa % 128)
      let (bs, s) := loadLine s pg hint pa k
      let (rest, s) := loadLines s pg hint fuel (pa + k) (n - k)
      (bs ++ rest, s)

/-- Plain load of translated pieces. -/
def loadPieces (s : State) (hint : Nat) (ps : List Piece) : List Byte × State :=
  match ps with
  | [] => ([], s)
  | p :: rest =>
    let (bs, s) := loadLines s p.pg (effHint p.pg hint) (p.len / 128 + 2) p.pg.pa p.len
    let (more, s) := loadPieces s hint rest
    (bs ++ more, s)

/-- Whether a load of these pieces is served without the L1 line holding it, so that poison is met. -/
def coldPieces (s : State) (hint : Nat) (ps : List Piece) : List Piece :=
  ps.filter fun p => !(usesL1 p.pg (effHint p.pg hint) && (linesOf p.pg.pa p.len).all fun l => (l1Get s l).isSome)

/-- The checked lines of an access that it brings into the L2 are there before its step on their tags is taken (R296). -/
def bring (s : State) (hint : Nat) (write : Bool) (ps : List Piece) : State :=
  ps.foldl
    (fun s p =>
      if !p.pg.checked || effHint p.pg hint = 3 then s
      else
        (linesOf p.pg.pa p.len).foldl
          (fun s l =>
            if usesL1 p.pg (effHint p.pg hint) && (l1Get s l).isSome then s
            else l2touch s (128 * l) 128 (effHint p.pg hint) (tint s) true write) s) s

/-- A plain read by the task under an ASID and a privilege (R259, R260): its bytes and the state after it, or its fault. -/
def plainReadAs (s : State) (asid : Nat) (sup : Bool) (va n hint : Nat) : Except Trap (List Byte × State) :=
  match accCheckAs s asid sup va n .read with
  | .error t => .error t
  | .ok ps =>
    match (raceCheck s (meAgent s) false va ps).orElse fun _ =>
        (l1Check s hint va ps).orElse fun _ => softCheck s va (coldPieces s hint ps) with
    | some t => .error t
    | none =>
      let s := bring (notePieces s asid va ps) hint false ps
      let s := tagLines s (meAgent s) false (checkedLines ps)
      .ok (loadPieces s hint ps)

/-- A plain read of the task under its own ASID and privilege. -/
def plainRead (s : State) (va n hint : Nat) : Except Trap (List Byte × State) := plainReadAs s s.t.me.asid s.c.priv va n hint

/-- The granules of the L1 that a store covers whole lose their poison (R483). -/
def l1Mend (s : State) (pa n : Nat) : State :=
  if s.c.l1Poison.isEmpty then s
  else onC s fun c => { c with l1Poison := c.l1Poison.filter fun g => !(pa ≤ 8 * g && 8 * g + 8 ≤ pa + n) }

/-- Store bytes of one line: held in the L1, or performed at the order point. -/
def storeLine (s : State) (pg : PageInfo) (hint pa : Nat) (bs : List Byte) (sync : Option SyncRec) : State :=
  let line := pa / 128
  if usesL1 pg hint then
    let s := if (poisoned s (128 * line) 128).isSome then s else l1Fill s line hint
    match l1Get s line with
    | some l => l1Mend (l1Set s line (some (l.put (pa % 128) bs))) pa bs.length
    | none => orderWrite (l2touch s pa bs.length hint (tint s) true true) pa bs {}
  else
    let s := l2touch (l1Drop s line) pa bs.length hint (tint s) true true
    orderWrite s pa bs { bypass := hint = 3, sync }

/-- Store bytes line by line. `fuel` bounds the lines. -/
def storeLines (s : State) (pg : PageInfo) (hint fuel pa : Nat) (bs : List Byte) (sync : Option SyncRec) : State :=
  match fuel with
  | 0 => s
  | fuel + 1 =>
    if bs.isEmpty then s
    else
      let k := Nat.min bs.length (128 - pa % 128)
      storeLines (storeLine s pg hint pa (bs.take k) sync) pg hint fuel (pa + k) (bs.drop k) sync

/-- The sync record a fenced write of the task leaves (R290). -/
def fencedRec (s : State) : Option SyncRec :=
  match s.t.fenced with
  | some scope => some { tag := s.t.me.tag, core := s.cur, pkg := s.pkg.number, scope }
  | none => none

/-- The stores of a translated range, without their checks. -/
def storePieces (s : State) (hint : Nat) (ps : List Piece) (bs : List Byte) : State :=
  let sync := fencedRec s
  ps.foldl
    (fun s p => storeLines s p.pg (effHint p.pg hint) (p.len / 128 + 2) p.pg.pa ((bs.drop p.off).take p.len)
      (if p.pg.kind = 1 || effHint p.pg hint = 3 then sync else none)) s

/-- A plain write of the task (R259, R260): the state after it, or its fault. -/
def plainWrite (s : State) (va : Nat) (bs : List Byte) (hint : Nat) : Except Trap State :=
  match accCheck s va bs.length .write with
  | .error t => .error t
  | .ok ps =>
    match raceCheck s (meAgent s) true va ps with
    | some t => .error t
    | none =>
      let s := bring (notePieces s s.t.me.asid va ps) hint true ps
      let s := tagLines s (meAgent s) true (checkedLines ps)
      .ok (storePieces s hint ps bs)

/-- A read of the task at the order point, after its own L1 copies are written back and dropped (R260, R389): the bytes. It does
not use the L1 and is not race-checked; `sync` accesses update the tags. -/
def orderRead (s : State) (va n : Nat) (a : Acc) : Except Trap (List Piece × State) :=
  match accCheck s va n a with
  | .error t => .error t
  | .ok ps =>
    let s := notePieces s s.t.me.asid va ps
    let s := ps.foldl (fun s p => (linesOf p.pg.pa p.len).foldl l1Drop s) s
    match softCheck s va ps with
    | some t => .error t
    | none =>
      let s := ps.foldl (fun s p => touchLines s p.pg.pa p.len (effHint p.pg 1) (tint s) true false) s
      .ok (ps, tagLines s (meAgent s) false (checkedLines ps))

/-! ## The scratchpad (R205, R242) -/

/-- The bytes of a task's scratchpad. -/
def spmSize (s : State) : Nat := mib8 * s.t.g

/-- AddressRange, then ResourceBound, of a scratchpad range. -/
def spmCheck (s : State) (a n : Nat) : Option Trap :=
  firstFault
    [ (0 < n && spmSize s < a + n, { code := cAddress }),
      (0 < n && s.t.hdr.spm < a + n, { code := cResource }) ]

def spmByte (s : State) (a : Nat) : Byte := spmByteOf s s.cur a

def spmBytes (s : State) (a n : Nat) : List Byte := (List.range n).map fun k => spmByte s (a + k)

def setSpmBytes (s : State) (a : Nat) (bs : List Byte) : State := setSpmBytesOf s s.cur a bs

/-- Whether a core, or the gang that holds it, runs a task of the ASID of the task in focus (R244). -/
def sharesWindow (s : State) (core : Nat) : Bool :=
  let x := coreCtx s ((coreCtx s core).c.lead.getD core)
  x.c.busy && x.t.me.asid = s.t.me.asid

/-- One beat of a window store accepted at its target bank (R245): core, offset, byte mask and bytes. A core that no longer runs a task
of the ASID takes none (DESIGN CHOICE, log entry 58: R244 permits the access only while it does). -/
def landBeat (s : State) (b : Nat × Nat × BitVec 32 × BitVec 256) : State :=
  let (core, off, mask, data) := b
  if !sharesWindow s core then s
  else
  (List.range 4).foldl
    (fun s g =>
      let run := (List.range 8).map fun k => 8 * g + k
      if run.all fun k => mask.getLsbD k then
        setSpmBytesOf s core (off + 8 * g) (run.map fun k => (data >>> (8 * k)).setWidth 8)
      else
        run.foldl
          (fun s k => if mask.getLsbD k then setSpmByteOf s core (off + k) ((data >>> (8 * k)).setWidth 8) else s) s)
    s

/-- Every beat of the task in focus accepted. -/
def landBeats (s : State) : State :=
  onSlots (s.t.slots.beats.foldl landBeat s) fun q => { q with beats := [] }

/-- A poisoned granule of the gang's scratchpad that a read meets. -/
def spmPoisoned (s : State) (a n : Nat) : Option Trap :=
  (List.range s.t.g).findSome? fun m =>
    match (coreCtx s (s.cur + m)).c.spmPoison.find? fun g => overlaps (mib8 * m + g) 8 a n with
    | some g => some { code := cSoft, va := 0, i2 := 4, i3 := g }
    | none => none

/-- A scratchpad read of the scalar side: its bytes or its fault (R242, R282, R483). -/
def spmRead (s : State) (a n : Nat) : Except Trap (List Byte) :=
  match spmCheck s a n with
  | some t => .error t
  | none =>
    if fpConflict s true a n then .error { code := cFootprint }
    else
      match spmPoisoned s a n with
      | some t => .error t
      | none => .ok (spmBytes s a n)

/-- A scratchpad write of the scalar side. -/
def spmWrite (s : State) (a : Nat) (bs : List Byte) : Except Trap State :=
  match spmCheck s a bs.length with
  | some t => .error t
  | none => if fpConflict s true a bs.length then .error { code := cFootprint } else .ok (setSpmBytes s a bs)

end Sys2Proof.Machine
end

