-- ==== Sys2Proof/Machine/Domain.lean ====
section
/-! DEFINITION. Domains and barriers (R386 to R388), the reduction regions bound to them (R343 to R345), the black box (R497, R498),
pre-emption requests (R406) and the binding of halves (R10, R471, R492). -/

namespace Sys2Proof.Machine

/-- A release asks for a tick of the epoch (R298). -/
def requestTick (s : State) : State := onPkg s fun p => { p with tickWanted := true }

/-! ## The black box (R497, R498) -/

/-- The black box of a die with one record more, or, where it cannot take it at once, with one more lost. -/
def Die.record (d : Die) (lost : Bool) (rec32 : List Byte) : Die :=
  { d with
    box := if lost then d.box else tputBytes d.box (32 * (1 + d.written % 8191)) rec32,
    written := if lost then d.written else d.written + 1,
    lost := if lost then d.lost + 1 else d.lost }

/-- Write a record to the black box of a die: its type, core and tag, and 16 bytes of payload. Which records the box cannot take at
once the spec leaves open (R497; log entry 11). -/
def bbRecord (s : State) (die type core tag : Nat) (payload : List Byte) : State :=
  bumpFree (setDie s die ((getDie s die).record (Config.boxLoses s.free)
    (leBytes 8 (Config.cycles s.free).toNat ++ leBytes 1 type ++ leBytes 1 die ++ leBytes 1 core ++ [0] ++ leBytes 4 tag ++
      (payload ++ leBytes 16 0).take 16)))

/-- The 8 bytes a load of the black box finds at offset `off`. -/
def bbRead (d : Die) (off : Nat) : Nat :=
  if off = 0 then d.written % 2 ^ 64 else if off = 8 then d.lost % 2 ^ 64 else leNat (tbytes d.box off 8)

/-! ## Pre-emption requests (R406) -/

/-- The core whose task a core's slabs serve: itself, or the lead of its gang. -/
def leadOf (s : State) (core : Nat) : Nat := (coreCtx s core).c.lead.getD core

/-- Post a request; the lower class stays pending; a core that runs no task drops it. -/
def postReq (s : State) (core cls : Nat) : State :=
  onCore s (leadOf s core) fun x =>
    if x.c.busy then
      { x with c := { x.c with req := some (match x.c.req with | none => cls | some k => Nat.min k cls) } }
    else x

/-! ## Halves (R10, R471, R488, R491, R492) -/

/-- The package number of half `b` (0 to 3) of a core's candidates (R10, R12). -/
def halfOf (core b : Nat) : Nat := core / 64 * 144 + core % 64 / 8 * 18 + 2 * (core % 8) + b

/-- The halves of a core's binding. -/
def boundHalves (s : State) (core : Nat) : List Nat :=
  ((List.range 4).filter fun b => bindByte s core / 2 ^ b % 2 = 1).map (halfOf core)

/-- The core bound to a half. -/
def ownerOf (s : State) (half : Nat) : Option Nat :=
  (List.range 256).find? fun c => (boundHalves s c).contains half

def tintByte (s : State) (core : Nat) : Nat := tget 3 (getDie s (dieOf core)).tintmap (core % 64)

/-- A half that is neither defective nor quarantined. -/
def goodHalf (s : State) (half : Nat) : Bool := !s.pkg.quarantined.contains half && !s.pkg.defective.contains half

/-- The binding made at test of the rows of a column from row `i` on (R12): each takes the two lowest-numbered of its four candidates
that are good and not taken. `first` is the column's first half. -/
def testRows (bad : List Nat) (first n i : Nat) (taken : List Nat) : List Nat :=
  match n with
  | 0 => []
  | n + 1 =>
    let two := ((List.range 4).filter fun b => !bad.contains (first + 2 * i + b) && !taken.contains (2 * i + b)).take 2
    (two.map (2 ^ ·)).sum :: testRows bad first n (i + 1) (two.map (2 * i + ·) ++ taken)

/-- BINDMAP of a die as the binding made at test gives it (R12, R471), by core index. -/
def testBind (bad : List Nat) (die : Nat) : Tbl Nat :=
  if bad.isEmpty then []
  else
    (((List.range 8).flatMap fun c => testRows bad (144 * die + 18 * c) 8 0 []).zipIdx.filter fun e => e.1 ≠ 3).map fun e => (e.2, e.1)

def setBind (s : State) (core mask : Nat) : State :=
  onDie s (dieOf core) fun d => { d with bindmap := tset 3 d.bindmap (core % 64) mask }

/-- The bank of a scratchpad byte within one core (R205). -/
def bankOf (a : Nat) : Nat := (a % 2048 / 32 + a / 2048) % 64

/-- The banks that newly bound halves bring read zero (R468, R492): of a core's bound halves in ascending order, the first has
banks 0 to 31 and the second banks 32 to 63 (R488). -/
def clearBanks (s : State) (core : Nat) (fresh : List Nat) : State :=
  let hs := boundHalves s core
  let keep := fun a : Nat => match hs[bankOf a / 32]? with | some h => !fresh.contains h | none => true
  onCore s core fun x => { x with c := { x.c with spm := x.c.spm.filter fun e => keep e.1, spmPoison := x.c.spmPoison.filter keep } }

/-- The record of a quarantine: the half, its score, and the BINDMAP byte of the core that bound it as it is now (R498). -/
def quarantineRecord (s : State) (half : Nat) (core : Option Nat) : State :=
  bbRecord s (half / 144) 7 (core.getD 0xFF) 0
    (leBytes 2 half ++ leBytes 1 (tget 0 s.pkg.score half) ++ leBytes 1 (match core with | some c => bindByte s c | none => 0))

/-- Steps 3 to 5 of a quarantine (R492): the core's binding is cleared, and made again where it can be. -/
def bindAnew (s : State) (core : Nat) : State :=
  let old := boundHalves s core
  let s := setBind s core 0
  let good := goodHalf s
  let rest := (List.range 4).filter fun b => old.contains (halfOf core b) && good (halfOf core b)
  let new := (List.range 4).find? fun b =>
    !rest.contains b && good (halfOf core b) && (ownerOf s (halfOf core b)).isNone
  if s.pkg.suspectLimit / 256 % 2 = 1 then
    match rest, new with
    | b :: _, some n => clearBanks (setBind s core (2 ^ b + 2 ^ n)) core [halfOf core n]
    | _, _ => s
  else s

/-- A core whose task is gone is bound anew, and the quarantine of each half it held is recorded. -/
def rebindCore (s : State) (core : Nat) : State :=
  let lost := (boundHalves s core).filter s.pkg.quarantined.contains
  let s := bindAnew (onCore s core fun x => { x with c := { x.c with unbind := false } }) core
  lost.foldl (fun s h => quarantineRecord s h (some core)) s

/-- Quarantine a half (R492). The core that binds it runs on until its task suspends. -/
def quarantine (s : State) (half : Nat) : State :=
  if s.pkg.quarantined.contains half then s
  else
    let s := onPkg s fun p => { p with quarantined := half :: p.quarantined }
    match ownerOf s half with
    | none => quarantineRecord s half none
    | some core =>
      if (coreCtx s (leadOf s core)).c.busy then postReq (onCore s core fun x => { x with c := { x.c with unbind := true } }) core 0
      else rebindCore s core

/-- Raise a half's suspect score (R491), quarantining it at the limit. -/
def suspect (s : State) (half n : Nat) : State :=
  let v := Nat.min 255 (tget 0 s.pkg.score half + n)
  let s := onPkg s fun p => { p with score := tset 0 p.score half v }
  if s.pkg.suspectLimit % 256 ≤ v then quarantine s half else s

/-- The half that holds lane-group unit `u` or column block `u` (32 lanes have four units; R488). -/
def unitHalf (s : State) (u : Nat) : Option Nat := (boundHalves s (s.cur + u / 4))[u % 4 / 2]?

/-- Raise the score of the half of a unit of the task in focus. -/
def suspectUnit (s : State) (u n : Nat) : State :=
  match unitHalf s u with
  | some h => suspect s h n
  | none => s

/-! ## Reduction regions (R343 to R345) -/

def nmBase (j : Job) : Nat := match j.ranges with | (pa, _) :: _ => pa | [] => 0
/-- A field of a region's header. -/
def nmGet (s : State) (j : Job) (off n : Nat) : Nat := peekN s (nmBase j + off) n
/-- The base die writes a field of a region's header (R251, R343). -/
def nmPut (s : State) (j : Job) (off n v : Nat) : State :=
  orderWrite s (nmBase j + off) (leBytes n v) { base := true, clearTag := true }

/-- The completion test of R344: every live member of MEMBERS has its share acknowledged or is excused. -/
def nmTest (s : State) (core e : Nat) : State :=
  let j := getJob s core e
  let members := nmGet s j 8 8
  let share := nmGet s j 40 4
  let done := (List.range 64).all fun i =>
    !members.testBit i || tget 0 j.acked i = share || (nmGet s j 32 8).testBit i
  if nmGet s j 0 4 = 2 && done then
    setJob (nmPut s j 0 4 3) core e { j with stopping := some 3, units := nmGet s j 44 4 }
  else s

/-- A membership change of domain `n.dom` installed at one region (R345). -/
def nmInstall (s : State) (core e : Nat) (n : Notice) : State :=
  let j := getJob s core e
  if j.eng = 6 && j.armed && nmGet s j 0 4 = 2 && nmGet s j 4 2 = n.dom then
    let s := nmPut s j 6 2 n.gen
    let a := tget 0 j.acked n.member
    let s :=
      if n.leaves && (nmGet s j 8 8).testBit n.member && a ≠ nmGet s j 40 4 then
        let s := nmPut s j 32 8 (nmGet s j 32 8 ||| 2 ^ n.member)
        if 0 < a then nmPut s j 24 8 (nmGet s j 24 8 ||| 2 ^ n.member) else s
      else s
    nmTest s core e
  else s

/-- A membership change installed at every region of the package. -/
def nmNotice (s : State) (n : Notice) : State :=
  (liveJobs s).foldl (fun s x => if x.2.2.eng = 6 then nmInstall s x.1 x.2.1 n else s) s

/-! ## Control packets (R332, R334) -/

/-- The packages that the circuits of the fibres lead to. -/
def peers (s : State) : List Nat :=
  (s.pkg.circuit.filterMap fun e => e.2.map (·.1)).eraseDups.filter (· ≠ s.pkg.number)

/-- Hand the ports a control packet of kind 8 on VC4 for each of a list of packages. It goes out when its VC may send (R332). -/
def sendControl (s : State) (pkgs : List Nat) (dom member : Nat) (payload : List Byte) : State :=
  onPkg s fun p =>
    { p with held := p.held ++ pkgs.map fun k =>
        { kind := 8, vc := 4, srcPkg := p.number, tgtPkg := k, fg := p.fg, tg := p.tg, dom, member, len := payload.length, payload } }

/-- The payload of a membership notice to reduction regions (R345; DESIGN CHOICE, log entry 80: the spec gives no layout). -/
def noticeBytes (n : Notice) : List Byte := leBytes 1 0 ++ leBytes 1 (if n.leaves then 1 else 0) ++ leBytes 2 n.gen ++ leBytes 8 n.live

/-- The domain of a barrier notice. -/
def barDom (n : BarNotice) : Nat :=
  match n with
  | .arrival d _ | .join d _ | .leave d _ _ | .joined d _ _ _ | .left d _ _ _ _ | .denied d _ | .completion d _ _ _ | .entry d _ _ _ _ _
  | .rdv d _ _ _ => d

/-- The payload of a barrier notice (DESIGN CHOICE, log entry 80). -/
def barBytes (n : BarNotice) : List Byte :=
  let words := fun (k : Nat) (vs : List Nat) => leBytes 1 k ++ vs.flatMap (leBytes 4)
  match n with
  | .arrival _ t => words 1 [t]
  | .join _ t => words 2 [t]
  | .leave _ t u => words 3 [t, u]
  | .joined _ t i g => words 4 [t, i, g]
  | .left _ t u g p => words 5 [t, u, g, p]
  | .denied _ u => words 6 [u]
  | .completion _ p g c => words 7 [p, g, c]
  | .entry _ h a p g ms => words 8 ([h, a, p, g] ++ ms.flatMap fun m => [m.1, m.2])
  | .rdv _ t k c => words 9 [t, k, c]

/-- What arrives whole on a VC whose packets the inputs do not show, VC3 or VC4, arrives in order: what was in replay there is over
(R495). -/
def afterReplay (s : State) (vc : Nat) : State := onPkg s fun p => { p with replay := p.replay.filter fun e => e.2.vc ≠ vc }

/-- Send a barrier notice to packages. -/
def sendBar (s : State) (pkgs : List Nat) (n : BarNotice) : State := sendControl s pkgs (barDom n) 0 (barBytes n)

/-! ## Domains (R386 to R388, R393, R394) -/

def getDom (s : State) (d : Nat) : Option Domain := tget none s.pkg.domains d
def setDom (s : State) (d : Nat) (x : Option Domain) : State := onPkg s fun p => { p with domains := tset none p.domains d x }

/-- A live domain other than the null one. -/
def liveDom (s : State) (d : Nat) : Option Domain := if d = 0 then none else getDom s d

/-- A live domain as a task of this ASID sees it (R441). -/
def myDom (s : State) (d : Nat) : Option Domain :=
  match liveDom s d with
  | some x => if x.asid = s.t.me.asid then some x else none
  | none => none

def Domain.has (x : Domain) (tag : Nat) : Bool := x.members.any fun m => m.2.1 = tag
/-- The live mask, or the count in list form (R395). -/
def Domain.mask (x : Domain) : Nat :=
  match x.list with
  | none => x.members.foldl (fun a m => a ||| 2 ^ m.1) 0
  | some _ => x.members.length
def Domain.idxOf (x : Domain) (tag : Nat) : Nat :=
  match x.members.find? fun m => m.2.1 = tag with | some m => m.1 | none => 0

/-- The result of DBAR (R394): EVICTED, the members counted, GEN and PHASE. -/
def dbarWord (evicted : Bool) (count gen phase : Nat) : Word :=
  BitVec.ofNat 64 ((if evicted then 2 ^ 63 else 0) + count * 2 ^ 48 + gen * 2 ^ 32 + phase)

/-- Keep the tag list of a list-form domain in memory (R386); a list that is not full ends with a zero tag. -/
def writeList (s : State) (x : Domain) : State :=
  match x.list with
  | none => s
  | some va =>
    writeVA wrPlain s 4 x.asid true va ((x.members.flatMap fun m => leBytes 4 m.2.1) ++ if x.members.length < 4096 then [0, 0, 0, 0] else [])

/-- Give a task suspended in DBAR on a domain its result and make it READY (R387, R393). -/
def releaseArriver (s : State) (d tag : Nat) (w : Word) (acq : Option Nat) : State :=
  match getTask s tag with
  | none => s
  | some r =>
    if r.awaits = some d && r.susp = 3 && r.st = 3 then
      makeReady wrPlain s { r with result := some w, acquire := acq, awaits := none }
    else if r.awaits = some d then setTask s tag (some { r with result := some w, acquire := acq, awaits := none })
    else s

/-- The test after every arrival, withdrawal and join of a domain (R387), made at its entry. -/
def domTest (s : State) (d : Nat) : State :=
  match getDom s d with
  | none => s
  | some x =>
    if x.home.isNone && !x.members.isEmpty && x.members.all fun m => x.arrived.contains m.2.1 then
      let rec' : Word × Nat × Nat × Nat := (x.phase.setWidth 64, x.gen, x.members.length, x.mask)
      let s := setDom s d (some { x with record := rec', phase := x.phase + 1, arrived := [] })
      let w := dbarWord false x.members.length x.gen x.phase.toNat
      let s := x.members.foldl (fun s m => releaseArriver s d m.2.1 w (some x.level)) s
      if x.level = 4 then sendBar s (peers s) (.completion d x.phase.toNat x.gen x.members.length) else s
    else s

/-- Tell the entry of a domain that another package holds what a task of this package has done (R386). -/
def tellHome (s : State) (x : Domain) (n : BarNotice) : State := match x.home with | some k => sendBar s [k] n | none => s

/-- Tell the other packages that hold members of a fabric-level domain of a change of them. -/
def tellMembers (s : State) (x : Domain) (n : BarNotice) : State := if x.level = 4 then sendBar s (peers s) n else s

/-- Tell them counter `n` of RDVCNT of the task in focus (R98). -/
def tellRdv (s : State) (n : Nat) : State :=
  match myDom s s.t.regs.rdvdom with
  | some x => tellMembers s x (.rdv s.t.regs.rdvdom s.t.me.tag n (tget 0 s.t.regs.rdvcnt n).toNat)
  | none => s

/-- Tell the regions bound to a domain, here and at every other package, about a change of its members (R345). -/
def domNotice (s : State) (d : Nat) (x : Domain) (idx : Nat) (leaves : Bool) : State :=
  let n : Notice := { dom := d, gen := x.gen, member := idx, leaves, live := x.mask }
  sendControl (nmNotice s n) (peers s) d idx (noticeBytes n)

/-- A domain's new record; it goes with its last member, a copy of an entry elsewhere once every question to that entry is settled
(R387). -/
def keepDom (s : State) (d : Nat) (x : Domain) : State :=
  setDom s d (if x.members.isEmpty && x.asks.isEmpty then none else some x)

/-- Withdraw a member at the wish of a task (R387, R393): here, where the entry is, or by asking the entry. -/
def domLeave (s : State) (d tag asker : Nat) : State :=
  match getDom s d with
  | none => s
  | some x =>
    if x.home.isSome then tellHome s x (.leave d tag asker)
    else
      let idx := x.idxOf tag
      let x := { x with
        members := x.members.filter fun m => m.2.1 ≠ tag, arrived := x.arrived.filter (· ≠ tag), gen := (x.gen + 1) % 2 ^ 16 }
      let s := tellMembers (domNotice s d x idx true) x (.left d tag asker x.gen x.phase.toNat)
      let s := keepDom s d x
      if x.members.isEmpty then s else domTest (writeList s x) d

/-- Withdraw a member that leaves. -/
def domWithdraw (s : State) (d tag : Nat) : State := domLeave s d tag tag

/-- The domains of which a task is a member. -/
def membershipsOf (s : State) (tag : Nat) : List Nat :=
  (s.pkg.domains.filter fun e => match e.2 with | some x => x.has tag | none => false).map (·.1)

/-- The lowest bit index no member holds (R392). -/
def freeIdx (x : Domain) : Nat :=
  if x.list.isSome then 0 else ((List.range 64).find? fun i => !x.members.any fun m => m.1 = i).getD 0

/-- Add a member, at the entry (R387, R392). -/
def domJoin (s : State) (d tag : Nat) : State :=
  match getDom s d with
  | none => s
  | some x =>
    let idx := freeIdx x
    let x := { x with members := x.members ++ [(idx, tag, false)], gen := (x.gen + 1) % 2 ^ 16 }
    domTest (tellMembers (domNotice (writeList (setDom s d (some x)) x) d x idx false) x (.joined d tag idx x.gen)) d

/-- Record an arrival (R387) and the bit of the member's first DBAR (R451). -/
def domArrive (s : State) (d tag : Nat) : State :=
  match getDom s d with
  | none => s
  | some x =>
    let s := setDom s d (some { x with
      arrived := if x.arrived.contains tag then x.arrived else x.arrived ++ [tag],
      members := x.members.map fun m => if m.2.1 = tag then (m.1, m.2.1, true) else m })
    domTest (tellHome s x (.arrival d tag)) d

end Sys2Proof.Machine
end

