-- ==== Sys2Proof/Machine/Retire.lean ====
section
/-! DEFINITION. How a task ends and how its core is left: pins (R355, R356), cancelled jobs (R321), graph edges (R383, R384), the
fault ring (R461), retirement (R383) and the core's next tint (R417). -/

namespace Sys2Proof.Machine

/-! ## Version pins (R354 to R356) -/

def getVE (s : State) (h i : Nat) : VEntry := tget {} s.pkg.versions (16 * h + i)
def setVE (s : State) (h i : Nat) (e : VEntry) : State :=
  onPkg s fun p => { p with versions := tset {} p.versions (16 * h + i) e }

/-- One pin fewer; a RETIRED entry whose count reaches 0 becomes EMPTY and unseals its pages (R355). -/
def unpin (s : State) (h i : Nat) : State :=
  let e := getVE s h i
  let e := { e with pins := e.pins - 1 }
  setVE s h i (if e.st = 3 && e.pins = 0 then {} else e)

/-- Fields of VHOLD and VPINS (R356). -/
def holdValid (w : Word) : Bool := w.getLsbD 12
def holdH (w : Word) : Nat := fld w 5 0
def holdI (w : Word) : Nat := fld w 9 6
def holdWord (h i v : Nat) : Word := BitVec.ofNat 64 (v * 2 ^ 32 + 2 ^ 12 + i * 64 + h)

/-- Release a hold or pin register's pin. -/
def releaseHold (s : State) (w : Word) : State := if holdValid w then unpin s (holdH w) (holdI w) else s

/-- Release the hold and every pin of a task's registers. -/
def releasePins (s : State) (r : TaskRegs) : State :=
  (List.range 4).foldl (fun s k => releaseHold s (tget 0 r.vpins k)) (releaseHold s r.vhold)

/-! ## Jobs of a killed task (R321) -/

/-- Ask a job to stop: one that has not started ends at once, a running one at its next unit boundary (its JOB_END). -/
def stopJob (s : State) (core e reason : Nat) : State :=
  onJob s core e fun j => if j.live && j.stopping.isNone then { j with stopping := some 4, reason } else j

def killJobs (s : State) (tag : Nat) : State :=
  (liveJobs s).foldl (fun s x => if x.2.2.tag = tag then stopJob s x.1 x.2.1 3 else s) s

/-! ## The fault ring (R461) -/

/-- Write a 64-byte fault record to the die's ring and count it. -/
def faultRecord (s : State) (die : Nat) (r : TaskRec) (cause pc : Word) (info : List Nat) (first : Word) : State :=
  let d := getDie s die
  if d.faultring.toNat % 2 = 0 then s
  else
    let count := 16 * 2 ^ (fld d.faultring 11 8)
    let slot := (getCnt s d.faultcnt).toNat % count
    let bs := leBytes 8 (r.env + r.asid * 2 ^ 56) ++ leBytes 8 cause.toNat ++ leBytes 8 pc.toNat ++
      (info.flatMap fun v => leBytes 8 v) ++ leBytes 8 first.toNat
    let s := wrPlain { tint := r.tint, touch := some 1 } s (fld d.faultring 51 12 * 4096 + 64 * slot) bs
    emit (cntAdd (tickEpoch s) d.faultcnt 1 3 r.tag s.cur) (.msix 16)

/-! ## Leaving a core (R417, R492) -/

/-- The members of the group a core leads at its gang width. -/
def groupOf (s : State) : List Nat := (List.range s.t.g).map (· + s.cur)

/-- The core in focus and its gang members become idle and take their TINTMAP bytes; halves quarantined meanwhile are replaced. -/
def leaveCore (s : State) : State :=
  let cores := groupOf s
  let s := onC s fun c =>
    { c with
      busy := false, req := none, trap := false, frozenDue := false, rewind := none, woken := false, leaving := none, grace := false }
  let s := { s with t := {} }
  cores.foldl
    (fun s k =>
      let s := onCore s k fun x => { x with c := { x.c with lead := none, tint := tintByte s k } }
      if (coreCtx s k).c.unbind then rebindCore s k else s) s

/-! ## Retirement (R383) -/

/-- A task suspended in TWAIT on this tag becomes READY with the envelope's status as its result (R391). -/
def wakeWaiters (s : State) (r : TaskRec) (status : Word) : State :=
  (taskList s).foldl
    (fun s w =>
      if w.awaits = some (1024 + r.tag) then
        let w := { w with result := some status, acquire := some 3, awaits := none }
        if w.st = 3 && w.susp = 2 then makeReady wrPlain s w else setTask s w.tag (some w)
      else s) s

/-- Bytes 48 to 55 of an envelope as a word (R391). -/
def twaitWord (r : TaskRec) : Word := BitVec.ofNat 64 (statusWord r + (r.tag + r.dom * 2 ^ 20) * 2 ^ 32)

/-- Take a task out of the queues. -/
def dequeue (s : State) (r : TaskRec) : State :=
  onDie s r.die fun d => { d with queues := (d.queues.map fun e => (e.1, e.2.filter (· ≠ r.tag))).filter fun e => !e.2.isEmpty }

/-- What a task has asked of entries elsewhere is forgotten. -/
def dropAsks (s : State) (tag : Nat) : State :=
  s.pkg.domains.foldl
    (fun s e =>
      match e.2 with
      | some x => if x.asks.any (·.1 = tag) then keepDom s e.1 { x with asks := x.asks.filter (·.1 ≠ tag) } else s
      | none => s) s

/-- Every membership of a task is withdrawn (R383). -/
def withdrawAll (s : State) (tag : Nat) : State := (membershipsOf s tag).foldl (fun s d => domWithdraw s d tag) (dropAsks s tag)

/-- Steps 1 and 4 to 6 of a retirement, for a task whose registers are `regs`; the core side is done by the caller. The status is a
release at .p, with its tick after every access of the task (R298). -/
def retireRec (s : State) (r : TaskRec) (regs : TaskRegs) (st exit : Nat) : State :=
  let s := withdrawAll s r.tag
  let s := releasePins s regs
  let r := { r with st, exit, susp := 0 }
  let s := envStatus wrPlain (tickEpoch s) r
  let s := onPkg s fun p => { p with tasks := tset none p.tasks r.tag none, parked := tset none p.parked r.tag none }
  let s := wakeWaiters s r (twaitWord r)
  match r.lbox with
  | some k => if (tget 0 s.pkg.lbb k).getLsbD 13 then emit s (.msix k) else s
  | none => s

/-- The outgoing block of the task in focus, or none where it breaks R384 or names a counter beyond its header. -/
def outEdges (s : State) : Option (List Edge) :=
  match readEdges s s.t.me s.t.me.outE with
  | some es => if es.all fun e => e.cnt < s.t.hdr.counters then some es else none
  | none => none

/-- The physical address of a byte under the task's ASID, where its page has a valid translation and is of kind HBM or host;
other pages are skipped (R268). -/
def cachedPa (s : State) (va : Nat) : Option Nat :=
  match leafOf s s.t.me.asid va with
  | .error _ => none
  | .ok (leaf, level) =>
    if leaf / 2 ^ 8 % 4 = 0 || leaf / 2 ^ 8 % 4 = 2 then some (leaf / 2 ^ 13 % 2 ^ 39 * 2 ^ 13 + va % pageSize level) else none

/-- The lines of the L1 that overlap a list of ranges, each an address and a length (R268). -/
def regionLines (s : State) (rs : List (Nat × Nat)) : List Nat :=
  if s.c.l1.isEmpty then []
  else
    (s.c.l1.map (·.1)).filter fun l =>
      rs.any fun r =>
        (List.range ((r.1 % 2 ^ 16 + r.2 + 2 ^ 16 - 1) / 2 ^ 16)).any fun k =>
          let va := Nat.max r.1 ((r.1 / 2 ^ 16 + k) * 2 ^ 16)
          let stop := Nat.min (r.1 + r.2) ((r.1 / 2 ^ 16 + k + 1) * 2 ^ 16)
          match cachedPa s va with
          | some pa => overlaps (128 * l) 128 pa (stop - va)
          | none => false

/-- The task in focus retires as killed, with its exit code (R383). Its core becomes idle. -/
def retireKilled (s : State) (exit : Nat) : State :=
  let r := s.t.me
  let s := killJobs (landBeats s) r.tag
  let s := l1DropAll (withdrawAll s r.tag)
  leaveCore (retireRec s r s.t.regs 6 exit)

/-- A kill with EXIT 3 writes a fault record (R461). -/
def killRecorded (s : State) (cause pc : Word) (info : List Nat) (first : Word) : State :=
  retireKilled (faultRecord s (dieOf s.cur) s.t.me cause pc info first) 3

/-- The task in focus retires by END (R383). Each edge increment is a release, with its tick after the accesses before it (R298). -/
def retireEnd (s : State) : State :=
  match outEdges s with
  | none => killRecorded s (BitVec.ofNat 64 cOperand) s.t.pc [0, 0, 0, 0] 0
  | some es =>
    let r := s.t.me
    let s := withdrawAll (touchBlock s r r.outE es) r.tag
    let s := es.foldl
      (fun s e =>
        let s := tickEpoch ((regionLines s e.regions).foldl l1Clean s)
        cntAdd s (mapCnt s.t.regs.cntbase e.cnt) 1 3 r.tag s.cur) s
    let s := l1DropAll s
    leaveCore (retireRec s r s.t.regs 5 0)

end Sys2Proof.Machine
end

