-- ==== Sys2Proof/Machine/Spec.lean ====
section
/-! DEFINITION. Speculation regions: the store queue, the shadows, the commit and the abort (R420 to R431); and the queued writes of
shape records and handles (R35). -/

namespace Sys2Proof.Machine

/-- A region is open and its rules apply: they do not in trap mode (R456). -/
def inSpec (s : State) : Bool := s.t.spec.isOpen && !s.c.trap

/-! ## The store queue (R423) -/

/-- The youngest queued byte at an address. -/
def queuedByte (q : List SpecStore) (a : Nat) : Option Byte :=
  q.foldl
    (fun (b : Option Byte) (e : SpecStore) =>
      if e.va ≤ a && a < e.va + 2 ^ e.sz then some ((e.data >>> (8 * (a - e.va))).setWidth 8) else b) none

/-- The bytes of a load that queued stores cover. -/
def queuedBytes (s : State) (a n : Nat) : List (Option Byte) := (List.range n).map fun k => queuedByte s.t.spec.store (a + k)

/-- The bytes read, with the queued ones over them. -/
def overlayQueued (q : List (Option Byte)) (bs : List Byte) : List Byte := (q.zip bs).map fun e => e.1.getD e.2

/-- Drain one queued store as a plain ST; one that meets a sealed page or a lost translation is dropped and counted. -/
def drainStore (s : State) (e : SpecStore) : State :=
  match plainWrite s e.va (leBytes (2 ^ e.sz) e.data.toNat) 1 with
  | .ok s => s
  | .error _ => onSpec s fun p => { p with drops := Nat.min 0xFFFF (p.drops + 1) }

/-! ## Shadows (R422) -/

/-- The rows and the window of accumulator `src` put in place of those of `dst`. -/
def copyAcc (m : Mat) (src dst : Nat) : Mat :=
  { m with
    acc := (tslice m.acc (128 * src) 128).foldl (fun t e => tset {} t (128 * dst + e.1) e.2) (tclear m.acc (128 * dst) 128),
    win := tset none m.win dst (tget none m.win src) }

/-- An accumulator emptied with its window. -/
def emptyAcc (m : Mat) (a : Nat) : Mat := { m with acc := tclear m.acc (128 * a) 128, win := tset none m.win a none }

/-- The accumulator that a read of accumulator `a` reaches. -/
def accRead (s : State) (a : Nat) : Nat :=
  if !s.t.spec.isOpen then a
  else if s.t.spec.map0 = some a then 4
  else if s.t.spec.map1 = some a then 5
  else a

/-- The accumulator that a write of accumulator `a` reaches, mapped to a shadow first where a region is open; none where two
others are mapped already. -/
def accWrite (s : State) (a : Nat) : Option (Nat × State) :=
  if !s.t.spec.isOpen then some (a, s)
  else if s.t.spec.map0 = some a then some (4, s)
  else if s.t.spec.map1 = some a then some (5, s)
  else if s.t.spec.map0 = none then
    some (4, onSpec (onMat s fun m => copyAcc m a 4) fun p => { p with map0 := some a })
  else if s.t.spec.map1 = none then
    some (5, onSpec (onMat s fun m => copyAcc m a 5) fun p => { p with map1 := some a })
  else none

/-- A mapped accumulator takes its shadow's rows and window. -/
def takeShadow (m : Mat) (shadow : Nat) (acc : Option Nat) : Mat :=
  match acc with
  | some a => copyAcc m shadow a
  | none => m

/-! ## Commit (R427) -/

/-- The region commits. -/
def commitSpec (s : State) : State :=
  let p := s.t.spec
  let s := p.store.foldl drainStore s
  let s := onMat s fun m => emptyAcc (emptyAcc (takeShadow (takeShadow m 4 p.map0) 5 p.map1) 4) 5
  onSpec s fun p =>
    { p with isOpen := false, map0 := none, map1 := none, store := [], full := false, save := {}, pending := none, commit := false }

/-! ## Queued configuration writes (R35) -/

/-- Apply a write of a shape record or a handle: the whole record or one 64-bit word. -/
def applyCfg (s : State) (w : CfgWrite) : State :=
  let mix := fun (old : BitVec 256) =>
    match w.word with
    | none => w.val
    | some f => (old &&& ~~~(BitVec.ofNat 256 ((2 ^ 64 - 1) * 2 ^ (64 * f)))) ||| BitVec.ofNat 256 (w.val.toNat % 2 ^ 64 * 2 ^ (64 * f))
  if w.hole then onT s fun t => { t with hole := tset 0 t.hole w.num (mix (tget 0 t.hole w.num)) }
  else onMat s fun m => { m with sh := tset 0 m.sh w.num (mix (tget 0 m.sh w.num)) }

/-! ## Abort (R426) -/

/-- Abort the open region (R426): what was dispatched in it is discarded, the checkpoint restored, and the PC set to SALT. Where a write has
decided an abort already, its cause stands (R425). -/
def abortSpec (s : State) (cause : Nat) : State :=
  let p := s.t.spec
  let holes := s.t.slots.cfg.filter (·.hole)
  let s := holes.foldl applyCfg s
  onT s fun t =>
    let next := t.slots.next
    { t with
      s := p.save.s, b := p.save.b, q := p.save.q, lc := p.save.lc, loops := p.save.loops, a := p.save.a, v := p.save.v,
      p := p.save.p, poison := t.poison.filter (192 ≤ ·), tick := none, begun := 0, undo := none, pc := p.alt,
      mat := { t.mat with sh := p.save.sh, acc := t.mat.acc.filter (fun e => e.1 < 512), win := t.mat.win.filter fun e => e.1 < 4 },
      slots := { t.slots with
        queue := [], latches := [], cfg := [], fmtw := [], fmt := p.save.fmt, votes := [], early := [],
        front := (List.range 6).filterMap fun k => if next = 0 then none else some (k, next) },
      spec := { p with isOpen := false, last := p.pending.getD cause, map0 := none, map1 := none, store := [], full := false, save := {},
                       pending := none, commit := false } }

/-- Abort the region if one is open. -/
def abortIfOpen (s : State) (cause : Nat) : State := if s.t.spec.isOpen then abortSpec s cause else s

end Sys2Proof.Machine
end

