-- ==== Sys2Proof/Machine/Save.lean ====
section
/-! DEFINITION. Suspension and the save area (R410 to R416, R430, R461). -/

namespace Sys2Proof.Machine

/-! ## What a stub record keeps (R409, R411) -/

def recByte (r : List Byte) (k : Nat) : Nat := (r.getD k 0).toNat
def recN (r : List Byte) (k n : Nat) : Nat := leNat ((r.drop k).take n)

/-- Whether register `n` of slot file `file` is kept. -/
def keepsV (stub : Bool) (r : List Byte) (n : Nat) : Bool := !stub || (recN r (32 + 4 * (n / 32)) 4).testBit (n % 32)
def keepsP (stub : Bool) (r : List Byte) (n : Nat) : Bool := !stub || (recByte r (40 + n / 8)).testBit (n % 8)
def keepsA (stub : Bool) (r : List Byte) (n : Nat) : Bool := !stub || (recN r 42 2).testBit n
def keepsBit (stub : Bool) (r : List Byte) (b : Nat) : Bool := !stub || (recByte r 44).testBit b

/-! ## The layout (R414) -/

def offXy : Nat := 0x8000
def offP (g : Nat) : Nat := 0x8000 + 8 * kib * g
def offK (g : Nat) : Nat := 0x8000 + 9 * kib * g
def offLatch (g : Nat) : Nat := 0x8000 + 10 * kib * g
def offSpec (g : Nat) : Nat := 0x8000 + 22 * kib * g
def offPlanes (g : Nat) : Nat := 0x8000 + 38 * kib * g
def offAcc (g : Nat) : Nat := 0x8000 + 104 * kib * g
def offWin (g : Nat) : Nat := 0x8000 + 1304 * kib * g
def offSpm (g : Nat) : Nat := 0x8000 + 1448 * kib * g

/-- Predicate 0 of either file reads all-true. -/
def allTrue (g : Nat) : PReg := BitVec.ofNat 512 (2 ^ (128 * g) - 1)

/-- The eight q registers as a byte, q0 true. -/
def qByte (q : Tbl Bool) : Nat := 1 + ((List.range 8).map fun k => if k ≠ 0 && tget false q k then 2 ^ k else 0).sum

/-- TRAPEN as a word (R472). -/
def trapen (r : TaskRegs) : Nat :=
  (if r.rnme then 1 else 0) + (if r.timerPending then 256 else 0) + (if r.rnmPending then 512 else 0)

/-- The per-task system registers at +1,856 of the sequencer block (R470). -/
def sysCells (off : Nat) (r : TaskRegs) (asid : Nat) : Tbl Byte :=
  fieldCells off 8 r.adoptpol ++ fieldCells (off + 8) 8 r.vhold.toNat ++ regCells (off + 16) 8 r.vpins ++
  fieldCells (off + 48) 8 r.rdvdom ++ fieldCells (off + 56) 8 r.acqepoch ++
  (r.rdvcnt.flatMap fun e => fieldCells (off + 64 + 8 * e.1) 8 e.2.toNat) ++
  fieldCells (off + 128) 8 r.cntbase ++ fieldCells (off + 136) 8 r.topoen ++ fieldCells (off + 144) 8 r.spawnasid ++
  fieldCells (off + 152) 8 (trapen r) ++ fieldCells (off + 160) 8 r.timer ++ fieldCells (off + 1016) 8 asid

/-- One accumulator row's image (R233). -/
def rowCells (off : Nat) (r : AccRow) : Tbl Byte :=
  fieldCells off 2 (wrapN 16 r.e) ++ r.m.flatMap fun e => fieldCells (off + 64 + 6 * e.1) 6 (wrapN 48 e.2)

def rowStride (g : Nat) : Nat := 64 + 1536 * g

/-- An accumulator's image. -/
def accCells (off g a : Nat) (m : Mat) : Tbl Byte :=
  (List.range 128).flatMap fun r => rowCells (off + rowStride g * r) (tget {} m.acc (128 * a + r))

/-- SSTAT sel 0 (R429). -/
def sstat0 (p : Spec) : Nat :=
  p.drops % 2 ^ 16 * 2 ^ 32 + p.last * 2 ^ 16 +
  (match p.map1 with | some a => 2 ^ 14 + a * 2 ^ 12 | none => 0) + (match p.map0 with | some a => 2 ^ 11 + a * 2 ^ 9 | none => 0) +
  p.store.length * 4 + (if p.full then 2 else 0) + (if p.isOpen then 1 else 0)

/-- The speculation block (R430). -/
def specCells (off g : Nat) (p : Spec) : Tbl Byte :=
  fieldCells off 8 (sstat0 p) ++ fieldCells (off + 8) 8 p.cond.toNat ++ fieldCells (off + 16) 8 p.exp.toNat ++
  fieldCells (off + 24) 8 p.alt.toNat ++
  (p.store.zipIdx.flatMap fun e =>
    fieldCells (off + 256 + 16 * e.2) 8 (e.1.va + e.1.sz * 2 ^ 56) ++ fieldCells (off + 264 + 16 * e.2) 8 e.1.data.toNat) ++
  (let k := off + 1280
   regCells k 8 p.save.s ++ regCells (k + 512) 8 p.save.b ++ regCells (k + 576) 4 p.save.lc ++ loopCells (k + 592) p.save.loops ++
   fieldCells (k + 656) 1 (if p.isOpen then qByte p.save.q else 0) ++ fieldCells (k + 658) 2 p.save.fmt ++
   regCells (k + 664) 8 p.save.a ++ regCells (k + 792) 32 p.save.sh) ++
  regCells (off + 4 * kib) (128 * g) p.save.v ++
  (List.range 16).flatMap fun n =>
    fieldCells (off + 4 * kib + 8 * kib * g + 16 * g * n) (16 * g)
      (if n % 8 = 0 then (if p.isOpen then (allTrue g).toNat else 0) else (tget 0 p.save.p n).toNat)

/-- The scratchpad bytes below the header's SPM, across the gang (R413). -/
def spmCells (s : State) (off : Nat) : Tbl Byte :=
  (List.range s.t.g).flatMap fun m =>
    tshift ((coreCtx s (s.cur + m)).c.spm.filter fun e => e.1 + mib8 * m < s.t.hdr.spm) (off + mib8 * m)

/-- The save area of the task in focus below its scratchpad image, for a save of `kind`, by its nonzero bytes (R411, R414, R415). -/
def saveRegs (s : State) (kind : Nat) (pc : Word) : Tbl Byte :=
  let t := s.t
  let g := t.g
  let stub := kind = 1
  let r := t.stubrec
  let resume := if t.stub then t.resume else pc
  let pick := fun {w : Nat} (keep : Nat → Bool) (m : Tbl (BitVec w)) => m.filter fun e => keep e.1
  let q := t.slots
  fieldCells 0 4 (kind + t.me.gw * 16 + (if t.stub && kind ≠ 1 then 64 else 0)) ++ fieldCells 8 8 resume.toNat ++
  (r.zipIdx.flatMap fun e => fieldCells (16 + e.2) 1 e.1.toNat) ++
  fieldCells 80 64 ((t.cwt.map fun e => 2 ^ e.1).sum) ++ fieldCells 144 1 (if t.mismatch then 1 else 0) ++
  (let k := 0x100
   regCells k 8 t.s ++ regCells (k + 512) 8 t.b ++ regCells (k + 576) 4 t.lc ++ loopCells (k + 592) t.loops ++
   fieldCells (k + 656) 1 (qByte t.q) ++ fieldCells (k + 658) 2 t.slots.fmt ++ fieldCells (k + 664) 8 t.sts.toNat ++
   fieldCells (k + 672) 8 t.mat.rnm ++ fieldCells (k + 680) 8 t.slots.next ++
   regCells (k + 688) 8 (pick (keepsA stub r) t.a) ++ regCells (k + 832) 32 t.mat.sh ++ regCells (k + 1344) 32 t.hole ++
   sysCells (k + 1856) t.regs t.me.asid) ++
  regCells 0x1000 8 t.eng ++
  (t.cwt.flatMap fun e => match e.2 with | some v => fieldCells (0x2000 + 32 * e.1) 32 v.toNat | none => []) ++
  (if stub then [] else queueCells q t.undo) ++
  ((List.range 6).flatMap fun k => fieldCells (0x7800 + 8 * k) 8 (tget 0 q.front k)) ++ fieldCells 0x7830 8 pc.toNat ++
  fieldCells 0x7838 1 (loopOrder t.loops) ++ fieldCells 0x7839 1 (loopOrder t.spec.save.loops) ++ fieldCells 0x7840 8 t.spec.first ++
  (if stub then [] else cfgCells q.cfg ++ segCells q) ++
  regCells offXy (128 * g) (pick (keepsV stub r) t.v) ++
  ((List.range 16).flatMap fun n =>
    let v := if n % 8 = 0 then allTrue g else tget 0 t.p n
    if keepsP stub r n then fieldCells (offP g + 16 * g * n) (16 * g) v.toNat else []) ++
  ((List.range 2).flatMap fun v =>
    (tslice t.rsd (128 * v) 128).flatMap fun e => fieldCells (offP g + 256 * g + 128 * g * v + 4 * e.1) 4 e.2.toNat) ++
  (if keepsBit stub r 4 then fieldCells (offK g) 16 t.key.toNat ++ fieldCells (offK g + 16) 16 t.stride.toNat else []) ++
  (if keepsBit stub r 5 then regCells (offK g + 32) 16 t.ctr else []) ++
  (if stub then [] else latchAreaCells (offLatch g) g q) ++ specCells (offSpec g) g t.spec ++
  (if keepsBit stub r 6 then planeCells (offPlanes g) g t.mat else []) ++
  ((List.range 6).flatMap fun a =>
    if !stub || (a < 4 && keepsBit stub r a) then accCells (offAcc g + 200 * kib * g * a) g a t.mat else []) ++
  (if stub then []
   else
    (List.range 6).flatMap fun a =>
      match tget none t.mat.win a with
      | some w => blockCells (offWin g + 24 * kib * g * a) g (tget 0 t.mat.cls w.plane) (some w)
      | none => [])

/-- The whole save area. -/
def saveCells (s : State) (kind : Nat) (pc : Word) : Tbl Byte :=
  saveRegs s kind pc ++ (if kind = 1 then [] else spmCells s (offSpm s.t.g))

/-- The length of a save area (R414). -/
def saveLen (s : State) (kind : Nat) : Nat :=
  offSpm s.t.g + (if kind = 1 then 0 else (s.t.hdr.spm + 4095) / 4096 * 4096)

/-- What the device keeps beside the area (log entry 72). -/
def parkedOf (s : State) (kind : Nat) : Parked :=
  let t := s.t
  let q := t.slots
  let d : Parked := { hdr := t.hdr, regs := t.regs, seq := t.seq, fenced := t.fenced, seen := t.seen, poison := t.poison }
  if kind = 1 then d
  else { d with fmtw := q.fmtw.drop 64, latches := q.latches.drop (64 - q.fmtw.length), cfg := q.cfg.drop 16 }

/-- Write the save area (R414): the state after it, or the fault of the save. -/
def writeSave (s : State) (kind : Nat) (pc : Word) : Except Trap State :=
  let n := saveLen s kind
  match pieces s s.t.me.asid s.t.me.sup s.t.me.save n .write with
  | .error t => .error t
  | .ok ps =>
    match ps.find? fun p => 2 ≤ p.pg.kind with
    | some p => .error { code := cAccess, va := s.t.me.save + p.off, i2 := Acc.write.num, i3 := levelAt s s.t.me.asid (s.t.me.save + p.off) }
    | none =>
      let cells := saveCells s kind pc
      .ok (ps.foldl (fun s p => orderWriteRange s (tint s) p.pg.pa p.len (tslice cells p.off p.len)) s)

/-- Whether an unfinished job of the task names a scratchpad address, by its source, destination, index list, ring or footprint (R413). -/
def jobsOnSpm (s : State) : Bool :=
  (liveJobs s).any fun x =>
    x.2.2.tag = s.t.me.tag &&
      (((x.2.2.eng = 1 || x.2.2.eng = 2) && parSpm (jpar x.2.2 12)) || [0, 1].any (fun k => jpar x.2.2 k / 2 ^ 56 % 2 = 1) || jpar x.2.2 2 / 2 ^ 17 % 2 = 1 ||
       (readFp x.2.2 ++ writeFp x.2.2).any fun r => r.1 && 0 < r.2.2)

/-- INTENS from the run just ended (R404). -/
def intensOf (s : State) : Nat :=
  let t := s.t
  if !t.ranUs && !Config.longRun s.free then t.me.intens
  else
    let per := if 0 < t.beats then t.beats else t.vops
    if per = 0 then (if 0 < t.hbmBytes then 3 else 2)
    else if t.hbmBytes < 8 * per then 1
    else if 64 * per < t.hbmBytes then 3 else 2

/-- What a write of the condition word has decided takes place before a suspension (R423, R425): the commit, or the abort, after which
the task resumes at SALT. -/
def settleSpec (s : State) (l : Leave) : State × Leave :=
  if s.t.spec.commit then (commitSpec s, l)
  else
    match s.t.spec.pending with
    | some cause => let s := abortIfOpen s cause; (s, { l with pc := s.t.pc })
    | none => (s, l)

/-- The jobs of a task that run as it is parked are charged to grey from then on, as are those that start while it is parked (R438; DEDUCED,
log entry 85: also after the task runs again). -/
def greyJobs (s : State) : State :=
  (liveJobs s).foldl (fun s x => if x.2.2.tag = s.t.me.tag && x.2.2.st = 2 then onJob s x.1 x.2.1 fun j => { j with tint := 3 } else s) s

/-- Finish a suspension of the task in focus (R413, R416): what is decided of its region, the window beats in flight, the L1, the save
area, the envelope as a release at .p, then the fault record; the core becomes idle. A save that faults kills the task (R414). -/
def finishSuspend (s : State) (l : Leave) : State :=
  let (s, l) := settleSpec s l
  let s := landBeats (onT s fun t =>
    { t with seg := none, rewound := none, tick := none, begun := 0, undo := t.undo.map fun u => { u with seg := none, rewound := none } })
  let s := greyJobs (l1DropAll s)
  match writeSave s l.kind l.pc with
  | .error t => killRecorded s (BitVec.ofNat 64 t.code) l.pc [0, t.va, t.i2, t.i3] 0
  | .ok s =>
    let s' := onPkg s fun p => { p with parked := tset none p.parked s.t.me.tag (some (parkedOf s l.kind)) }
    -- what TWAIT or DBAR awaits may have come while it was being saved; a task suspended by fault waits for the supervisor (R381, R461)
    let now := (getTask s s.t.me.tag).getD s.t.me
    let st := if now.result.isSome && (l.susp = 2 || l.susp = 3) then 1 else l.st
    let r := { s.t.me with
      result := now.result, acquire := now.acquire, awaits := now.awaits, pc := l.pc, last := s.cur, lcv := true, ran := true, intens := intensOf s, age := 0, susp := l.susp, st, exit := 0 }
    let vh := s.t.regs.vhold
    let s := bumpFree s'
    let s := envStatus wrPlain (envFields wrPlain (tickEpoch s) r vh) r
    let s := setTask s r.tag (some r)
    let s := if l.kind = 1 then onC s fun c => { c with spm := [] } else s
    let s := match l.record with
      | some (cause, pc, info, first) => faultRecord s (dieOf s.cur) r cause pc info first
      | none => s
    let s := leaveCore s
    if st = 1 then enqueue s r else s

/-- Begin a suspension: at once, or when the task's jobs on its scratchpad have ended (R413; a stub saves none). -/
def suspend (s : State) (l : Leave) : State :=
  if l.kind ≠ 1 && jobsOnSpm s then onC s fun c => { c with leaving := some l } else finishSuspend s l

/-! ## Restoring (R411, R415, R416) -/

/-- The reserved bits of STS (R25). -/
def stsReserved : Nat := 2 ^ 64 - 1 - 0x7DF

/-- The reserved bits of VHOLD and VPINS0 to 3 (R356). -/
def holdReserved : Nat := 0xFFFFEC00

/-- The checks of R415 on what a save area holds, for a task of gang width code `gw`: true when it may be restored. -/
def saveOk (m : Tbl Byte) (gw : Nat) : Bool :=
  let w := cellN m 0 4
  let k := 0x100 + 1856
  w % 16 < 4 && w / 16 % 4 = gw && w / 128 = 0 && cellN m 4 4 = 0 && cellN m 144 8 < 2 &&
  (List.range 104).all (fun i => tget 0 m (152 + i) = 0) &&
  (List.range 4).all (fun n =>
    let a := cellN m (0x100 + 592 + 16 * n) 8
    let e := cellN m (0x100 + 600 + 16 * n) 8
    e % 2 = 0 || a < e / 2 * 2) &&
  fmtOk (cellN m (0x100 + 658) 2) && Nat.land (cellN m (0x100 + 664) 8) stsReserved = 0 &&
  cellN m k 8 < 4 && Nat.land (cellN m (k + 8) 8) holdReserved = 0 &&
  ((List.range 4).all fun i => Nat.land (cellN m (k + 16 + 8 * i) 8) holdReserved = 0) &&
  cellN m (k + 48) 8 < 1024 && cellN m (k + 56) 8 < 2 ^ 28 && ((List.range 8).all fun i => cellN m (k + 64 + 8 * i) 8 < 2 ^ 32) &&
  cellN m (k + 128) 8 < 4096 && cellN m (k + 136) 8 < 2 && cellN m (k + 144) 8 < 256 &&
  Nat.land (cellN m (k + 152) 8) (2 ^ 64 - 1 - 0x301) = 0 && cellN m (k + 160) 8 < 2 ^ 32 &&
  ((List.range 106).all fun i => cellN m (k + 168 + 8 * i) 8 = 0) && cellN m (k + 1016) 8 < 256

def readQ (v : Nat) : Tbl Bool := (List.range 8).filterMap fun k => if k ≠ 0 && v.testBit k then some (k, true) else none

/-- An accumulator row read back. -/
def readRow (g off : Nat) (m : Tbl Byte) : AccRow :=
  let m := tslice m off (rowStride g)
  { e := sext 16 (cellN m 0 2),
    m := (List.range (256 * g)).filterMap fun j =>
      let v := sext 48 (cellN m (64 + 6 * j) 6)
      if v = 0 then none else some (j, v) }

/-- Those of six accumulators that were saved, read back. -/
def readAcc (g off : Nat) (saved : Nat → Bool) (m : Tbl Byte) : Tbl AccRow :=
  (List.range 6).flatMap fun a =>
    let ma := tslice m (off + 200 * kib * g * a) (200 * kib * g)
    if !saved a then []
    else if ma.isEmpty then (List.range 128).map fun r => (128 * a + r, { e := 0 })
    else (List.range 128).filterMap fun r =>
      let row := readRow g (rowStride g * r) ma
      if row = {} then none else some (128 * a + r, row)

/-- The speculation block read back. -/
def readSpec (g off first order : Nat) (m : Tbl Byte) : Spec :=
  let m := tslice m off (16 * kib * g)
  let w := cellN m 0 8
  let k := 1280
  { isOpen := w % 2 = 1, first, cond := BitVec.ofNat 64 (cellN m 8 8), exp := BitVec.ofNat 64 (cellN m 16 8),
    alt := BitVec.ofNat 64 (cellN m 24 8), drops := w / 2 ^ 32 % 2 ^ 16, last := w / 2 ^ 16 % 16, full := w / 2 % 2 = 1,
    map0 := if w / 2 ^ 11 % 2 = 1 then some (w / 2 ^ 9 % 4) else none,
    map1 := if w / 2 ^ 14 % 2 = 1 then some (w / 2 ^ 12 % 4) else none,
    store := (List.range (Nat.min 64 (w / 4 % 128))).map fun i =>
      { va := cellN m (256 + 16 * i) 7, sz := cellN m (263 + 16 * i) 1 % 4, data := BitVec.ofNat 64 (cellN m (264 + 16 * i) 8) },
    save :=
      { s := (readRegs 64 64 k 8 m).filter fun e => e.1 ≠ 0, b := readRegs 64 8 (k + 512) 8 m, lc := readRegs 32 4 (k + 576) 4 m,
        loops := readLoops (k + 592) order m, q := readQ (cellN m (k + 656) 1), fmt := cellN m (k + 658) 2,
        a := readRegs 64 16 (k + 664) 8 m, sh := readRegs 256 16 (k + 792) 32 m,
        v := readRegs 4096 64 (4 * kib) (128 * g) m, p := (readRegs 512 16 (4 * kib + 8 * kib * g) (16 * g) m).filter fun e => e.1 % 8 ≠ 0 } }

/-- The per-task system registers read back. The ASID beside them is not: a task's ASID never changes, and the device holds it beside the
tag (R440). -/
def readSys (k : Nat) (m : Tbl Byte) : TaskRegs :=
  let e := cellN m (k + 152) 8
  { adoptpol := cellN m k 8, vhold := BitVec.ofNat 64 (cellN m (k + 8) 8), vpins := readRegs 64 4 (k + 16) 8 m,
    rdvdom := cellN m (k + 48) 8, acqepoch := cellN m (k + 56) 8, rdvcnt := readRegs 32 8 (k + 64) 8 m,
    cntbase := cellN m (k + 128) 8, topoen := cellN m (k + 136) 8, spawnasid := cellN m (k + 144) 8,
    rnme := e % 2 = 1, timerPending := e / 256 % 2 = 1, rnmPending := e / 512 % 2 = 1, timer := cellN m (k + 160) 8 }

/-- The CWT read back: entries marked loaded. -/
def readCwt (m : Tbl Byte) : Tbl (Option (BitVec 256)) :=
  let map := cellN m 80 64
  let c := tslice m 0x2000 (16 * kib)
  (List.range 512).filterMap fun k =>
    if map.testBit k then some (k, some (BitVec.ofNat 256 (cellN (tslice c (32 * k) 32) 0 32))) else none

/-- The slots as a full save left them: the queues, the results and configuration writes in flight, the writes of FMT, and the votes.
`front` are the next indices. -/
def readSlots (m : Tbl Byte) (d : Parked) (g fmt next : Nat) : Slots :=
  let ls := readLatches (offLatch g) g m
  { fmt, next,
    front := (List.range 6).filterMap fun i => let v := cellN m (0x7800 + 8 * i) 8; if v = 0 then none else some (i, v),
    queue := (List.range 6).filterMap fun k => let q := readQueue m k; if q = [] then none else some (k, q),
    latches := (ls.filter (·.1 ≠ 7)).map (·.2) ++ d.latches,
    fmtw := ((ls.filter (·.1 = 7)).map fun x => { eff := x.2.tgt, iss := x.2.iss, val := x.2.val.toNat % 2 ^ 16 }) ++ d.fmtw,
    cfg := readCfg m ++ d.cfg, votes := readVotes m }

/-- The matrix side as a save left it; at a stub point only what the record `rc` names is kept. -/
def readMat (m : Tbl Byte) (g : Nat) (stub : Bool) (rc : List Byte) : Mat :=
  { (if keepsBit stub rc 6 then readPlanes (offPlanes g) g m else {}) with
    acc := readAcc g (offAcc g) (fun a => !stub || (a < 4 && keepsBit stub rc a)) m,
    win := if stub then []
      else (List.range 6).filterMap fun a =>
        match readBlock (offWin g + 24 * kib * g * a) g m with | some w => some (a, some w) | none => none,
    rnm := cellN m 0x3A0 8 % 2 ^ 32, sh := readRegs 256 16 0x440 32 m }

/-- The context that a save area holds (R415, R416), with what the device kept beside it, for the task record `r`. At a stub point, state
that the record does not name takes its first-dispatch value (R411). -/
def restore (m : Tbl Byte) (d : Parked) (r : TaskRec) (g : Nat) : Task :=
  let stub := cellN m 0 4 % 16 = 1
  let stubOn := cellN m 0 4 / 64 % 2 = 1
  let rc := tbytes m 16 64
  let k := 0x100
  let next := cellN m (k + 680) 8
  let fmt := cellN m (k + 658) 2
  let pick := fun {w : Nat} (keep : Nat → Bool) (m : Tbl (BitVec w)) => m.filter fun e => keep e.1
  { pc := BitVec.ofNat 64 (if stub then cellN m 8 8 else cellN m 0x7830 8),
    s := pick (· ≠ 0) (readRegs 64 64 k 8 m), b := readRegs 64 8 (k + 512) 8 m,
    q := readQ (cellN m (k + 656) 1), lc := readRegs 32 4 (k + 576) 4 m, loops := readLoops (k + 592) (cellN m 0x7838 1) m,
    cwt := readCwt m, sts := BitVec.ofNat 64 (cellN m (k + 664) 8),
    v := pick (keepsV stub rc) (readRegs 4096 64 offXy (128 * g) m),
    p := pick (fun n => n % 8 ≠ 0 && keepsP stub rc n) (readRegs 512 16 (offP g) (16 * g) m),
    a := pick (keepsA stub rc) (readRegs 64 16 (k + 688) 8 m),
    key := if keepsBit stub rc 4 then BitVec.ofNat 128 (cellN m (offK g) 16) else 0,
    stride := if keepsBit stub rc 4 then BitVec.ofNat 128 (cellN m (offK g + 16) 16) else 0,
    ctr := if keepsBit stub rc 5 then readRegs 128 (32 * g) (offK g + 32) 16 m else [],
    rsd := (List.range 2).flatMap fun v =>
      tshift (readRegs 32 (32 * g) (offP g + 256 * g + 128 * g * v) 4 m) (128 * v),
    hole := readRegs 256 16 (k + 1344) 32 m,
    slots := if stub then { next, fmt, front := (List.range 6).filterMap fun i => if next = 0 then none else some (i, next) }
      else readSlots m d g fmt next,
    undo := if stub then none else readUndo m,
    mat := readMat m g stub rc,
    spec := readSpec g (offSpec g) (cellN m 0x7840 8) (cellN m 0x7839 1) m,
    mismatch := cellN m 144 1 % 2 = 1,
    eng := readRegs 64 256 0x1000 8 m, seq := d.seq, fenced := d.fenced, seen := d.seen,
    regs := readSys (k + 1856) m, hdr := d.hdr, me := r, g,
    stub := stubOn, resume := if stubOn then BitVec.ofNat 64 (cellN m 8 8) else 0,
    stubrec := if stubOn then rc else [], poison := d.poison }

/-- Write the scratchpad image back onto the core in focus and its gang; other bytes read zero (R413). -/
def restoreSpm (s : State) (m : Tbl Byte) (kind g spm : Nat) : State :=
  (List.range g).foldl
    (fun s i => onCore s (s.cur + i) fun x =>
      { x with c := { x.c with
          spm := if kind = 1 then []
            else tslice (m.filter fun e => e.1 < offSpm g + spm) (offSpm g + mib8 * i) mib8,
          spmPoison := [] } }) s

end Sys2Proof.Machine
end

