-- ==== Sys2Proof/Machine/Flags.lean ====
section
/-! DEFINITION. The flag computations: the sticky flags of STS (R25) that an operation's flag mask sets, renormalisation events
(R211, R472, R498), and the acquires that a scope drops (R290). -/

namespace Sys2Proof.Machine

/-- Set the sticky flags of an arithmetic result (R125): the flag masks of Arith are the bits of STS. -/
def raiseFlags (s : State) (mask : Nat) : State := if mask = 0 then s else orSts s (BitVec.ofNat 64 (mask % 2 ^ 8))

/-- A renormalisation event (R211): RNMCOUNT, STS.RNM, the pending bit when RNME = 1 (R472), and the black box's storm record
when the core's count reaches 256 in the period (R498). -/
def renormEvent (s : State) : State :=
  let s := onMat s fun m => { m with rnm := Nat.min 0xFFFFFFFF (m.rnm + 1) }
  let s := setFlag s stsRNM
  let s := if s.t.regs.rnme then onRegs s fun r => { r with rnmPending := true } else s
  let d := getDie s (dieOf s.cur)
  let n := tget 0 d.storm s.cur + 1
  let s := setDie s (dieOf s.cur) { d with storm := tset 0 d.storm s.cur n }
  if n = 256 then bbRecord s (dieOf s.cur) 3 s.cur s.t.me.tag (leBytes 8 s.t.mat.rnm) else s

/-- `n` renormalisation events. -/
def renormEvents (s : State) (n : Nat) : State :=
  match n with
  | 0 => s
  | n + 1 => renormEvents (renormEvent s) n

/-- An acquire that is performed (R298). -/
def acquire (s : State) : State := onRegs s fun r => { r with acqepoch := s.pkg.epoch }

/-- Whether an agent at another place lies within a scope of the task in focus (R287). -/
def inScope (s : State) (scope tag core pkg : Nat) : Bool :=
  match scope with
  | 0 => tag = s.t.me.tag && pkg = s.pkg.number
  | 1 => pkg = s.pkg.number && clusterOf core = clusterOf s.cur
  | 2 => pkg = s.pkg.number && dieOf core = dieOf s.cur
  | 3 => pkg = s.pkg.number
  | _ => true

/-- Whether a release recorded with a word and an acquire of the task at `scope` are mutually in scope (R287, R290). The releasing
side's view is judged from the record's own fields. -/
def mutually (s : State) (r : SyncRec) (scope : Nat) : Bool :=
  inScope s scope r.tag r.core r.pkg && inScope s r.scope r.tag r.core r.pkg

/-- The sync record of the word that holds a physical byte. -/
def syncAt (s : State) (pa : Nat) : Option SyncRec := tget none s.pkg.sync (pa / 8)

/-- An acquire at `scope` that read a word with sync record `r`: dropped with SCOPEMISS when not mutually in scope (R290). -/
def acquireAt (s : State) (r : Option SyncRec) (scope : Nat) : State :=
  match r with
  | some x => if mutually s x scope then acquire s else setFlag s stsSCOPEMISS
  | none => acquire s

end Sys2Proof.Machine
end

