-- ==== Sys2Proof/Machine/Ops.lean ====
section
/-! DEFINITION. The operations that every family shares: taking an exception and leaving trap mode (R456 to R461, R465), the loop
end rule (R87), the results in flight (R32 to R39), the writes of FMT (R29), speculation aborts (R426), rewinds (R486, R487), and
the rules that a word checks before it acts (R298, R424, R458, R484). -/

namespace Sys2Proof.Machine

/-- What a step answers. -/
abbrev Res := Host.Outcome State Fault Refusal

/-! ## Taking an exception (R456, R457) -/

/-- TRAPCAUSE (R457): the code, whether it is an event or a double fault, and its source. -/
def causeWord (code : Nat) (event double : Bool) (src : Nat) : Word :=
  BitVec.ofNat 64 (code + (if event then 256 else 0) + (if double then 512 else 0) + src * 1024)

/-- Exchange s60 to s63 with the trap bank, and the marks of poison with them (R456, R465, R483). -/
def swapBank (s : State) : State :=
  let bank := tshift (tslice s.t.s 60 4) 60
  let task := tshift (tslice s.c.bank 60 4) 60
  let out := fun g : Nat => 60 ≤ g && g < 64
  let marks := s.t.poison.filter out
  let s := { s with t := { s.t with s := tclear s.t.s 60 4 ++ task, poison := s.c.bankPoison ++ s.t.poison.filter fun g => !out g } }
  onC s fun c => { c with bank, bankPoison := marks }

def queueOf (s : State) (k : Nat) : List QEntry := tget [] s.t.slots.queue k

/-- The C slot goes back to the boundary before its head bundle: the fields it has performed of it are undone, its RDV count, its
checkpoint or closed segment, and its write of FMT (R37, R456; DEDUCED, log entry 86). -/
def undoC (s : State) : State :=
  match s.t.undo, queueOf s 0 with
  | some u, e :: rest =>
    let n := e.cf.rdv.getD 0
    let s := if u.counted then tellRdv (onRegs s fun r => { r with rdvcnt := tset 0 r.rdvcnt n (tget 0 r.rdvcnt n - 1) }) n else s
    onT s fun t =>
      { t with
        seg := u.seg, rewound := u.rewound, undo := none,
        slots := { t.slots with
          fmtw := t.slots.fmtw.filter fun w => w.iss ≠ 2 * e.idx + 1,
          queue := tset [] t.slots.queue 0 ({ e with ops := u.ops } :: rest) } }
  | _, _ => s

/-- Take an exception: a bundle that the C slot is in is undone; cause and details, the resume point, the trap bank, supervisor privilege, trap mode, and the handler's
address (R456, R457). The one operation behind every fault and event. -/
def takeTrap (s : State) (cause : Word) (info : List Nat) (resume : Word) : State :=
  let s := undoC s
  let s := bbRecord s (dieOf s.cur) 1 s.cur s.t.me.tag (leBytes 8 cause.toNat ++ leBytes 8 resume.toNat)
  let s := swapBank s
  let s := onC s fun c =>
    { c with
      cause, trappc := resume, info := info.zipIdx.foldl (fun m e => tset 0 m e.2 (BitVec.ofNat 64 e.1)) [],
      prior := c.priv, priv := true, trap := true }
  onT s fun t => { t with pc := (getDie s (dieOf s.cur)).trapvec, tick := none, begun := 0, spec := { t.spec with full := false } }

/-- Leave trap mode: the trap bank and the prior privilege are restored (R465). -/
def leaveTrap (s : State) : State := onC (swapBank s) fun c => { c with trap := false, priv := c.prior }

/-- A double fault (R459): TRAPCAUSE and TRAPINFO describe it, TRAPPC stays, trap mode ends and the task is suspended by fault. -/
def doubleFault (s : State) (cause : Word) (info : List Nat) : State :=
  let first := s.c.cause
  let s := onC s fun c => { c with cause, info := info.zipIdx.foldl (fun m e => tset 0 m e.2 (BitVec.ofNat 64 e.1)) [] }
  let s := leaveTrap s
  suspend s { kind := 3, susp := 6, st := 3, pc := s.c.trappc, record := some (cause, s.c.trappc, info, first) }

/-- TRAPINFO0 to 3 of a fault: bundle index of a slot, virtual address, details. -/
def infoOf (t : Trap) (idx : Nat) : List Nat := [idx, t.va, t.i2, t.i3]

/-- Raise a fault of source `src` (0 a stream item, 1 to 6 a slot) at bundle index `idx`; the resume point is the stream PC. -/
def raiseAt (s : State) (t : Trap) (src idx : Nat) : State :=
  if s.c.trap then doubleFault s (causeWord t.code false true src) (infoOf t idx)
  else takeTrap s (causeWord t.code false false src) (infoOf t idx) s.t.pc

/-- Raise a fault of the stream word being executed. -/
def fault (s : State) (t : Trap) : Res := .next (raiseAt s t 0 0)

/-- Raise a fault by its code alone. -/
def faultC (s : State) (code : Nat) : Res := fault s { code }

/-! ## Moving on (R78, R83, R87) -/

/-- The loop end rule at `next` over the active loops, most recent first: the loops, counters and PC that follow. -/
def loopEnd (next : Word) (ls : List LoopRec) (lc : Tbl (BitVec 32)) : List LoopRec × Tbl (BitVec 32) × Word :=
  match ls with
  | [] => ([], lc, next)
  | l :: rest =>
    if l.e = next then
      let n := tget 0 lc l.lc - 1
      let lc := tset 0 lc l.lc n
      if n ≠ 0 then (l :: rest, lc, l.s) else loopEnd next rest lc
    else
      let (ls, lc, pc) := loopEnd next rest lc
      (l :: ls, lc, pc)

/-- An item of `n` bytes completes without a taken branch: the PC moves past it, under the loop end rule outside trap mode. -/
def pastItem (s : State) (n : Nat) : State :=
  let next := s.t.pc + BitVec.ofNat 64 n
  if s.c.trap || s.t.loops.isEmpty then { s with t := { s.t with pc := next } }
  else
    let (loops, lc, pc) := loopEnd next s.t.loops s.t.lc
    { s with t := { s.t with loops, lc, pc } }

/-- A scalar word completes. -/
def advance (s : State) : State := pastItem s 4

/-- A scalar word completes: the answer of its meaning. -/
def done (s : State) : Res := .next (advance s)

/-- A branch is taken; BR and RET leave every loop whose body does not hold the target (R83). -/
def branchTo (s : State) (target : Word) (leaves : Bool) : State :=
  { s with t := { s.t with
      pc := target,
      loops := if leaves then s.t.loops.filter fun l => l.s ≤ target && target < l.e else s.t.loops } }

/-! ## Results in flight (R32 to R39) -/

/-- The next bundle index of slot `k`. -/
def frontOf (s : State) (k : Nat) : Nat := tget 0 s.t.slots.front k

/-- The least next index of the six slots. -/
def minFront (s : State) : Nat := (List.range 6).foldl (fun m k => Nat.min m (frontOf s k)) s.t.slots.next

/-- Whether every slot queue is empty. -/
def queuesEmpty (s : State) : Bool := s.t.slots.queue.all fun e => e.2.isEmpty

/-- The order in which latches are applied (R34). -/
def Latch.before (a b : Latch) : Bool :=
  a.tgt < b.tgt || (a.tgt = b.tgt && (a.cls < b.cls || (a.cls = b.cls && a.iss ≤ b.iss)))

/-- Put a latch in its place. -/
def latchIns (l : Latch) (ls : List Latch) : List Latch :=
  match ls with
  | [] => [l]
  | x :: rest => if l.before x && !(x.before l) then l :: x :: rest else x :: latchIns l rest

/-- Hold an exposed result (R38). -/
def addLatch (s : State) (l : Latch) : State := onSlots s fun q => { q with latches := latchIns l q.latches }

/-- Overlay a value with the latches of a destination that are visible at index `j`. -/
def overlay (ls : List Latch) (d : Dest) (j : Nat) (base : VReg) : VReg :=
  ls.foldl (fun v l => if l.dest = d && l.tgt ≤ j then (v &&& ~~~l.mask) ||| (l.val &&& l.mask) else v) base

/-- The value of a destination that every slot has passed. -/
def baseOf (s : State) (d : Dest) : VReg :=
  match d with
  | .vec f n => tget 0 s.t.v (32 * f + n)
  | .pred f n => if n = 0 then (allTrue s.t.g).setWidth 4096 else (tget 0 s.t.p (8 * f + n)).setWidth 4096
  | .addr n => (tget 0 s.t.a n).setWidth 4096
  | .key => s.t.key.setWidth 4096
  | .stride => s.t.stride.setWidth 4096
  | .ctr l => (tget 0 s.t.ctr l).setWidth 4096

/-- Write a destination for good; xp0 and yp0 discard. -/
def setBase (s : State) (d : Dest) (v : VReg) : State :=
  match d with
  | .vec f n => onT s fun t => { t with v := tset 0 t.v (32 * f + n) v }
  | .pred f n => if n = 0 then s else onT s fun t => { t with p := tset 0 t.p (8 * f + n) (v.setWidth 512) }
  | .addr n => onT s fun t => { t with a := tset 0 t.a n (v.setWidth 64) }
  | .key => onT s fun t => { t with key := v.setWidth 128 }
  | .stride => onT s fun t => { t with stride := v.setWidth 128 }
  | .ctr l => onT s fun t => { t with ctr := tset 0 t.ctr l (v.setWidth 128) }

/-- The value of a destination as an operation at index `j` reads it (R32). -/
def readAt (s : State) (d : Dest) (j : Nat) : VReg := overlay s.t.slots.latches d j (baseOf s d)

/-- Deliver one latch. -/
def deliverOne (s : State) (l : Latch) : State :=
  setBase s l.dest ((baseOf s l.dest &&& ~~~l.mask) ||| (l.val &&& l.mask))

/-- Whether two latches of a list land on one byte at one index (R34). Two writes of a predicate collide where they write one of its
bits, each of which stands for one byte position (R23; DEDUCED, log entry 67). -/
def collides (ls : List Latch) : Bool :=
  match ls with
  | [] => false
  | l :: rest => rest.any (fun x => x.dest = l.dest && x.tgt = l.tgt && (x.mask &&& l.mask) ≠ 0) || collides rest

/-- The state of the lane generators, which only the V slots read (R194). -/
def Dest.isGen (d : Dest) : Bool := match d with | .key | .stride | .ctr _ => true | _ => false

/-- Whether every slot that may read a latch's destination has reached its target (R38); `m` is the least next index. -/
def latchDue (s : State) (m : Nat) (l : Latch) : Bool :=
  l.tgt ≤ m || (l.dest.isGen && l.tgt ≤ frontOf s 2 && l.tgt ≤ frontOf s 3)

/-- Deliver every latch that all slots which may read it have reached. -/
def deliver (s : State) (m : Nat) : State :=
  let due := s.t.slots.latches.filter (latchDue s m)
  if due.isEmpty then s
  else
    let rest := s.t.slots.latches.filter fun l => !latchDue s m l
    let s := due.foldl deliverOne s
    let s := onSlots s fun q => { q with latches := rest }
    if collides due then setFlag s stsWCOLL else s

/-! ## FMT (R29) -/

/-- The write of FMT in effect at an index, among those listed: the latest effect index, and the later in the stream. -/
def fmtBest (ws : List FmtWrite) (j : Nat) : Option FmtWrite :=
  ws.foldl
    (fun b w =>
      if j < w.eff then b
      else match b with
        | none => some w
        | some x => if x.eff < w.eff || (x.eff = w.eff && x.iss ≤ w.iss) then some w else b)
    none

/-- FMT as in effect at index `j`. -/
def fmtAt (s : State) (j : Nat) : Nat :=
  match fmtBest s.t.slots.fmtw j with
  | some w => w.val
  | none => s.t.slots.fmt

/-- A write of FMT; `pos` is its place in the stream: 2i + 1 for bundle i, 2i for a word before it. -/
def addFmt (s : State) (eff pos val : Nat) : State :=
  onSlots s fun q => { q with fmtw := q.fmtw ++ [{ eff, iss := pos, val }] }

/-- Forget the writes that every slot has passed. -/
def foldFmt (s : State) (m : Nat) : State :=
  if s.t.slots.fmtw.isEmpty then s
  else
    let v := fmtAt s m
    onSlots s fun q => { q with fmt := v, fmtw := q.fmtw.filter fun w => m < w.eff }

def isFmtw (i : Instr) : Bool := match i with | .fmtw => true | _ => false

/-- The writes of FMT that the C slot has still to make. -/
def queuedFmt (s : State) : List FmtWrite :=
  ((queueOf s 0).filter fun e => e.ops.any isFmtw).map fun e => { eff := e.idx + 4, iss := 2 * e.idx + 1, val := e.fmtw }

/-- FMT as a word of the stream reads it at index `j`: with every FMTW in effect there, performed or, in trap mode, held in the C slot's
queue (R29). -/
def fmtSeen (s : State) (j : Nat) : Nat :=
  match fmtBest (s.t.slots.fmtw ++ queuedFmt s) j with
  | some w => w.val
  | none => s.t.slots.fmt

/-- Whether the C slot has still to execute an FMTW that is in effect at index `j` (R29). -/
def fmtPending (s : State) (j : Nat) : Bool := (queueOf s 0).any fun e => e.idx + 4 ≤ j && e.ops.any isFmtw

/-! ## Queued configuration writes (R35) -/

/-- The slots that use the target of a configuration write have reached it. -/
def cfgDue (s : State) (w : CfgWrite) : Bool :=
  if w.hole then w.bound ≤ frontOf s 0 && w.bound ≤ frontOf s 1 else w.bound ≤ frontOf s 4

/-- Apply the writes that are due, in stream order. -/
def foldCfg (s : State) : State :=
  if s.t.slots.cfg.isEmpty then s
  else
    let due := s.t.slots.cfg.filter (cfgDue s)
    let rest := s.t.slots.cfg.filter fun w => !cfgDue s w
    due.foldl applyCfg (onSlots s fun q => { q with cfg := rest })

/-! ## Passing bundles (R30, R36) -/

/-- Whether the head of slot `k` has nothing left to do and its hold is satisfied. -/
def canPass (s : State) (k : Nat) : Bool :=
  match queueOf s k with
  | [] => false
  | e :: _ => e.ops.isEmpty && (!e.hold || (List.range 6).all fun i => e.idx ≤ frontOf s i)

/-- Slot `k` passes its head. -/
def passHead (s : State) (k : Nat) : State :=
  match queueOf s k with
  | [] => s
  | e :: rest =>
    onT s fun t =>
      { t with
        undo := if k = 0 then none else t.undo,
        slots := { t.slots with queue := tset [] t.slots.queue k rest, front := tset 0 t.slots.front k (e.idx + 1) } }

/-- Let every slot pass the bundles in which it has nothing to do. `fuel` bounds the entries. -/
def passAll (fuel : Nat) (s : State) : State :=
  match fuel with
  | 0 => s
  | fuel + 1 =>
    match (List.range 6).find? (canPass s) with
    | some k => passAll fuel (passHead s k)
    | none => s

/-- Bring the slots to rest: bundles passed, results delivered, queued writes applied. -/
def settle (s : State) : State :=
  let s := passAll ((s.t.slots.queue.map fun e => e.2.length).sum + 1) s
  let m := minFront s
  foldCfg (foldFmt (deliver s m) m)

/-- The head entry of slot `k`. -/
def headOf (s : State) (k : Nat) : QEntry := (queueOf s k).headD {}

/-- The operation at the head of slot `k` is done. -/
def slotDone (s : State) (k : Nat) : State :=
  match queueOf s k with
  | [] => s
  | e :: rest => settle (onSlots s fun q => { q with queue := tset [] q.queue k ({ e with ops := e.ops.drop 1 } :: rest) })

/-- A slot operation completes. -/
def slotNext (s : State) (k : Nat) : Res := .next (slotDone s k)

/-- Raise a fault of slot `k` at its head bundle; none of the slot's operations of that bundle has any effect (R37). -/
def slotFault (s : State) (k : Nat) (t : Trap) : Res :=
  .next (raiseAt s t (k + 1) (headOf s k).idx)

/-! ## Events (R456, R472) -/

/-- An event is pending and enabled. -/
def eventPending (s : State) : Bool := s.t.regs.timerPending || (s.t.regs.rnmPending && s.t.regs.rnme)

/-- A WFE that has begun may complete (R469). -/
def wfeDue (s : State) : Bool := eventPending s || s.c.req.isSome || s.c.woken

/-- Take the pending event (R456, R457, R460): Timer first. -/
def takeEvent (s : State) : State :=
  if s.t.regs.timerPending then
    takeTrap (onRegs s fun r => { r with timerPending := false }) (causeWord cTimer true false 7) [0, 0, 0, 0] s.t.pc
  else takeTrap (onRegs s fun r => { r with rnmPending := false }) (causeWord cRenorm true false 7) [0, 0, 0, 0] s.t.pc

/-! ## Waiting on the slots (R91, R420) -/

/-- Whether every exposed result has been delivered. -/
def delivered (s : State) : Bool := s.t.slots.latches.isEmpty && s.t.slots.beats.isEmpty

/-- Every exposed result is written to its register although its index has not come, and the bundle index counter moves past the
greatest target among them (R410); FMT is one of them (R33). -/
def flushLatches (s : State) : State :=
  let q := s.t.slots
  let top := (q.latches.map (·.tgt) ++ q.fmtw.map (·.eff)).foldl Nat.max q.next
  let s := onSlots s fun q => { q with next := top, front := (List.range 6).filterMap fun k => if top = 0 then none else some (k, top) }
  settle s

/-! ## Segments and rewinds (R484 to R487) -/

/-- An item that closes the segment (R484); nothing does in trap mode. -/
def closeSeg (s : State) : State := if s.c.trap then s else onT s fun t => { t with seg := none, rewound := none }

/-- A rewind cause arises at an item of source `src` and index `idx`: the rewind is to be taken, or SegmentLost is raised
(R486, R487), once an OCSET that has sent its descriptor is complete (R349). -/
def rewindCause (s : State) (code src idx : Nat) : State :=
  match s.t.seg with
  | some g =>
    if g.rewinds < 2 then onC s fun c => { c with rewind := some code }
    else raiseAt s { code := cSegmentLost, i2 := code, i3 := g.rewinds } src idx
  | none =>
    if s.t.begun = 1 then onC s fun c => { c with rewind := some code }
    else raiseAt s { code := cSegmentLost, i2 := code, i3 := 0 } src idx

/-! ## What a word checks before it acts -/

/-- A word that may not run in trap mode (R458). -/
def notInTrap (s : State) (k : Res) : Res := if s.c.trap then faultC s cIllegal else k

/-- A word that an open region forbids (R424); the rule does not apply in trap mode (R456). -/
def notInSpec (s : State) (k : Res) : Res := if s.t.spec.isOpen && !s.c.trap then faultC s cSpecForbidden else k

/-- A word for supervisor privilege (R439). -/
def supOnly (s : State) (k : Res) : Res := if s.c.priv then k else faultC s cPrivilege

/-- A release is performed only after a tick that follows its first attempt (R298). -/
def withTick (s : State) (k : State → Res) : Res :=
  match s.t.tick with
  | none => .next (requestTick { s with t := { s.t with tick := some s.pkg.epoch } })
  | some e => if e = s.pkg.epoch then .next (requestTick s) else k { s with t := { s.t with tick := none } }

/-- The word completes and closes the segment. -/
def doneC (s : State) : Res := done (closeSeg s)

/-- Wait: the word or operation stays where it is. -/
def wait (s : State) : Res := .next s

end Sys2Proof.Machine
end

