-- ==== Sys2Proof/Machine/Holes.lean ====
section
/-! DEFINITION. Pigeonhole handles (R269 to R271): their fields, the handle a use reaches, its counts, and the waits on them. -/

namespace Sys2Proof.Machine

/-! ## Fields (R269) -/

def phBase (w : BitVec 256) : Nat := fld w 31 0
def phSlot (w : BitVec 256) : Nat := fld w 47 32
def phCount (w : BitVec 256) : Nat := fld w 55 48 + 1
def phKind (w : BitVec 256) : Nat := fld w 58 56
def phV (w : BitVec 256) : Bool := w.getLsbD 59
def phFill (w : BitVec 256) : Nat := fld w 95 64
def phFree (w : BitVec 256) : Nat := fld w 127 96
def phPeer (w : BitVec 256) : Nat := fld w 130 128
def phPhandle (w : BitVec 256) : Nat := fld w 135 132

/-- M: the modulus of the counts. -/
def phMod (w : BitVec 256) : Nat := phCount w * 2 ^ 24
def phFilled (w : BitVec 256) : Nat := (phFill w + phMod w - phFree w % phMod w) % phMod w

/-- The handle with one count advanced: the fill count, or the free count (R271). -/
def phAdvance (w : BitVec 256) (free : Bool) : BitVec 256 :=
  let lo := if free then 96 else 64
  let v := ((if free then phFree w else phFill w) + 1) % phMod w
  (w &&& ~~~(BitVec.ofNat 256 ((2 ^ 32 - 1) * 2 ^ lo))) ||| BitVec.ofNat 256 (v * 2 ^ lo)

/-- The first byte of slot `x` of the ring. -/
def phAddr (w : BitVec 256) (x : Nat) : Nat := phBase w + x % phCount w * phSlot w * 128

/-! ## Handles of cores -/

def holeOf (s : State) (core h : Nat) : BitVec 256 := tget 0 (coreCtx s core).t.hole h
def setHole (s : State) (core h : Nat) (w : BitVec 256) : State :=
  onCore s core fun x => { x with t := { x.t with hole := tset 0 x.t.hole h w } }

/-- Advance a count of a handle. It requests no tick and observing it sets no ACQEPOCH (DEDUCED, log entry 99: R288 makes it a release of the
slot's data alone, and R298 speaks of releases and acquires of the memory order). -/
def advHole (s : State) (core h : Nat) (free : Bool) : State := setHole s core h (phAdvance (holeOf s core h) free)

/-- The core whose task a window access to core `c` of the cluster reaches (R244), or none where it is denied. -/
def windowTask (s : State) (c : Nat) : Option Nat :=
  let lead := leadOf s c
  let x := coreCtx s lead
  if x.c.busy && x.t.me.asid = s.t.me.asid then some lead else none

/-- A core of the issuing core's cluster, by its index. -/
def clusterCore (s : State) (c : Nat) : Nat := s.cur / 8 * 8 + c

/-- The core and the handle a use of handle `h` reaches, `fill` for the sides that fill and PHPUSH (R100, R244, R270, R450). A PEER that
names a member of a gang other than its lead reaches the gang's task (DEDUCED, log entry 81: R244 has a member stand for its gang, and
R270 is silent). -/
def holeRef (s : State) (h : Nat) (fill : Bool) : Except Trap (Nat × Nat) :=
  let w := holeOf s s.cur h
  let k := phKind w
  if s.t.hdr.holes ≤ h then .error { code := cResource }
  else if !phV w || (fill && k ≠ 0 && k ≠ 3) || (!fill && k = 3) then .error { code := cPigeon }
  else if k ≠ 3 then .ok (s.cur, h)
  else
    match windowTask s (clusterCore s (phPeer w)) with
    | none => .error { code := cWindow }
    | some lead =>
      let p := holeOf s lead (phPhandle w)
      if phV p && phKind p = 2 && leadOf s (clusterCore s (phPeer p)) = s.cur then .ok (lead, phPhandle w)
      else .error { code := cPigeon }

/-- The handle whose counts a use of handle `h` meets: the peer's for a window-out handle that reaches one (R270). -/
def holePlace (s : State) (h : Nat) : Nat × Nat :=
  if phKind (holeOf s s.cur h) = 3 then (match holeRef s h true with | .ok x => x | .error _ => (s.cur, h)) else (s.cur, h)

/-- Whether a use of handle `h` may meet the counts that a PHA of bundle `i` on handle `k` advances (R280): one handle, one peer's handle,
or a handle `k` that a queued write still configures. -/
def holesMeet (s : State) (h k i : Nat) : Bool :=
  k = h || holePlace s k = holePlace s h || s.t.slots.cfg.any fun w => w.hole && w.num = k && w.bound ≤ i

/-- Whether a use that fills or frees `n` slots of its ring has to wait (R100, R280). -/
def holeBlocks (s : State) (h : Nat) (fill : Bool) (n : Nat) : Bool :=
  match holeRef s h fill with
  | .error _ => false
  | .ok (core, h) =>
    let w := holeOf s core h
    if fill then phCount w < phFilled w + n else phFilled w < n

/-- Whether a fill advance on a peer's handle waits for the window beats in flight (R271). -/
def beatsBlock (s : State) (h : Nat) (fill : Bool) : Bool :=
  fill && phKind (holeOf s s.cur h) = 3 && !s.t.slots.beats.isEmpty

end Sys2Proof.Machine
end

