-- ==== Sys2Proof/Machine/Operands.lean ====
section
/-! DEFINITION. The operand forms of the V slots (R23, R24, R54, R159, R160), how their results are written (R32, R34), and the
vote between an operation and its duplicate (R101, R489). -/

namespace Sys2Proof.Machine

/-! ## Elements -/

/-- Element `k` of `e` bytes. -/
def elemAt (v : VReg) (e k : Nat) : Nat := v.toNat / 2 ^ (8 * e * k) % 2 ^ (8 * e)

/-- Whether element `k` of `e` bytes is active under a predicate (R23). -/
def activeAt (p : VReg) (e k : Nat) : Bool := p.getLsbD (k * e)

/-- Values of `bits` bits placed at their positions. -/
def packAt (bits : Nat) (xs : List (Nat × Nat)) : VReg :=
  BitVec.ofNat 4096 (xs.foldl (fun a x => a + x.2 % 2 ^ bits * 2 ^ (bits * x.1)) 0)

/-- All bits of the listed positions. -/
def maskAt (bits : Nat) (ks : List Nat) : VReg := packAt bits (ks.map fun k => (k, 2 ^ bits - 1))

/-- A vector register of a V slot's own file as the operation reads it. -/
def vsrc (s : State) (v n : Nat) (x : BCtx) : VReg := readAt s (.vec v n) x.idx

/-- A predicate of a V slot's own file as the operation reads it. -/
def psrc (s : State) (v n : Nat) (x : BCtx) : VReg := readAt s (.pred v n) x.idx

/-- The bytes a V operation of this width covers (R24, R40). -/
def vlen (s : State) (f : VF) : Nat := vbytes s.t.g f.width

/-- Whether an integer type is signed (R55). -/
def isSigned (ty : Nat) : Bool := ty < 4

/-- An immediate second source of integer type `ty` (R160). -/
def immInt (ty imm : Nat) : Nat := if isSigned ty then wrapN (8 * esizeI ty) (sext 16 imm) else imm % 2 ^ (8 * esizeI ty)

/-- An immediate second source of floating type `ty` (R160). -/
def immFloat (ty imm : Nat) : Nat := if ty = 4 then imm * 2 ^ 16 else imm

/-- The second source of element `k`, for element size `e` and the widened immediate `imm` (R160). -/
def second (s : State) (v : Nat) (f : VF) (x : BCtx) (e imm k : Nat) : Nat :=
  match f.form with
  | 0 => elemAt (vsrc s v f.vb x) e k
  | 1 => imm
  | _ => x.scal.toNat % 2 ^ (8 * e)

/-! ## Rounding (R117) -/

def fmtSat (s : State) (x : BCtx) : Bool := fmtAt s x.idx / 2 ^ 13 % 2 = 1
def fmtFtz (s : State) (x : BCtx) : Bool := fmtAt s x.idx / 2 ^ 10 % 2 = 1
def fmtDaz (s : State) (x : BCtx) : Bool := fmtAt s x.idx / 2 ^ 9 % 2 = 1

/-- The rounding mode of a V operation: 0 to 3 as in FMT, 4 for NS. -/
def vmode (s : State) (f : VF) (x : BCtx) : Nat :=
  match f.rnd with
  | 0 => fmtAt s x.idx / 2 ^ 11 % 4
  | 1 => 0
  | 2 => 1
  | _ => 4

/-! ## Duplicates (R57, R101, R158, R489) -/

def isChk (i : Instr) : Bool := match i with | .chk => true | _ => false

/-- Whether the C slot has still to perform CHK at index `j`. -/
def chkPending (s : State) (j : Nat) : Bool := (queueOf s 0).any fun e => e.idx = j && e.ops.any isChk

/-- The unit that computes the byte `b` of an operation of `len` bytes of V slot `v`, and its duplicate's (R156, R158). -/
def unitOf (g v len b : Nat) : Nat × Nat :=
  let u := if v = 0 then b / 32 else 4 * g - len / 32 + b / 32
  (u, (u + 2 * g) % (4 * g))

/-- The black-box record of a vote (R498): the wrong half by its number within its die, below 144, or 0xFF where all three differ (DESIGN
CHOICE, log entry 71). -/
def voteRecord (s : State) (idx half : Nat) : State :=
  bbRecord s (dieOf s.cur) 11 s.cur s.t.me.tag (leBytes 8 idx ++ leBytes 1 half)

/-- The wrong unit of a vote is recorded and its half charged (R491). -/
def blame (s : State) (idx u : Nat) : State := suspectUnit (voteRecord s idx (((unitHalf s u).getD 0) % 144)) u 16

/-- The vote on one element (R489): what is delivered, and the state after it. -/
def vote (s : State) (v idx u twin o t h : Nat) : Nat × State :=
  if o = t then (o, s)
  else if o = h then (o, blame s idx twin)
  else if t = h then
    if chkPending s idx then (h, blame s idx u)
    else (o, onT (blame s idx u) fun k => { k with mismatch := true })
  else
    let s := voteRecord s idx 0xFF
    if chkPending s idx then (o, onSlots s fun q => { q with votes := (idx, v) :: q.votes.filter (· ≠ (idx, v)) })
    else (o, onT s fun k => { k with mismatch := true })

/-- The next upset of a duplicated operation, and the ones that remain. -/
def takeDup (us : List Upset) : List (Nat × Nat × Nat × Nat) × List Upset :=
  match us with
  | [] => ([], [])
  | .dup es :: rest => (es, rest)
  | u :: rest => let (r, rest) := takeDup rest; (r, u :: rest)

/-- The vote on element `d.1` of an operation, whose three executions are changed by the xors of `d` (R489). -/
def voteElem (v : Nat) (x : BCtx) (bits e len : Nat) (r : List (Nat × Nat) × State) (d : Nat × Nat × Nat × Nat) : List (Nat × Nat) × State :=
  match r.1.find? fun y => y.1 = d.1 with
  | none => r
  | some (_, y) =>
    let (u, twin) := unitOf r.2.t.g v len (e * d.1)
    let at' := fun z => Nat.xor y z % 2 ^ bits
    let (y', s) := vote r.2 v x.idx u twin (at' d.2.1) (at' d.2.2.1) (at' d.2.2.2)
    (r.1.map fun z => if z.1 = d.1 then (z.1, y') else z, s)

/-- The elements an operation delivers: its own, or after a vote where its duplicate differed. `bits` is the width of an
element at its destination, `e` its bytes in the operation, and `len` the bytes of the operation. Each differing element is decided
(R489). -/
def afterVote (s : State) (v : Nat) (x : BCtx) (bits e len : Nat) (xs : List (Nat × Nat)) : List (Nat × Nat) × State :=
  if !(headOf s (2 + v)).dup then (xs, s)
  else
    match takeDup s.upsets with
    | ([], _) => (xs, s)
    | (es, rest) => es.foldl (voteElem v x bits e len) (xs, { s with upsets := rest })

/-! ## Results -/

/-- A result of V slot `v` becomes visible `lat` indices later; a write of xp0 or yp0 is discarded. -/
def vput (s : State) (v : Nat) (x : BCtx) (lat : Nat) (d : Dest) (mask val : VReg) : State :=
  if mask = 0 || d = .pred v 0 then s
  else addLatch s { dest := d, mask, tgt := x.idx + lat, cls := 1, iss := x.idx, val }

/-- A V operation has run: it is counted (R404) and leaves the head of its queue. -/
def vnext (s : State) (v : Nat) : Res := slotNext (onT s fun t => { t with vops := t.vops + 1 }) (2 + v)

/-- What an element-wise operation gives at one element: the bits, the flags, and the residues after it. -/
abbrev Elem := Nat × Nat × Tbl (BitVec 32)

/-- Compute the active elements in ascending order (R129, R159): positions with their values, the flags and the residues. -/
def vloop (act : Nat → Bool) (zero : Bool) (el : Nat → Tbl (BitVec 32) → Elem) (ks : List Nat) (r : Tbl (BitVec 32)) :
    List (Nat × Nat) × Nat × Tbl (BitVec 32) :=
  match ks with
  | [] => ([], 0, r)
  | k :: rest =>
    if act k then
      let (y, fl, r) := el k r
      let (ys, fs, r) := vloop act zero el rest r
      ((k, y) :: ys, fl ||| fs, r)
    else
      let (ys, fs, r) := vloop act zero el rest r
      (if zero then (k, 0) :: ys else ys, fs, r)

/-- Deliver elements of `e` bytes to vd, with their flags; bytes from `tail` on are written as zero. -/
def vout (s : State) (v : Nat) (f : VF) (x : BCtx) (lat e tail : Nat) (xs : List (Nat × Nat)) (fl : Nat) : State :=
  let (xs, s) := afterVote s v x (8 * e) e (vlen s f) xs
  let rest := (List.range (vlen s f)).filter fun k => tail ≤ k
  vput (raiseFlags s fl) v x lat (.vec v f.vd) (maskAt (8 * e) (xs.map (·.1)) ||| maskAt 8 rest) (packAt (8 * e) xs)

/-- An operation with `n` destination elements of `e` bytes in vd (R159), and zeros from byte `tail` on. -/
def velemsTail (s : State) (v : Nat) (f : VF) (x : BCtx) (lat e n tail : Nat) (el : Nat → Tbl (BitVec 32) → Elem) : State :=
  let p := psrc s v f.pred x
  let (xs, fl, r) := vloop (activeAt p e) f.zero el (List.range n) s.t.rsd
  vout { s with t := { s.t with rsd := r } } v f x lat e tail xs fl

/-- An operation with `n` destination elements of `e` bytes in vd (R159). -/
def velems (s : State) (v : Nat) (f : VF) (x : BCtx) (lat e n : Nat) (el : Nat → Tbl (BitVec 32) → Elem) : State :=
  velemsTail s v f x lat e n (vlen s f) el

/-- An operation that writes the predicate vd, `e` bits an element (R165, R171). -/
def vpreds (s : State) (v : Nat) (f : VF) (x : BCtx) (lat e n : Nat) (el : Nat → Bool × Nat) : State :=
  let p := psrc s v f.pred x
  let (xs, fl, _) := vloop (activeAt p e) f.zero (fun k r => (if (el k).1 then 2 ^ e - 1 else 0, (el k).2, r)) (List.range n) []
  let (xs, s) := afterVote s v x e e (vlen s f) xs
  vput (raiseFlags s fl) v x lat (.pred v f.vd) (maskAt e (xs.map (·.1))) (packAt e xs)

/-- A calculation without residues. -/
def plain (el : Nat → Nat × Nat) : Nat → Tbl (BitVec 32) → Elem := fun k r => ((el k).1, (el k).2, r)

/-- A calculation without residues or flags. -/
def pure1 (el : Nat → Nat) : Nat → Tbl (BitVec 32) → Elem := fun k r => (el k, 0, r)

end Sys2Proof.Machine
end

