-- ==== Sys2Proof/Machine/Interlock.lean ====
section
/-! DEFINITION. The scalar registers that a stream word reads and writes (R22): what the interlock with the X slot (R33, R103) and
the consumption of poison (R483) ask. -/

namespace Sys2Proof.Machine

/-- The scalar registers a stream word reads, and those it writes. -/
def sregs (i : Instr) : List Nat × List Nat :=
  match i with
  | .add rd ra rb => ([ra, rb], [rd])
  | .sub rd ra rb => ([ra, rb], [rd])
  | .and rd ra rb => ([ra, rb], [rd])
  | .or rd ra rb => ([ra, rb], [rd])
  | .xor rd ra rb => ([ra, rb], [rd])
  | .andn rd ra rb => ([ra, rb], [rd])
  | .shl rd ra rb => ([ra, rb], [rd])
  | .shr rd ra rb => ([ra, rb], [rd])
  | .sar rd ra rb => ([ra, rb], [rd])
  | .rol rd ra rb => ([ra, rb], [rd])
  | .mul rd ra rb => ([ra, rb], [rd])
  | .mulh rd ra rb => ([ra, rb], [rd])
  | .mulhn rd ra rb => ([ra, rb], [rd])
  | .div rd ra rb => ([ra, rb], [rd])
  | .divn rd ra rb => ([ra, rb], [rd])
  | .rem rd ra rb => ([ra, rb], [rd])
  | .remn rd ra rb => ([ra, rb], [rd])
  | .min rd ra rb => ([ra, rb], [rd])
  | .max rd ra rb => ([ra, rb], [rd])
  | .minn rd ra rb => ([ra, rb], [rd])
  | .maxn rd ra rb => ([ra, rb], [rd])
  | .clz rd ra => ([ra], [rd])
  | .ctz rd ra => ([ra], [rd])
  | .popc rd ra => ([ra], [rd])
  | .bswap rd ra => ([ra], [rd])
  | .bext rd ra rb => ([ra, rb], [rd])
  | .bins rd ra rb => ([rd, ra, rb], [rd])
  | .sel _ rd ra rb => ([ra, rb], [rd])
  | .cmp _ rd ra rb => ([ra, rb], [rd])
  | .cmpq _ _ ra rb => ([ra, rb], [])
  | .sewma rd ra rb => ([rd, ra, rb], [rd])
  | .fadd _ _ rd ra rb => ([ra, rb], [rd])
  | .fsub _ _ rd ra rb => ([ra, rb], [rd])
  | .fmul _ _ rd ra rb => ([ra, rb], [rd])
  | .ffma _ _ rd ra rb => ([rd, ra, rb], [rd])
  | .fdiv _ _ rd ra rb => ([ra, rb], [rd])
  | .fsqrt _ _ rd ra => ([ra], [rd])
  | .fmin _ rd ra rb => ([ra, rb], [rd])
  | .fmax _ rd ra rb => ([ra, rb], [rd])
  | .fcmpq _ _ _ ra rb => ([ra, rb], [])
  | .fcvt _ _ rd ra => ([ra], [rd])
  | .fclass _ rd ra => ([ra], [rd])
  | .frcp _ _ rd ra => ([ra], [rd])
  | .addi rd ra _ => ([ra], [rd])
  | .andi rd ra _ => ([ra], [rd])
  | .ori rd ra _ => ([ra], [rd])
  | .xori rd ra _ => ([ra], [rd])
  | .shli rd ra _ => ([ra], [rd])
  | .shri rd ra _ => ([ra], [rd])
  | .sari rd ra _ => ([ra], [rd])
  | .cmpqi _ _ ra _ => ([ra], [])
  | .lui rd _ => ([], [rd])
  | .addpc rd _ => ([], [rd])
  | .pbrxLoad _ ra => ([ra], [])
  | .pbrxRead rd _ => ([], [rd])
  | .cwtld ra rb => ([ra, rb], [])
  | .cwtclr ra => ([ra], [])
  | .loop _ ra _ => ([ra], [])
  | .ld rd ra _ _ _ _ => ([ra], [rd])
  | .st rd ra _ _ _ _ => ([rd, ra], [])
  | .ldlast rd ra _ _ => ([ra], [rd])
  | .lda rd ra _ _ => ([ra], [rd])
  | .stl rd ra _ _ => ([rd, ra], [])
  | .aadd _ _ rd ra rb => ([ra, rb], [rd])
  | .amin _ _ rd ra rb => ([ra, rb], [rd])
  | .amax _ _ rd ra rb => ([ra, rb], [rd])
  | .aminn _ _ rd ra rb => ([ra, rb], [rd])
  | .amaxn _ _ rd ra rb => ([ra, rb], [rd])
  | .aand _ _ rd ra rb => ([ra, rb], [rd])
  | .aor _ _ rd ra rb => ([ra, rb], [rd])
  | .axor _ _ rd ra rb => ([ra, rb], [rd])
  | .aswap _ _ rd ra rb => ([ra, rb], [rd])
  | .acas _ _ rd ra rb => ([rd, ra, rb], [rd])
  | .afadd _ _ rd ra rb => ([ra, rb], [rd])
  | .clean ra rb => ([ra, rb], [])
  | .inval ra rb => ([ra, rb], [])
  | .phcfg _ ra _ => ([ra], [])
  | .phqry rd _ _ => ([], [rd])
  | .eset _ _ ra rb => ([ra, rb], [])
  | .egoCopy rd => ([], [rd])
  | .egoGather rd => ([], [rd])
  | .egoScatter rd => ([], [rd])
  | .egoTrack rd => ([], [rd])
  | .egoTraj rd => ([], [rd])
  | .egoSink rd => ([], [rd])
  | .egoNmred rd => ([], [rd])
  | .egoPort rd => ([], [rd])
  | .estat rd rb => ([rb], [rd])
  | .ewait rd rb => ([rb], [rd])
  | .ecancel rd rb => ([rb], [rd])
  | .mshapeLoad _ ra _ => ([ra], [])
  | .mshapeWord _ ra _ => ([ra], [])
  | .mshq rd _ _ => ([], [rd])
  | .mgeo rd _ => ([], [rd])
  | .maccsave _ ra _ => ([ra], [])
  | .maccload _ ra _ => ([ra], [])
  | .mstat rd ra _ => ([ra], [rd])
  | .mstatReset rd => ([], [rd])
  | .cntinc rd ra rb => ([ra, rb], [rd])
  | .cntwait rd ra rb => ([ra, rb], [rd])
  | .cntrd rd ra => ([ra], [rd])
  | .cntset ra rb => ([ra, rb], [])
  | .ocset rd ra rb => ([ra, rb], [rd])
  | .topoq rd ra _ => ([ra], [rd])
  | .fwset ra rb => ([ra, rb], [])
  | .fwq rd ra _ => ([ra], [rd])
  | .vpubStage ra rb => ([ra, rb], [])
  | .vpub rd ra => ([ra], [rd])
  | .vpubF rd ra rb => ([ra, rb], [rd])
  | .vadoptSeq rd ra => ([ra], [rd])
  | .vadoptStep rd ra => ([ra], [rd])
  | .vpin rd ra rb => ([ra, rb], [rd])
  | .vunpin ra => ([ra], [])
  | .vqry rd ra _ => ([ra], [rd])
  | .tspawn rd ra => ([ra], [rd])
  | .twait rd ra => ([ra], [rd])
  | .tkillKill ra => ([ra], [])
  | .tkillHalt ra => ([ra], [])
  | .tself rd _ => ([], [rd])
  | .dbar rd ra => ([ra], [rd])
  | .djoin rd ra => ([ra], [rd])
  | .djoinNew rd ra rb => ([ra, rb], [rd])
  | .dleave rd ra => ([ra], [rd])
  | .devict rd ra rb => ([ra, rb], [rd])
  | .dphase rd ra _ => ([ra], [rd])
  | .spec _ ra rb => ([ra, rb], [])
  | .scommit rd => ([], [rd])
  | .sstat rd _ => ([], [rd])
  | .mfsr r _ => ([], [r])
  | .mtsr r _ => ([r], [])
  | .mtsrFmt rs => ([rs], [])
  | .mtsrTimer rs => ([rs], [])
  | .mtsrTrappc rs => ([rs], [])
  | .repartition rs _ => ([rs], [])
  | .preempt rs => ([rs], [])
  | .vsealdropClear rs => ([rs], [])
  | .bootok rs => ([rs], [])
  | .resumetask rs => ([rs], [])
  | .tlbinvPage ra rb => ([ra, rb], [])
  | .tlbinvAsid ra rb => ([ra % 64, rb], [])
  | .tnoise rd => ([], [rd])
  | .bind ra rb => ([ra, rb], [])
  | .wfe ra => ([ra], [])
  | .chkq ra rb => ([ra, rb], [])
  | .quarq rd ra _ => ([ra], [rd])
  | .quarqQuarantine rd ra => ([ra], [rd])
  | .quarqClear rd ra => ([ra], [rd])
  | _ => ([], [])

end Sys2Proof.Machine
end

