-- ==== Sys2Proof/Machine/Slots.lean ====
section
/-! DEFINITION. Dispatch of an issue parcel (R62, R64, R65, R79) and when a slot may execute the operation at the head of its
queue (R31, R34, R36, R101, R192, R206, R213). -/

namespace Sys2Proof.Machine

/-! ## What the operations of a queue entry read and write -/

/-- x and y registers under the numbering of the X slot (R61). -/
def vecXY (n : Nat) : Dest := .vec (n / 32) (n % 32)
def predXY (n : Nat) : Dest := .pred (n / 32) (n % 32)

/-- The latency of a V operation (R33). -/
def vlat (code : Nat) : Nat :=
  if code = 0x02 || code = 0x03 || code = 0x04 then 3
  else if code < 0x20 then 1
  else if code = 0x2A || code = 0x2B then 14
  else if 0x2C ≤ code && code ≤ 0x2F then 6
  else if code < 0x50 then 4
  else if code < 0x58 then 2
  else if code < 0x70 then 6
  else if code < 0x80 then 1
  else 3

/-- The latency of an L load (R33). -/
def llat (code : Nat) : Nat := if code = 6 then 24 else 6

/-- The exposed destinations a V operation reads. `.ctr 0` stands for the counters of every lane. -/
def vReads (v code : Nat) (f : VF) : List Dest :=
  let r := fun n => Dest.vec v n
  let p := fun n => Dest.pred v n
  p f.pred ::
    (if code = 0x11 then [p f.vc, r f.va, r f.vb]
     else if code = 0x55 then [r f.vd, r f.va]
     else if 0x70 ≤ code && code < 0x78 then [p f.va, p f.vb]
     else if 0x80 ≤ code && code < 0x84 then [r f.va, .key, .stride, .ctr 0]
     else [r f.va, r f.vb, r f.vc])

/-- The exposed destinations a V operation writes, with their latency. -/
def vWrites (v code : Nat) (f : VF) : List (Dest × Nat) :=
  if code = 0x10 || code = 0x30 || (0x70 ≤ code && code < 0x78) then [(.pred v f.vd, vlat code)]
  else if code = 0x80 then [(.vec v f.vd, 3), (.ctr 0, 3)]
  else if code = 0x81 || code = 0x82 then [(.key, 3), (.stride, 3), (.ctr 0, 3)]
  else if 0x88 ≤ code then []
  else [(.vec v f.vd, vlat code)]

/-- The exposed destinations an L operation reads. -/
def lReads (code : Nat) (f : LF) : List Dest :=
  [.addr f.areg, .pred f.file f.pred, .vec f.file f.vreg] ++ (if code = 5 then [.vec f.file ((f.vreg + 1) % 32)] else [])

/-- The exposed destinations an L operation writes. -/
def lWrites (code : Nat) (f : LF) : List (Dest × Nat) :=
  (if code = 1 || code = 3 || code = 4 || code = 6 || code = 8 then [(.vec f.file f.vreg, llat code)] else []) ++
  (if code = 3 then [(.pred f.file f.pred, 6)] else []) ++
  (if code = 10 || code = 11 || (f.mode = 1 && code < 4) then [(.addr f.areg, 1)] else [])

/-- The exposed destinations an X operation reads. -/
def xReads (code : Nat) (f : XF) : List Dest :=
  match code with
  | 1 | 2 | 4 => [vecXY f.b]
  | 5 => [.addr f.b]
  | 6 => [predXY f.b]
  | _ => []

/-- The exposed destinations an X operation writes. -/
def xWrites (code : Nat) (f : XF) : List (Dest × Nat) :=
  match code with
  | 1 | 3 | 5 => [(vecXY f.a, 2)]
  | 4 => [(.addr f.a, 2)]
  | _ => []

def entryReads (k : Nat) (e : QEntry) : List Dest :=
  match k with
  | 1 => lReads e.code e.lf
  | 2 => vReads 0 e.code e.vf
  | 3 => vReads 1 e.code e.vf
  | 5 => xReads e.code e.xf
  | _ => []

def entryWrites (k : Nat) (e : QEntry) : List (Dest × Nat) :=
  match k with
  | 1 => lWrites e.code e.lf
  | 2 => vWrites 0 e.code e.vf
  | 3 => vWrites 1 e.code e.vf
  | 5 => xWrites e.code e.xf
  | _ => []

/-! ## Waits -/

/-- The entries of slot `k` that still have an operation to perform. -/
def pending (s : State) (k : Nat) : List QEntry := (queueOf s k).filter fun e => !e.ops.isEmpty

/-- An operand is due from an earlier bundle of another slot that has not executed (R31, R32). -/
def operandDue (s : State) (k : Nat) (e : QEntry) : Bool :=
  (List.range 6).any fun i =>
    i ≠ k && (pending s i).any fun p =>
      p.idx < e.idx && (entryWrites i p).any fun w => p.idx + w.2 ≤ e.idx && (entryReads k e).contains w.1

/-- The result an operand reads waits at CHK for the compare or the vote of its bundle (R101). -/
def operandAtChk (s : State) (k : Nat) (e : QEntry) : Bool :=
  s.t.slots.latches.any fun l =>
    l.cls = 1 && l.tgt ≤ e.idx && (entryReads k e).contains l.dest &&
      (queueOf s 0).any fun c => c.idx = l.iss && c.cf.dup && c.ops.any isChk

/-- Operations that read FMT wait for the FMTW writes in effect at their index (R29). -/
def fmtDue (s : State) (k : Nat) (e : QEntry) : Bool :=
  (if k = 2 || k = 3 then (0x20 ≤ e.code && e.code < 0x50) || (0x60 ≤ e.code && e.code < 0x70) || 0x90 ≤ e.code
   else k = 4 && (e.code = 1 || e.code = 2 || e.code = 4)) && fmtPending s e.idx

def isLStore (code : Nat) : Bool := code == 2 || code == 5 || code == 9
def isLLoad (code : Nat) : Bool := code == 1 || code == 3 || code == 4 || code == 8
/-- M operations that access the scratchpad. -/
def isMAccess (code : Nat) : Bool := code == 1 || code == 2 || code == 4
/-- M operations that read the scratchpad. -/
def isMRead (code : Nat) : Bool := code == 1 || code == 2
def usesHole (code : Nat) : Bool := code == 8 || code == 9

/-- The L slot's waits on the other slots: VCHK (R192), the scratchpad order with M (R206), the reads that a free advance follows
(R271), and the handle it uses (R35, R271). -/
def lWaits (s : State) (e : QEntry) : Bool :=
  ((isLStore e.code || e.code == 7) &&
    ([2, 3].any fun k => (pending s k).any fun p => p.code = 0x88 && p.idx < e.idx)) ||
  (isLStore e.code && (pending s 4).any fun p => isMAccess p.code && p.idx ≤ e.idx) ||
  (isLLoad e.code && (pending s 4).any fun p => p.code = 4 && p.idx < e.idx) ||
  (e.code = 8 && e.lf.mode = 1 && (pending s 4).any fun p => isMRead p.code && p.idx < e.idx) ||
  (usesHole e.code &&
    ((s.t.slots.cfg.any fun w => w.hole && w.num = e.lf.hole && w.bound ≤ e.idx) ||
     ((pending s 0).any fun p => p.idx < e.idx && (p.ops.any fun i => i == .pha) && holesMeet s e.lf.hole p.cf.hole p.idx) ||
     holeBlocks s e.lf.hole (e.code = 9) (e.lf.areg + 1)))

/-- The accumulators an entry of slot `k` reads or writes; MWL and MSWAP those that hold an open window, which they check and may
correct (R213, R215). -/
def accsOf (s : State) (k : Nat) (e : QEntry) : List Nat :=
  if k = 4 then
    (if e.code = 1 || e.code = 3 then s.t.mat.win.map (·.1) else if e.code = 2 || 4 ≤ e.code then [e.mf.acc] else [])
  else if (k = 2 || k = 3) && 0x90 ≤ e.code then [e.vf.vd % 4]
  else []

/-- Whether two uses may meet one accumulator: any two may where a region maps them to shadows (R422). -/
def sameAcc (s : State) (as bs : List Nat) : Bool :=
  !as.isEmpty && !bs.isEmpty && (s.t.spec.isOpen || as.any bs.contains)

/-- A use of an accumulator waits for the uses that precede it: lower indices, and at one index M, V0, V1 (R213). -/
def accDue (s : State) (k : Nat) (e : QEntry) : Bool :=
  [4, 2, 3].any fun i =>
    i ≠ k && (pending s i).any fun p =>
      sameAcc s (accsOf s i p) (accsOf s k e) && (p.idx < e.idx || (p.idx = e.idx && (i = 4 || (i = 2 && k = 3))))

/-- The M slot's waits: the scratchpad order with L (R206), the counts that a PHPOP of a lower index observes (R271), and queued writes
of its shape record (R35). -/
def mWaits (s : State) (e : QEntry) : Bool :=
  (isMAccess e.code && (pending s 1).any fun p => p.code = 8 && p.idx < e.idx) ||
  (isMAccess e.code && (pending s 1).any fun p => isLStore p.code && p.idx < e.idx) ||
  (e.code = 4 && (pending s 1).any fun p => isLLoad p.code && p.idx ≤ e.idx) ||
  s.t.slots.cfg.any (fun w => !w.hole && w.num = e.mf.shape && w.bound ≤ e.idx)

/-! ## RDV (R98) -/

/-- The RDV of the bundle at the head of the C slot has counted. -/
def rdvCounted (s : State) : Bool := match s.t.undo with | some u => u.counted | none => false

/-- The counter that the bundle's RDV uses. -/
def rdvNum (s : State) : Nat := (headOf s 0).cf.rdv.getD 0

/-- RDVCNTn of another member of a domain: as its core holds it, as its save area does, or as its package last told. -/
def rdvOf (s : State) (d : Domain) (tag n : Nat) : BitVec 32 :=
  match runningOn s tag with
  | some c => tget 0 (coreCtx s c).t.regs.rdvcnt n
  | none =>
    match getTask s tag with
    | none => tget 0 d.rdv (8 * tag + n)
    | some r =>
      if r.ran then
        match readVA s r.asid r.sup (r.save + 0x100 + 1856 + 64 + 8 * n) 4 with
        | some bs => BitVec.ofNat 32 (leNat bs)
        | none => 0
      else 0

/-- Every live partner of the rendezvous has reached this count. A domain of another ASID counts as free (R441), and has no members. -/
def rdvMet (s : State) (n : Nat) (count : BitVec 32) : Bool :=
  match myDom s s.t.regs.rdvdom with
  | none => true
  | some d => d.members.all fun m => m.2.1 = s.t.me.tag || decide ((rdvOf s d m.2.1 n - count).toNat < 2 ^ 31)

/-- The RDV at the head of the C slot has counted and waits for a partner. -/
def rdvWaits (s : State) : Bool := rdvCounted s && !rdvMet s (rdvNum s) (tget 0 s.t.regs.rdvcnt (rdvNum s))

/-- The C slot's waits: an RDV that has counted for its partners (R98), CHK for the V slots of its bundle, PHA for L and M of its index (R100, R101), and for the V slots too where
CHK follows it, which is decided with it (R37). -/
def cWaits (s : State) (e : QEntry) : Bool :=
  match e.ops with
  | .rdv :: _ => rdvWaits s
  | .chk :: _ => frontOf s 2 ≤ e.idx || frontOf s 3 ≤ e.idx
  | .pha :: _ => frontOf s 1 ≤ e.idx || frontOf s 4 ≤ e.idx ||
      (e.ops.contains .chk && (frontOf s 2 ≤ e.idx || frontOf s 3 ≤ e.idx)) ||
      s.t.slots.cfg.any (fun w => w.hole && w.num = e.cf.hole && w.bound ≤ e.idx) ||
      holeBlocks s e.cf.hole (e.cf.side = 0) 1 || beatsBlock s e.cf.hole (e.cf.side = 0)
  | _ => false

/-- Every slot has reached the index of a bundle whose hold every slot carries (R36, R95). -/
def holdMet (s : State) (e : QEntry) : Bool := !e.hold || (List.range 6).all fun i => e.idx ≤ frontOf s i

/-- The operation that slot `k` executes next, where nothing of R31 keeps it. -/
def slotReady (s : State) (k : Nat) : Option (Nat × Instr) :=
  match queueOf s k with
  | [] => none
  | e :: _ =>
    match e.ops with
    | [] => none
    | i :: _ =>
      let stalls :=
        !holdMet s e || s.c.throttled.contains k || operandDue s k e || operandAtChk s k e || fmtDue s k e || accDue s k e ||
        (k = 1 && lWaits s e) || (k = 4 && mWaits s e) || (k = 0 && cWaits s e)
      if stalls then none else some (e.idx, i)

/-- The ready operation of the lowest index, and of one index the first of C, L, V0, V1, M, X. -/
def firstReady (s : State) : Option (Nat × Nat × Instr) :=
  (List.range 6).foldl
    (fun b k =>
      match slotReady s k with
      | none => b
      | some (j, i) =>
        match b with
        | none => some (k, j, i)
        | some (_, j', _) => if j < j' then some (k, j, i) else b)
    none

/-! ## Dispatch -/

/-- A register field under the bias (R62). -/
def biased (on : Bool) (m bias n : Nat) : Nat := if on then (n + bias) % m else n

/-- A V slot's fields under the bias: those that name registers of its own file (R62). -/
def biasV (code bias : Nat) (f : VF) : VF :=
  match VRow.of code with
  | none => f
  | some r =>
    let on := fun k => r.bias.getD k false
    { f with
      vd := biased (on 0) 32 bias f.vd, va := biased (on 1 && !(code == 0x13 && f.form == 2) && !(code == 0x82 && f.form != 0)) 32 bias f.va,
      vb := biased (on 2 && f.form == 0) 32 bias f.vb, vc := biased (on 3) 32 bias f.vc }

def biasL (bias : Nat) (f : LF) : LF := { f with vreg := (f.vreg + bias) % 32, areg := (f.areg + bias) % 16 }

/-- The scalar registers a bundle captures (R35). -/
def captures (b : Bundle) : List Nat :=
  let ofV := fun v => match v with | VSlot.op _ f => if f.form = 2 then [f.imm % 64] else [] | _ => []
  ofV b.v0 ++ ofV b.v1 ++ (match b.x with | some (3, f) => [f.b] | _ => [])

def hasDup (b : Bundle) : Bool := b.v0 = .dup || b.v1 = .dup

/-- The queue entry of V slot `v`. -/
def vEntry (s : State) (v bias : Nat) (slot : VSlot) (e : QEntry) : QEntry :=
  match slot with
  | .op code f =>
    let f := biasV code bias f
    let x := { e.ctx with scal := if f.form = 2 then getS s (f.imm % 64) else 0 }
    { e with ctx := x, code, vf := f, ops := (Instr.ofV code v f x).toList }
  | _ => e

/-- The entries of a bundle for the six slots, or skipped ones where its predicate is false (R79). -/
def entriesOf (s : State) (entry bias : Nat) (run : Bool) (b : Bundle) : List QEntry :=
  let e : QEntry := { idx := s.t.slots.next, ctx := { idx := s.t.slots.next, pc := s.t.pc, entry } }
  if !run then List.replicate 6 e
  else
    let e := { e with hold := b.c.sync || b.c.seg || b.c.rdv.isSome, dup := hasDup b }
    [ { e with
        ops := cOps b.c, loops := if b.c.seg then s.t.loops else [],
        fmtw := b.c.fmtw.getD 0,
        cf := { rdv := b.c.rdv, side := (b.c.pha.getD (0, 0)).1, hole := (b.c.pha.getD (0, 0)).2, dup := hasDup b } },
      (match b.l with
       | some (code, f) => { e with code, lf := biasL bias f, ops := (Instr.ofL code (biasL bias f) e.ctx).toList }
       | none => e),
      vEntry s 0 bias b.v0 e,
      vEntry s 1 bias b.v1 e,
      (match b.m with | some (code, f) => { e with code, mf := f, ops := (Instr.ofM code).toList } | none => e),
      (match b.x with
       | some (code, f) =>
         { e with
           code, xf := f, ctx := { e.ctx with scal := if code = 3 then getS s f.b else 0 }, ops := (Instr.ofX code).toList }
       | none => e) ]

/-- Put the entries of a bundle in the queues and take its index (R79). -/
def pushBundle (s : State) (es : List QEntry) : State :=
  settle (onSlots s fun q =>
    { q with
      next := q.next + 1,
      queue := es.zipIdx.foldl (fun m e => tset [] m e.2 (tget [] m e.2 ++ [e.1])) q.queue })

def queueFull (s : State) : Bool := (List.range 6).any fun k => 16 ≤ (queueOf s k).length

/-- Whether the X slot has still to write a scalar register among `rs` (R33, R103). -/
def scalarDue (s : State) (rs : List Nat) : Bool :=
  (pending s 5).any fun e => (e.code = 2 || e.code = 6) && e.xf.a ≠ 0 && rs.contains e.xf.a

/-- The first poisoned granule among those a stream item or an operation reads (R483). -/
def poisonedReg (s : State) (rs : List Nat) : Option Trap :=
  match rs.find? (granulePoisoned s) with
  | some r => some { code := cSoft, i2 := 3, i3 := granuleNum r }
  | none => none

/-- The poisoned granule of the record or handle that the operation at the head of slot `k` uses (R483). -/
def slotPoison (s : State) (k : Nat) (i : Instr) : Option Trap :=
  match i with
  | .pha => poisonedReg s ((List.range 4).map (192 + 4 * (headOf s k).cf.hole + ·))
  | .phpop f _ => poisonedReg s ((List.range 4).map (192 + 4 * f.hole + ·))
  | .phpush f _ => poisonedReg s ((List.range 4).map (192 + 4 * f.hole + ·))
  | .mwl => poisonedReg s ((List.range 4).map (128 + 4 * (headOf s k).mf.shape + ·))
  | .mpush => poisonedReg s ((List.range 4).map (128 + 4 * (headOf s k).mf.shape + ·))
  | .mdrain => poisonedReg s ((List.range 4).map (128 + 4 * (headOf s k).mf.shape + ·))
  | _ => none

/-- The bundle that a CWT entry holds; none where it is not loaded. An entry that a resume has restored from an altered save area and
that R63 would not pass counts as none, so that its issue raises IllegalBundle (DESIGN CHOICE, log entry 74). -/
def bundleAt (s : State) (entry : Nat) : Option Bundle :=
  match tget none s.t.cwt entry with
  | none => none
  | some w => match decodeEntry s.t.g w.toNat with | .error _ => none | .ok b => some b

/-- Issue parcel (R79). -/
def execIssueParcel (entry bp bias : Nat) (s : State) : Res :=
  if s.c.trap then faultC s cIllegal
  else
    match bundleAt s entry with
    | none => faultC s cBundle
    | some b =>
      let rs := if getQ s bp then captures b else []
      if queueFull s || scalarDue s rs then wait s
      else
        match poisonedReg s rs with
        | some t => fault s t
        | none => .next (pastItem (pushBundle s (entriesOf s entry bias (getQ s bp) b)) 2)

/-- The C slot has performed some operation of its bundle and another of them can go on: the slot is not at a bundle boundary (R456). A
bundle whose next operation waits counts as one that has not executed, and a trap undoes its fields (DEDUCED, log entry 86). -/
def midBundle (s : State) : Bool := s.t.undo.isSome && (slotReady s 0).isSome

end Sys2Proof.Machine
end

