-- ==== Sys2Proof/Machine/Words.lean ====
section
/-! DEFINITION. What scalar words that access memory share: address registers (R257), the waits for the slots (R219, R243), and plain
reads and writes that a budget may withhold (R452). -/

namespace Sys2Proof.Machine

/-- The fields of an address register: base and scope (R257). -/
def baseField (w : Word) : Nat := fld w 55 0
def scopeField (w : Word) : Nat := fld w 58 56

/-- The effective address of base register `ra` and a displacement (R257). -/
def eaOf (s : State) (ra : Nat) (disp : Int) : Except Trap Nat :=
  let w := getS s ra
  let ea : Int := baseField w + disp
  if fld w 63 59 ≠ 0 || ea < 0 || (2 : Int) ^ 56 ≤ ea then .error { code := cAddress } else .ok ea.toNat

/-- A scalar access to the scratchpad or to M-side state waits for the L and M operations dispatched before it (R219, R243); in trap
mode the slots are held (R456), and nothing waits for them. -/
def lmBusy (s : State) : Bool := !s.c.trap && (!(pending s 1).isEmpty || !(pending s 4).isEmpty)

/-- Whether any slot has an operation to perform, outside trap mode. -/
def slotsBusy (s : State) : Bool := !s.c.trap && (List.range 6).any fun k => !(pending s k).isEmpty

/-- Whether a budget withholds an access of the task to a range, with a hint; `point` for one at the order point. -/
def withheld (s : State) (va n : Nat) (a : Acc) (hint : Nat := 1) (point : Bool := false) : Bool :=
  match myPieces s va n a with
  | .ok ps => piecesWithheld s ps hint (a ≠ .read) point
  | .error _ => false

/-- A plain read by a scalar word, from global memory or the scratchpad: its bytes, its wait, or its fault. -/
def wordRead (s : State) (spm : Bool) (a n hint : Nat) (k : List Byte → State → Res) : Res :=
  if spm then
    if lmBusy s then wait s
    else match spmRead s a n with | .error t => fault s t | .ok bs => k bs s
  else if withheld s a n .read hint then wait s
  else match plainRead s a n hint with | .error t => fault s t | .ok (bs, s) => k bs s

/-- A plain write by a scalar word. -/
def wordWrite (s : State) (spm : Bool) (a : Nat) (bs : List Byte) (hint : Nat) (k : State → Res) : Res :=
  if spm then
    if lmBusy s then wait s
    else match spmWrite s a bs with | .error t => fault s t | .ok s => k s
  else if withheld s a bs.length .write hint then wait s
  else match plainWrite s a bs hint with | .error t => fault s t | .ok s => k s

end Sys2Proof.Machine
end

