-- ==== Sys2Proof/Machine/Spawn.lean ====
section
/-! DEFINITION. The launch of a task by TSPAWN or a letterbox: the checks of an envelope, its tag, and its place in the sorting frame
(R378, R379, R384, R385, R390, R440, R474, R475). -/

namespace Sys2Proof.Machine

/-- A field of an envelope, by its first byte and length. -/
def envN (bs : List Byte) (off n : Nat) : Nat := leNat ((bs.drop off).take n)

/-- STATE is not NEW or a field that the device owns is nonzero (R378, R390 step 1). -/
def envNotNew (bs : List Byte) : Bool :=
  envN bs 24 8 ≠ 0 || envN bs 48 4 % 2 ^ 16 ≠ 0 || envN bs 52 4 % 2 ^ 20 ≠ 0 || envN bs 57 1 / 4 % 16 ≠ 0 ||
  envN bs 58 2 % 2 ^ 9 ≠ 0 || envN bs 60 4 % 2 ^ 20 ≠ 0

/-- A reserved field is nonzero, or GW, TINT or ADOPTPOL has no meaning (R378, R390 step 2). -/
def envBad (bs : List Byte) : Bool :=
  envN bs 7 1 ≠ 0 || envN bs 48 4 / 2 ^ 16 ≠ 0 || envN bs 52 4 / 2 ^ 30 ≠ 0 || envN bs 57 1 / 64 ≠ 0 ||
  envN bs 58 2 / 2 ^ 9 ≠ 0 || envN bs 60 4 / 2 ^ 20 ≠ 0 || envN bs 56 1 / 64 = 3 || envN bs 56 1 % 4 = 3 ||
  envN bs 57 1 % 4 = 3

/-- The task an envelope describes. -/
def envTask (bs : List Byte) (va asid : Nat) : TaskRec :=
  let b := envN bs 56 1
  { env := va, asid, pc := BitVec.ofNat 64 (envN bs 0 8), hdr := envN bs 8 8, save := envN bs 16 8, inE := envN bs 32 8,
    outE := envN bs 40 8, dom := envN bs 52 4 / 2 ^ 20 % 1024, gw := b / 64, prio := b / 16 % 4, cls := b / 4 % 4, tint := b % 4,
    adopt := envN bs 57 1 % 4 }

/-- The incoming block of a letterbox's envelope can be read and keeps R384. -/
def edgesOk (s : State) (r : TaskRec) : Bool :=
  r.inE % 64 = 0 && (match readEdges s r r.inE with | some es => !beyondCounters s r es | none => false)

/-- The word of an edge breaks R384. -/
def edgeWordBad (w : Nat) : Bool := w / 2 ^ 15 % 2 ^ 17 ≠ 0 || 4 < w / 2 ^ 12 % 8

/-- The regions in the bytes of an edge. -/
def regionsOf (bs : List Byte) (k : Nat) : List (Nat × Nat) :=
  (List.range k).map fun i => (leNat ((bs.drop (16 * i)).take 8), leNat ((bs.drop (16 * i + 8)).take 8))

/-- The edges of the words `ws`, of which the first is edge `e`: their regions are loaded. -/
def loadRegions (s : State) (r : TaskRec) (e : Nat) (ws : List Nat) : Except Trap (List Edge × State) :=
  match ws with
  | [] => .ok ([], s)
  | w :: rest =>
    let k := w / 2 ^ 12 % 8
    match plainReadAs s r.asid r.sup (r.inE + 64 + 64 * e) (16 * k) 1 with
    | .error t => .error t
    | .ok (bs, s) =>
      match loadRegions s r (e + 1) rest with
      | .error t => .error t
      | .ok (es, s) => .ok ({ cnt := w % 2 ^ 12, thr := w / 2 ^ 32, regions := regionsOf bs k } :: es, s)

/-- The incoming block that TSPAWN checks and examines, read as plain loads of the spawner under the new task's ASID (R384, R385, R440): its
edges and the state after the loads, or the fault that they or the block make. A counter at or beyond COUNTERS of the new task's header makes OperandRange (R384,
R390; DEDUCED, log entry 75). -/
def loadEdges (s : State) (r : TaskRec) : Except Trap (List Edge × State) :=
  if r.inE = 0 then .ok ([], s)
  else if r.inE % 64 ≠ 0 then .error { code := cOperand }
  else
    match plainReadAs s r.asid r.sup r.inE 8 1 with
    | .error t => .error t
    | .ok (head, s) =>
      if 4 < leNat head then .error { code := cOperand }
      else
        match plainReadAs s r.asid r.sup (r.inE + 8) (8 * leNat head) 1 with
        | .error t => .error t
        | .ok (bs, s) =>
          let ws := (List.range (leNat head)).map fun e => leNat ((bs.drop (8 * e)).take 8)
          if ws.any edgeWordBad then .error { code := cOperand }
          else
            match loadRegions s r 0 ws with
            | .error t => .error t
            | .ok (es, s) =>
              if beyondCounters s r es || es.any fun e => e.regions.any fun x => 2 ^ 40 < x.2 then .error { code := cOperand }
              else .ok (es, s)

/-- The next tag after `t` that no live task holds (R379). `fuel` exceeds the number of live tasks. -/
def freeTag (s : State) (fuel t : Nat) : Nat :=
  match fuel with
  | 0 => t
  | fuel + 1 =>
    let n := if (t + 1) % 2 ^ 20 = 0 then 1 else (t + 1) % 2 ^ 20
    if (getTask s n).isSome then freeTag s fuel n else n

def nextTag (s : State) : Nat := freeTag s (s.pkg.tasks.length + 1) s.pkg.lastTag

/-- Launch a checked task: TAG, PARENT and STATE are written to its envelope by `wr`, which takes the offset, and it enters the
frame, which examines its incoming edges `es` (R385, R390, R475). -/
def launch (s : State) (r : TaskRec) (es : List Edge) (wr : State → Nat → List Byte → State) : State :=
  let tag := nextTag s
  let s := onPkg s fun p => { p with lastTag := tag }
  let r := { r with tag, st := if r.inE = 0 then 1 else 4 }
  let s := wr s 52 (leBytes 4 (tag + r.dom * 2 ^ 20))
  let s := wr s 60 (leBytes 4 r.parent)
  let s := wr s 48 (leBytes 4 (statusWord r))
  if r.inE = 0 then enqueue s r
  else
    let s := setTask s tag (some r)
    if edgesHold s r es then makeReady wrPlain s r else s

/-! ## Letterboxes (R474, R475) -/

def lboxCount (a : Word) : Nat := 16 * 2 ^ (fld a 59 56)
def lboxBase (a : Word) : Nat := fld a 39 0 * 2 ^ 16

/-- A rejected slot is counted in LBERR; the first one is named. -/
def lboxReject (s : State) (k slot : Nat) : State :=
  onPkg s fun p =>
    let b := tget {} p.boxes k
    { p with boxes := tset {} p.boxes k { b with firstBad := if b.rejected = 0 then slot else b.firstBad, rejected := b.rejected + 1 } }

/-- Take one slot of letterbox `k`: launch its envelope, or reject it. -/
def lboxSlot (s : State) (k i : Nat) : State :=
  let a := tget 0 s.pkg.lba k
  let b := tget 0 s.pkg.lbb k
  let asid := fld a 55 48
  let va := lboxBase a + 64 * (i % lboxCount a)
  match pieces s asid true va 64 .read with
  | .error _ => lboxReject s k (i % lboxCount a)
  | .ok ps =>
    let bs := peekPieces s ps
    let r := { envTask bs va asid with lbox := some k, die := fld a 61 60, cntbase := fld b 11 0, topoen := fld b 12 12 }
    if envNotNew bs || envBad bs || ps.any (fun p => 2 ≤ p.pg.kind) || !edgesOk s r || !(fld a 47 44).testBit r.tint then lboxReject s k (i % lboxCount a)
    else
      let es := (readEdges s r r.inE).getD []
      launch (touchBlock (touchPieces s r.tint ps) r r.inE es) r es fun s off bs => writeVA wrPlain s r.tint asid true (va + off) bs

/-- Take `n` slots from index `i` on. -/
def lboxTake (s : State) (k i n : Nat) : State :=
  match n with
  | 0 => s
  | n + 1 => lboxTake (lboxSlot s k i) k (i + 1) n

/-- A doorbell of letterbox `k` with a new producer index: the new slots are taken in index order, and supervisors of its die that
wait in WFE wake (R469, R475). -/
def doorbell (s : State) (k producer : Nat) : State :=
  let a := tget 0 s.pkg.lba k
  if fld a 63 63 = 0 then s
  else
    let b := tget {} s.pkg.boxes k
    let n := (producer + 2 ^ 32 - b.cons % 2 ^ 32) % 2 ^ 32
    let s := (coreList s).foldl
      (fun s c => if dieOf c = fld a 61 60 && (coreCtx s c).c.priv then onCore s c fun x => { x with c := { x.c with woken := true } } else s) s
    if lboxCount a < n then
      onPkg s fun p => { p with boxes := tset {} p.boxes k { b with rejected := b.rejected + 1 } }
    else
      let s := onPkg s fun p => { p with boxes := tset {} p.boxes k { b with prod := producer % 2 ^ 32, cons := producer % 2 ^ 32 } }
      lboxTake s k b.cons n

/-- What a read of 8 bytes of a letterbox's page returns (R474). -/
def lboxRead (s : State) (k off : Nat) : Nat :=
  let b := tget {} s.pkg.boxes k
  if off = 0 then b.prod % 2 ^ 32 + b.cons % 2 ^ 32 * 2 ^ 32
  else if off = 8 then b.rejected % 2 ^ 32 + b.firstBad % 2 ^ 32 * 2 ^ 32
  else 0

/-! ## MMIO registers (R246, R474, R497) -/

/-- What lies at an offset of the MMIO range: a letterbox page or a die's black box. -/
inductive MmioReg where
  | lbox (k off : Nat)
  | box (die off : Nat)
  | unknown
deriving DecidableEq, Repr

def mmioAt (off : Nat) : MmioReg :=
  if off < 0x10000 then .lbox (off / 0x1000) (off % 0x1000)
  else if 0x80000000 ≤ off && off < 0x80000000 + 4 * 0x40000 then
    .box ((off - 0x80000000) / 0x40000) ((off - 0x80000000) % 0x40000)
  else .unknown

/-- A read of `n` bytes at an MMIO offset: its value, and the state after it; none where the spec gives no register. Of a black box the
spec states reads of 8 bytes alone: what another one finds is a free value (DESIGN CHOICE, log entry 21). -/
def mmioRead (s : State) (off n : Nat) : Option (Nat × State) :=
  match mmioAt off with
  | .lbox k o => some (if n = 8 then lboxRead s k o else 0, s)
  | .box d o =>
    if n = 8 && o % 8 = 0 then some (bbRead (getDie s d) o, s) else some ((Config.boxOther s.free).toNat % 2 ^ (8 * n), bumpFree s)
  | .unknown => none

/-- A write at an MMIO offset; none where the spec gives no register. A black box discards it. -/
def mmioWrite (s : State) (off n v : Nat) : Option State :=
  match mmioAt off with
  | .lbox k o => some (if n = 8 && o = 0 then doorbell s k (v % 2 ^ 32) else s)
  | .box _ _ => some s
  | .unknown => none

end Sys2Proof.Machine
end

