-- ==== Sys2Proof/Machine/Memory.lean ====
section
/-! DEFINITION. The memory words of major opcodes 0x10 to 0x14, and FENCE, CLEAN and INVAL (R256 to R268). -/

namespace Sys2Proof.Machine

/-! ## Pieces -/

/-- The displacement of a MEM word (R259). -/
def dispOf (sz off : Nat) : Int := sext 8 off * (2 ^ sz : Nat)

/-- The page kind of the first byte of an LD or ST of `n` bytes that translates. -/
def kindAt (s : State) (a n : Nat) (acc : Acc) : Option Nat :=
  match myPieces s a n acc (4 ≤ n) with | .ok (p :: _) => some p.pg.kind | _ => none

/-- AccessFault of the task at an address, with the level of its leaf (R448). -/
def accessFault (s : State) (a : Nat) (acc : Acc) : Trap :=
  { code := cAccess, va := a, i2 := acc.num, i3 := levelAt s s.t.me.asid a }

/-- The MMIO offset of a virtual address that translates. -/
def mmioOff (s : State) (a n : Nat) (acc : Acc) : Nat :=
  match myPieces s a n acc true with | .ok (p :: _) => p.pg.pa - mmioBase | _ => 0

/-- Whether an MMIO offset may be read at the core's privilege (R497). -/
def mmioAllowed (s : State) (off : Nat) : Bool := match mmioAt off with | .box _ _ => s.c.priv | _ => true

/-- An LD of an MMIO page (R259). -/
def mmioLoad (s : State) (rd ea n : Nat) : Res :=
  let off := mmioOff s ea n .read
  if !mmioAllowed s off then fault s (accessFault s ea .read)
  else if fpConflict s false ea n then fault s { code := cFootprint, va := ea }
  else match mmioRead s off n with | some (v, s) => done (setS s rd (BitVec.ofNat 64 v)) | none => .refused .unknownMmio

/-- An ST to an MMIO page (R259). -/
def mmioStore (s : State) (ea n v : Nat) : Res :=
  if fpConflict s false ea n then fault s { code := cFootprint, va := ea }
  else match mmioWrite s (mmioOff s ea n .write) n v with | some s => done s | none => .refused .unknownMmio

/-! ## LD and ST -/

/-- A load's value in its register, over the queued stores of an open region. -/
def loadDone (s0 s : State) (rd ea : Nat) (bs : List Byte) : Res :=
  let bs := if inSpec s0 then overlayQueued (queuedBytes s0 ea bs.length) bs else bs
  done (setS s rd (BitVec.ofNat 64 (leNat bs)))

def execLd (rd ra sz sp hint off : Nat) (s : State) : Res :=
  let z := 2 ^ sz
  match eaOf s ra (dispOf sz off) with
  | .error t => fault s t
  | .ok ea =>
    if sp = 1 then
      if spmSize s < ea + z then faultC s cAddress
      else if ea % z ≠ 0 then faultC s cMisaligned
      else wordRead s true ea z hint fun bs s => done (setS s rd (BitVec.ofNat 64 (leNat bs)))
    else if ea % z ≠ 0 then fault s { code := cMisaligned, va := ea }
    else if inSpec s && (queuedBytes s ea z).all (·.isSome) then loadDone s s rd ea (List.replicate z 0)
    else if kindAt s ea z .read = some 3 then mmioLoad s rd ea z
    else wordRead s false ea z hint fun bs s' => loadDone s s' rd ea bs

/-- An ST in an open region (R423, R424): checked now, performed at commit. -/
def specStore (s : State) (ea sz : Nat) (v : Word) : Res :=
  match accCheck s ea (2 ^ sz) .write (2 ≤ sz) with
  | .error t => fault s t
  | .ok ps =>
    if ps.any fun p => p.pg.kind = 3 || p.pg.checked then faultC s cSpecForbidden
    else if 64 ≤ s.t.spec.store.length then wait (onSpec s fun p => { p with full := true })
    else done (onSpec (notePieces s s.t.me.asid ea ps) fun p => { p with store := p.store ++ [{ va := ea, sz, data := v }] })

/-- An ST to global memory outside a region; one of 4 or 8 bytes may meet a page of kind MMIO (R259). -/
def globalStore (s : State) (ea sz hint : Nat) (v : Word) : Res :=
  match accCheck s ea (2 ^ sz) .write (2 ≤ sz) with
  | .error t => fault s t
  | .ok _ =>
    if kindAt s ea (2 ^ sz) .write = some 3 then mmioStore s ea (2 ^ sz) (v.toNat % 2 ^ (8 * 2 ^ sz))
    else wordWrite s false ea (leBytes (2 ^ sz) v.toNat) hint done

def execSt (rd ra sz sp hint off : Nat) (s : State) : Res :=
  let z := 2 ^ sz
  let v := getS s rd
  match eaOf s ra (dispOf sz off) with
  | .error t => fault s t
  | .ok ea =>
    if sp = 1 then
      if spmSize s < ea + z then faultC s cAddress
      else if ea % z ≠ 0 then faultC s cMisaligned
      else wordWrite s true ea (leBytes z v.toNat) hint done
    else if ea % z ≠ 0 then fault s { code := cMisaligned, va := ea }
    else if inSpec s then specStore s ea sz v
    else globalStore s ea sz hint v

/-! ## Accesses at the order point -/

/-- The checks of LDLAST, LDA, STL and the atomics up to FootprintConflict, in the order of R283. -/
def pointCheck (s : State) (ra : Nat) (disp : Int) (z : Nat) (withScope : Bool) (acc : Acc) : Except Trap (Nat × List Piece) :=
  match eaOf s ra disp with
  | .error t => .error t
  | .ok ea =>
    if withScope && 4 < scopeField (getS s ra) then .error { code := cOperand }
    else if ea % z ≠ 0 then .error { code := cMisaligned, va := ea }
    else
      match accCheck s ea z acc with
      | .error t => .error t
      | .ok ps => .ok (ea, ps)

/-- The core's own L1 copies of an access's lines are written back and dropped, and the access reaches the L2 with the default hint,
in whose place the page's HINT stands (R258, R444). -/
def toPoint (s : State) (ea : Nat) (ps : List Piece) (write : Bool) : State :=
  let s := notePieces s s.t.me.asid ea ps
  let s := ps.foldl (fun s p => (linesOf p.pg.pa p.len).foldl l1Drop s) s
  ps.foldl (fun s p => touchLines s p.pg.pa p.len (effHint p.pg 1) (tint s) true write) s

def recsOf (s : State) (ps : List Piece) : State := ps.foldl (fun s p => noteRecs s p.pg.pa p.len) s

/-- A release waits for the L and M accesses dispatched before it, window beats included, and for a tick (R291, R298). -/
def asRelease (s : State) (k : State → Res) : Res :=
  if lmBusy s || !s.t.slots.beats.isEmpty then wait s else withTick s k

/-- Write at the order point with a sync record, tagging the lines as a synchronising write (R299). -/
def pointWrite (s : State) (ps : List Piece) (bs : List Byte) (r : Option SyncRec) : State :=
  let s := tagLines s (meAgent s) true (checkedLines ps)
  ps.foldl (fun s p => orderWrite s p.pg.pa ((bs.drop p.off).take p.len) { bypass := effHint p.pg 1 = 3, sync := r, tint := tint s }) s

/-- The record a release of the task leaves at a scope (R290). -/
def myRec (s : State) (scope : Nat) : SyncRec := { tag := s.t.me.tag, core := s.cur, pkg := s.pkg.number, scope }

/-- The line of a dropped HBM line forgets what it holds over HBM, poison with it, and its tag and sync records revert (R256, R290). -/
def dropLine (s : State) (line : Nat) : State :=
  onPkg s fun p =>
    { p with
      dirty := tclear p.dirty (128 * line) 128, l2 := tset none p.l2 line none,
      tags := tset {} p.tags line (tget {} p.sidecar line), tagPoison := p.tagPoison.filter (· ≠ line),
      poison := p.poison.filter fun g => !l2Granule line g,
      sync := tputs none (tclear p.sync (16 * line) 16) (tshift (tslice p.syncMem (16 * line) 16) (16 * line)) }

def execLdlast (rd ra sz off : Nat) (s : State) : Res :=
  notInSpec s <|
    match pointCheck s ra (dispOf sz off) (2 ^ sz) false .read with
    | .error t => fault s t
    | .ok (ea, ps) =>
      if withheld s ea (2 ^ sz) .read 1 true then wait s
      else
        match raceCheck s (meAgent s) false ea ps with
        | some t => fault s t
        | none =>
          match softCheck s ea ps with
          | some t => fault s t
          | none =>
            let s := recsOf (toPoint s ea ps false) ps
            let v := leNat (peekPieces s ps)
            let s := tagLines s (meAgent s) false (checkedLines ps)
            let s := ps.foldl (fun s p => if p.pg.kind = 0 then (linesOf p.pg.pa p.len).foldl dropLine s else s) s
            done (setS s rd (BitVec.ofNat 64 v))

def execLda (rd ra sz off : Nat) (s : State) : Res :=
  notInSpec s <|
    match pointCheck s ra (dispOf sz off) (2 ^ sz) true .read with
    | .error t => fault s t
    | .ok (ea, ps) =>
      if withheld s ea (2 ^ sz) .read 1 true then wait s
      else
        match softCheck s ea ps with
        | some t => fault s t
        | none =>
          let scope := scopeField (getS s ra)
          let s := recsOf (toPoint s ea ps false) ps
          let v := leNat (peekPieces s ps)
          let s := tagLines s (meAgent s) false (checkedLines ps)
          done (setS (acquireAt s (syncAt s (pieceAt ps 0)) scope) rd (BitVec.ofNat 64 v))

def execStl (rd ra sz off : Nat) (s : State) : Res :=
  notInSpec s <|
    match pointCheck s ra (dispOf sz off) (2 ^ sz) true .write with
    | .error t => fault s t
    | .ok (ea, ps) =>
      if withheld s ea (2 ^ sz) .write 1 true then wait s
      else
        asRelease s fun s =>
          let v := getS s rd
          let scope := scopeField (getS s ra)
          let s := toPoint s ea ps true
          done (pointWrite s ps (leBytes (2 ^ sz) v.toNat) (some (myRec s scope)))

/-! ## FENCE (R267) -/

/-- FENCE waits for the slots and the window beats. -/
def fenceWait (s : State) : Bool := slotsBusy s || !s.t.slots.beats.isEmpty

/-- The acquire of a FENCE (R289, R290): it synchronises with every release that a read before it met and that is mutually in scope,
and each of the others is dropped with SCOPEMISS. ACQEPOCH stays where it met others alone (DEDUCED, log entry 69). -/
def fenceAcquire (s : State) (scope : Nat) : State :=
  let miss := s.t.seen.any fun r => !mutually s r scope
  let s' := if miss then setFlag s stsSCOPEMISS else s
  if !miss || s.t.seen.any (mutually s · scope) then acquire s' else s'

def execFenceFull (scope : Nat) (s : State) : Res :=
  notInSpec s <|
    if fenceWait s then wait s
    else withTick s fun s => done (onT (fenceAcquire s scope) fun t => { t with fenced := some scope })

def execFenceRel (scope : Nat) (s : State) : Res :=
  notInSpec s <|
    if fenceWait s then wait s else withTick s fun s => done (onT s fun t => { t with fenced := some scope })

def execFenceAcq (scope : Nat) (s : State) : Res :=
  notInSpec s <| if fenceWait s then wait s else done (fenceAcquire s scope)

/-! ## CLEAN and INVAL (R268) -/

/-- The lines of a range form, or its fault. A base register that breaks R257 faults whatever the length (DEDUCED, log entry 70). -/
def rangeLines (s : State) (ra rb : Nat) : Except Trap (List Nat) :=
  match eaOf s ra 0 with
  | .error t => .error t
  | .ok ea =>
    let n := (getS s rb).toNat
    if n = 0 then .ok []
    else if 2 ^ 40 < n then .error { code := cOperand }
    else if fabricVA ea n then .error { code := cFabric, va := ea }
    else .ok (regionLines s [(ea, n)])

def execClean (ra rb : Nat) (s : State) : Res :=
  notInSpec s <|
    match rangeLines s ra rb with
    | .error t => fault s t
    | .ok ls => if cleanWithheld s ls then wait s else done (ls.foldl l1Clean s)

def execInval (ra rb : Nat) (s : State) : Res :=
  notInSpec s <|
    match rangeLines s ra rb with
    | .error t => fault s t
    | .ok ls => done (ls.foldl l1Inval s)

def execCleanAll (s : State) : Res :=
  notInSpec s <| if cleanWithheld s (s.c.l1.map (·.1)) then wait s else done (l1CleanAll s)

def execInvalAll (s : State) : Res := notInSpec s <| done (onC s fun c => { c with l1 := [], l1Poison := [] })

end Sys2Proof.Machine
end

