-- ==== Sys2Proof/Machine/Atomics.lean ====
section
/-! DEFINITION. The atomics of major opcode 0x15 (R262 to R265). -/

namespace Sys2Proof.Machine

/-- ORD acquires, releases (R262). -/
def ordAcq (ord : Nat) : Bool := ord == 1 || ord == 3
def ordRel (ord : Nat) : Bool := ord == 2 || ord == 3

/-- The record a write of an atomic leaves: its own as a release, that of a fenced write, or the one already there, whose release
sequence it continues (R289, R290). -/
def atomicRec (s : State) (ord scope : Nat) (old : Option SyncRec) : Option SyncRec :=
  if ordRel ord then some (myRec s scope) else match fencedRec s with | some r => some r | none => old

/-- A step of the adder at a line's order point: the new value, or none where no write is made, and the state after it. -/
abbrev AtomStep := State → Nat → Nat → Option Nat × State

/-- An atomic of `z` bytes (R263, R265): `step` gets the physical address and the old value. -/
def atomic (z ord rd ra : Nat) (step : AtomStep) (s : State) : Res :=
  notInSpec s <|
    match pointCheck s ra 0 z true .atomic with
    | .error t => fault s t
    | .ok (ea, ps) =>
      let pa := pieceAt ps 0
      if withheld s ea z .atomic 1 true || overBudget s (paDie pa) 2 (tint s) then wait s
      else
        match softCheck s ea ps with
        | some t => fault s t
        | none =>
          let act := fun s : State =>
            let scope := scopeField (getS s ra)
            let s := charge (recsOf (toPoint s ea ps true) ps) (paDie pa) 2 (tint s) 1
            let old := peekN s pa z
            let rec' := syncAt s pa
            let (new, s) := step s pa old
            let s := if ordAcq ord then acquireAt s rec' scope else s
            let s := match new with
              | some n => pointWrite s ps (leBytes z n) (atomicRec s ord scope rec')
              | none => tagLines s (meAgent s) true (checkedLines ps)
            doneC (setS s rd (BitVec.ofNat 64 old))
          if ordRel ord then asRelease s act else act s

/-- A read-modify-write of 4 or 8 bytes whose new value is a function of the width, the old value and the operand. -/
def atomicRMW (f : Nat → Nat → Nat → Nat) (w ord rd ra rb : Nat) (s : State) : Res :=
  let z := if w = 1 then 8 else 4
  let b := (getS s rb).toNat % 2 ^ (8 * z)
  atomic z ord rd ra (fun s _ v => (some (f (8 * z) v b), s)) s

def execAadd (w ord rd ra rb : Nat) (s : State) : Res := atomicRMW (fun n v b => (v + b) % 2 ^ n) w ord rd ra rb s
def execAmin (w ord rd ra rb : Nat) (s : State) : Res :=
  atomicRMW (fun n v b => if sext n b < sext n v then b else v) w ord rd ra rb s
def execAmax (w ord rd ra rb : Nat) (s : State) : Res :=
  atomicRMW (fun n v b => if sext n v < sext n b then b else v) w ord rd ra rb s
def execAminn (w ord rd ra rb : Nat) (s : State) : Res := atomicRMW (fun _ v b => Nat.min v b) w ord rd ra rb s
def execAmaxn (w ord rd ra rb : Nat) (s : State) : Res := atomicRMW (fun _ v b => Nat.max v b) w ord rd ra rb s
def execAand (w ord rd ra rb : Nat) (s : State) : Res := atomicRMW (fun _ v b => Nat.land v b) w ord rd ra rb s
def execAor (w ord rd ra rb : Nat) (s : State) : Res := atomicRMW (fun _ v b => Nat.lor v b) w ord rd ra rb s
def execAxor (w ord rd ra rb : Nat) (s : State) : Res := atomicRMW (fun _ v b => Nat.xor v b) w ord rd ra rb s
def execAswap (w ord rd ra rb : Nat) (s : State) : Res := atomicRMW (fun _ _ b => b) w ord rd ra rb s

def execAcas (w ord rd ra rb : Nat) (s : State) : Res :=
  let z := if w = 1 then 8 else 4
  let b := (getS s rb).toNat % 2 ^ (8 * z)
  let e := (getS s rd).toNat % 2 ^ (8 * z)
  atomic z ord rd ra (fun s _ v => (if v = e then some b else none, s)) s

/-- The lane of the adder unit that performs an element (R131). -/
def adderLane (unit pa : Nat) : Nat := 32 * unit + pa % 128 / 4

/-- One add of an adder unit: f32 by RNE, or bf16 by NS with the lane's residue (R131, R264). -/
def adderAdd (s : State) (unit : Nat) (isBf : Bool) (pa v b : Nat) : Nat × State :=
  if isBf then
    let lane := adderLane unit pa
    let x := (fvAdd false (decodeF bf16 v) (decodeF bf16 b)).1
    let (y, _, r) := nsRound bf16 false false x (tget 0 s.pkg.adder lane).toNat
    (y, onPkg s fun p => { p with adder := tset 0 p.adder lane (BitVec.ofNat 32 r) })
  else ((storeVec f32 0 false false (fvAdd false (decodeF f32 v) (decodeF f32 b)).1).1, s)

def execAfadd (w ord rd ra rb : Nat) (s : State) : Res :=
  let z := if w = 1 then 2 else 4
  let b := (getS s rb).toNat % 2 ^ (8 * z)
  atomic z ord rd ra (fun s pa v => let (n, s) := adderAdd s (adderUnit pa) (w == 1) pa v b; (some n, s)) s

end Sys2Proof.Machine
end

