-- ==== Sys2Proof/Machine/CSlot.lean ====
section
/-! DEFINITION. The operations of the C slot (R95 to R102): SYNC, RDV, SEG, FMTW, PHA, CHK and TRC. -/

namespace Sys2Proof.Machine

/-- What the C slot restores if a later field of the bundle faults (R37), kept from its first field on. -/
def noteUndo (s : State) : State :=
  if s.t.undo.isSome then s
  else onT s fun t => { t with undo := some { ops := (headOf s 0).ops, seg := t.seg, rewound := t.rewound } }

/-- The RDV counts as they stood before the bundle's RDV. -/
def rdvBefore (s : State) : Tbl (BitVec 32) :=
  let r := s.t.regs.rdvcnt
  if rdvCounted s then tset 0 r (rdvNum s) (tget 0 r (rdvNum s) - 1) else r

def execSync (s : State) : Res := slotNext (noteUndo s) 0

/-! ## RDV (R98) -/

/-- RDV counts, unless it has already. -/
def countRdv (s : State) : State :=
  if rdvCounted s then s
  else
    let n := rdvNum s
    let s := onRegs s fun r => { r with rdvcnt := tset 0 r.rdvcnt n (tget 0 r.rdvcnt n + 1) }
    tellRdv (onT s fun t => { t with undo := t.undo.map fun u => { u with counted := true } }) n

/-- RDV counts once, and waits for its partners at the count that its register holds. -/
def execRdv (s : State) : Res :=
  let s := countRdv (noteUndo s)
  if rdvMet s (rdvNum s) (tget 0 s.t.regs.rdvcnt (rdvNum s)) then slotNext s 0 else wait s

/-! ## SEG (R97) -/

/-- The registers as the operations of index `j` read them. -/
def regsAt (s : State) (j : Nat) : Tbl VReg × Tbl PReg × Tbl Word :=
  let vs := (List.range 64).foldl (fun (m : Tbl VReg) k => tset 0 m k (readAt s (vecXY k) j)) []
  let ps := ([1, 2, 3, 4, 5, 6, 7, 9, 10, 11, 12, 13, 14, 15] : List Nat).foldl
    (fun (m : Tbl PReg) k => tset 0 m k ((readAt s (.pred (k / 8) (k % 8)) j).setWidth 512)) []
  let as := (List.range 16).foldl (fun (m : Tbl Word) k => tset 0 m k ((readAt s (.addr k) j).setWidth 64)) []
  (vs, ps, as)

def execSeg (s : State) : Res :=
  let e := headOf s 0
  let s := noteUndo s
  let (v, p, a) := regsAt s e.idx
  let seg : Seg :=
    { pc := e.ctx.pc, idx := e.idx, v, p, a,
      latches := s.t.slots.latches.filter fun l => e.idx < l.tgt && l.iss < e.idx,
      loops := e.loops, fmt := fmtAt s e.idx,
      fmtw := s.t.slots.fmtw.filter fun w => e.idx < w.eff && w.iss < 2 * e.idx + 1,
      rdv := rdvBefore s,
      rewinds := match s.t.rewound with | some (i, n) => if i = e.idx then n else 0 | none => 0 }
  slotNext (onT s fun t => { t with seg := some seg, rewound := none }) 0

/-! ## FMTW, PHA, CHK, TRC -/

def execFmtw (s : State) : Res :=
  let e := headOf s 0
  slotNext (addFmt (noteUndo s) (e.idx + 4) (2 * e.idx + 1) e.fmtw) 0

/-- CHK of bundle `i` finds the latch set or its own vote unresolved. -/
def chkFails (s : State) (i : Nat) : Bool := s.t.mismatch || s.t.slots.votes.any (·.1 = i)

/-- CHK clears the latch and the vote of its bundle. -/
def chkClear (s : State) (i : Nat) : State :=
  onSlots (onT s fun t => { t with mismatch := false }) fun q => { q with votes := q.votes.filter (·.1 ≠ i) }

/-- The head of the C slot with its CHK taken out, decided already. -/
def dropChk (s : State) : State :=
  match queueOf s 0 with
  | [] => s
  | e :: rest => onSlots s fun q => { q with queue := tset [] q.queue 0 ({ e with ops := e.ops.filter (· ≠ .chk) } :: rest) }

/-- PHA. Where CHK follows it in the bundle, the compare is decided first, so that a fault of CHK leaves no advance behind (R37); PHA has
closed the segment by then, and no rewind can be taken (R484, R487). -/
def execPha (s : State) : Res :=
  let e := headOf s 0
  let f := e.cf
  let fill := f.side == 0
  match holeRef s f.hole fill with
  | .error t => slotFault s 0 t
  | .ok (core, h) =>
    if holeBlocks s f.hole fill 1 || beatsBlock s f.hole fill then wait s
    else if e.ops.contains .chk && chkFails s e.idx then
      slotFault (chkClear s e.idx) 0 { code := cSegmentLost, i2 := cDup }
    else slotNext (advHole (closeSeg (dropChk (noteUndo s))) core h (!fill)) 0

/-- CHK examines the latch and the vote of its own bundle. -/
def execChk (s : State) : Res :=
  let i := (headOf s 0).idx
  if chkFails s i then
    let s := chkClear s i
    match s.t.seg with
    | some g =>
      if g.rewinds < 2 then .next (rewindCause s cDup 1 i) else slotFault s 0 { code := cSegmentLost, i2 := cDup, i3 := g.rewinds }
    | none => slotFault s 0 { code := cSegmentLost, i2 := cDup }
  else slotNext (noteUndo s) 0

/-- TRC writes its trace record: the PC in 8 bytes, the index in 4, mod 2^32, and the entry in 4 (DESIGN CHOICE, log entry 71). -/
def execTrc (s : State) : Res :=
  let e := headOf s 0
  let s := bbRecord (noteUndo s) (dieOf s.cur) 2 s.cur s.t.me.tag
    (leBytes 8 e.ctx.pc.toNat ++ leBytes 4 e.idx ++ leBytes 4 e.ctx.entry)
  slotNext s 0

end Sys2Proof.Machine
end

