-- ==== Sys2Proof/Machine/Matrix.lean ====
section
/-! DEFINITION. The matrix array (R200 to R228): shape records, weights, beats, accumulator rows, drains and check windows. -/

namespace Sys2Proof.Machine

/-! ## Formats and classes (R133, R134, R201) -/

/-- The class of a format code: 0 8-bit floating, 1 integer, 2 16-bit floating. -/
def clsOf (code : Nat) : Option Nat :=
  match code with
  | 0 | 1 => some 0
  | 2 | 3 => some 2
  | 4 | 5 => some 1
  | _ => none

def rowsK (cls : Nat) : Nat := if cls = 2 then 64 else 128
def colsN (cls g : Nat) : Nat := if cls = 2 then 128 * g else 256 * g
/-- Columns of one half. -/
def perHalf (cls : Nat) : Nat := if cls = 2 then 64 else 128

/-- The bytes of an element in the scratchpad; an INT4 pair is one. -/
def eltSize (code : Nat) : Nat :=
  match code with
  | 2 | 3 => 2
  | 6 => 4
  | _ => 1

/-- The values an element holds (R106, R121); none for a NaN or an infinity. -/
def eltVals (code raw : Nat) : List (Option Dy) :=
  match code with
  | 4 => [some (dyOfInt (sext 8 raw))]
  | 5 => [some (dyOfInt (sext 4 raw)), some (dyOfInt (sext 4 (raw / 16)))]
  | _ =>
    let x := decodeF (match code with | 0 => e4m3 | 1 => e5m2 | 2 => bf16 | _ => f16) raw
    [if x.isNan || x.isInf then none else some x.dy]

/-! ## Shape records (R202 to R204) -/

def recV (w : BitVec 256) : Bool := w.getLsbD 162
def recSC (w : BitVec 256) : Bool := w.getLsbD 161
def recT (w : BitVec 256) : Bool := w.getLsbD 160
def recScale (w : BitVec 256) : Nat := fld w 159 128
def recCur (w : BitVec 256) : Nat := fld w 127 112
def recRows (w : BitVec 256) : Nat := if fld w 111 96 = 0 then 65536 else fld w 111 96
def recElems (w : BitVec 256) : Nat := fld w 95 80

/-- The elements of one use: how many, where the first lies, and the step between them. -/
structure Use where
  n : Nat := 0
  first : Int := 0
  step : Int := 0
deriving DecidableEq, Repr, Inhabited

def useOf (w : BitVec 256) (c z : Nat) : Use :=
  { n := if recElems w = 0 then c else Nat.min (recElems w) c,
    first := (fld w 31 0 : Int) + (recCur w : Int) * sext 32 (fld w 63 32),
    step := if recT w then 2048 else if fld w 79 64 = 0 then (z : Int) else sext 16 (fld w 79 64) }

def Use.at (u : Use) (k : Nat) : Int := u.first + (k : Int) * u.step

/-- The least and the greatest element address of a use. -/
def Use.low (u : Use) : Int := if u.step < 0 then u.at (u.n - 1) else u.first
def Use.high (u : Use) : Int := if u.step < 0 then u.first else u.at (u.n - 1)

/-- The scales of a use that reads `k` of them from word `from'` on. -/
def scaleRange (w : BitVec 256) (from' k : Nat) : Nat × Nat := if recSC w then (recScale w + 4 * from', 4 * k) else (0, 0)

/-- The faults of a use of a record (R204, R221, R483): elements of `z` bytes, and the scales at a range. The faults of poisoned bytes come
after those of the range, and before those of the values read (DEDUCED, log entry 93: R221 and R483 give them no place). -/
def useFault (s : State) (w : BitVec 256) (u : Use) (z : Nat) (sc : Nat × Nat) (reads : Bool) : Option Trap :=
  let shape : Trap := { code := cShape }
  let top := (u.high + z).toNat
  firstFault
    [ (!recV w || fld w 255 163 ≠ 0 || recRows w ≤ recCur w || recScale w % 4 ≠ 0, shape),
      (0 < u.n && (u.first % z ≠ 0 || (1 < u.n && u.step % z ≠ 0)), shape),
      (0 < u.n && (u.low < 0 || (spmSize s : Int) < u.high + z), shape),
      (0 < sc.2 && spmSize s < sc.1 + sc.2, shape),
      ((0 < u.n && s.t.hdr.spm < top) || (0 < sc.2 && s.t.hdr.spm < sc.1 + sc.2), { code := cResource }) ] |>.orElse fun _ =>
  match (if 0 < sc.2 then spmPoisoned s sc.1 sc.2 else none) with
  | some t => some t
  | none => if reads then (List.range u.n).findSome? fun k => spmPoisoned s (u.at k).toNat z else none

def spmN (s : State) (a n : Nat) : Nat := leNat (spmBytes s a n)

/-- The raw elements of a use. -/
def useRead (s : State) (u : Use) (z : Nat) : List Nat := (List.range u.n).map fun k => spmN s (u.at k).toNat z

/-- The scale of an activation or a drain, as f32 bits. -/
def useScale (s : State) (w : BitVec 256) : Nat := if recSC w then spmN s (recScale w + 4 * recCur w) 4 else 0x3F800000

/-- The record with its cursor advanced. -/
def advanceCur (w : BitVec 256) : BitVec 256 :=
  let next := (recCur w + 1) % recRows w
  (w &&& ~~~(BitVec.ofNat 256 (0xFFFF * 2 ^ 112))) ||| BitVec.ofNat 256 (next % 2 ^ 16 * 2 ^ 112)

def getSh (s : State) (n : Nat) : BitVec 256 := tget 0 s.t.mat.sh n
def setSh (s : State) (n : Nat) (w : BitVec 256) : State := onMat s fun m => { m with sh := tset 0 m.sh n w }

/-- A nonzero entry of a list of values. -/
def sparse (xs : List Dy) : Tbl Dy := (xs.zipIdx.filter fun e => e.1.m ≠ 0).map fun e => (e.2, e.1)

/-! ## Accumulator rows (R210 to R212) -/

def getRow (s : State) (a r : Nat) : AccRow := tget {} s.t.mat.acc (128 * a + r)
def setRow (s : State) (a r : Nat) (x : AccRow) : State := onMat s fun m => { m with acc := tset {} m.acc (128 * a + r) x }

/-- rni of `x / 2^s`. -/
def rniShift (x : Int) (s : Nat) : Int := x.sign * (roundMag 0 false x.natAbs s : Nat)

def maxAbs (m : Tbl Int) : Nat := m.foldl (fun x e => Nat.max x e.2.natAbs) 0

/-- Contributions as multiples of 2^q. -/
def onGrid (t : Tbl Dy) (q : Int) : Tbl Int := (t.map fun e => (e.1, alignM e.2 q)).filter fun e => e.2 ≠ 0

/-- The sum of two sparse rows. -/
def addRows (a b : Tbl Int) : Tbl Int := b.foldl (fun m e => tset 0 m e.1 (tget 0 m e.1 + e.2)) a

/-- The row shifted right by `s` with the contributions on the coarser grid. -/
def renormRow (r : AccRow) (t : Tbl Dy) (s : Nat) : Tbl Int :=
  addRows ((r.m.map fun e => (e.1, rniShift e.2 s)).filter fun e => e.2 ≠ 0) (onGrid t (r.e + s - 40))

/-- row_write (R210), without accdis: the row and whether a renormalisation event is taken; none for AccRange. -/
def rowWrite (r : AccRow) (t : Tbl Dy) : Option (AccRow × Bool) :=
  let t := t.filter fun e => e.2.m ≠ 0
  match t with
  | [] => some (r, false)
  | x :: rest =>
    if r.e = -512 then
      let top := rest.foldl (fun (b : Int) e => max b (dyLog e.2)) (dyLog x.2)
      let e := top - 3
      let e := if maxAbs (onGrid t (e - 40)) = 2 ^ 44 then e + 1 else e
      let e := max e (-511)
      if 511 < e then none else some ({ e, m := onGrid t (e - 40) }, false)
    else
      let sum := addRows r.m (onGrid t (r.e - 40))
      if maxAbs sum < 2 ^ 46 then some ({ r with m := sum }, false)
      else
        match (List.range 1024).find? fun k => decide (maxAbs (renormRow r t (k + 1)) < 2 ^ 44) with
        | none => none
        | some k => if 511 < r.e + (k + 1 : Nat) then none else some ({ e := r.e + (k + 1 : Nat), m := renormRow r t (k + 1) }, true)

/-- Mark the beats of an open window whose row has been made empty or replaced since (R216). -/
def killRows (s : State) (a : Nat) (rows : Nat → Bool) : State :=
  match tget none s.t.mat.win a with
  | none => s
  | some w =>
    onMat s fun m =>
      { m with win := tset none m.win a (some { w with beats := w.beats.map fun b => if rows b.row then { b with dead := true } else b }) }

/-- One write of a row of an accumulator as reached (R210, R211); none for AccRange. -/
def writeRow (s : State) (a r : Nat) (t : Tbl Dy) (accdis : Bool) : Option State :=
  match rowWrite (if accdis then {} else getRow s a r) t with
  | none => none
  | some (x, event) =>
    let s := if accdis then killRows s a (· = r) else s
    let s := setRow s a r x
    some (if event then renormEvent s else s)

/-- A write of a row of accumulator `acc` as named (R422). -/
def namedWrite (s : State) (acc r : Nat) (t : Tbl Dy) (accdis : Bool) : Except Trap State :=
  match accWrite s acc with
  | none => .error { code := cSpecLimit }
  | some (a, s) => match writeRow s a r t accdis with | some s => .ok s | none => .error { code := cAccRange }

/-- MNORM on one row (R212). -/
def normRow (r : AccRow) : AccRow :=
  if r.e = -512 then r
  else if r.m.isEmpty then {}
  else
    let s := min ((44 - bitlen (maxAbs r.m) : Nat) : Int) (r.e + 511)
    { e := r.e - s, m := r.m.map fun e => (e.1, e.2 * (2 : Int) ^ s.toNat) }

/-- Headroom of a row (R211): -1 where a mantissa is -2^47. -/
def headroom (r : AccRow) : Int := 47 - (bitlen (maxAbs r.m) : Int)

/-! ## Chunks and windows (R208, R215, R216) -/

/-- A chunk: its sum, and its tolerance T * 2^(Emax - 56). -/
def chunkOf (ps : List Dy) : Dy × Dy :=
  match ps.filter fun p => p.m ≠ 0 with
  | [] => (dyZero, dyZero)
  | x :: rest =>
    let q := rest.foldl (fun (b : Int) p => max b (dyLog p)) (dyLog x) - 56
    let all := x :: rest
    ({ m := all.foldl (fun (a : Int) p => a + alignM p q) 0, e := q },
     { m := all.foldl (fun (a : Int) p => a + if dyEq { m := alignM p q, e := q } p then 0 else 1) 0, e := q })

def weight (m : Mat) (p k n : Nat) : Dy := tget dyZero (tget [] m.wp (128 * p + k)) n

/-- The chunk of an activation vector and column `n` of a plane. -/
def columnChunk (m : Mat) (p : Nat) (act : Tbl Dy) (n : Nat) : Dy × Dy := chunkOf (act.map fun a => dyMul a.2 (weight m p a.1 n))

def sumDy (xs : List Dy) : Dy := xs.foldl dyAdd dyZero

/-- The chunk of an activation vector and the checksum column of a plane. -/
def rowCheckChunk (m : Mat) (p : Nat) (act : Tbl Dy) : Dy × Dy :=
  chunkOf (act.map fun a => dyMul a.2 (sumDy ((tget [] m.wp (128 * p + a.1)).map (·.2))))

def farApart (x y tol : Dy) : Bool := dyLt tol (dyAbs (dyAdd x (dyNeg y)))

/-- Whether the row check of a beat fails: its activation vector, and its chunks with their tolerances as the array formed them. -/
def rowFails (m : Mat) (p : Nat) (act chunk tol : Tbl Dy) : Bool :=
  let c := rowCheckChunk m p act
  farApart (sumDy (chunk.map (·.2))) c.1 (dyAdd (sumDy (tol.map (·.2))) c.2)

/-- A table of exact sums with the entries of another added to it. -/
def addSums (m t : Tbl Dy) : Tbl Dy :=
  t.foldl (fun m e => let x := dyAdd (tget dyZero m e.1) e.2; tset dyZero m e.1 (if x.m = 0 then dyZero else x)) m

/-- The columns whose check fails. -/
def badColumns (m : Mat) (w : Window) (cols : Nat) : List Nat :=
  (List.range cols).filter fun n =>
    let p := columnChunk m w.plane w.act n
    farApart (tget dyZero w.sum n) p.1 (dyAdd (tget dyZero w.tol n) p.2)

/-- Close the window of an accumulator. -/
def closeWindow (s : State) (a : Nat) : State := onMat s fun m => { m with win := tset none m.win a none }

/-- Check and close the open window of accumulator `acc` as named (R215, R216, R227). A check by MCHK, MDRAIN, MWL or MSWAP that passes in
an open region closes the window of an accumulator that is not mapped itself, and an abort does not open it again (DEDUCED, log entry 87:
R422 has a read reach the accumulator itself, and R421 has acc0-acc3 unchanged on abort). -/
def checkWindow (s : State) (acc : Nat) : Except Trap State :=
  let a := accRead s acc
  match tget none s.t.mat.win a with
  | none => .ok s
  | some w =>
    let m := s.t.mat
    let cls := tget 0 m.cls w.plane
    if w.spoiled then .error { code := cAbft }
    else
      match w.beats.filter (·.bad), badColumns m w (colsN cls s.t.g) with
      | [], [] => .ok (closeWindow s a)
      | [b], [n] =>
        if !w.exact then .error { code := cAbft }
        else
          let d := dyAdd (columnChunk m w.plane w.act n).1 (dyNeg (tget dyZero w.sum n))
          let d := dyMul (if b.neg then dyNeg d else d) (decodeF f32 (tget 0 b.scale (n / perHalf cls)).toNat).dy
          let s := suspectUnit (setFlag s stsABFTC) (2 * (n / perHalf cls)) 8
          if b.dead then .ok (closeWindow s a)
          else
            match namedWrite s acc b.row [(n, d)] false with
            | .ok s => .ok (closeWindow s (accRead s acc))
            | .error t => .error t
      | _, _ => .error { code := cAbft }

/-- Check the windows of all accumulators that belong to a set of planes, in ascending order. In an open region each accumulator's
name reaches its shadow where one is mapped (R422), so that a window the mapped accumulator itself holds is not checked (DEDUCED,
log entry 65). -/
def checkPlanes (s : State) (planes : Nat → Bool) : Except Trap State :=
  [0, 1, 2, 3].foldl
    (fun r acc =>
      match r with
      | .error t => .error t
      | .ok s =>
        match tget none s.t.mat.win (accRead s acc) with
        | some w => if planes w.plane then checkWindow s acc else .ok s
        | none => .ok s)
    (.ok s)

/-! ## The M slot -/

/-- The answer of an M operation: its fault, a rewind for an uncorrectable check (R486), or its completion. -/
def mAnswer (s : State) (r : Except Trap State) : Res :=
  match r with
  | .ok s => slotNext s 4
  | .error t =>
    if t.code = cAbft then .next (rewindCause s cAbft 5 (headOf s 4).idx) else slotFault s 4 t

def mfOf (s : State) : MF := (headOf s 4).mf
/-- FMT at the index of the M operation. -/
def mFmt (s : State) : Nat := fmtAt s (headOf s 4).idx
def physPlane (s : State) (p : Nat) : Nat := if s.t.mat.psel then 1 - p else p

def execMnop (s : State) : Res := slotNext s 4

def execMswap (s : State) : Res :=
  mAnswer s <|
    match checkPlanes s fun _ => true with
    | .error t => .error t
    | .ok s => .ok (onMat s fun m => { m with psel := !m.psel })

/-- Write weight row `t` of a plane (R207), loaded under a format code. -/
def loadWeights (s : State) (p t cls : Nat) (row : Tbl Dy) (scales : Option (List Nat)) (code : Nat) : State :=
  onMat s fun m =>
    let same := tget 0 m.cls p = cls
    let wp := if same then m.wp else tclear m.wp (128 * p) 128
    let one := 0x3F800000
    let half := tclear m.half (16 * p) 16
    { m with
      wp := tset [] wp (128 * p + t) row, cls := tset 0 m.cls p cls,
      half := match scales with | some xs => xs.zipIdx.foldl (fun h x => tset one h (16 * p + x.2) x.1) half | none => half,
      rowFmt := tset 0 (if same then m.rowFmt else tclear m.rowFmt (128 * p) 128) (128 * p + t) code }

/-- MWL (R221, R223). FMT.A and FMT.B must be of one class here as at MPUSH, although MWL reads the B elements alone (DEDUCED, log entry
83: R134 names both). -/
def execMwl (s : State) : Res :=
  mAnswer s <|
    let f := mfOf s
    let code := mFmt s / 8 % 8
    let w := getSh s f.shape
    match clsOf code with
    | none => .error { code := cFormat }
    | some cls =>
      if clsOf (mFmt s % 8) ≠ some cls then .error { code := cFormat }
      else
      let p := physPlane s f.plane
      let t := (f.row + recCur w) % 128
      let g := s.t.g
      let z := eltSize code
      let u := useOf w (if code = 5 then colsN cls g / 2 else colsN cls g) z
      let sc := scaleRange w 0 (2 * g)
      if cls = 2 && 64 ≤ t then .error { code := cShape }
      else
        match useFault s w u z sc true with
        | some t => .error t
        | none =>
          let vs := (useRead s u z).flatMap (eltVals code)
          if vs.any (·.isNone) then .error { code := cAccOperand }
          else
            match checkPlanes s (· = p) with
            | .error t => .error t
            | .ok s =>
              let scales := if recSC w then some ((List.range (2 * g)).map fun h => spmN s (sc.1 + 4 * h) 4) else none
              .ok (setSh (loadWeights s p t cls (sparse (vs.map (·.getD dyZero))) scales code) f.shape (advanceCur w))

/-- S of R209 for each half: the scale products as f32 bits; none for ScaleRange (R111). -/
def scaleProducts (s : State) (p sa : Nat) (halves : Nat) : Option (Tbl (BitVec 32)) :=
  (List.range halves).foldl
    (fun r h =>
      match r with
      | none => none
      | some m =>
        let x := decodeF f32 sa
        let y := decodeF f32 (tget 0x3F800000 s.t.mat.half (16 * p + h))
        let z := rneF32 (fvMul x y).1
        if x.isNan || x.isInf || y.isNan || y.isInf || z.isNan || z.isInf then none
        else some (tset 0 m h (BitVec.ofNat 32 (storeVec f32 0 false false z).1)))
    (some [])

/-- Take the next upset of a beat's chunks. -/
def takeChunk (us : List Upset) : Option (Nat × Dy) × List Upset :=
  match us with
  | [] => (none, [])
  | .chunk n d :: rest => (some (n, d), rest)
  | u :: rest => let (r, rest) := takeChunk rest; (r, u :: rest)

/-- The chunks of a beat and their tolerances, as the array forms them: a hardware error to come may change one. -/
def formChunks (s : State) (p : Nat) (act : Tbl Dy) (cols : Nat) : Tbl Dy × Tbl Dy × State :=
  let cs := (List.range cols).map fun n => (n, columnChunk s.t.mat p act n)
  let chunk := (cs.filter fun e => e.2.1.m ≠ 0).map fun e => (e.1, e.2.1)
  let tol := (cs.filter fun e => e.2.2.m ≠ 0).map fun e => (e.1, e.2.2)
  match takeChunk s.upsets with
  | (none, _) => (chunk, tol, s)
  | (some (n, d), rest) => (tset dyZero chunk (n % cols) (dyAdd (tget dyZero chunk (n % cols)) d), tol, { s with upsets := rest })

/-- Put a beat in the window of an accumulator as reached, opening one where none is open (R215): its record, its activation vector,
and its chunks with their tolerances. -/
def joinWindow (s : State) (a p : Nat) (exact : Bool) (b : Beat) (act chunk tol : Tbl Dy) : State :=
  onMat s fun m =>
    let w := (tget none m.win a).getD { plane := p, exact := true }
    { m with win := tset none m.win a (some { w with
        beats := w.beats ++ [b], act := addSums w.act act, sum := addSums w.sum chunk, tol := addSums w.tol tol, exact := w.exact && exact }) }

/-- Whether a row of a plane was loaded as e5m2. -/
def hasWide (m : Mat) (p : Nat) : Bool := (tslice m.rowFmt (128 * p) 128).any (·.2 = 1)

/-- Whether a beat cannot join the open window of an accumulator as named (R224 step 3). -/
def mustCheck (s : State) (acc p : Nat) (abft : Bool) : Bool :=
  match tget none s.t.mat.win (accRead s acc) with
  | none => false
  | some w => !abft || w.plane ≠ p || 128 ≤ w.beats.length

def execMpush (s : State) : Res :=
  mAnswer s <|
    let f := mfOf s
    let fmt := mFmt s
    let code := fmt % 8
    let w := getSh s f.shape
    let p := physPlane s f.plane
    let g := s.t.g
    match clsOf code with
    | none => .error { code := cFormat }
    | some cls =>
      if clsOf (fmt / 8 % 8) ≠ some cls || tget 0 s.t.mat.cls p ≠ cls then .error { code := cFormat }
      else
        let z := eltSize code
        let u := useOf w (if code = 5 then rowsK cls / 2 else rowsK cls) z
        match useFault s w u z (scaleRange w (recCur w) 1) true with
        | some t => .error t
        | none =>
          let vs := (useRead s u z).flatMap (eltVals code)
          if vs.any (·.isNone) then .error { code := cAccOperand }
          else
            match scaleProducts s p (useScale s w) (2 * g) with
            | none => .error { code := cScale }
            | some sp =>
              let abft := fmt / 2 ^ 14 % 2 = 1
              -- MPUSH is a write of its accumulator: in a region its check meets the shadow that the write maps (R422)
              match accWrite s f.acc with
              | none => .error { code := cSpecLimit }
              | some (_, s) =>
              match (if mustCheck s f.acc p abft then checkWindow s f.acc else .ok s) with
              | .error t => .error t
              | .ok s =>
                let act := sparse (vs.map (·.getD dyZero))
                let r := (f.row + recCur w) % 128
                let (chunk, tol, s) := formChunks s p act (colsN cls g)
                let t := chunk.map fun e =>
                  (e.1, dyMul (if f.neg then dyNeg e.2 else e.2) (decodeF f32 (tget 0 sp (e.1 / perHalf cls)).toNat).dy)
                match namedWrite s f.acc r t f.accdis with
                | .error t => .error t
                | .ok s =>
                  let exact := cls = 1 || (cls = 0 && code = 0 && !hasWide s.t.mat p)
                  let beat : Beat := { row := r, neg := f.neg, bad := rowFails s.t.mat p act chunk tol, scale := sp }
                  let s := if abft then joinWindow s (accRead s f.acc) p exact beat act chunk tol else s
                  .ok (setSh (onT s fun t => { t with beats := t.beats + 1 }) f.shape (advanceCur w))

/-- The array width of R201 under FMT.A, or the whole row for f32 (R225). -/
def drainCols (fmt g : Nat) : Nat := match clsOf (fmt % 8) with | some cls => colsN cls g | none => 256 * g

/-- One column of a row in the drain format (R214): the stored bits and the flags. A zero mantissa is
stored as +0, as R214 says; a product that is zero by a zero scale is stored as +0 too (DESIGN CHOICE, log entry 52). -/
def drainElt (fmt : Nat) (r : AccRow) (j : Nat) (sOut : Dy) : Nat × Nat :=
  let code := fmt / 64 % 8
  let mode := fmt / 2 ^ 11 % 4
  let sat := fmt / 2 ^ 13 % 2 = 1
  let x := dyMul { m := tget 0 r.m j, e := r.e - 40 } sOut
  if code = 4 then
    let n := roundInt mode (x.m < 0) x.m.natAbs x.e
    let nx := if dyEq (dyOfInt n) x then 0 else fNX
    if -128 ≤ n && n ≤ 127 then (wrapN 8 n, nx)
    else if sat then (if n < 0 then 0x80 else 0x7F, nx ||| fSATV)
    else (wrapN 8 n, nx)
  else
    storeVec (match code with | 0 => e4m3 | 1 => e5m2 | 2 => bf16 | 3 => f16 | _ => f32) mode sat (fmt / 2 ^ 10 % 2 = 1) (fvOf false x)

def execMdrain (s : State) : Res :=
  mAnswer s <|
    let f := mfOf s
    let fmt := mFmt s
    let code := fmt / 64 % 8
    let w := getSh s f.shape
    let n := drainCols fmt s.t.g
    let j0 := f.plane * n
    let z := eltSize code
    let u := useOf w n z
    if code = 5 then .error { code := cFormat }
    else
      match useFault s w u z (scaleRange w (recCur w) 1) false with
      | some t => if t.code ≠ cShape && 256 * s.t.g ≤ j0 then .error { code := cShape } else .error t
      | none =>
        let sOut := decodeF f32 (useScale s w)
        if 256 * s.t.g ≤ j0 then .error { code := cShape }
        else if sOut.isNan || sOut.isInf then .error { code := cScale }
        else
          match checkWindow s f.acc with
          | .error t => .error t
          | .ok s =>
            let r := getRow s (accRead s f.acc) ((f.row + recCur w) % 128)
            let ys := (List.range u.n).map fun k => if j0 + k < 256 * s.t.g then drainElt fmt r (j0 + k) sOut.dy else (0, 0)
            let s := raiseFlags s (ys.foldl (fun fl y => fl ||| y.2) 0)
            let s := ys.zipIdx.foldl (fun s y => setSpmBytes s (u.at y.2).toNat (leBytes z y.1.1)) s
            .ok (setSh s f.shape (advanceCur w))

/-- The rows that MCLR and MNORM name. -/
def namedRows (f : MF) : List Nat := if f.accdis then List.range 128 else [f.row]

def execMclr (s : State) : Res :=
  mAnswer s <|
    let f := mfOf s
    match accWrite s f.acc with
    | none => .error { code := cSpecLimit }
    | some (a, s) => .ok (killRows ((namedRows f).foldl (fun s r => setRow s a r {}) s) a (namedRows f).contains)

def execMnorm (s : State) : Res :=
  mAnswer s <|
    let f := mfOf s
    match accWrite s f.acc with
    | none => .error { code := cSpecLimit }
    | some (a, s) =>
      let gone := (namedRows f).filter fun r => (getRow s a r).e ≠ -512 && (getRow s a r).m.isEmpty
      .ok (killRows ((namedRows f).foldl (fun s r => setRow s a r (normRow (getRow s a r))) s) a gone.contains)

def execMchk (s : State) : Res := mAnswer s (checkWindow s (mfOf s).acc)

end Sys2Proof.Machine
end

