-- ==== Sys2Proof/Machine/Scalar.lean ====
section
/-! DEFINITION. The scalar instructions of major opcodes 0x00 to 0x0B (R138 to R155). -/

namespace Sys2Proof.Machine

/-! ## Shared pieces -/

/-- `op sd, sa, sb` (R141). -/
def alu3 (f : Word → Word → Word) (rd ra rb : Nat) (s : State) : Res := done (setS s rd (f (getS s ra) (getS s rb)))

/-- `op sd, sa` (R144). -/
def alu2 (f : Word → Word) (rd ra : Nat) (s : State) : Res := done (setS s rd (f (getS s ra)))

/-- `op sd, sa, imm` with an immediate already widened (R147). -/
def aluI (f : Word → Word → Word) (rd ra : Nat) (imm : Word) (s : State) : Res := done (setS s rd (f (getS s ra) imm))

/-- A signed immediate of `n` bits, widened. -/
def simm (n imm : Nat) : Word := BitVec.ofInt 64 (sext n imm)

/-- A shift count (R141). -/
def cnt6 (b : Word) : Nat := b.toNat % 64

def divS (a b : Word) : Word := if b = 0 then BitVec.allOnes 64 else BitVec.ofInt 64 (a.toInt.tdiv b.toInt)
def divU (a b : Word) : Word := if b = 0 then BitVec.allOnes 64 else BitVec.ofNat 64 (a.toNat / b.toNat)
def remS (a b : Word) : Word := if b = 0 then a else BitVec.ofInt 64 (a.toInt.tmod b.toInt)
def remU (a b : Word) : Word := if b = 0 then a else BitVec.ofNat 64 (a.toNat % b.toNat)

/-- Zero bits above the highest 1 (R144). -/
def clz64 (a : Word) : Word := BitVec.ofNat 64 (64 - bitlen a.toNat)

/-- Zero bits below the lowest 1, counted from bit `k` with `n` bits left. -/
def ctzFrom (a : Word) (n k : Nat) : Nat :=
  match n with
  | 0 => k
  | n + 1 => if a.getLsbD k then k else ctzFrom a n (k + 1)

def popCount (n v : Nat) : Nat := ((List.range n).filter fun k => v.testBit k).length

/-- The bytes in reverse order (R144). -/
def bswap64 (a : Word) : Word := BitVec.ofNat 64 (leNat (leBytes 8 a.toNat).reverse)

/-- The field of BEXT and BINS (R145): position and length. -/
def fieldDesc (b : Word) : Nat × Nat := (fld b 5 0, fld b 13 8 + 1)

def bext64 (a b : Word) : Word :=
  let (pos, len) := fieldDesc b
  BitVec.ofNat 64 (a.toNat / 2 ^ pos % 2 ^ len)

def bins64 (d a b : Word) : Word :=
  let (pos, len) := fieldDesc b
  let m : Word := BitVec.ofNat 64 ((2 ^ len - 1) * 2 ^ pos)
  (d &&& ~~~m) ||| ((a <<< pos) &&& m)

/-- The conditions of R146. -/
def condOf (c : Nat) (a b : Word) : Bool :=
  match c with
  | 0 => a == b
  | 1 => a != b
  | 2 => a.slt b
  | 3 => !a.slt b
  | 4 => a.ult b
  | 5 => !a.ult b
  | 6 => (a &&& b) != 0
  | _ => (a &&& b) == 0

def boolWord (b : Bool) : Word := if b then 1 else 0

/-! ## Integer instructions -/

def execAdd (rd ra rb : Nat) (s : State) : Res := alu3 (· + ·) rd ra rb s
def execSub (rd ra rb : Nat) (s : State) : Res := alu3 (· - ·) rd ra rb s
def execAnd (rd ra rb : Nat) (s : State) : Res := alu3 (· &&& ·) rd ra rb s
def execOr (rd ra rb : Nat) (s : State) : Res := alu3 (· ||| ·) rd ra rb s
def execXor (rd ra rb : Nat) (s : State) : Res := alu3 (· ^^^ ·) rd ra rb s
def execAndn (rd ra rb : Nat) (s : State) : Res := alu3 (fun a b => a &&& ~~~b) rd ra rb s
def execShl (rd ra rb : Nat) (s : State) : Res := alu3 (fun a b => a <<< cnt6 b) rd ra rb s
def execShr (rd ra rb : Nat) (s : State) : Res := alu3 (fun a b => a >>> cnt6 b) rd ra rb s
def execSar (rd ra rb : Nat) (s : State) : Res := alu3 (fun a b => a.sshiftRight (cnt6 b)) rd ra rb s
def execRol (rd ra rb : Nat) (s : State) : Res := alu3 (fun a b => a.rotateLeft (cnt6 b)) rd ra rb s
def execMul (rd ra rb : Nat) (s : State) : Res := alu3 (· * ·) rd ra rb s
def execMulh (rd ra rb : Nat) (s : State) : Res :=
  alu3 (fun a b => BitVec.ofInt 64 ((a.toInt * b.toInt) / 2 ^ 64)) rd ra rb s
def execMulhn (rd ra rb : Nat) (s : State) : Res :=
  alu3 (fun a b => BitVec.ofNat 64 (a.toNat * b.toNat / 2 ^ 64)) rd ra rb s
def execDiv (rd ra rb : Nat) (s : State) : Res := alu3 divS rd ra rb s
def execDivn (rd ra rb : Nat) (s : State) : Res := alu3 divU rd ra rb s
def execRem (rd ra rb : Nat) (s : State) : Res := alu3 remS rd ra rb s
def execRemn (rd ra rb : Nat) (s : State) : Res := alu3 remU rd ra rb s
def execMin (rd ra rb : Nat) (s : State) : Res := alu3 (fun a b => if b.slt a then b else a) rd ra rb s
def execMax (rd ra rb : Nat) (s : State) : Res := alu3 (fun a b => if a.slt b then b else a) rd ra rb s
def execMinn (rd ra rb : Nat) (s : State) : Res := alu3 (fun a b => if b.ult a then b else a) rd ra rb s
def execMaxn (rd ra rb : Nat) (s : State) : Res := alu3 (fun a b => if a.ult b then b else a) rd ra rb s
def execClz (rd ra : Nat) (s : State) : Res := alu2 clz64 rd ra s
def execCtz (rd ra : Nat) (s : State) : Res := alu2 (fun a => BitVec.ofNat 64 (ctzFrom a 64 0)) rd ra s
def execPopc (rd ra : Nat) (s : State) : Res := alu2 (fun a => BitVec.ofNat 64 (popCount 64 a.toNat)) rd ra s
def execBswap (rd ra : Nat) (s : State) : Res := alu2 bswap64 rd ra s
def execBext (rd ra rb : Nat) (s : State) : Res := alu3 bext64 rd ra rb s
def execBins (rd ra rb : Nat) (s : State) : Res := done (setS s rd (bins64 (getS s rd) (getS s ra) (getS s rb)))
def execSel (n rd ra rb : Nat) (s : State) : Res := done (setS s rd (if getQ s n then getS s ra else getS s rb))
def execCmp (c rd ra rb : Nat) (s : State) : Res := alu3 (fun a b => boolWord (condOf c a b)) rd ra rb s
def execCmpq (c qd ra rb : Nat) (s : State) : Res := done (setQ s qd (condOf c (getS s ra) (getS s rb)))

/-- SEWMA (R148): the new average and its bucket. -/
def sewma (d a b : Word) : Word :=
  let e : Nat := d.toNat % 2 ^ 16
  let k : Nat := b.toNat % 16
  let n : Nat := a.toNat % 2 ^ 16
  let e' : Nat := ((e : Int) + ((n : Int) - e) / (2 : Int) ^ k).toNat
  BitVec.ofNat 64 (e' / 2 ^ 12 * 2 ^ 16 + e')

def execSewma (rd ra rb : Nat) (s : State) : Res := done (setS s rd (sewma (getS s rd) (getS s ra) (getS s rb)))

def execAddi (rd ra imm : Nat) (s : State) : Res := aluI (· + ·) rd ra (simm 13 imm) s
def execAndi (rd ra imm : Nat) (s : State) : Res := aluI (· &&& ·) rd ra (simm 13 imm) s
def execOri (rd ra imm : Nat) (s : State) : Res := aluI (· ||| ·) rd ra (simm 13 imm) s
def execXori (rd ra imm : Nat) (s : State) : Res := aluI (· ^^^ ·) rd ra (simm 13 imm) s
def execShli (rd ra n : Nat) (s : State) : Res := alu2 (fun a => a <<< (n % 64)) rd ra s
def execShri (rd ra n : Nat) (s : State) : Res := alu2 (fun a => a >>> (n % 64)) rd ra s
def execSari (rd ra n : Nat) (s : State) : Res := alu2 (fun a => a.sshiftRight (n % 64)) rd ra s
def execCmpqi (c qd ra imm : Nat) (s : State) : Res := done (setQ s qd (condOf c (getS s ra) (simm 10 imm)))
def execLui (rd imm : Nat) (s : State) : Res := done (setS s rd (simm 19 imm <<< 13))
def execAddpc (rd imm : Nat) (s : State) : Res := done (setS s rd (s.t.pc + (simm 19 imm <<< 13)))

/-! ## Floating point (R149 to R155) -/

/-- FMT as a scalar word reads it (R29). -/
def scalarFmt (s : State) : Nat := fmtSeen s s.t.slots.next

/-- The rounding mode of a scalar word: the FMT default, RNE or RTZ (R149). -/
def scalarMode (s : State) (rm : Nat) : Nat := match rm with | 0 => scalarFmt s / 2 ^ 11 % 4 | 1 => 0 | _ => 1

def pFmt (p : Nat) : Fmt := if p = 0 then f32 else f64

/-- A scalar operand as a value. -/
def fpOf (p : Nat) (w : Word) : FV := decodeF (pFmt p) (w.toNat % 2 ^ (pFmt p).bits)

/-- Round an exact result, write it and set its flags. -/
def fpResult (f : Fmt) (rd mode : Nat) (x : FV × Nat) (s : State) : Res :=
  let (bits, fl) := storeScalar f mode x.1
  done (raiseFlags (setS s rd (BitVec.ofNat 64 bits)) (x.2 ||| fl))

/-- A word that may take its rounding from FMT waits for the C slot (R29). -/
def withMode (s : State) (rm : Nat) (k : Nat → Res) : Res :=
  if rm = 0 && !s.c.trap && fmtPending s s.t.slots.next then wait s else k (scalarMode s rm)

/-- `op.p sd, sa, sb` with one rounding. -/
def fp3 (f : Bool → FV → FV → FV × Nat) (rm p rd ra rb : Nat) (s : State) : Res :=
  withMode s rm fun mode => fpResult (pFmt p) rd mode (f (mode = 2) (fpOf p (getS s ra)) (fpOf p (getS s rb))) s

def execFadd (rm p rd ra rb : Nat) (s : State) : Res := fp3 fvAdd rm p rd ra rb s
def execFsub (rm p rd ra rb : Nat) (s : State) : Res := fp3 (fun rdn a b => fvAdd rdn a b.flip) rm p rd ra rb s
def execFmul (rm p rd ra rb : Nat) (s : State) : Res := fp3 (fun _ a b => fvMul a b) rm p rd ra rb s
def execFdiv (rm p rd ra rb : Nat) (s : State) : Res := fp3 (fun _ a b => fvDiv a b) rm p rd ra rb s
def execFfma (rm p rd ra rb : Nat) (s : State) : Res :=
  let d := fpOf p (getS s rd)
  fp3 (fun rdn a b => fvFma rdn a b d) rm p rd ra rb s
def execFsqrt (rm p rd ra : Nat) (s : State) : Res :=
  withMode s rm fun mode => fpResult (pFmt p) rd mode (fvSqrt (fpOf p (getS s ra))) s
def execFrcp (rm p rd ra : Nat) (s : State) : Res :=
  withMode s rm fun mode => fpResult (pFmt p) rd mode (fvDiv (.val false 1 0) (fpOf p (getS s ra))) s

/-- Whether `a` comes before `b` with -0 below +0 (R151). -/
def fvLess (a b : FV) : Bool := fvCmp a b < 0 || (a.isZero && b.isZero && a.neg && !b.neg)

/-- FMIN and FMAX on encodings (R151): the chosen encoding and the flags. -/
def fpMinMax (f : Fmt) (isMax : Bool) (x y : Nat) : Nat × Nat :=
  let a := decodeF f x
  let b := decodeF f y
  let fl := sigFlag [a, b]
  if a.isNan && b.isNan then (f.nan, fl)
  else if a.isNan then (y, fl)
  else if b.isNan then (x, fl)
  else if isMax then (if fvLess a b then y else x, fl)
  else (if fvLess b a then y else x, fl)

def fpMM (isMax : Bool) (p rd ra rb : Nat) (s : State) : Res :=
  let f := pFmt p
  let (bits, fl) := fpMinMax f isMax ((getS s ra).toNat % 2 ^ f.bits) ((getS s rb).toNat % 2 ^ f.bits)
  done (raiseFlags (setS s rd (BitVec.ofNat 64 bits)) fl)

def execFmin (p rd ra rb : Nat) (s : State) : Res := fpMM false p rd ra rb s
def execFmax (p rd ra rb : Nat) (s : State) : Res := fpMM true p rd ra rb s

/-- FCMPQ's condition and flags (R152). -/
def fpCond (cc : Nat) (a b : FV) : Bool × Nat :=
  let un := a.isNan || b.isNan
  match cc with
  | 0 => (!un && fvCmp a b = 0, sigFlag [a, b])
  | 1 => (!un && fvCmp a b < 0, if un then fNV else 0)
  | 2 => (!un && fvCmp a b ≤ 0, if un then fNV else 0)
  | _ => (un, sigFlag [a, b])

def execFcmpq (cc p qd ra rb : Nat) (s : State) : Res :=
  let (v, fl) := fpCond cc (fpOf p (getS s ra)) (fpOf p (getS s rb))
  done (raiseFlags (setQ s qd v) fl)

/-- FCVT to an integer range (R153, R107). -/
def cvtInt (lo hi : Int) (rd mode : Nat) (x : FV) (s : State) : Res :=
  let (n, fl) := toInt mode false lo hi x
  done (raiseFlags (setS s rd (BitVec.ofInt 64 n)) fl)

/-- FCVT (R153). Codes 0 to 9. -/
def execFcvt (rm code rd ra : Nat) (s : State) : Res :=
  withMode s rm fun mode =>
    let a := getS s ra
    let sgn : FV := fvOf false (dyOfInt a.toInt)
    let nat : FV := fvOf false (dyOfInt a.toNat)
    let quiet := fun (x : FV) => (x, sigFlag [x])
    match code with
    | 0 => fpResult f64 rd mode (quiet (fpOf 0 a)) s
    | 1 => fpResult f32 rd mode (quiet (fpOf 1 a)) s
    | 2 => cvtInt (-(2 ^ 63)) (2 ^ 63 - 1) rd mode (fpOf 0 a) s
    | 3 => cvtInt (-(2 ^ 63)) (2 ^ 63 - 1) rd mode (fpOf 1 a) s
    | 4 => cvtInt 0 (2 ^ 64 - 1) rd mode (fpOf 0 a) s
    | 5 => cvtInt 0 (2 ^ 64 - 1) rd mode (fpOf 1 a) s
    | 6 => fpResult f32 rd mode (sgn, 0) s
    | 7 => fpResult f64 rd mode (sgn, 0) s
    | 8 => fpResult f32 rd mode (nat, 0) s
    | _ => fpResult f64 rd mode (nat, 0) s

/-- The class bit of a value (R154). -/
def classBit (f : Fmt) (x : FV) : Nat :=
  match x with
  | .nan sig => if sig then 8 else 9
  | .inf neg => if neg then 0 else 7
  | .val neg m _ =>
    if m = 0 then (if neg then 3 else 4)
    else if m < 2 ^ f.mb then (if neg then 2 else 5)
    else (if neg then 1 else 6)

def execFclass (p rd ra : Nat) (s : State) : Res :=
  done (setS s rd (BitVec.ofNat 64 (2 ^ classBit (pFmt p) (fpOf p (getS s ra)))))

end Sys2Proof.Machine
end

