-- ==== Sys2Proof/Machine/MatrixWords.lean ====
section
/-! DEFINITION. The scalar words of the matrix side, major opcode 0x21 (R229 to R236). -/

namespace Sys2Proof.Machine

/-! ## What they wait for (R219) -/

/-- An M operation dispatched before has not executed. -/
def mBusy (s : State) : Bool := !(pending s 4).isEmpty

/-- A writer of an accumulator dispatched before has not executed. -/
def accBusy (s : State) : Bool :=
  mBusy s || [2, 3].any fun k => (pending s k).any fun e => !(accsOf s k e).isEmpty

/-- Queue a configuration write made between bundles (R35). -/
def queueCfg (s : State) (w : CfgWrite) : State := foldCfg (onSlots s fun q => { q with cfg := q.cfg ++ [w] })

/-- A shape record as a scalar word sees it: after every queued write. -/
def shNow (s : State) (n : Nat) : BitVec 256 :=
  getSh ((s.t.slots.cfg.filter fun w => !w.hole && w.num = n).foldl applyCfg s) n

/-- The faults of a scratchpad range named by a matrix word (R230): `align` is what its base is a multiple of. -/
def shapeSpm (s : State) (a n align : Nat) : Option Trap :=
  firstFault
    [ (spmSize s < a + n, { code := cShape }),
      (a % align ≠ 0, { code := cMisaligned }),
      (s.t.hdr.spm < a + n, { code := cResource }) ]

/-- Where a matrix word's operand lies, or the fault of its address. The scratchpad form takes all 64 bits of the register as the
offset (DEDUCED, log entry 66). -/
def matrixAddr (s : State) (ra spm n align : Nat) : Except Trap Nat :=
  if spm = 1 then
    let a := (getS s ra).toNat
    match shapeSpm s a n align with | some t => .error t | none => .ok a
  else
    match eaOf s ra 0 with
    | .error t => .error t
    | .ok a => if a % align ≠ 0 then .error { code := cMisaligned, va := a } else .ok a

/-- The global form is not allowed in an open region (R424). -/
def globalForm (s : State) (spm : Nat) (k : Res) : Res := if spm = 1 then k else notInSpec s k

/-! ## MSHAPE, MSHQ, MGEO (R230 to R232) -/

def execMshapeLoad (sh ra spm : Nat) (s : State) : Res :=
  notInTrap s <| globalForm s spm <|
    match matrixAddr s ra spm 32 32 with
    | .error t => fault s t
    | .ok a =>
      wordRead s (spm == 1) a 32 1 fun bs s =>
        done (mend (queueCfg s { bound := s.t.slots.next, num := sh, val := BitVec.ofNat 256 (leNat bs) }) (128 + 4 * sh) 4)

def execMshapeWord (sh ra f : Nat) (s : State) : Res :=
  notInTrap s <|
    done (mend (queueCfg s { bound := s.t.slots.next, num := sh, word := some f, val := (getS s ra).setWidth 256 }) (128 + 4 * sh + f) 1)

/-- MSHQ reads a word of the record as it was written, the reserved bits [255:163] with it (DESIGN CHOICE, log entry 94: R4 has a reserved
field of a register read as zero, R230 and R231 write and read the whole record). -/
def execMshq (rd sh f : Nat) (s : State) : Res :=
  notInTrap s <|
    if mBusy s then wait s else done (setS s rd (BitVec.ofNat 64 (fld (shNow s sh) (64 * f + 63) (64 * f))))

/-- The result of MGEO for a class. -/
def geoWord (g cls : Nat) : Word := BitVec.ofNat 64 (perHalf cls * 2 ^ 40 + 2 * g * 2 ^ 32 + colsN cls g * 2 ^ 16 + rowsK cls)

def execMgeo (rd c : Nat) (s : State) : Res :=
  notInTrap s <|
    if c = 3 then
      if fmtPending s s.t.slots.next then wait s
      else
        match clsOf (scalarFmt s % 8) with
        | some cls => done (setS s rd (geoWord s.t.g cls))
        | none => done (setS s rd 0)
    else done (setS s rd (geoWord s.t.g c))

/-! ## MACCSAVE, MACCLOAD (R233 to R235) -/

/-- The image of an accumulator's row at gang width `g`. -/
def rowImage (g : Nat) (r : AccRow) : List Byte :=
  leBytes 2 (wrapN 16 r.e) ++ leBytes 62 0 ++ (List.range (256 * g)).flatMap fun j => leBytes 6 (wrapN 48 (tget 0 r.m j))

def accImage (s : State) (a : Nat) : List Byte := (List.range 128).flatMap fun r => rowImage s.t.g (getRow s a r)

def imageLen (g : Nat) : Nat := 128 * rowStride g

/-- A row read from its image. -/
def imageRow (g : Nat) (bs : List Byte) : AccRow :=
  { e := sext 16 (leNat (bs.take 2)),
    m := (List.range (256 * g)).filterMap fun j =>
      let v := sext 48 (leNat ((bs.drop (64 + 6 * j)).take 6))
      if v = 0 then none else some (j, v) }

/-- Whether a row image may be loaded (R235). -/
def imageOk (g : Nat) (bs : List Byte) : Bool :=
  let r := imageRow g bs
  decide (-512 ≤ r.e) && decide (r.e ≤ 511) && ((bs.drop 2).take 62).all (· = 0) && (decide (r.e ≠ -512) || r.m.isEmpty)

/-- The 128 row images of an accumulator image. -/
def rowImages (g : Nat) (bs : List Byte) : List (List Byte) := (List.range 128).map fun r => (bs.drop (rowStride g * r)).take (rowStride g)

def execMaccsave (acc ra spm : Nat) (s : State) : Res :=
  notInTrap s <| globalForm s spm <|
    if accBusy s then wait s
    else
      match checkWindow s acc with
      | .error t => if t.code = cAbft then .next (rewindCause s cAbft 0 0) else fault s t
      | .ok s' =>
        match matrixAddr s ra spm (imageLen s.t.g) 64 with
        | .error t => fault s t
        | .ok a =>
          if spm = 1 then
            if lmBusy s then wait s
            else match spmWrite s' a (accImage s' (accRead s' acc)) with | .error t => fault s t | .ok s => done s
          else if withheld s a (imageLen s.t.g) .write then wait s
          else match plainWrite s' a (accImage s' (accRead s' acc)) 1 with | .error t => fault s t | .ok s => done s

/-- MACCLOAD. In an open region the OperandRange of its image comes before SpecLimit (DEDUCED, log entry 97: R235 and R422 give no order). -/
def execMaccload (acc ra spm : Nat) (s : State) : Res :=
  notInTrap s <| globalForm s spm <|
    match matrixAddr s ra spm (imageLen s.t.g) 64 with
    | .error t => fault s t
    | .ok a =>
      if accBusy s then wait s
      else
        wordRead s (spm == 1) a (imageLen s.t.g) 1 fun bs s' =>
          let rows := rowImages s.t.g bs
          if !rows.all (imageOk s.t.g) then faultC s cOperand
          else
            match accWrite s' acc with
            | none => faultC s cSpecLimit
            | some (k, s') =>
              let s' := rows.zipIdx.foldl (fun s r => setRow s k r.2 (imageRow s.t.g r.1)) s'
              done (closeWindow s' k)

/-! ## MSTAT (R236) -/

/-- The result of MSTAT, or none for OperandRange. -/
def mstatWord (s : State) (sl : Nat) (w : Word) : Option Word :=
  let a := accRead s (fld w 1 0)
  let r := getRow s a (fld w 14 8)
  let m := s.t.mat
  match sl with
  | 1 => some (BitVec.ofNat 64 ((if m.psel then 1 else 0) + 2 * tget 0 m.cls 0 + 8 * tget 0 m.cls 1))
  | 2 => some (BitVec.ofInt 64 r.e)
  | 3 => some (BitVec.ofInt 64 (headroom r))
  | 4 =>
    match tget none m.win a with
    | none => some 0
    | some w => some (BitVec.ofNat 64 (w.beats.length + 2 ^ 8 + w.plane * 2 ^ 9))
  | 6 =>
    if 2 * s.t.g ≤ fld w 3 1 then none
    else some (BitVec.ofNat 64 (tget 0x3F800000 m.half (16 * fld w 0 0 + fld w 3 1)))
  | _ => some (BitVec.ofNat 64 m.rnm)

def execMstat (rd ra sl : Nat) (s : State) : Res :=
  notInTrap s <|
    if accBusy s then wait s
    else match mstatWord s sl (getS s ra) with | none => faultC s cOperand | some w => done (setS s rd w)

def execMstatReset (rd : Nat) (s : State) : Res :=
  notInTrap s <|
    if accBusy s then wait s
    else done (onMat (setS s rd (BitVec.ofNat 64 s.t.mat.rnm)) fun m => { m with rnm := 0 })

end Sys2Proof.Machine
end

