-- ==== Sys2Proof/Machine/Tasks.lean ====
section
/-! DEFINITION. Tasks: END and the conclusion of a stub (R91, R410), TSPAWN, TWAIT, YIELD, TKILL and TSELF (R389 to R391, R396). -/

namespace Sys2Proof.Machine

/-! ## END, YIELD and the conclusion of a stub (R91, R391, R410) -/

/-- A word in stub mode concludes the stub (R410): the region is aborted, the slots empty, every result in flight is delivered, open
windows are checked, and the task suspends at RESUMEPC. -/
def concludeStub (s : State) : Res :=
  let s := if s.t.spec.isOpen then { abortSpec s 7 with t := { (abortSpec s 7).t with pc := s.t.pc } } else s
  if slotsBusy s then wait s
  else
    let s := flushLatches s
    match checkPlanes s fun _ => true with
    | .error t => if t.code = cAbft then .next (rewindCause s cAbft 0 0) else fault s t
    | .ok s => .next (suspend s { kind := 1, susp := 4, st := 1, pc := s.t.resume })

/-- END: an open region is aborted; then the slots empty and the task retires. -/
def execEndTask (s : State) : Res :=
  notInTrap s <|
    if s.t.stub then concludeStub s
    else if s.t.spec.isOpen then .next (retireEnd (landBeats (abortSpec (closeSeg s) 6)))
    else if slotsBusy s || !s.t.slots.beats.isEmpty then wait s
    else .next (retireEnd (closeSeg s))

def execYield (s : State) : Res :=
  notInTrap s <|
    if s.t.stub then concludeStub s
    else
      notInSpec s <|
        let s := advance (closeSeg s)
        .next (suspend s { kind := 3, susp := 1, st := 1, pc := s.t.pc })

/-! ## Envelopes (R389) -/

/-- The envelope at s(A), read at its order point: address, bytes, pieces, and the state after the read. -/
def envRead (s : State) (ra : Nat) : Except Trap (Nat × List Byte × List Piece × State) :=
  match eaOf s ra 0 with
  | .error t => .error t
  | .ok ea =>
    if ea % 64 ≠ 0 then .error { code := cMisaligned, va := ea }
    else match orderRead s ea 64 .read with | .error t => .error t | .ok (ps, s') => .ok (ea, peekPieces s' ps, ps, s')

/-- Whether the HBM budget withholds the read of an envelope (R453). -/
def envWithheld (s : State) (ra : Nat) : Bool := match eaOf s ra 0 with | .ok ea => withheld s ea 64 .read 1 true | .error _ => false

/-- The live task whose envelope lies at a physical address. -/
def taskAtPa (s : State) (pa : Nat) : Option TaskRec :=
  (taskList s).find? fun r => match pieces s r.asid true r.env 1 .read with | .ok (p :: _) => p.pg.pa = pa | _ => false

/-! ## TSPAWN (R390) -/

/-- The checks of R390 on the envelope `bs` at `ea` and on the incoming block, in order, and the access fault of the envelope's write: the
incoming edges and the state after the loads of the block, or the first fault. -/
def spawnCheck (s : State) (ea : Nat) (bs : List Byte) (ps : List Piece) (r : TaskRec) :
    Except Trap (List Edge × State) :=
  if envNotNew bs then .error { code := cTaskState }
  else if envBad bs || r.tint = 3 || ps.any (fun p => 2 ≤ p.pg.kind) then .error { code := cOperand }
  else
    match loadEdges s r with
    | .error t => .error t
    | .ok (es, s) =>
      if !s.c.priv && r.tint ≠ s.t.me.tint then .error { code := cTint }
      else match accCheck s ea 64 .write with | .error t => .error t | .ok _ => .ok (es, s)

/-- Whether the HBM budget withholds the read of the incoming block (R453). -/
def edgeWithheld (s : State) (r : TaskRec) : Bool :=
  let n := match readEdges s r r.inE with | some es => es.length | none => 0
  match pieces s r.asid r.sup r.inE (blockLen n) .read with | .ok ps => 0 < r.inE && piecesWithheld s ps | .error _ => false

/-- The task an envelope describes, as the task in focus spawns it (R440, R470). -/
def spawned (s : State) (bs : List Byte) (ea : Nat) : TaskRec :=
  { envTask bs ea (if s.c.priv then s.t.regs.spawnasid else s.t.me.asid) with
    parent := s.t.me.tag, cntbase := s.t.regs.cntbase, topoen := s.t.regs.topoen, die := dieOf s.cur }

/-- The releasing write of an envelope's bytes by its spawner. -/
def envRelease (asid : Nat) (sup : Bool) (ea : Nat) (s : State) (off : Nat) (bs : List Byte) : State :=
  writeVA (fun how s pa bs => orderWrite s pa bs { how with sync := some (myRec s 3) }) s (tint s) asid sup (ea + off) bs

def execTspawn (rd ra : Nat) (s : State) : Res :=
  notInTrap s <| notInSpec s <|
    if envWithheld s ra then wait s
    else
      match envRead s ra with
      | .error t => fault s t
      | .ok (ea, bs, ps, s') =>
        let r := spawned s bs ea
        if edgeWithheld s r then wait s
        else
          match spawnCheck s' ea bs ps r with
          | .error t => fault s t
          | .ok (es, s') =>
            asRelease s' fun s =>
              let tag := nextTag s
              let s := launch s r es (envRelease s.t.me.asid s.t.me.sup ea)
              doneC (setS (tagLines s (meAgent s) true (checkedLines ps)) rd (BitVec.ofNat 64 tag))

/-! ## TWAIT (R391) -/

/-- A word that suspended the task completes with what it awaited (R391, R393, R394). -/
def withResult (s : State) (rd : Nat) (k : Res) : Res :=
  match s.t.me.result with
  | some w =>
    let acq := s.t.me.acquire.isSome
    let s := onMe s fun r => { r with result := none, acquire := none, awaits := none }
    let s := setTask s s.t.me.tag (some s.t.me)
    doneC (setS (if acq then acquire s else s) rd w)
  | none => k

/-- The task in focus suspends at its word until what it awaits comes. -/
def suspendFor (s : State) (awaits susp : Nat) : Res :=
  let s := onMe (closeSeg s) fun r => { r with awaits := some awaits }
  .next (suspend (setTask s s.t.me.tag (some s.t.me)) { kind := 3, susp, st := 3, pc := s.t.pc })

def execTwait (rd ra : Nat) (s : State) : Res :=
  notInTrap s <| notInSpec s <| withResult s rd <|
    if envWithheld s ra then wait s
    else
      match envRead s ra with
      | .error t => fault s t
      | .ok (_, bs, ps, s') =>
        let st := envN bs 48 4 % 16
        match taskAtPa s (pieceAt ps 0) with
        | some r => suspendFor s' (1024 + r.tag) 2
        | none =>
          if st = 0 then faultC s cTaskState
          else if st = 5 || st = 6 then doneC (setS (acquire s') rd (BitVec.ofNat 64 (envN bs 48 8)))
          else suspendFor s' (1024 + envN bs 52 4 % 2 ^ 20) 2

/-! ## TSELF -/

def execTself (rd sl : Nat) (s : State) : Res :=
  notInTrap s <|
    let r := s.t.me
    let v := if sl = 0 then r.tag else if sl = 1 then r.env else if sl = 2 then r.dom else r.parent
    done (setS s rd (BitVec.ofNat 64 v))

/-! ## Saved contexts -/

/-- Bytes of the save area of a task that does not run, by the nonzero ones; none where they cannot be read. -/
def readArea (s : State) (r : TaskRec) (n : Nat) : Option (Tbl Byte) :=
  match pieces s r.asid r.sup r.save n .read with
  | .error _ => none
  | .ok ps => some (ps.flatMap fun p => tshift (readRange s p.pg.pa p.len) p.off)

/-- The per-task system registers of a task that does not run: as its save area holds them, or, where that cannot be read, as the device
kept them. -/
def savedRegs (s : State) (r : TaskRec) : TaskRegs :=
  if r.ran then
    match readArea s r 0x1000 with
    | some m => readSys (0x100 + 1856) m
    | none => ((tget none s.pkg.parked r.tag).getD {}).regs
  else {}

/-- Abort the open region in a saved context (R396, R426). -/
def abortSaved (s : State) (r : TaskRec) : State :=
  let g := 2 ^ r.gw
  match tget none s.pkg.parked r.tag, readArea s r (offSpm g) with
  | some d, some m =>
    if r.ran && cellN m (offSpec g) 1 % 2 = 1 then
      let x := abortSpec { s with t := restore m d r g, c := {} } 5
      let cells := saveRegs x (cellN m 0 4 % 16) x.t.pc
      match pieces s r.asid r.sup r.save (offSpm g) .write with
      | .error _ => s
      | .ok ps =>
        let s := ps.foldl (fun s p => orderWriteRange s r.tint p.pg.pa p.len (tslice cells p.off p.len)) s
        let s := onPkg s fun p => { p with parked := tset none p.parked r.tag (some (parkedOf x (cellN m 0 4 % 16))) }
        let r := { r with pc := x.t.pc }
        setTask (writeVA wrPlain s r.tint r.asid r.sup r.env (leBytes 8 r.pc.toNat)) r.tag (some r)
    else s
  | _, _ => s

/-! ## TKILL (R396) -/

/-- A core that cannot be stopped now: in a word that may not be interrupted (R349). -/
def unstoppable (s : State) (core : Nat) : Bool := (coreCtx s core).t.begun = 1

/-- Stop the task in focus for a TKILL: trap mode ends, with TRAPPC as the resume point (R465), and an open region is aborted,
unless a write has decided its commit (R423, R425). -/
def stopped (x : State) : State :=
  let x := if x.c.trap then { leaveTrap x with t := { (leaveTrap x).t with pc := x.c.trappc } } else x
  let x := if x.t.spec.commit then commitSpec x else x
  if x.t.spec.isOpen then abortSpec x 5 else x

/-- TKILL's checks on the envelope at s(A), and `k` on the live target. -/
def tkill (ra : Nat) (s : State) (k : TaskRec → State → Res) : Res :=
  notInTrap s <| notInSpec s <|
    if envWithheld s ra then wait s else
    match envRead s ra with
    | .error t => fault s t
    | .ok (_, bs, ps, s') =>
      match taskAtPa s (pieceAt ps 0) with
      | none => if envN bs 48 4 % 16 = 0 then faultC s cTaskState else doneC s'
      | some r => if !s.c.priv && r.asid ≠ s.t.me.asid then faultC s cPrivilege else asRelease s' (k r)

/-- Retire a task that does not run as killed. -/
def killIdle (s : State) (r : TaskRec) (exit : Nat) : State :=
  let s := dequeue (killJobs s r.tag) r
  retireRec s r (savedRegs s r) 6 exit

def execTkillKill (ra : Nat) (s : State) : Res :=
  tkill ra s fun r s =>
    if r.tag = s.t.me.tag then .next (retireKilled s 1)
    else
      match runningOn s r.tag with
      | none => doneC (killIdle s r 1)
      | some core =>
        if unstoppable s core then wait s
        else
          let x := focus s core
          doneC (focus (retireKilled (stopped x) 1) s.cur)

/-- Halt a task that does not run: its open region is aborted, and a READY task shows SUSP 7. A task that waits or is parked keeps its
state and its SUSP, since R381 gives it no other transition (DEDUCED, log entry 76). -/
def haltIdle (s : State) (r : TaskRec) : State :=
  let s := abortSaved s r
  match getTask s r.tag with
  | some r =>
    if r.st = 1 then
      let r := { r with susp := 7 }
      setTask (envStatus wrPlain s r) r.tag (some r)
    else s
  | none => s

def execTkillHalt (ra : Nat) (s : State) : Res :=
  tkill ra s fun r s =>
    if r.tag = s.t.me.tag then
      let s := advance (closeSeg s)
      .next (suspend s { kind := 3, susp := 7, st := 1, pc := s.t.pc })
    else
      match runningOn s r.tag with
      | none => doneC (haltIdle s r)
      | some core =>
        let x := focus s core
        if unstoppable s core || x.c.leaving.isSome || jobsOnSpm x then wait s
        else
          let x := stopped x
          doneC (focus (suspend x { kind := 3, susp := 7, st := 1, pc := x.t.pc }) s.cur)

end Sys2Proof.Machine
end

