-- ==== Sys2Proof/Machine/Domains.lean ====
section
/-! DEFINITION. The words of domains: DBAR, DJOIN, DLEAVE, DEVICT, DPHASE (R386 to R395, R441, R450, R451). -/

namespace Sys2Proof.Machine

/-- A domain operand (R389). -/
def onDomain (s : State) (ra : Nat) (k : Nat → Res) : Res :=
  let d := (getS s ra).toNat
  if 2 ^ 10 ≤ d then faultC s cOperand else k d

/-- The core, cluster or die that a LEVEL anchors to; 0 for the wider levels (R386). -/
def anchorOf (level core : Nat) : Nat :=
  if level = 0 then core else if level = 1 then clusterOf core else if level = 2 then dieOf core else 0

/-- Whether a core lies within a domain's ANCHOR. -/
def anchorAdmits (x : Domain) (core : Nat) : Bool := 2 < x.level || anchorOf x.level core = x.anchor

/-- A domain that takes no more members. -/
def domFull (x : Domain) : Bool := (match x.list with | none => 64 | some _ => 4096) ≤ x.members.length

/-- The result of DJOIN (R392). -/
def joinWord (d idx gen : Nat) : Word := BitVec.ofNat 64 (gen * 2 ^ 32 + idx * 2 ^ 16 + d)

/-! ## An entry at another package (R386, R387) -/

/-- Ask the entry of a domain, which is at another package, for a change of its members, and wait for its answer. -/
def ask (s : State) (d : Nat) (x : Domain) (n : BarNotice) : Res :=
  .next (tellHome (setDom s d (some { x with asks := (s.t.me.tag, none) :: x.asks })) x n)

/-- The task in focus has asked the entry: it waits, goes on with the GEN of the answer, or raises DomainState where the entry could not do
it; else `k`. -/
def onAnswer (s : State) (d : Nat) (x : Domain) (ok : State → Nat → Res) (k : Res) : Res :=
  match x.asks.find? (·.1 = s.t.me.tag) with
  | none => k
  | some (_, none) => wait s
  | some (_, some r) =>
    let s := keepDom s d { x with asks := x.asks.filter (·.1 ≠ s.t.me.tag) }
    match r with
    | some gen => ok s gen
    | none => faultC s cDomain

def execDjoin (rd ra : Nat) (s : State) : Res :=
  notInTrap s <| notInSpec s <| onDomain s ra fun d =>
    let tag := s.t.me.tag
    match myDom s d with
    | none => faultC s cDomain
    | some x =>
      onAnswer s d x (fun s gen => doneC (setS s rd (joinWord d (x.idxOf tag) gen))) <|
      if x.has tag || domFull x then faultC s cDomain
      else if !anchorAdmits x s.cur then faultC s cOperand
      else if s.t.hdr.domains ≤ (membershipsOf s tag).length then faultC s cResource
      else if x.home.isSome then ask s d x (.join d tag)
      else doneC (setS (domJoin s d tag) rd (joinWord d (freeIdx x) ((x.gen + 1) % 2 ^ 16)))

/-- A field of DJOIN.new's second operand breaks R392. -/
def newDomBad (w : Word) : Bool := 4 < fld w 2 0 || fld w 5 4 ≠ 0 || fld w 63 56 ≠ 0 || (!w.getLsbD 3 && fld w 55 6 ≠ 0)

def execDjoinNew (rd ra rb : Nat) (s : State) : Res :=
  notInTrap s <| notInSpec s <| onDomain s ra fun parent =>
    let w := getS s rb
    let level := fld w 2 0
    let tag := s.t.me.tag
    let up := if parent = 0 then none else myDom s parent
    if newDomBad w then faultC s cOperand
    else if parent ≠ 0 && up.isNone then faultC s cDomain
    else
      match (List.range 1024).find? fun d => d ≠ 0 && (getDom s d).isNone with
      | none => faultC s cDomain
      | some d =>
        if up.any (fun p => p.level < level) then faultC s cOperand
        else if s.t.hdr.domains ≤ (membershipsOf s tag).length then faultC s cResource
        else
          let x : Domain :=
            { level, parent, anchor := anchorOf level s.cur, asid := s.t.me.asid,
              list := if w.getLsbD 3 then some (64 * fld w 55 6) else none, members := [(0, tag, false)] }
          let s := writeList (setDom s d (some x)) x
          doneC (setS (tellMembers s x (.entry d s.pkg.number x.asid 0 0 [(0, tag)])) rd (joinWord d 0 0))

def execDleave (rd ra : Nat) (s : State) : Res :=
  notInTrap s <| notInSpec s <| onDomain s ra fun d =>
    match myDom s d with
    | none => faultC s cDomain
    | some x =>
      onAnswer s d x (fun s gen => doneC (setS s rd (BitVec.ofNat 64 gen))) <|
      if !x.has s.t.me.tag then faultC s cDomain
      else if x.home.isSome then ask s d x (.leave d s.t.me.tag s.t.me.tag)
      else doneC (setS (domWithdraw s d s.t.me.tag) rd (BitVec.ofNat 64 ((x.gen + 1) % 2 ^ 16)))

/-- The DBAR that a withdrawn member waits in completes with EVICTED (R393). -/
def evicted (s : State) (d tag gen phase : Nat) : State := releaseArriver s d tag (dbarWord true 0 gen phase) none

def execDevict (rd ra rb : Nat) (s : State) : Res :=
  notInTrap s <| notInSpec s <| supOnly s <| onDomain s ra fun d =>
    let tag := fld (getS s rb) 19 0
    match liveDom s d with
    | none => faultC s cDomain
    | some x =>
      onAnswer s d x (fun s gen => doneC (setS s rd (BitVec.ofNat 64 gen))) <|
      if !x.has tag then faultC s cDomain
      else if x.home.isSome then ask s d x (.leave d tag s.t.me.tag)
      else
        let gen := (x.gen + 1) % 2 ^ 16
        doneC (setS (evicted (domLeave s d tag s.t.me.tag) d tag gen x.phase.toNat) rd (BitVec.ofNat 64 gen))

/-! ## DBAR (R388, R394, R451) -/

/-- The live memberships of a task whose first DBAR has been counted. -/
def barrierCount (s : State) (tag : Nat) : Nat :=
  (s.pkg.domains.filter fun e => match e.2 with | some x => x.members.any fun m => m.2.1 = tag && m.2.2 | none => false).length

/-- Whether a member's first DBAR on the domain has been counted. -/
def Domain.counted (x : Domain) (tag : Nat) : Bool := x.members.any fun m => m.2.1 = tag && m.2.2

def execDbar (rd ra : Nat) (s : State) : Res :=
  notInTrap s <| notInSpec s <| withResult s rd <| onDomain s ra fun d =>
    let tag := s.t.me.tag
    match myDom s d with
    | none => faultC s cDomain
    | some x =>
      if !x.has tag then faultC s cDomain
      else if !x.counted tag && s.t.hdr.barriers ≤ barrierCount s tag then faultC s cResource
      else
        asRelease s fun s =>
          let s := domArrive s d tag
          match getDom s d with
          | some y =>
            if y.phase = x.phase then suspendFor s d 3
            else doneC (setS (acquire s) rd (dbarWord false y.record.2.2.1 y.record.2.1 x.phase.toNat))
          | none => suspendFor s d 3

/-! ## DPHASE (R395) -/

def domQuery (x : Domain) (sl : Nat) : Word :=
  match sl with
  | 0 => x.phase.setWidth 64
  | 1 => BitVec.ofNat 64 x.gen
  | 2 => BitVec.ofNat 64 x.mask
  | 3 => dbarWord false x.record.2.2.1 x.record.2.1 (x.record.1.toNat % 2 ^ 32)
  | 4 => BitVec.ofNat 64 x.record.2.2.2
  | _ => BitVec.ofNat 64 (x.level + (if x.list.isSome then 8 else 0) + x.parent * 2 ^ 16)

def execDphase (rd ra sl : Nat) (s : State) : Res :=
  notInTrap s <| onDomain s ra fun d =>
    if d = 0 then done (setS s rd 0)
    else match myDom s d with | none => faultC s cDomain | some x => done (setS s rd (domQuery x sl))

/-! ## Notices on VC4 (R345, R386, R387) -/

/-- A membership change of a remote domain reaches the regions bound to it here, and is kept for those that will bind (R344, R345). -/
def execDomainNotice (s : State) : Res :=
  match s.arg with
  | .notice n =>
    .next (nmNotice (onPkg (afterReplay s 4) fun p => { p with told := tset none p.told n.dom (some (n.gen, n.live)) }) n)
  | _ => .fault .noSuchEvent

/-- A fabric-level domain. -/
def fabricDom (s : State) (d : Nat) : Option Domain :=
  match liveDom s d with
  | some x => if x.level = 4 then some x else none
  | none => none

/-- Run `k` on the fabric-level domain of a notice, where its entry is here (`here`) or elsewhere; a notice of another is ignored. -/
def onFabric (s : State) (d : Nat) (here : Bool) (k : Domain → State) : State :=
  match fabricDom s d with
  | some x => if x.home.isNone = here then k x else s
  | none => s

/-- What a task asked the entry for is answered. -/
def Domain.answer (x : Domain) (asker : Nat) (r : Option Nat) : Domain :=
  { x with asks := x.asks.map fun a => if a.1 = asker && a.2.isNone then (asker, some r) else a }

/-- A completion that the domain's entry announces: the arrivers here that are in its RECORD go on. -/
def remoteCompletion (s : State) (d : Nat) (x : Domain) (phase gen count : Nat) : State :=
  let s := setDom s d (some { x with
    record := (BitVec.ofNat 64 phase, gen, count, x.mask), phase := BitVec.ofNat 32 (phase + 1), gen, arrived := [] })
  (x.members.filter fun m => x.arrived.contains m.2.1).foldl (fun s m => releaseArriver s d m.2.1 (dbarWord false count gen phase) (some 4)) s

/-- A fabric-level domain whose entry is at another package becomes known here, with its members. -/
def remoteEntry (s : State) (d home asid phase gen : Nat) (members : List (Nat × Nat)) : State :=
  if d = 0 || 1024 ≤ d || (getDom s d).isSome then s
  else
    setDom s d (some
      { level := 4, home := some home, asid, phase := BitVec.ofNat 32 phase, gen := gen % 2 ^ 16,
        members := members.map fun m => (m.1, m.2, false) })

/-- The entry has added a member. -/
def remoteJoined (s : State) (d t idx gen : Nat) (x : Domain) : State :=
  let members := if x.has t then x.members else x.members ++ [(idx, t, false)]
  setDom s d (some ({ x with members, gen }.answer t (some gen)))

/-- The entry has withdrawn a member: its arrival is discarded, and a DBAR that it waits in here completes with EVICTED. -/
def remoteLeft (s : State) (d t asker gen phase : Nat) (x : Domain) : State :=
  let x := { x with members := x.members.filter fun m => m.2.1 ≠ t, arrived := x.arrived.filter (· ≠ t), gen }
  evicted (keepDom s d (x.answer asker (some gen))) d t gen phase

/-- What another package's member asks of the entry here, or what the entry elsewhere tells. -/
def barNotice (s : State) (n : BarNotice) : State :=
  match n with
  | .arrival d t => onFabric s d true fun x => if x.has t then domArrive (requestTick s) d t else s
  | .join d t => onFabric s d true fun x => if x.has t || domFull x then sendBar s (peers s) (.denied d t) else domJoin s d t
  | .leave d t u =>
    onFabric s d true fun x =>
      if x.has t then evicted (domLeave s d t u) d t ((x.gen + 1) % 2 ^ 16) x.phase.toNat else sendBar s (peers s) (.denied d u)
  | .joined d t i g => onFabric s d false (remoteJoined s d t i g)
  | .left d t u g p => onFabric s d false (remoteLeft s d t u g p)
  | .denied d u => onFabric s d false fun x => setDom s d (some (x.answer u none))
  | .completion d p g c =>
    onFabric s d false fun x => if x.phase.toNat = p then remoteCompletion (requestTick s) d x p g c else s
  | .entry d home asid phase gen ms => remoteEntry s d home asid phase gen ms
  | .rdv d t n c =>
    (match fabricDom s d with
    | some x => setDom s d (some { x with rdv := tset 0 x.rdv (8 * t + n % 8) (BitVec.ofNat 32 c) })
    | none => s)

def execBarrierNotice (s : State) : Res :=
  match s.arg with
  | .bar n => .next (barNotice (afterReplay s 4) n)
  | _ => .fault .noSuchEvent

end Sys2Proof.Machine
end

