-- ==== Sys2Proof/Machine/SpecWords.lean ====
section
/-! DEFINITION. The words of speculation: SPEC, SCOMMIT, SABORT, SSTAT, and the abort as an event (R419 to R431); YIELDPT and its
stub table (R408, R409). -/

namespace Sys2Proof.Machine

/-! ## SPEC (R420) -/

/-- The registers of a checkpoint. -/
def checkpoint (s : State) : SpecSave :=
  { s := s.t.s, b := s.t.b, q := s.t.q, lc := s.t.lc, loops := s.t.loops, fmt := s.t.slots.fmt, a := s.t.a, sh := s.t.mat.sh,
    v := s.t.v, p := s.t.p }

/-- Take the checkpoint, read the condition word, and open the region or abort it at once. -/
def openRegion (s : State) (b : Nat) (cond exp : Word) (pa : Nat) : State :=
  let s := onSpec s fun _ =>
    { isOpen := true, first := s.t.slots.next, cond, exp, alt := getB s b, pa, last := s.t.spec.last, save := checkpoint s }
  if peekN s pa 8 = exp.toNat then advance s else abortSpec s 2

def execSpec (b ra rb : Nat) (s : State) : Res :=
  notInTrap s <|
    if s.t.spec.isOpen then faultC s cSpecState
    else
      match eaOf s ra 0 with
      | .error t => fault s t
      | .ok w =>
        if 4 < scopeField (getS s ra) then faultC s cOperand
        else if w % 8 ≠ 0 then fault s { code := cMisaligned, va := w }
        else
          match accCheck s w 8 .read true with
          | .error t => fault s t
          | .ok ps =>
            if ps.any fun p => 2 ≤ p.pg.kind then faultC s cOperand
            else if slotsBusy s || withheld s w 8 .read 1 true then wait s
            else
              match softCheck s w ps with
              | some t => fault s t
              | none =>
                let s' := flushLatches (closeSeg (toPoint s w ps false))
                .next (openRegion (recsOf s' ps) b (getS s ra) (getS s rb) (pieceAt ps 0))

/-! ## SCOMMIT, SABORT, SSTAT (R427 to R429) -/

/-- A budget withholds the drain of a queued store (R453). -/
def drainWithheld (s : State) : Bool := s.t.spec.store.any fun e => withheld s e.va (2 ^ e.sz) .write

/-- A budget withholds the read of the condition word or the drain. -/
def commitWithheld (s : State) : Bool := hbmWithheld s s.t.spec.pa (tint s) || drainWithheld s

def execScommit (rd : Nat) (s : State) : Res :=
  notInTrap s <|
    let p := s.t.spec
    if !p.isOpen then doneC (setS s rd 0)
    else if slotsBusy s || commitWithheld s then wait s
    else
      match poisoned s p.pa 8 with
      | some (pa, str) => fault s { code := cSoft, va := baseField p.cond, i2 := str, i3 := pa }
      | none =>
        let s := l2touch s p.pa 8 1 (tint s) true false
        let s := closeSeg (acquireAt (noteRecs s p.pa 8) (syncAt s p.pa) (scopeField p.cond))
        if peekN s p.pa 8 = p.exp.toNat then done (setS (commitSpec s) rd 1) else .next (abortSpec s 4)

def execSabort (s : State) : Res :=
  notInTrap s <| if s.t.spec.isOpen then .next (abortSpec (closeSeg s) 1) else doneC s

def execSstat (rd sl : Nat) (s : State) : Res :=
  notInTrap s <|
    let p := s.t.spec
    let v := if sl = 0 then BitVec.ofNat 64 (sstat0 p) else if sl = 1 then p.cond else if sl = 2 then p.exp else p.alt
    doneC (setS s rd v)

/-- An abort that waits is taken at a bundle boundary (R426), outside trap mode. -/
def execSpecAbort (s : State) : Res :=
  match s.t.spec.pending with
  | none => wait s
  | some c =>
    if s.c.trap || !s.c.busy || s.c.leaving.isSome || midBundle s then wait s
    else if s.t.spec.isOpen then .next (abortSpec s c)
    else .next (onSpec s fun p => { p with pending := none })

/-! ## YIELDPT (R408, R409) -/

/-- A field of 64 bytes of the stub table that must be zero is not. -/
def stubHeadBad (bs : List Byte) : Bool := 1024 < envN bs 0 8 || (bs.drop 8).any (· ≠ 0)
def stubRecBad (bs : List Byte) : Bool :=
  4 ≤ envN bs 24 1 || envN bs 25 7 ≠ 0 || 2 ^ 7 ≤ envN bs 44 1 || (bs.drop 45).any (· ≠ 0)

/-- Whether a record covers a PC for a request class. -/
def stubCovers (bs : List Byte) (pc cls : Nat) : Bool := envN bs 0 8 ≤ pc && pc < envN bs 8 8 && cls ≤ envN bs 24 1

/-- Load 64 bytes of the stub table and go on with them. A translation fault finds no record, another fault is raised, and a budget may
withhold the load (R409, R453). -/
def stubLoad (s : State) (va : Nat) (k : List Byte → State → Except Res (Option (List Byte) × State)) :
    Except Res (Option (List Byte) × State) :=
  if withheld s va 64 .read then .error (wait s)
  else
    match plainRead s va 64 1 with
    | .error t => if t.code = cTranslation then .ok (none, s) else .error (fault s t)
    | .ok (bs, s) => k bs s

/-- Look up record `j` and those after it, `n` of them. -/
def stubFind (s : State) (va pc cls n j : Nat) : Except Res (Option (List Byte) × State) :=
  match n with
  | 0 => .ok (none, s)
  | n + 1 =>
    stubLoad s (va + 64 + 64 * j) fun bs s =>
      if stubRecBad bs then .ok (none, s) else if stubCovers bs pc cls then .ok (some bs, s) else stubFind s va pc cls n (j + 1)

/-- The stub record for a PC and a request class, if the task has one: or the answer of a lookup that faults or waits. -/
def stubLookup (s : State) (pc cls : Nat) : Except Res (Option (List Byte) × State) :=
  if s.t.hdr.stubs = 0 then .ok (none, s)
  else
    stubLoad s s.t.hdr.stubs fun bs s =>
      if stubHeadBad bs then .ok (none, s) else stubFind s s.t.hdr.stubs pc cls (envN bs 0 8) 0

/-- Honour a request of class `cls` at a YIELDPT: the stub of a record that covers it, whose GRACE goes on counting, or a suspension. -/
def honour (s : State) (cls : Nat) : Res :=
  match stubLookup s s.t.pc.toNat cls with
  | .error r => r
  | .ok (found, s) =>
    let s := advance (onC (closeSeg s) fun c => { c with req := none })
    match found with
    | some bs =>
      .next (onC (onT s fun t => { t with stub := true, resume := t.pc, pc := BitVec.ofNat 64 (envN bs 16 8), stubrec := bs })
        fun c => { c with grace := true })
    | none => .next (suspend s { kind := 2, susp := 4, st := 1, pc := s.t.pc })

def execYieldpt (k : Nat) (s : State) : Res :=
  notInTrap s <|
    match s.c.req with
    | none => doneC s
    | some cls => if k < cls || s.t.spec.isOpen || s.t.stub then doneC s else honour s cls

end Sys2Proof.Machine
end

