-- ==== Sys2Proof/Machine/System.lean ====
section
/-! DEFINITION. The system words of major opcode 0x30: system registers, TRAP, SYSRET, TLBINV, TNOISE, BIND, WFE (R462 to R472). -/

namespace Sys2Proof.Machine

/-! ## Access to system registers (R463, R470) -/

/-- Whether a read of a register needs supervisor privilege; none for a number that may not be read. -/
def srRead (n : Nat) : Option Bool :=
  if n ≤ 0x004 || (0x010 ≤ n && n ≤ 0x021) || n = 0x023 || n = 0x024 || n = 0x200 then some false
  else if n = 0x022 || (0x080 ≤ n && n ≤ 0x085) || (0x100 ≤ n && n ≤ 0x10D) || (0x110 ≤ n && n ≤ 0x112) ||
      (0x118 ≤ n && n ≤ 0x123) || (0x201 ≤ n && n ≤ 0x212) || (0x230 ≤ n && n ≤ 0x24F) then some true
  else none

/-- Whether a write needs supervisor privilege; none for a number that may not be written by MTSR. -/
def srWrite (n : Nat) : Option Bool :=
  if n = 0x000 || n = 0x001 || n = 0x003 || n = 0x010 || n = 0x016 || (0x018 ≤ n && n ≤ 0x01F) || n = 0x023 || n = 0x024 then some false
  else if (0x020 ≤ n && n ≤ 0x022) || n = 0x081 || (0x100 ≤ n && n ≤ 0x10E) || (0x110 ≤ n && n ≤ 0x112) ||
      (0x120 ≤ n && n ≤ 0x123) || (0x201 ≤ n && n ≤ 0x211) || n = 0x213 || n = 0x214 || (0x230 ≤ n && n ≤ 0x24F) then some true
  else none

/-- A number that a word may not name at all (R463), which comes before every other fault of it (R67). -/
def srIllegal (level : Nat → Option Bool) (n : Nat) : Bool := n < 0xF00 && (level n).isNone

/-- The check of a register number and of the privilege. -/
def srCheck (level : Nat → Option Bool) (s : State) (n : Nat) : Option Trap :=
  if 0xF00 ≤ n then some { code := cPrivilege }
  else match level n with
    | none => some { code := cIllegal }
    | some sup => if sup && !s.c.priv then some { code := cPrivilege } else none

/-! ## Reading (R26, R463, R470) -/

/-- Cores of the package bound to good halves. -/
def goodCores (s : State) : Nat :=
  ((List.range 256).filter fun c => bindByte s c ≠ 0 && (boundHalves s c).all fun h => !s.pkg.defective.contains h).length

def gwCode (g : Nat) : Nat := if g = 4 then 2 else if g = 2 then 1 else 0

/-- GEO. -/
def geo (s : State) : Nat :=
  let g := s.t.g
  goodCores s * 2 ^ 55 + 8 * g * 2 ^ 48 + 32 * g * 2 ^ 40 + 256 * g * 2 ^ 28 + 128 * 2 ^ 20 + gwCode g * 2 ^ 18 + s.cur * 2 ^ 8 + 32 * g

/-- Eight bytes of a map as a register, from entry `lo` on. -/
def byteReg (f : Nat → Nat) : Nat := leNat ((List.range 8).map fun i => BitVec.ofNat 8 (f i))

/-- Per-task registers. -/
def readTaskReg (s : State) (n : Nat) : Nat :=
  let r := s.t.regs
  if n = 0x000 then s.t.sts.toNat
  else if n = 0x001 then fmtSeen s s.t.slots.next
  else if n = 0x002 then geo s
  else if n = 0x003 then s.t.mat.rnm
  else if n = 0x004 then s.t.me.asid
  else if n = 0x010 then r.adoptpol
  else if n = 0x011 then r.vhold.toNat
  else if n ≤ 0x015 then (tget 0 r.vpins (n - 0x012)).toNat
  else if n = 0x016 then r.rdvdom
  else if n = 0x017 then r.acqepoch
  else if n ≤ 0x01F then (tget 0 r.rdvcnt (n - 0x018)).toNat
  else if n = 0x020 then r.cntbase
  else if n = 0x021 then r.topoen
  else if n = 0x022 then r.spawnasid
  else if n = 0x023 then trapen r
  else r.timer

def readCoreReg (s : State) (n : Nat) : Nat :=
  if n = 0x080 then s.c.cause.toNat
  else if n = 0x081 then s.c.trappc.toNat
  else (tget 0 s.c.info (n - 0x082)).toNat

def quantumDefault (k : Nat) : Nat := if k = 0 then 2000 else if k = 1 then 200 else 5000

def readDieReg (s : State) (n : Nat) : Nat :=
  let die := dieOf s.cur
  let d := getDie s die
  if n ≤ 0x107 then byteReg fun i => tintByte s (64 * die + 8 * (n - 0x100) + i)
  else if n = 0x108 then ((List.range 4).map fun k => tget 1 d.weight k * 2 ^ (16 * k)).sum
  else if n = 0x109 then d.ageLimit
  else if n ≤ 0x10C then tget (quantumDefault (n - 0x10A)) d.quantum (n - 0x10A)
  else if n = 0x10D then d.grace
  else if n ≤ 0x112 then tget 0xFFFFFFFFFFFFFFFF d.budget (n - 0x110)
  else if n ≤ 0x11F then byteReg fun i => bindByte s (64 * die + 8 * (n - 0x118) + i)
  else if n = 0x120 then d.trapvec.toNat
  else if n = 0x121 then d.trapext.toNat
  else if n = 0x122 then d.faultring.toNat
  else d.faultcnt

/-- BOOTSTAT (R479). -/
def bootstat (p : Pkg) : Nat := p.secver * 2 ^ 32 + (if p.minimal then 2 ^ 10 else 0) + p.bootCount % 4 * 2 ^ 8 + p.bootReason

def readPkgReg (s : State) (n : Nat) : Nat :=
  let p := s.pkg
  if n = 0x200 then p.epoch
  else if n = 0x201 then p.ptbase
  else if n = 0x202 then p.nodeid
  else if n = 0x203 then p.fwinbase
  else if n = 0x204 then p.fwinlen
  else if n = 0x205 then p.fwinasid
  else if n = 0x206 then p.fcntbase
  else if n = 0x207 then p.vsealdrop
  else if n ≤ 0x20F then byteReg fun i => tget 0 p.vowner (8 * (n - 0x208) + i)
  else if n = 0x210 then p.laneLimit.toNat
  else if n = 0x211 then p.suspectLimit
  else if n = 0x212 then bootstat p
  else if n ≤ 0x23F then (tget 0 p.lba (n - 0x230)).toNat
  else (tget 0 p.lbb (n - 0x240)).toNat

/-- The value of a system register. -/
def sysReg (s : State) (n : Nat) : Nat :=
  if n < 0x080 then readTaskReg s n
  else if n < 0x100 then readCoreReg s n
  else if n < 0x200 then readDieReg s n
  else readPkgReg s n

/-- STS and RNMCOUNT are interlocked with every slot (R125, R463), FMT with the C slot (R29). -/
def srBusy (s : State) (n : Nat) : Bool :=
  ((n = 0x000 || n = 0x003) && slotsBusy s) || (n = 0x001 && !s.c.trap && fmtPending s s.t.slots.next)

def execMfsr (r num : Nat) (s : State) : Res :=
  match srCheck srRead s num with
  | some t => fault s t
  | none => if srBusy s num then wait s else done (setS s r (BitVec.ofNat 64 (sysReg s num)))

/-! ## Writing -/

/-- What every MTSR checks before its register's own rule, and its value. -/
def mtsr (s : State) (num rs : Nat) (k : Nat → Res) : Res :=
  if srIllegal srWrite num then faultC s cIllegal
  else
    notInSpec s <|
      match srCheck srWrite s num with
      | some t => fault s t
      | none => if srBusy s num then wait s else k (getS s rs).toNat

/-- Write a per-task register; none for OperandRange. Reserved bits are ignored (R4). -/
def writeTaskReg (s : State) (n v : Nat) : Option State :=
  if n = 0x000 then some { s with t := { s.t with sts := BitVec.ofNat 64 (Nat.land v 0x7DF) } }
  else if n = 0x003 then some (onMat s fun m => { m with rnm := v % 2 ^ 32 })
  else if n = 0x010 then if v < 3 then some (onRegs s fun r => { r with adoptpol := v }) else none
  else if n = 0x016 then some (onRegs s fun r => { r with rdvdom := v % 2 ^ 10 })
  else if n ≤ 0x01F then some (tellRdv (onRegs s fun r => { r with rdvcnt := tset 0 r.rdvcnt (n - 0x018) (BitVec.ofNat 32 v) }) (n - 0x018))
  else if n = 0x020 then some (onRegs s fun r => { r with cntbase := v % 2 ^ 12 })
  else if n = 0x021 then some (onRegs s fun r => { r with topoen := v % 2 })
  else if n = 0x022 then some (onRegs s fun r => { r with spawnasid := v % 2 ^ 8 })
  else some (onRegs s fun r => { r with rnme := v % 2 = 1, rnmPending := r.rnmPending && v % 2 = 1 })

/-- Write a die register; none for OperandRange. -/
def writeDieReg (s : State) (n v : Nat) : Option State :=
  let on := fun f => some (onDie s (dieOf s.cur) f)
  if n = 0x108 then on fun d => { d with weight := (List.range 4).foldl (fun m k => tset 1 m k (v / 2 ^ (16 * k) % 2 ^ 16)) [] }
  else if n = 0x109 then on fun d => { d with ageLimit := v % 2 ^ 16 }
  else if n ≤ 0x10C then on fun d =>
    let k := n - 0x10A
    { d with quantum := tset (quantumDefault k) (terase d.quantum k) k (v % 2 ^ 16) }
  else if n = 0x10D then if v % 2 ^ 16 = 0 || 1000 < v % 2 ^ 16 then none else on fun d => { d with grace := v % 2 ^ 16 }
  else if n ≤ 0x112 then on fun d => { d with budget := tset 0xFFFFFFFFFFFFFFFF d.budget (n - 0x110) v }
  else if n = 0x120 then if v % 2 = 1 then none else on fun d => { d with trapvec := BitVec.ofNat 64 v }
  else if n = 0x121 then on fun d => { d with trapext := BitVec.ofNat 64 (v % 2 ^ 32) }
  else if n = 0x122 then on fun d => { d with faultring := BitVec.ofNat 64 (Nat.land v 0xFFFFFFFFFFF01) }
  else on fun d => { d with faultcnt := v % 2 ^ 12 }

/-- LBA and LBB hold nothing outside their fields (R474). -/
def lbaBad (v : Nat) : Bool := v / 2 ^ 62 % 2 = 1 || v / 2 ^ 40 % 2 ^ 4 ≠ 0 || 11 < v / 2 ^ 56 % 2 ^ 4

/-- Write a package register; none for OperandRange. -/
def writePkgReg (s : State) (n v : Nat) : Option State :=
  let on := fun f => some (onPkg s f)
  if n = 0x201 then if v % 2 ^ 13 ≠ 0 || hbmEnd ≤ v + 2047 then none else on fun p => { p with ptbase := v }
  else if n = 0x202 then on fun p => { p with nodeid := v % 2 ^ 13 }
  else if n = 0x203 then on fun p => { p with fwinbase := v }
  else if n = 0x204 then on fun p => { p with fwinlen := v }
  else if n = 0x205 then on fun p => { p with fwinasid := v % 2 ^ 8 }
  else if n = 0x206 then on fun p => { p with fcntbase := v % 2 ^ 12 }
  else if n ≤ 0x20F then on fun p =>
    { p with vowner := (List.range 8).foldl (fun m i => tset 0 m (8 * (n - 0x208) + i) (v / 2 ^ (8 * i) % 2 ^ 8)) p.vowner }
  else if n = 0x210 then if v % 2 ^ 32 ≤ v / 2 ^ 32 then none else on fun p => { p with laneLimit := BitVec.ofNat 64 v }
  else if n = 0x211 then if v % 2 ^ 8 = 0 || 2 ^ 9 ≤ v then none else on fun p => { p with suspectLimit := v }
  else if n ≤ 0x23F then if lbaBad v then none else on fun p => { p with lba := tset 0 p.lba (n - 0x230) (BitVec.ofNat 64 v) }
  else if 2 ^ 14 ≤ v then none else on fun p => { p with lbb := tset 0 p.lbb (n - 0x240) (BitVec.ofNat 64 v) }

/-- Write a register that has no word of its own in the opcode table. -/
def writeReg (s : State) (n v : Nat) : Option State :=
  if n < 0x080 then writeTaskReg s n v else if n < 0x200 then writeDieReg s n v else writePkgReg s n v

def execMtsr (r num : Nat) (s : State) : Res :=
  mtsr s num r fun v => match writeReg s num v with | some s => doneC (mendReg s num) | none => faultC s cOperand

/-- MTSR to FMT: seen by the next bundle and later ones (R29, R133). -/
def execMtsrFmt (rs : Nat) (s : State) : Res :=
  notInSpec s <|
    let v := (getS s rs).toNat % 2 ^ 16
    if fmtOk v then doneC (mendReg (settle (addFmt s s.t.slots.next (2 * s.t.slots.next) v)) 0x001) else faultC s cOperand

def execMtsrTimer (rs : Nat) (s : State) : Res := mtsr s 0x024 rs fun v => doneC (mendReg (onRegs s fun r => { r with timer := v % 2 ^ 32 }) 0x024)

def execMtsrTrappc (rs : Nat) (s : State) : Res :=
  mtsr s 0x081 rs fun v =>
    if !s.c.trap then faultC s cPrivilege
    else if v % 2 = 1 then faultC s cOperand
    else doneC (mendReg (onC s fun c => { c with trappc := BitVec.ofNat 64 v }) 0x081)

/-! ## TINTMAP (R398, R417) -/

/-- Byte `i` of a register value. -/
def valByte (v i : Nat) : Nat := v / 2 ^ (8 * i) % 2 ^ 8

/-- A byte with GW 0b11, or a group whose GW fields differ. -/
def tintBad (v : Nat) : Bool :=
  (List.range 8).any fun i =>
    let w := valByte v i / 4 % 4
    w = 3 || (List.range (2 ^ w)).any fun j => valByte v (i / 2 ^ w * 2 ^ w + j) / 4 % 4 ≠ w

/-- The members of the group of core `core` under a tint byte. -/
def groupUnder (byte core : Nat) : List Nat :=
  let g := 2 ^ (byte / 4 % 4)
  (List.range g).map (· + core / g * g)

/-- A core whose group is repartitioned: its task is asked to leave, or, idle, it changes at once. -/
def repartitionCore (s : State) (core : Nat) : State :=
  if (coreCtx s (leadOf s core)).c.busy then postReq s core 0
  else onCore s core fun x => { x with c := { x.c with tint := tintByte s core } }

def execRepartition (rs k : Nat) (s : State) : Res :=
  mtsr s (0x100 + k) rs fun v =>
    if tintBad v then faultC s cOperand
    else
      let base := 64 * dieOf s.cur + 8 * k
      let changed := (List.range 8).filter fun i => tintByte s (base + i) ≠ valByte v i % 16
      let cores := (List.range 8).map (· + base)
      let hit := cores.filter fun c => changed.any fun i => (groupUnder (tintByte s (base + i)) (base + i)).contains c
      let s := onDie s (dieOf s.cur) fun d =>
        { d with tintmap := changed.foldl (fun m i => tset 3 m (8 * k + i) (valByte v i % 16)) d.tintmap }
      doneC (mendReg (hit.foldl repartitionCore s) (0x100 + k))

/-! ## PREEMPT, VSEALDROP, BOOTOK, RESUMETASK (R359, R405, R461, R478) -/

def execPreempt (rs : Nat) (s : State) : Res :=
  mtsr s 0x10E rs fun v => doneC (postReq s (64 * dieOf s.cur + v / 8 % 64) (v % 4))

def execVsealdropClear (rs : Nat) (s : State) : Res := mtsr s 0x207 rs fun _ => doneC (mendReg (onPkg s fun p => { p with vsealdrop := 0 }) 0x207)

/-- A change of BOOTSTAT from one state to the next is signalled to the host (R475). -/
def signalBoot (s s' : State) : State := if bootstat s'.pkg = bootstat s.pkg then s' else emit s' (.msix 17)

/-- Change what BOOTSTAT shows. -/
def onBoot (s : State) (f : Pkg → Pkg) : State := signalBoot s (onPkg s f)

def execBootok (rs : Nat) (s : State) : Res :=
  mtsr s 0x213 rs fun _ => doneC (onBoot s fun p => { p with booted := true, bootWatch := false, bootCount := 0 })

def execResumetask (rs : Nat) (s : State) : Res :=
  mtsr s 0x214 rs fun v =>
    match taskAt s (v % 2 ^ 56) (v / 2 ^ 56) with
    | some r =>
      if r.st = 3 && r.susp = 6 then
        asRelease s fun s => doneC (makeReady wrPlain s r)
      else faultC s cOperand
    | none => faultC s cOperand

/-! ## TRAP and SYSRET (R457, R464, R465) -/

def execTrap (code : Nat) (s : State) : Res :=
  notInSpec s <|
    if s.c.trap then fault s { code := cSoftware, i2 := code }
    else .next (takeTrap (closeSeg s) (causeWord cSoftware false false 0) [0, 0, code, 0] (s.t.pc + 4))

/-- SYSRET leaves trap mode; outside it, it is a privilege fault. -/
def sysret (s : State) (k : State → Res) : Res :=
  notInSpec s <| if s.c.trap then k { leaveTrap s with t := { (leaveTrap s).t with pc := s.c.trappc } } else faultC s cPrivilege

/-- A freeze that fell due in trap mode comes first, then a pending event, before any slot executes (R412, R460). -/
def execSysretResume (s : State) : Res :=
  sysret s fun s =>
    if s.c.frozenDue then .next (suspend s { kind := 3, susp := 5, st := 1, pc := s.t.pc })
    else if eventPending s then .next (takeEvent s)
    else .next s

/-- TRAPINFO0 to 3. -/
def infoRegs (s : State) : List Nat := (List.range 4).map fun k => (tget 0 s.c.info k).toNat

def execSysretSuspend (s : State) : Res :=
  sysret s fun s =>
    .next (suspend s { kind := 3, susp := 6, st := 3, pc := s.t.pc, record := some (s.c.cause, s.c.trappc, infoRegs s, 0) })

def execSysretKill (s : State) : Res :=
  sysret s fun s => .next (killRecorded (abortIfOpen s 5) s.c.cause s.c.trappc (infoRegs s) 0)

/-! ## TLBINV (R466) -/

/-- Drop the covered translations of the TLBs of every core and every die. -/
def dropTlb (s : State) (covers : Nat × Nat × Nat × Nat → Bool) : State :=
  let s := (List.range 4).foldl (fun s d => onDie s d fun x => { x with tlb := x.tlb.filter fun e => !covers e }) s
  (coreList s).foldl (fun s n => onCore s n fun x => { x with c := { x.c with tlb := x.c.tlb.filter fun e => !covers e } }) s

/-- TLBINV acts once the task's earlier accesses are performed. -/
def tlbinv (s : State) (bad : Bool) (covers : Nat × Nat × Nat × Nat → Bool) : Res :=
  notInSpec s <| supOnly s <|
    if bad then faultC s cOperand
    else if lmBusy s || !s.t.slots.beats.isEmpty then wait s
    else doneC (dropTlb s covers)

def execTlbinvPage (ra rb : Nat) (s : State) : Res :=
  let va := baseField (getS s ra)
  let asid := (getS s rb).toNat
  tlbinv s ((getS s ra).getLsbD 55 || 2 ^ 8 ≤ asid) fun e => e.1 = asid && e.2.1 ≤ va && va < e.2.1 + pageSize e.2.2.1

/-- TLBINV of an ASID; and of everything, where its word names registers, which that form does not use. -/
def execTlbinvAsid (ra rb : Nat) (s : State) : Res :=
  if ra < 64 then tlbinv s (getS s ra ≠ 0 || 2 ^ 8 ≤ (getS s rb).toNat) fun e => e.1 = (getS s rb).toNat
  else tlbinv s (getS s (ra - 64) ≠ 0 || getS s rb ≠ 0) fun _ => true

def execTlbinvAll (s : State) : Res := tlbinv s false fun _ => true

/-! ## TNOISE, BIND, WFE (R467 to R469) -/

def execTnoise (rd : Nat) (s : State) : Res :=
  notInSpec s <|
    if s.pkg.noiseBad then faultC s cEntropy
    else doneC (setS (onPkg s fun p => { p with noiseN := p.noiseN + 1 }) rd (Config.noise s.pkg.noiseN))

/-- What BIND refuses. -/
def bindBad (s : State) (core mask : Nat) : Bool :=
  2 ^ 8 ≤ core || 2 ^ 4 ≤ mask || !(popcount4 mask = 0 || popcount4 mask = 2) || tintByte s core % 4 ≠ 3 ||
  (coreCtx s (leadOf s core)).c.busy ||
  (List.range 4).any fun b =>
    mask.testBit b &&
      (s.pkg.quarantined.contains (halfOf core b) || (match ownerOf s (halfOf core b) with | some c => c ≠ core | none => false))
where
  popcount4 (n : Nat) : Nat := ((List.range 4).filter fun i => n.testBit i).length

def execBind (ra rb : Nat) (s : State) : Res :=
  notInSpec s <| supOnly s <|
    let core := (getS s ra).toNat
    let mask := (getS s rb).toNat
    if bindBad s core mask then faultC s cOperand
    else
      let old := boundHalves s core
      let s := setBind s core mask
      doneC (clearBanks s core ((boundHalves s core).filter fun h => !old.contains h))

/-- WFE: it completes at once in trap mode or with something pending, and otherwise begins to wait. -/
def execWfe (ra : Nat) (s : State) : Res :=
  if s.c.trap then doneC s
  else
    notInSpec s <|
      let began := 2 ≤ s.t.begun
      if eventPending s || s.c.req.isSome || (began && s.c.woken) then
        doneC (onC { s with t := { s.t with begun := 0 } } fun c => { c with woken := false })
      else if began then wait s
      else .next (onC { s with t := { s.t with begun := if getS s ra = 0 then 3 else 2 } } fun c => { c with woken := false })

/-- The time of a WFE elapses. -/
def execWfeTimeout (s : State) : Res := if s.t.begun = 2 then .next (onC s fun c => { c with woken := true }) else wait s

/-! ## Events of the task in focus (R456, R460, R472) -/

/-- Take a pending event at a bundle boundary (R456); a WFE that waits completes first (R469), and an OCSET under way is not interrupted
(R349). -/
def execTrapEntry (s : State) : Res :=
  if s.c.busy && !s.c.trap && s.c.leaving.isNone && s.t.begun = 0 && !midBundle s && eventPending s then .next (takeEvent s)
  else wait s

/-- Microseconds of run time pass on the timer: `k` of them, or all that are left; at the step from 1 to 0 the event is pending. -/
def execTimerExpiry (s : State) : Res :=
  if s.c.busy && !s.c.trap && 0 < s.t.regs.timer then
    match s.arg with
    | .num k =>
      if k < s.t.regs.timer then .next (onRegs s fun r => { r with timer := r.timer - k })
      else .next (onRegs s fun r => { r with timer := 0, timerPending := true })
    | .none => .next (onRegs s fun r => { r with timer := 0, timerPending := true })
    | _ => .fault .noSuchEvent
  else wait s

/-- The noise source fails its health test, and is restarted (R467). -/
def execEntropyHealthFailure (s : State) : Res := .next (onPkg s fun p => { p with noiseBad := true })
def execNoiseSourceRestart (s : State) : Res := .next (onPkg s fun p => { p with noiseBad := false })

end Sys2Proof.Machine
end

