-- ==== Sys2Proof/Machine/Recovery.lean ====
section
/-! DEFINITION. Recovery: rewinds (R486, R487), CHKQ and QUARQ (R499 to R501), the suspect scores (R491) and the scrubber
(R482, R483). -/

namespace Sys2Proof.Machine

/-! ## Rewinds (R486) -/

/-- RDVCNT goes back to what a checkpoint holds, and members on other packages are told (R98, R486). -/
def restoreRdv (s : State) (old : Tbl (BitVec 32)) : State :=
  let ns := (List.range 8).filter fun n => tget 0 s.t.regs.rdvcnt n ≠ tget 0 old n
  ns.foldl tellRdv (onRegs s fun r => { r with rdvcnt := old })

/-- Return to the checkpoint of a segment, with one rewind more on its count, and clear the pending-mismatch latch (R101). Writes of
configuration by words after the entry are not restored and take effect at once. -/
def rewindTo (s : State) (g : Seg) : State :=
  let s := restoreRdv (s.t.slots.cfg.foldl applyCfg s) g.rdv
  let n := g.rewinds + 1
  onT s fun t =>
    { t with
      v := g.v, p := g.p, a := g.a, loops := g.loops, pc := g.pc, tick := none, begun := 0,
      seg := some { g with rewinds := n }, rewound := some (g.idx, n),
      undo := none, mismatch := false,
      mat := { t.mat with win := [] },
      spec := { t.spec with full := false },
      slots := { t.slots with
        queue := [], latches := g.latches, cfg := [], early := [], fmt := g.fmt, fmtw := g.fmtw, votes := [], next := g.idx,
        front := (List.range 6).filterMap fun k => if g.idx = 0 then none else some (k, g.idx) } }

/-- Take the rewind that is due. A word that waits is abandoned; an OCSET that has sent its descriptor completes first (R349), and as it
has closed the segment, a cause met since raises SegmentLost then (R487). -/
def execRewind (s : State) : Res :=
  match s.c.rewind with
  | none => wait s
  | some cause =>
    if s.c.trap || !s.c.busy || s.c.leaving.isSome || s.t.begun = 1 then wait s
    else
      let s := onC s fun c => { c with rewind := none }
      match s.t.seg with
      | some g =>
        .next (rewindTo (bbRecord s (dieOf s.cur) 8 s.cur s.t.me.tag
          (leBytes 8 g.pc.toNat ++ leBytes 4 g.idx ++ leBytes 1 (g.rewinds + 1) ++ leBytes 1 cause)) g)
      | none => fault s { code := cSegmentLost, i2 := cause }

/-! ## CHKQ (R500) -/

/-- A compare or a vote of an earlier bundle has not finished, or waits for its CHK. -/
def checksPending (s : State) : Bool := !s.t.slots.votes.isEmpty || [2, 3].any fun k => (pending s k).any fun e => e.code = 0x88 || e.dup

/-- CHKQ in either form. -/
def chkq (s : State) (differ : Bool) : Res :=
  notInTrap s <|
    if checksPending s then wait s
    else if s.t.mismatch then .next (rewindCause (onT s fun t => { t with mismatch := false }) cDup 0 0)
    else if differ then .next (rewindCause s cCheck 0 0)
    else done s

def execChkq (ra rb : Nat) (s : State) : Res := chkq s (getS s ra ≠ getS s rb)
def execChkqQ (qa qb : Nat) (s : State) : Res := chkq s (getQ s qa != getQ s qb)

/-! ## QUARQ (R501) -/

/-- The half that an operand names; none where it names none. -/
def halfArg (w : Word) : Option Nat :=
  if fld w 63 10 ≠ 0 || 8 < fld w 4 1 then none else some (fld w 9 8 * 144 + fld w 7 5 * 18 + 2 * fld w 4 1 + fld w 0 0)

/-- What sel 0 reports of a half. -/
def halfWord (s : State) (h : Nat) : Nat :=
  tget 0 s.pkg.score h + (if s.pkg.quarantined.contains h then 2 ^ 8 else 0) +
    (match ownerOf s h with | some c => 2 ^ 9 + c * 2 ^ 10 | none => 0)

/-- Lane `l` of fibre `f` is entry `8 * f + l`. -/
def getLane (s : State) (k : Nat) : Lane := tget {} s.pkg.lanes k

/-- The lanes of a port that are in service. -/
def inService (s : State) (f : Nat) : Nat := ((List.range 8).filter fun l => !(getLane s (8 * f + l)).out).length

def b2n (b : Bool) : Nat := if b then 1 else 0

/-- What sel 1 to 4 report of a lane. -/
def laneWord (s : State) (sl k : Nat) : Nat :=
  let x := getLane s k
  match sl with
  | 1 =>
    b2n (!x.out) + 2 * b2n x.out + 4 * b2n (!s.pkg.portDown.contains (k / 8)) + inService s (k / 8) * 2 ^ 8 +
      x.removals % 2 ^ 32 * 2 ^ 16
  | 2 => x.corr
  | 3 => x.uncorr
  | _ => x.preber

/-- The value QUARQ writes for sel 0 to 5; none for OperandRange. -/
def quarqWord (s : State) (sl : Nat) (w : Word) : Option Nat :=
  if sl = 0 then (halfArg w).map (halfWord s)
  else if sl ≤ 4 then (if fld w 63 8 ≠ 0 then none else some (laneWord s sl w.toNat))
  else if fld w 63 2 ≠ 0 then none
  else some (getDie s w.toNat).written

def execQuarq (rd ra sl : Nat) (s : State) : Res :=
  notInTrap s <|
    match quarqWord s sl (getS s ra) with
    | some v => done (setS s rd (BitVec.ofNat 64 v))
    | none => faultC s cOperand

/-- Sel 6 and 7: a supervisor acts on a half, and its report follows. -/
def quarqAct (rd ra : Nat) (s : State) (k : Nat → State) : Res :=
  notInTrap s <| supOnly s <|
    match halfArg (getS s ra) with
    | none => faultC s cOperand
    | some h => done (setS (k h) rd (BitVec.ofNat 64 (halfWord (k h) h)))

def execQuarqQuarantine (rd ra : Nat) (s : State) : Res := quarqAct rd ra s (quarantine s)
def execQuarqClear (rd ra : Nat) (s : State) : Res :=
  quarqAct rd ra s fun h => onPkg s fun p => { p with score := tset 0 p.score h 0 }

/-! ## Scores (R491) -/

/-- Every 2^31 cycles each score falls by one. -/
def execScoreDecay (s : State) : Res :=
  .next (onPkg s fun p => { p with score := p.score.foldl (fun m e => tset 0 m e.1 (tget 0 p.score e.1 - 1)) p.score })

/-! ## The scrubber, and errors found (R481 to R483) -/

/-- Charge the half that holds a granule, if one does. -/
def chargeHalf (s : State) (half : Option Nat) (n : Nat) : State := match half with | some h => suspect s h n | none => s

/-- Whether structure `str` holds a physical byte: the L2 a copy of its line or a scratch bank the byte, or HBM. -/
def holdsByte (s : State) (str pa : Nat) : Bool :=
  if str = 5 then pa < hbmEnd else (scratchBase ≤ pa && pa < mmioBase) || (tget none s.pkg.l2 (pa / 128)).isSome

/-- Mark the granule of a physical byte poisoned: 32 bytes of HBM, 8 bytes elsewhere. -/
def markPoison (s : State) (str addr : Nat) : State :=
  let n := if str = 5 then 32 else 8
  onPkg s fun p => { p with poison := (addr / n * n, n, str) :: p.poison }

/-- An uncorrectable error in structure `str`: of the registers' side a rewind is due, of the storage side the granule is
poisoned. -/
def uncorrectable (s : State) (str addr : Nat) (half : Option Nat) : State :=
  let s := bbRecord s (dieOf s.cur) 10 s.cur s.t.me.tag (leBytes 8 str ++ leBytes 8 addr)
  if str ≤ 2 then
    let s := chargeHalf s half 32
    if s.c.busy then rewindCause s cSoft 0 0 else s
  else if str = 3 then
    if addr = 0 || granulePoisoned s addr then s
    else if 0x1100 ≤ addr && addr < 0x2000 then onPkg s fun p => { p with regPoison := regKey s (addr - 0x1000) :: p.regPoison }
    else onT s fun t => { t with poison := addr :: t.poison }
  else markPoison s str addr

/-- A finding in a structure of R481. A corrected error is recorded at most once per granule and second (R498), and charged each
time. -/
def found (s : State) (f : Finding) : Option State :=
  match f with
  | .clean => some s
  | .corrected str addr half again =>
    if str = 0 || 5 < str then none
    else
      let s := if again then s else bbRecord s (dieOf s.cur) 9 s.cur s.t.me.tag (leBytes 8 str ++ leBytes 8 addr)
      some (chargeHalf s half 1)
  | .uncorrectable str addr half =>
    if str = 0 || 5 < str || (4 ≤ str && !holdsByte s str addr) then none else some (uncorrectable s str addr half)
  | .scratchpad off =>
    if mib8 ≤ off then none
    else
      let s := bbRecord s (dieOf s.cur) 10 s.cur s.t.me.tag (leBytes 8 4 ++ leBytes 8 off)
      some (onC s fun c => { c with spmPoison := off / 8 * 8 :: c.spmPoison })
  | .l1 pa =>
    if (l1Get s (pa / 128)).isNone then none
    else
      let s := bbRecord s (dieOf s.cur) 10 s.cur s.t.me.tag (leBytes 8 4 ++ leBytes 8 pa)
      some (onC s fun c => { c with l1Poison := pa / 8 :: c.l1Poison })
  | .tag line =>
    let str := if (tget none s.pkg.l2 line).isSome || hbmEnd ≤ 128 * line then 4 else 5
    let s := bbRecord s (dieOf s.cur) 10 s.cur s.t.me.tag (leBytes 8 str ++ leBytes 8 (128 * line))
    some (onPkg s fun p => { p with tagPoison := line :: p.tagPoison })

def execScrub (s : State) : Res :=
  match s.arg with
  | .finding f => match found s f with | some s => .next s | none => .fault .noSuchEvent
  | _ => .fault .noSuchEvent

end Sys2Proof.Machine
end

