-- ==== Sys2Proof/Machine/Sha.lean ====
section
/-! DEFINITION. SHA-256 (FIPS 180-4), by which the monitor extends the measurement registers (R478). -/

namespace Sys2Proof.Machine.Sha

def roundConst : List (BitVec 32) :=
  [0x428A2F98, 0x71374491, 0xB5C0FBCF, 0xE9B5DBA5, 0x3956C25B, 0x59F111F1, 0x923F82A4, 0xAB1C5ED5] ++
  [0xD807AA98, 0x12835B01, 0x243185BE, 0x550C7DC3, 0x72BE5D74, 0x80DEB1FE, 0x9BDC06A7, 0xC19BF174] ++
  [0xE49B69C1, 0xEFBE4786, 0x0FC19DC6, 0x240CA1CC, 0x2DE92C6F, 0x4A7484AA, 0x5CB0A9DC, 0x76F988DA] ++
  [0x983E5152, 0xA831C66D, 0xB00327C8, 0xBF597FC7, 0xC6E00BF3, 0xD5A79147, 0x06CA6351, 0x14292967] ++
  [0x27B70A85, 0x2E1B2138, 0x4D2C6DFC, 0x53380D13, 0x650A7354, 0x766A0ABB, 0x81C2C92E, 0x92722C85] ++
  [0xA2BFE8A1, 0xA81A664B, 0xC24B8B70, 0xC76C51A3, 0xD192E819, 0xD6990624, 0xF40E3585, 0x106AA070] ++
  [0x19A4C116, 0x1E376C08, 0x2748774C, 0x34B0BCB5, 0x391C0CB3, 0x4ED8AA4A, 0x5B9CCA4F, 0x682E6FF3] ++
  [0x748F82EE, 0x78A5636F, 0x84C87814, 0x8CC70208, 0x90BEFFFA, 0xA4506CEB, 0xBEF9A3F7, 0xC67178F2]

/-- The eight words before the first block. -/
def start : List (BitVec 32) := [0x6A09E667, 0xBB67AE85, 0x3C6EF372, 0xA54FF53A, 0x510E527F, 0x9B05688C, 0x1F83D9AB, 0x5BE0CD19]

def ror (x : BitVec 32) (n : Nat) : BitVec 32 := x.rotateRight n

/-- The message schedule from its last 16 words, the newest first: `fuel` further words. -/
def schedule (fuel : Nat) (w : List (BitVec 32)) : List (BitVec 32) :=
  match fuel with
  | 0 => w
  | fuel + 1 =>
    let a := w.getD 14 0
    let b := w.getD 1 0
    let s0 := ror a 7 ^^^ ror a 18 ^^^ (a >>> 3)
    let s1 := ror b 17 ^^^ ror b 19 ^^^ (b >>> 10)
    schedule fuel ((w.getD 15 0 + s0 + w.getD 6 0 + s1) :: w)

/-- One round, with the round constant and the schedule's word. -/
def round (v : List (BitVec 32)) (kw : BitVec 32 × BitVec 32) : List (BitVec 32) :=
  match v with
  | [a, b, c, d, e, f, g, h] =>
    let t1 := h + (ror e 6 ^^^ ror e 11 ^^^ ror e 25) + ((e &&& f) ^^^ (~~~e &&& g)) + kw.1 + kw.2
    let t2 := (ror a 2 ^^^ ror a 13 ^^^ ror a 22) + ((a &&& b) ^^^ (a &&& c) ^^^ (b &&& c))
    [t1 + t2, a, b, c, d + t1, e, f, g]
  | v => v

/-- One block of 16 words. -/
def block (h : List (BitVec 32)) (m : List (BitVec 32)) : List (BitVec 32) :=
  let w := (schedule 48 m.reverse).reverse
  (h.zip ((roundConst.zip w).foldl round h)).map fun x => x.1 + x.2

/-- A big-endian number of `32 * n` bits as words. -/
def words (n v : Nat) : List (BitVec 32) := (List.range n).map fun i => BitVec.ofNat 32 (v / 2 ^ (32 * (n - 1 - i)))

/-- SHA-256 of a message of 64 bytes, as a big-endian number. -/
def digest64 (v : Nat) : Nat :=
  let pad := words 16 (2 ^ 511 + 512)
  (block (block start (words 16 v)) pad).foldl (fun a x => a * 2 ^ 32 + x.toNat) 0

/-- A measurement register extended by a digest (R478). -/
def extend (m d : Nat) : Nat := digest64 (m % 2 ^ 256 * 2 ^ 256 + d % 2 ^ 256)

end Sys2Proof.Machine.Sha
end

