-- ==== Sys2Proof/Machine/Boot.lean ====
section
/-! DEFINITION. Resets, the start sequence and the management mailbox (R12, R478 to R480). -/

namespace Sys2Proof.Machine

/-! ## What a reset leaves -/

/-- The dies as a cold reset leaves them: with the binding made at test, which the package's defective halves give (R12). -/
def testDies (bad : List Nat) : Tbl Die :=
  (List.range 4).foldl (fun (m : Tbl Die) d => tset {} m d { bindmap := testBind bad d }) []

/-- The machine as a reset leaves it before its start: the reset state with the binding made at test, what the security core, the fuses and
the fabric's wiring keep, and the model's own inputs. -/
def coldState (s : State) : State :=
  { State.reset with
    turns := s.turns, outbox := s.outbox, upsets := s.upsets, free := s.free, dies := testDies s.pkg.defective,
    pkg := { State.reset.pkg with
      number := s.pkg.number, bootReason := s.pkg.bootReason, bootCount := s.pkg.bootCount, minSecver := s.pkg.minSecver,
      noiseN := s.pkg.noiseN, defective := s.pkg.defective } }

/-- A warm reset keeps the binding, the scores and quarantine marks, the black box, the health counts and the contents of memory
besides. -/
def warmState (s : State) : State :=
  let s' := coldState s
  let dies := (List.range 4).foldl
    (fun (m : Tbl Die) d =>
      let x := getDie s d
      tset {} m d { bindmap := x.bindmap, box := x.box, written := x.written, lost := x.lost }) []
  { s' with
    dies,
    pkg := { s'.pkg with
      mem := s.pkg.dirty.foldl (fun m e => match e.2 with | some b => tset 0 m e.1 b | none => m) s.pkg.mem,
      poison := s.pkg.poison, score := s.pkg.score, quarantined := s.pkg.quarantined, lanes := s.pkg.lanes } }

/-! ## The start (R478, R479) -/

/-- The reason a start fails, or 0. -/
def bootFault (minSecver : Nat) (b : Boot) : Nat :=
  if !b.romOk then 1 else if !b.supOk then 2 else if b.secver < minSecver then 3 else if !b.hbmOk then 4
  else if !b.noiseOk then 6 else 0

/-- A failed start is counted; the third in a row brings the package up in minimal mode, its fabric down. -/
def countFailure (s : State) (reason : Nat) : State :=
  onBoot s fun p =>
    let n := Nat.min 3 (p.bootCount + 1)
    { p with bootReason := reason, bootCount := n, bootWatch := false, booted := false,
             minimal := n = 3, portDown := if n = 3 then List.range 32 else p.portDown }

/-- Write byte 0 of TINTMAP0 of every die: the first core of each serves white tasks. -/
def whiteCores (s : State) : State :=
  (List.range 4).foldl
    (fun s d =>
      onCore (onDie s d fun x => { x with tintmap := tset 3 x.tintmap 0 2 }) (64 * d) fun x => { x with c := { x.c with tint := 2 } }) s

/-- The supervisor's envelope is launched as one of letterbox 0. -/
def launchSupervisor (s : State) (va : Nat) : State :=
  let asid := fld (tget 0 s.pkg.lba 0) 55 48
  let b := tget 0 s.pkg.lbb 0
  match pieces s asid true va 64 .read with
  | .error _ => s
  | .ok ps =>
    let r := { envTask (peekPieces s ps) va asid with
      lbox := some 0, die := fld (tget 0 s.pkg.lba 0) 61 60, cntbase := fld b 11 0, topoen := fld b 12 12 }
    let es := (readEdges s r r.inE).getD []
    launch (touchBlock (touchPieces s r.tint ps) r r.inE es) r es fun s off bs => writeVA wrPlain s r.tint asid true (va + off) bs

/-- The measurement registers, each extended by its image's digest (R478). -/
def measured (m : Tbl Nat) (digests : List Nat) : Tbl Nat :=
  (digests.take 8).zipIdx.foldl (fun m e => tset 0 m e.2 (Sha.extend (tget 0 m e.2) e.1)) m

/-- A start that has failed is counted and causes a warm reset (R479); the start that follows it is the next event (log entry 43). -/
def failStart (s : State) (reason : Nat) : State := countFailure (signalBoot s (warmState s)) reason

/-- The ROM and the monitor start the package, or the start fails. -/
def bootStart (s : State) (b : Boot) : State :=
  let r := bootFault s.pkg.minSecver b
  if r ≠ 0 then failStart s r
  else
    let s := onBoot s fun p =>
      { p with secver := b.secver, measure := measured p.measure b.digests, ptbase := b.ptbase,
               minimal := false, lba := tset 0 p.lba 0 b.lba, lbb := tset 0 p.lbb 0 b.lbb }
    let s := whiteCores (b.image.foldl (fun s e => pokeBytes s true e.1 e.2) s)
    match b.envelope with
    | some va => launchSupervisor s va
    | none => s

/-- Run `k` with the findings of a start. -/
def onBootArg (s : State) (k : Boot → State) : Res :=
  match s.arg with
  | .boot b => .next (k b)
  | _ => .fault .noSuchEvent

/-- A cold reset makes one attempt, whatever the count. -/
def execColdReset (s : State) : Res := onBootArg s fun b => bootStart (signalBoot s (coldState s)) b

/-- A warm restart: after three failed starts the package stays in minimal mode. -/
def warmStart (s : State) (b : Boot) : State :=
  let s' := signalBoot s (warmState s)
  if 3 ≤ s.pkg.bootCount then onBoot s' fun p => { p with minimal := true, portDown := List.range 32 } else bootStart s' b

def execWarmReset (s : State) : Res := onBootArg s (warmStart s)

/-- No BOOTOK within 30 s: the failure is counted, and a warm reset follows. -/
def execBootTimeout (s : State) : Res :=
  if s.pkg.bootWatch then onBootArg s fun b => warmStart (countFailure s 5) b else wait s

/-! ## The mailbox (R479, R480) -/

/-- In minimal mode a new image that verifies clears the count of failed starts. -/
def execMailboxImage (s : State) : Res :=
  match s.arg with
  | .image ok v =>
    if s.pkg.minimal && ok && s.pkg.minSecver ≤ v then .next (onBoot s fun p => { p with bootCount := 0 }) else wait s
  | _ => .fault .noSuchEvent

/-- M0 to M7 and BOOTSTAT under the host's nonce; the signature is the security core's. -/
def execMailboxAttestation (s : State) : Res :=
  match s.arg with
  | .num nonce => .next (emit s (.attestation nonce ((List.range 8).map fun k => tget 0 s.pkg.measure k) (bootstat s.pkg)))
  | _ => .fault .noSuchEvent

def execMailboxReset (s : State) : Res := onBootArg s (warmStart s)

end Sys2Proof.Machine
end

