-- ==== Sys2Proof/Machine/LSlot.lean ====
section
/-! DEFINITION. The L slot (R274 to R280) and the scalar pigeonhole words PHCFG and PHQRY (R272, R273). -/

namespace Sys2Proof.Machine

/-! ## Addresses (R274) -/

/-- The address register as the operation reads it. -/
def lBase (s : State) (f : LF) (x : BCtx) : Word := (readAt s (.addr f.areg) x.idx).setWidth 64

/-- EA of a mode: the register itself in post-increment mode, else the register plus the offset. -/
def lEA (s : State) (f : LF) (x : BCtx) : Nat :=
  let a := lBase s f x
  (if f.mode = 1 then a else a + BitVec.ofInt 64 (sext 16 f.off * 32)).toNat

def lPred (s : State) (f : LF) (x : BCtx) : VReg := readAt s (.pred f.file f.pred) x.idx
def lReg (s : State) (f : LF) (n : Nat) (x : BCtx) : VReg := readAt s (.vec f.file n) x.idx

/-- The active bytes of the operation: place in the register and scratchpad or window address. -/
def lBytes (s : State) (f : LF) (x : BCtx) : List (Nat × Nat) :=
  let ea := lEA s f x
  let p := lPred s f x
  ((List.range (vbytes s.t.g f.width)).filter fun k => p.getLsbD k).map fun k =>
    (k, if f.mode = 2 then ea + 2048 * (k / 32) + k % 32 else ea + k)

/-- The faults of an access to the core's own scratchpad, in the order of R283. -/
def lFault (s : State) (ea : Nat) (bs : List (Nat × Nat)) (reads : Bool) : Option Trap :=
  (firstFault
    [ (bs.any fun b => spmSize s ≤ b.2, { code := cAddress }),
      (ea % 32 ≠ 0, { code := cMisaligned }),
      (bs.any fun b => s.t.hdr.spm ≤ b.2, { code := cResource }),
      (bs.any fun b => fpConflict s true b.2 1, { code := cFootprint }) ]).orElse fun _ =>
  if reads then bs.findSome? fun b => spmPoisoned s b.2 1 else none

/-- A result of the L slot becomes visible `lat` indices later. -/
def lput (s : State) (x : BCtx) (lat : Nat) (d : Dest) (mask val : VReg) : State :=
  if mask = 0 || d = .pred 0 0 || d = .pred 1 0 then s
  else addLatch s { dest := d, mask, tgt := x.idx + lat, cls := 0, iss := x.idx, val }

/-- The new value of the address register in post-increment mode. -/
def lBump (s : State) (f : LF) (x : BCtx) : State :=
  if f.mode = 1 then
    lput s x 1 (.addr f.areg) (maskAt 64 [0]) ((lBase s f x + BitVec.ofInt 64 (sext 16 f.off * 32)).setWidth 4096)
  else s

/-- Put bytes read into a register. -/
def lLoad (s : State) (f : LF) (x : BCtx) (lat : Nat) (ys : List (Nat × Nat)) : State :=
  lput s x lat (.vec f.file f.vreg) (maskAt 8 (ys.map (·.1))) (packAt 8 ys)

def byteOf (v : VReg) (k : Nat) : Byte := (v >>> (8 * k)).setWidth 8

/-- Store bytes of a register, in ascending order of their place. -/
def lStore (s : State) (v : VReg) (bs : List (Nat × Nat)) : State :=
  bs.foldl (fun s b => setSpmByteOf s s.cur b.2 (byteOf v b.1)) s

/-- The granules that a set of bytes covers whole lose their poison (R483). -/
def lUnpoison (s : State) (bs : List (Nat × Nat)) : State :=
  (List.range s.t.g).foldl
    (fun s m =>
      if (coreCtx s (s.cur + m)).c.spmPoison.isEmpty then s
      else
        onCore s (s.cur + m) fun y =>
          { y with c := { y.c with
              spmPoison := y.c.spmPoison.filter fun g => !(List.range 8).all fun k => bs.any fun b => b.2 = mib8 * m + g + k } })
    s

/-! ## VLD, VST, VLDFF (R276, R277) -/

def execVld (f : LF) (x : BCtx) (s : State) : Res :=
  let bs := lBytes s f x
  match lFault s (lEA s f x) bs true with
  | some t => slotFault s 1 t
  | none => slotNext (lBump (lLoad s f x 6 (bs.map fun b => (b.1, (spmByte s b.2).toNat))) f x) 1

def execVst (f : LF) (x : BCtx) (s : State) : Res :=
  let bs := lBytes s f x
  match lFault s (lEA s f x) bs false with
  | some t => slotFault s 1 t
  | none => slotNext (lBump (lUnpoison (lStore s (lReg s f f.vreg x) bs) bs) f x) 1

/-- The range fault of the 32-byte word that holds a byte of a load from `ea`. -/
def wordBeyond (s : State) (ea k : Nat) : Bool :=
  let top := ea + 32 * (k / 32) + 32
  spmSize s < top || s.t.hdr.spm < top

def execVldff (f : LF) (x : BCtx) (s : State) : Res :=
  let ea := lEA s f x
  let bs := lBytes s f x
  let load := fun (s : State) (bs : List (Nat × Nat)) => lLoad s f x 6 (bs.map fun b => (b.1, (spmByte s b.2).toNat))
  match bs.find? fun b => wordBeyond s ea b.1 with
  | none =>
    match lFault s ea bs true with
    | some t => slotFault s 1 t
    | none => slotNext (lBump (load s bs) f x) 1
  | some (k0, _) =>
    if (bs.headD (0, 0)).1 = k0 then
      let past := spmSize s < ea + 32 * (k0 / 32) + 32
      slotFault s 1 { code := if past then cAddress else if ea % 32 ≠ 0 then cMisaligned else cResource }
    else
      let lower := bs.filter fun b => b.1 < k0
      match lFault s ea lower true with
      | some t => slotFault s 1 t
      | none =>
        let clear := maskAt 1 ((List.range (vbytes s.t.g f.width)).filter fun k => k0 ≤ k)
        slotNext (lBump (lput (load s lower) x 6 (.pred f.file f.pred) clear 0) f x) 1

/-! ## VLDX, VSTX (R278) -/

/-- The active lanes with the addresses their indices give. -/
def lLanes (s : State) (f : LF) (x : BCtx) (ireg : Nat) : List (Nat × Nat) :=
  let ea := lEA s f x
  let p := lPred s f x
  let v := lReg s f ireg x
  ((List.range (vbytes s.t.g f.width / 4)).filter fun l => p.getLsbD (4 * l)).map fun l => (l, ea + 4 * elemAt v 4 l)

/-- The bytes of lanes: place in the register and address. -/
def laneBytes (ls : List (Nat × Nat)) : List (Nat × Nat) :=
  ls.flatMap fun l => (List.range 4).map fun b => (4 * l.1 + b, l.2 + b)

def execVldx (f : LF) (x : BCtx) (s : State) : Res :=
  let bs := laneBytes (lLanes s f x f.vreg)
  match lFault s (lEA s f x) bs true with
  | some t => slotFault s 1 t
  | none => slotNext (lLoad s f x 6 (bs.map fun b => (b.1, (spmByte s b.2).toNat))) 1

def execVstx (f : LF) (x : BCtx) (s : State) : Res :=
  let bs := laneBytes (lLanes s f x ((f.vreg + 1) % 32))
  match lFault s (lEA s f x) bs false with
  | some t => slotFault s 1 t
  | none => slotNext (lUnpoison (lStore s (lReg s f f.vreg x) bs) bs) 1

/-! ## The cluster window (R244, R245, R279) -/

/-- The task a window byte reaches and its offset in that task's scratchpad. -/
def windowPlace (s : State) (a : Nat) : Nat × Nat :=
  let core := clusterCore s (a / mib8)
  let lead := leadOf s core
  (lead, mib8 * (core - lead) + a % mib8)

/-- The faults of a window access (R244, R274, R450). One that names the issuing core's own scratchpad meets no footprint (DEDUCED, log
entry 82: R282 and R311 speak of the scratchpad, from which R241 tells the window apart). -/
def windowFault (s : State) (ea : Nat) (bs : List (Nat × Nat)) (reads : Bool) : Option Trap :=
  let target := fun a : Nat => (windowPlace s a).1
  let first := (bs.headD (0, 0)).2
  (firstFault
    [ (bs.any fun b => 8 * mib8 ≤ b.2, { code := cAddress }),
      (bs.any fun b => decide (target b.2 ≠ target first), { code := cAddress }),
      (ea % 32 ≠ 0, { code := cMisaligned }),
      (bs.any fun b =>
        (windowTask s (clusterCore s (b.2 / mib8))).isSome &&
          (coreCtx s (target b.2)).t.hdr.spm ≤ (windowPlace s b.2).2, { code := cResource }),
      (bs.any fun b => (windowTask s (clusterCore s (b.2 / mib8))).isNone, { code := cWindow }) ]).orElse fun _ =>
  if reads then
    bs.findSome? fun b =>
      match (coreCtx s (clusterCore s (b.2 / mib8))).c.spmPoison.find? fun g => overlaps g 8 (b.2 % mib8) 1 with
      | some g => some { code := cSoft, i2 := 4, i3 := g }
      | none => none
  else none

/-- The 32-byte word `w` of the window as its bank holds it. -/
def windowWord (s : State) (w : Nat) : BitVec 256 :=
  BitVec.ofNat 256 (leNat (tbytes (coreCtx s (clusterCore s (32 * w / mib8))).c.spm (32 * w % mib8) 32))

/-- A byte of the window as a window load reads it: what a beat of it has read already, or what its bank holds now (R245). -/
def windowByte (s : State) (a : Nat) : Byte :=
  match tget none s.t.slots.early (a / 32) with
  | some w => (w >>> (8 * (a % 32))).setWidth 8
  | none => tget 0 (coreCtx s (clusterCore s (a / mib8))).c.spm (a % mib8)

/-- No beat of a window load has read anything. -/
def noEarly (s : State) : State := onSlots s fun q => { q with early := [] }

def execVldw (f : LF) (x : BCtx) (s : State) : Res :=
  let bs := lBytes s f x
  match windowFault s (lEA s f x) bs true with
  | some t => slotFault (noEarly s) 1 t
  | none => slotNext (lLoad (noEarly s) f x 24 (bs.map fun b => (b.1, (windowByte s b.2).toNat))) 1

/-- The beats of a window store: target core, offset, and the mask and bytes of each 32-byte word that has an active byte. -/
def windowBeats (s : State) (v : VReg) (bs : List (Nat × Nat)) (words : Nat) : List (Nat × Nat × BitVec 32 × BitVec 256) :=
  (List.range words).filterMap fun j =>
    match bs.filter fun b => b.1 / 32 = j with
    | [] => none
    | b :: rest =>
      let mask := (b :: rest).foldl (fun (m : BitVec 32) c => m ||| BitVec.ofNat 32 (2 ^ (c.1 % 32))) 0
      some (clusterCore s (b.2 / mib8), b.2 / 32 * 32 % mib8, mask, (v >>> (256 * j)).setWidth 256)

def execVstw (f : LF) (x : BCtx) (s : State) : Res :=
  let bs := lBytes s f x
  match windowFault s (lEA s f x) bs false with
  | some t => slotFault s 1 t
  | none =>
    let beats := windowBeats s (lReg s f f.vreg x) bs (vbytes s.t.g f.width / 32)
    slotNext (onSlots s fun q => { q with beats := q.beats ++ beats }) 1

/-! ## PHPOP, PHPUSH (R280) -/

def phMrg (f : LF) : Bool := f.off / 2 ^ 15 % 2 = 1
def phOff (f : LF) : Nat := f.off % 2 ^ 15 * 32

def execPhpop (f : LF) (x : BCtx) (s : State) : Res :=
  match holeRef s f.hole false with
  | .error t => slotFault s 1 t
  | .ok (core, h) =>
    if holeBlocks s f.hole false (f.areg + 1) then wait s
    else
      let w := holeOf s core h
      let n := vbytes s.t.g f.width
      let a := phAddr w ((phFree w + f.areg) % phMod w) + phOff f
      if phSlot w * 128 < phOff f + n then slotFault s 1 { code := cPigeon }
      else
        match spmPoisoned s a n with
        | some t => slotFault s 1 t
        | none =>
          let p := lPred s f x
          let ys := (List.range n).filterMap fun k =>
            if p.getLsbD k then some (k, (spmByte s (a + k)).toNat) else if phMrg f then none else some (k, 0)
          let s := lLoad s f x 6 ys
          slotNext (if f.mode = 1 then advHole (closeSeg s) core h true else s) 1

def execPhpush (f : LF) (x : BCtx) (s : State) : Res :=
  match holeRef s f.hole true with
  | .error t => slotFault s 1 t
  | .ok (core, h) =>
    if holeBlocks s f.hole true (f.areg + 1) then wait s
    else
      let w := holeOf s core h
      let n := vbytes s.t.g f.width
      let a := phAddr w ((phFill w + f.areg) % phMod w) + phOff f
      if phSlot w * 128 < phOff f + n then slotFault s 1 { code := cPigeon }
      else
        let p := lPred s f x
        let v := lReg s f f.vreg x
        let bytes := (List.range n).map fun k => if p.getLsbD k || phMrg f then byteOf v k else 0
        if phKind (holeOf s s.cur f.hole) = 3 then
          let beats := (List.range (n / 32)).map fun j =>
            (core + (a + 32 * j) / mib8, (a + 32 * j) % mib8, BitVec.allOnes 32, BitVec.ofNat 256 (leNat ((bytes.drop (32 * j)).take 32)))
          let s := onSlots s fun q => { q with beats := q.beats ++ beats }
          slotNext (if f.mode = 1 then advHole (closeSeg (landBeats s)) core h false else s) 1
        else
          let s := setSpmBytes s a bytes
          slotNext (if f.mode = 1 then advHole (closeSeg s) core h false else s) 1

/-! ## AINC, ASET (R281) -/

def execAinc (f : LF) (x : BCtx) (s : State) : Res :=
  slotNext (lput s x 1 (.addr f.areg) (maskAt 64 [0]) ((lBase s f x + BitVec.ofInt 64 (sext 16 f.off * 32)).setWidth 4096)) 1

def execAset (f : LF) (x : BCtx) (s : State) : Res :=
  slotNext (lput s x 1 (.addr f.areg) (maskAt 64 [0]) (BitVec.ofNat 4096 (f.off * 32))) 1

/-! ## PHCFG, PHQRY (R272, R273) -/

/-- Whether an image breaks R269 or R270. -/
def holeBad (size : Nat) (w : BitVec 256) : Bool :=
  fld w 255 136 ≠ 0 || w.getLsbD 131 || fld w 63 60 ≠ 0 || 3 < phKind w ||
  (phKind w = 3 && (phBase w ≠ 0 || phSlot w ≠ 0 || phCount w ≠ 1 || phFill w ≠ 0 || phFree w ≠ 0)) ||
  (phV w && phKind w < 3 && (phSlot w = 0 || 4096 < phSlot w)) ||
  phBase w % 128 ≠ 0 || size < phBase w + phCount w * phSlot w * 128 ||
  phMod w ≤ phFill w || phMod w ≤ phFree w || phCount w < phFilled w

/-- An unfinished job of the task names a handle. -/
def holeInUse (s : State) (h : Nat) : Bool :=
  (liveJobs s).any fun x =>
    x.2.2.tag = s.t.me.tag && jpar x.2.2 2 / 2 ^ 17 % 2 = 1 && jpar x.2.2 2 / 2 ^ 13 % 16 = h

/-- Where PHCFG's image lies, or the fault of its address (R257, R272). -/
def holeAddr (s : State) (ra spm : Nat) : Except Trap Nat :=
  match eaOf s ra 0 with
  | .error t => .error t
  | .ok a =>
    if spm = 1 && spmSize s < a + 32 then .error { code := cAddress }
    else if a % 32 ≠ 0 then .error { code := cMisaligned, va := if spm = 1 then 0 else a }
    else .ok a

/-- A fault that the rows of R283 place after ResourceBound. -/
def afterResource (t : Trap) : Bool := t.code = cFootprint || t.code = cRace || t.code = cSoft

/-- The read of an image of 32 bytes meets such a fault. -/
def imageLate (s : State) (a spm : Nat) : Bool :=
  if spm = 1 then (match spmRead s a 32 with | .error t => afterResource t | .ok _ => false)
  else (match plainRead s a 32 1 with | .error t => afterResource t | .ok _ => false)

def execPhcfg (h ra spm : Nat) (s : State) : Res :=
  notInTrap s <| globalForm s spm <|
    match holeAddr s ra spm with
    | .error t => fault s t
    | .ok a =>
      if s.t.hdr.holes ≤ h && imageLate s a spm then faultC s cResource
      else wordRead s (spm == 1) a 32 1 fun bs s' =>
        let w := BitVec.ofNat 256 (leNat bs)
        let ring := phCount w * phSlot w * 128
        if holeBad (spmSize s) w then faultC s cOperand
        else if s.t.hdr.holes ≤ h || (0 < ring && s.t.hdr.spm < phBase w + ring) then faultC s cResource
        else if holeInUse s h then wait s
        else done (mend (queueCfg s' { bound := s'.t.slots.next, hole := true, num := h, val := w }) (192 + 4 * h) 4)

/-- A handle after every queued write of it. -/
def holeNow (s : State) (h : Nat) : BitVec 256 :=
  holeOf ((s.t.slots.cfg.filter fun w => w.hole && w.num = h).foldl applyCfg s) s.cur h

/-- PHQRY waits for the L and C operations before it. For a window-out handle word 1 is the peer's; where the peer cannot be reached the
word raises what any use of the handle raises there (R270; DEDUCED, log entry 88: R283 names PHPOP, PHPUSH and PHA alone). -/
def execPhqry (rd h f : Nat) (s : State) : Res :=
  notInTrap s <|
    if !(pending s 1).isEmpty || !(pending s 0).isEmpty then wait s
    else
      let w := holeNow s h
      if phKind w = 3 && f = 1 then
        match holeRef (setHole s s.cur h w) h true with
        | .error t => fault s t
        | .ok (core, p) => done (setS s rd (BitVec.ofNat 64 (fld (holeOf s core p) 127 64)))
      else done (setS s rd (BitVec.ofNat 64 (fld w (64 * f + 63) (64 * f))))

end Sys2Proof.Machine
end

