-- ==== Sys2Proof/Machine/Jobs.lean ====
section
/-! DEFINITION. Engine jobs: their words (R304 to R321), the accesses of COPY, GATHER, SCATTER and TRAJ jobs (R322, R323, R366), and
the arming of TRACK, SINK and NMRED jobs (R313, R324, R343, R368). -/

namespace Sys2Proof.Machine

/-! ## The shadow sets (R305, R306) -/

def engPar (s : State) (eng k : Nat) : Nat := (tget 0 s.t.eng (32 * eng + k)).toNat

def execEset (eng k ra rb : Nat) (s : State) : Res :=
  notInTrap s <|
    done (onT s fun t =>
      { t with eng := tset 0 (tset 0 t.eng (32 * eng + 2 * k) (getS s ra)) (32 * eng + 2 * k + 1) (getS s rb) })

/-! ## A job's parameters -/

def jobHen (j : Job) : Bool := jpar j 2 / 2 ^ 17 % 2 = 1
def jobHole (j : Job) : Nat := jpar j 2 / 2 ^ 13 % 16

/-! ## The checks of EGO (R317) -/

/-- Every byte of a range lies in the union of a few ranges of its space. -/
def coveredBy (rs : List (Bool × Nat × Nat)) (spm : Bool) (fuel a n : Nat) : Bool :=
  match fuel with
  | 0 => n = 0
  | fuel + 1 =>
    n = 0 ||
      match rs.find? fun r => r.1 == spm && r.2.1 ≤ a && a < r.2.1 + r.2.2 with
      | none => false
      | some r => coveredBy rs spm fuel (r.2.1 + r.2.2) (n - (r.2.1 + r.2.2 - a))

/-- A job with the captured shadow set of an engine. -/
def captured (s : State) (eng : Nat) : Job :=
  { eng, par := tslice s.t.eng (32 * eng) 32 }

/-- Whether the parameters not listed are all zero. -/
def onlyPars (j : Job) (used : List Nat) : Bool := (List.range 32).all fun k => used.contains k || jpar j k = 0

/-- The parameters that hold addresses. -/
def addrPars (eng : Nat) : List Nat :=
  [0, 1, 3, 4, 6, 8, 10] ++ (match eng with | 1 | 2 | 3 | 6 => [12] | 4 => [12, 14] | 5 => [12, 16] | _ => [])

def isFabricPar (v : Nat) : Bool := !parSpm v && v / 2 ^ 55 % 2 = 1

/-- The parts of R306, R307 and R311 that raise OperandRange for every kind. -/
def commonBad (j : Job) : Bool :=
  let ctl := jpar j 2
  2 ^ 23 ≤ ctl || 4 < ctl / 2 ^ 18 % 8 || (jobHen j && 1 < j.eng) || parSpm (jpar j 3) ||
  (addrPars j.eng).any (fun k => 2 ^ 57 ≤ jpar j k) ||
  ([5, 7, 9, 11] : List Nat).any (fun k => 2 ^ 40 < jpar j k) ||
  (readFp j).any fun r => (writeFp j).any fun w => r.1 == w.1 && overlaps r.2.1 r.2.2 w.2.1 w.2.2

/-- The limits of each kind but the port's (R322 to R325, R343, R366, R368, R369). -/
def kindBad (j : Job) : Bool :=
  let p := jpar j
  let base := List.range 12
  let glob := fun k => parSpm (p k)
  match j.eng with
  | 0 => !onlyPars j (base ++ [12, 13, 14, 15, 16, 17]) || p 12 = 0 || 2 ^ 32 ≤ p 12
  | 1 | 2 =>
    !onlyPars j (base ++ [12, 13, 14, 15, 16]) || p 12 % 4 ≠ 0 || p 13 = 0 || 2 ^ 32 ≤ p 13 || p 14 = 0 || 65536 < p 14 || 2 ^ 32 ≤ p 15
  | 3 =>
    !onlyPars j [2, 3, 12, 13, 14] || !jobCen j || glob 12 || p 13 = 0 || 2 ^ 30 < p 13 || p 14 = 0 || 2 ^ 32 ≤ p 14
  | 4 =>
    !onlyPars j ([0] ++ base.drop 2 ++ [12, 13, 14, 15, 16]) || !glob 0 || p 0 % 32 ≠ 0 || glob 12 || p 12 % 32 ≠ 0 ||
    !([4, 5, 6, 7, 8, 9, 10, 11, 12, 13, 14, 15, 16, 17, 18, 19, 20, 21, 22, 23, 24, 25, 26, 27, 28, 29, 30, 31, 32] : List Nat).any
      (fun k => p 13 = 2 ^ k) ||
    p 14 % 8 ≠ 0 || p 15 = 0 || p 13 < p 15 ||
    !coveredBy (readFp j) true 3 (parAddr (p 0)) (32 * p 15) ||
    !coveredBy [fpRange j 8] false 2 (parAddr (p 12)) (32 * p 13) ||
    !coveredBy [fpRange j 10] (glob 14) 2 (parAddr (p 14)) 8
  | 5 =>
    !onlyPars j (base.drop 2 ++ [12, 13, 14, 15, 16, 17]) || glob 12 || p 12 % 128 ≠ 0 || p 13 = 0 || p 13 % 128 ≠ 0 || p 14 = 0 ||
    2 ^ 24 < p 14 || p 15 = 0 || 64 < p 15 || p 16 % 64 ≠ 0 || p 17 = 0 || 4096 < p 17 || p 13 < 4 * p 14 * p 17 ||
    !coveredBy [fpRange j 8] (glob 16) 2 (parAddr (p 16)) (576 * p 17)
  | 6 =>
    !onlyPars j (base.drop 2 ++ [12, 13, 14, 15]) || glob 12 || p 12 % 128 ≠ 0 || p 13 = 0 || p 13 % 128 ≠ 0 || 1 < p 14 || p 15 = 0 ||
    2 ^ 32 ≤ p 15 || p 13 < p 15 + 128
  | _ => false

/-- The entries a new job depends on (R309). -/
def jobDeps (s : State) (j : Job) : List (Nat × Nat × Nat) :=
  let meet := fun (a b : List (Bool × Nat × Nat)) => a.any fun r => b.any fun w => r.1 == w.1 && overlaps r.2.1 r.2.2 w.2.1 w.2.2
  ((liveJobs s).filter fun x =>
    let k := x.2.2
    k.tag = s.t.me.tag &&
      (meet (readFp j) (writeFp k) || meet (writeFp j) (readFp k) || meet (writeFp j) (writeFp k) ||
        (jobHen j && jobHen k && jobHole j = jobHole k))).map fun x => (x.1, x.2.1, x.2.2.seq)

/-- The handle EGO returns (R308). -/
def jobHandle (core e seq : Nat) : Word := BitVec.ofNat 64 (seq * 2 ^ 13 + core * 2 ^ 5 + e)

/-- Where an entry keeps the last job that left it while a later one holds it (R308). -/
def leftEntry (e : Nat) : Nat := 32 + e

/-- Put a new job in an entry that no job holds; the one that left it last stays known until the new one leaves (R308). -/
def enterJob (s : State) (e : Nat) (j : Job) : State :=
  let last := getJob s s.cur e
  setJob (if last.used then setJob s s.cur (leftEntry e) last else s) s.cur e j

/-- Create a checked job in a free entry, or wait for one. -/
def createJob (s : State) (rd : Nat) (j : Job) : Res :=
  match (List.range 32).find? fun e => !(getJob s s.cur e).live with
  | none => wait s
  | some e =>
    asRelease s fun s =>
      let seq := s.t.seq % 2 ^ 32
      let job : Job := { j with
        used := true, st := 0, seq, tag := s.t.me.tag, dom := s.t.me.dom, acq := s.t.regs.acqepoch, asid := s.t.me.asid,
        priv := s.t.me.sup, tint := s.t.me.tint, g := s.t.g, spm := s.t.hdr.spm, core := s.cur, deps := jobDeps s j,
        cnt := mapCnt s.t.regs.cntbase (jpar j 2 % 4096) }
      let s := enterJob s e job
      doneC (setS (onT s fun t => { t with seq := seq + 1 }) rd (jobHandle s.cur e seq))

/-- Steps 1 to 5 of EGO's checks; `bad` and `excess` are the kind's own limits and counters. -/
def egoFault (s : State) (j : Job) (excess bad fabric : Bool) : Option Trap :=
  let h := holeNow s (jobHole j)
  firstFault
    [ ((jobCen j && s.t.hdr.counters ≤ jpar j 2 % 4096) || (jobHen j && s.t.hdr.holes ≤ jobHole j) || excess, { code := cResource }),
      (commonBad j || bad, { code := cOperand }),
      (fabric, { code := cFabric }),
      (jpar j 3 % 16 ≠ 0, { code := cMisaligned }),
      (jobHen j && !(phV h && phKind h = 1), { code := cPigeon }) ]

/-- EGO of every engine but the port's. -/
def ego (eng rd : Nat) (s : State) : Res :=
  notInTrap s <| notInSpec s <|
    let j := captured s eng
    match egoFault s j false (kindBad j) ((addrPars eng).any fun k => isFabricPar (jpar j k)) with
    | some t => fault s t
    | none => createJob s rd j

def execEgoCopy (rd : Nat) (s : State) : Res := ego 0 rd s
def execEgoGather (rd : Nat) (s : State) : Res := ego 1 rd s
def execEgoScatter (rd : Nat) (s : State) : Res := ego 2 rd s
def execEgoTrack (rd : Nat) (s : State) : Res := ego 3 rd s
def execEgoTraj (rd : Nat) (s : State) : Res := ego 4 rd s
def execEgoSink (rd : Nat) (s : State) : Res := ego 5 rd s
def execEgoNmred (rd : Nat) (s : State) : Res := ego 6 rd s

/-! ## When a job starts (R310, R312, R313) -/

/-- A job it depends on has not ended. -/
def depsOpen (s : State) (j : Job) : Bool :=
  j.deps.any fun d => let k := getJob s d.1 d.2.1; k.live && k.seq = d.2.2 && k.tag = j.tag

/-- A job holds its engine: it has started, is not armed, and, in the port engine, has packets to send (R310, R339). -/
def holdsEngine (j : Job) : Bool := j.live && j.st = 2 && !j.armed && (j.eng ≠ 7 || (j.stopping.isNone && !j.unsent.isEmpty))

def engineBusy (s : State) (core eng : Nat) : Bool := (coreCtx s core).c.jobs.any fun e => e.2.eng = eng && holdsEngine e.2

/-- The die that holds a list of pieces, where one does. -/
def dieOfPieces (ps : List Piece) : Option Nat :=
  match ps with
  | [] => none
  | p :: _ => if ps.all fun q => paDie q.pg.pa = paDie p.pg.pa && paDie (q.pg.pa + q.len - 1) = paDie p.pg.pa then some (paDie p.pg.pa) else none

/-- The region of an armed job, translated under its own ASID. -/
def jobRegion (s : State) (j : Job) : Except Trap (List Piece) :=
  pieces s j.asid j.priv (parAddr (jpar j 12)) (jpar j 13) (if j.eng = 6 then .write else .read)

/-- Armed jobs of an engine kind whose range lies on a die. -/
def armedOn (s : State) (eng die : Nat) : Nat :=
  ((liveJobs s).filter fun x => x.2.2.eng = eng && x.2.2.armed && (match x.2.2.ranges with | r :: _ => paDie r.1 = die | [] => false)).length

/-- The units an armed job takes are free; a job whose region breaks its rules needs none. -/
def unitsFree (s : State) (core : Nat) (j : Job) : Bool :=
  if j.eng = 3 || j.eng = 5 || j.eng = 6 then
    match jobRegion s j with
    | .error _ => true
    | .ok ps =>
      match dieOfPieces ps with
      | none => true
      | some d => armedOn s j.eng d < (if j.eng = 3 then 64 else if j.eng = 5 then 16 else 32)
  else if isArmput j then ((coreCtx s core).c.jobs.filter fun e => e.2.live && e.2.st = 2 && isArmput e.2).length < 32
  else true

/-- The conditions of R310 but for the order among ready jobs. -/
def canStart (s : State) (core : Nat) (j : Job) : Bool :=
  j.live && j.st < 2 && j.stopping.isNone && !depsOpen s j && !engineBusy s core j.eng && unitsFree s core j

/-- Among the jobs of one engine that are ready at once the lowest SEQ starts first. -/
def jobReady (s : State) (core e : Nat) : Bool :=
  let j := getJob s core e
  canStart s core j &&
    (coreCtx s core).c.jobs.all fun x => x.2.eng ≠ j.eng || !canStart s core x.2 || j.seq ≤ x.2.seq

/-- The state a status shows (R310, R319). -/
def shownState (s : State) (core : Nat) (j : Job) : Nat := if j.st < 2 then (if canStart s core j then 0 else 1) else j.st

/-! ## Ends -/

/-- A job has nothing more to do before its end. -/
def canEnd (j : Job) : Bool := j.live && j.stopping.isSome && j.flight.isEmpty

/-- End a job in a state, and with it every job that depended on it where it is not DONE (R312). `fuel` bounds the chain. A job cancelled
before it started still writes its status record (DEDUCED, log entry 100: R318 makes the record the last access of every job, R321 has a
cancelled job perform no access of its work). -/
def finishJob (fuel : Nat) (s : State) (core e st : Nat) : State :=
  let j := getJob s core e
  let s := if j.eng = 6 && j.armed && st ≠ 3 && nmGet s j 0 4 < 3 then nmPut s j 0 4 (if st = 4 then 4 else 5) else s
  let s := closeJob wrPlain s core e st
  let s :=
    if isArmput j && st = 9 && j.reason = 2 && jpar j 16 / 2 ^ 24 % 2 = 1 then cntAdd (tickEpoch s) j.failc 1 3 j.tag core else s
  match fuel with
  | 0 => s
  | fuel + 1 =>
    if st = 3 then s
    else
      (liveJobs s).foldl
        (fun s x =>
          if x.2.2.deps.contains (core, e, j.seq) && x.2.2.tag = j.tag && (getJob s x.1 x.2.1).live then
            finishJob fuel (onJob s x.1 x.2.1 fun k => if k.stopping.isSome then k else { k with reason := 1 }) x.1 x.2.1 4
          else s) s

/-- More than the number of jobs of the package. -/
def jobBound : Nat := 8192

/-- A job that has stopped ends in its state. -/
def endStopped (s : State) (core e : Nat) : State :=
  match (getJob s core e).stopping with
  | some st => finishJob jobBound s core e st
  | none => s

def execJobEnd (s : State) : Res :=
  match s.arg with
  | .job core e => if canEnd (getJob s core e) then .next (endStopped s core e) else wait s
  | _ => .fault .noSuchEvent

/-! ## ESTAT, EWAIT, ECANCEL (R320, R321) -/

/-- What a handle names: nothing legal, no job the entry records, or a job's core and entry. -/
inductive HandleRef where
  | bad
  | unknown
  | job (core e : Nat)
deriving DecidableEq, Repr

def handleRef (s : State) (w : Word) : HandleRef :=
  if fld w 63 45 ≠ 0 then .bad
  else
    let core := fld w 12 5
    let e := fld w 4 0
    let mine := fun j : Job => j.used && j.seq = fld w 44 13 && j.tag = s.t.me.tag
    if mine (getJob s core e) then .job core e
    else if (getJob s core e).live && mine (getJob s core (leftEntry e)) then .job core (leftEntry e)
    else .unknown

/-- Report a job's status: the faults of R320, or the status, with the acquire of a job found DONE. -/
def reportJob (s : State) (rd core e : Nat) (w : Word) : Res :=
  let j := getJob s core e
  let st := shownState s core j
  let v := statusValue j st
  if !j.ack && (st = 5 || st = 7) then fault s { code := cEngine, i2 := w.toNat, i3 := v }
  else if !j.ack && st = 6 then fault s { code := cRaceDetected, i2 := w.toNat, i3 := v }
  else done (setS (if st = 3 then acquire s else s) rd (BitVec.ofNat 64 v))

def execEstat (rd rb : Nat) (s : State) : Res :=
  notInTrap s <|
    let w := getS s rb
    match handleRef s w with
    | .bad => faultC s cOperand
    | .unknown => done (setS s rd 8)
    | .job core e => reportJob s rd core e w

def execEwait (rd rb : Nat) (s : State) : Res :=
  notInTrap s <|
    let w := getS s rb
    match handleRef s w with
    | .bad => faultC s cOperand
    | .unknown => done (setS s rd 8)
    | .job core e => if (getJob s core e).live then wait s else reportJob s rd core e w

/-- The status of a job in its register. -/
def statusTo (s : State) (rd core e : Nat) : Res :=
  let j := getJob s core e
  doneC (setS s rd (BitVec.ofNat 64 (statusValue j (shownState s core j))))

def execEcancel (rd rb : Nat) (s : State) : Res :=
  notInTrap s <| notInSpec s <|
    let w := getS s rb
    match handleRef s w with
    | .bad => faultC s cOperand
    | .unknown => doneC (setS s rd 8)
    | .job core e =>
      let j := getJob s core e
      if j.live then
        let s := onJob s core e fun j =>
          if j.stopping.isNone then { j with stopping := some 4, reason := 2 } else j
        if canEnd (getJob s core e) then statusTo (endStopped s core e) rd core e else wait s
      else if j.st = 5 || j.st = 6 || j.st = 7 then statusTo (onJob s core e fun j => { j with ack := true }) rd core e
      else statusTo s rd core e

/-! ## Accesses of a job (R307, R311, R336, R449) -/

/-- The faults of a global access of a job before it is performed, or its translation. `kinds` are the page kinds it may use. -/
def jobCheck (s : State) (j : Job) (kinds : List Nat) (a n : Nat) (acc : Acc) : Except JErr (List Piece) :=
  if 2 ^ 56 < a + n then .error { reason := 5, va := a }
  else if fabricVA a n then .error { reason := 3, va := a }
  else
    match pieces s j.asid j.priv a n acc with
    | .error t => .error (errOf t)
    | .ok ps =>
      match ps.find? fun p => !kinds.contains p.pg.kind with
      | some p => .error { reason := 2, va := a + p.off }
      | none =>
        if (tagPoisoned s (checkedLines ps)).isSome then .error { reason := 4, va := a }
        else match linesConflict s (jobAgent j) (acc == .write) (checkedLines ps) with
        | some (k, _) => .error { st := 6, reason := k }
        | none => .ok ps

/-- The launching core's own copies of the lines of a job's access are written back and dropped (R253), the access reaches their home
slices, and the step on their tags is taken (R299). -/
def jobTouch (s : State) (j : Job) (a : Nat) (acc : Acc) (ps : List Piece) : State :=
  let write := acc == .write
  let s := l1DropOf (notePieces s j.asid a ps) j.core (ps.flatMap fun p => linesOf p.pg.pa p.len)
  let s := ps.foldl (fun s p => touchLines s p.pg.pa p.len (effHint p.pg (jobHint j)) j.tint false write) s
  tagLines s (jobAgent j) write (checkedLines ps)

def jobKinds : List Nat := [0, 1, 2]

/-- A scratchpad range a job may not reach (R450). -/
def jobSpmBad (j : Job) (a : Int) (n : Nat) : Bool := a < 0 || (j.spm : Int) < a + n || (mib8 * j.g : Int) < a + n

/-- Poison in the scratchpad of the job's gang. -/
def jobSpmPoison (s : State) (j : Job) (a n : Nat) : Bool :=
  (List.range j.g).any fun m => (coreCtx s (j.core + m)).c.spmPoison.any fun g => overlaps (mib8 * m + g) 8 a n

/-- Read `n` bytes for a job. -/
def jobRead (s : State) (j : Job) (spm : Bool) (a : Int) (n : Nat) : Except JErr (List Byte × State) :=
  if a < 0 || !coveredBy (readFp j) spm 3 a.toNat n then .error { st := 7 }
  else if spm then
    if jobSpmBad j a n then .error { reason := 5 }
    else if jobSpmPoison s j a.toNat n then .error { reason := 4 }
    else .ok ((List.range n).map fun k => spmByteOf s j.core (a.toNat + k), s)
  else
    match jobCheck s j jobKinds a.toNat n .read with
    | .error e => .error e
    | .ok ps =>
      if (softCheck s a.toNat ps).isSome then .error { reason := 4, va := a.toNat }
      else
        let s := jobTouch s j a.toNat .read ps
        .ok (peekPieces s ps, s)

/-- Write bytes for a job; `free` for a write that needs no footprint. -/
def jobWrite (s : State) (j : Job) (free spm : Bool) (a : Int) (bs : List Byte) (kinds : List Nat) (sync : Option SyncRec) :
    Except JErr State :=
  if a < 0 || (!free && !coveredBy (writeFp j) spm 3 a.toNat bs.length) then .error { st := 7 }
  else if spm then
    if !free && jobSpmBad j a bs.length then .error { reason := 5 } else .ok (setSpmBytesOf s j.core a.toNat bs)
  else
    match jobCheck s j kinds a.toNat bs.length .write with
    | .error e => .error e
    | .ok ps =>
      let s := jobTouch s j a.toNat .write ps
      .ok (ps.foldl
        (fun s p =>
          orderWrite s p.pg.pa ((bs.drop p.off).take p.len) { bypass := effHint p.pg (jobHint j) = 3, sync, tint := j.tint }) s)

/-- A regulator withholds an access of a job (R453): it needs a line that the L2 does not hold, or writes through, and the line's die has
spent the HBM budget of the job's tint. -/
def jobWithheld (s : State) (j : Job) (spm : Bool) (a : Int) (n : Nat) (acc : Acc) : Bool :=
  !spm && 0 ≤ a &&
    match pieces s j.asid j.priv a.toNat n acc with
    | .ok ps =>
      ps.any fun p => (linesOf p.pg.pa p.len).any fun l => hbmWithheld s (128 * l) j.tint (acc == .write && effHint p.pg (jobHint j) = 3)
    | .error _ => false

/-! ## COPY, GATHER, SCATTER (R322, R323) -/

/-- The next unit of a job: how many bytes, where from, or none where a bound leaves the element out, where to, and the element and
index of a list. -/
structure JUnit where
  n : Nat := 0
  src : Option Int := none
  dst : Int := 0
  idx : Option (Nat × Nat) := none
deriving DecidableEq, Repr, Inhabited

/-- The bytes from an address to the next aligned 8-byte word. -/
def toWord (a : Int) : Nat := (8 - a % 8).toNat

def jobTotal (j : Job) : Nat :=
  let one := fun v : Nat => if v = 0 then 1 else v
  if j.eng = 0 then jpar j 12 * one (jpar j 13 % 2 ^ 32) * one (jpar j 13 / 2 ^ 32) else jpar j 13 * jpar j 14

/-- The destination of the byte at `pos` of a ring's output stream (R314). -/
def ringDst (s : State) (j : Job) (pos : Nat) : Int :=
  let w := holeOf s j.core (jobHole j)
  (phAddr w (phFill w) + pos % (phSlot w * 128) : Nat)

/-- The unit at `pos` of a COPY. -/
def copyUnit (s : State) (j : Job) (pos : Nat) : JUnit :=
  let l := jpar j 12
  let n1 := if jpar j 13 % 2 ^ 32 = 0 then 1 else jpar j 13 % 2 ^ 32
  let b := pos % l
  let i1 : Int := (pos / l % n1 : Nat)
  let i2 : Int := (pos / l / n1 : Nat)
  let st := fun k => sext 64 (jpar j k)
  let src : Int := parAddr (jpar j 0) + i2 * st 15 + i1 * st 14 + b
  let dst : Int := if jobHen j then ringDst s j pos else parAddr (jpar j 1) + i2 * st 17 + i1 * st 16 + b
  { n := Nat.min (l - b) (toWord dst), src := some src, dst }

/-- Where the index of the element at `pos` of a GATHER or SCATTER lies. -/
def indexAddr (j : Job) (pos : Nat) : Int := (parAddr (jpar j 12) + 4 * (pos / jpar j 14) : Nat)

/-- The unit at `pos` of a GATHER or SCATTER whose element has index `i`. -/
def listUnit (s : State) (j : Job) (pos i : Nat) : JUnit :=
  let e := jpar j 14
  let b := pos % e
  let far := i * jpar j 15 + b
  let near := pos / e * e + b
  let src : Int := (parAddr (jpar j 0) + (if j.eng = 1 then far else near) : Nat)
  let dst : Int := if j.eng = 1 && jobHen j then ringDst s j pos else ((parAddr (jpar j 1) + (if j.eng = 1 then near else far) : Nat) : Int)
  { n := Nat.min (e - b) (toWord dst), src := if i < jpar j 16 then some src else none, dst, idx := some (pos / e, i) }

/-- The ring of a job's task is gone with the task. -/
def ringGone (s : State) (j : Job) : Bool :=
  jobHen j && !((coreCtx s j.core).c.busy && (coreCtx s j.core).t.me.tag = j.tag && phV (holeOf s j.core (jobHole j)))

/-- Cut a unit at the end of its ring slot. -/
def slotCut (s : State) (j : Job) (u : JUnit) : JUnit :=
  if jobHen j then
    let size := phSlot (holeOf s j.core (jobHole j)) * 128
    { u with n := Nat.min u.n (size - j.pos % size) }
  else u

/-- The index of the element a job is in, where it has been read (R323). -/
def knownIndex (j : Job) : Option Nat :=
  match j.idx with
  | some (k, i) => if k = j.pos / jpar j 14 then some i else none
  | none => none

/-- The unit at a job's position, after the read of its index where the element begins, or the error that read meets. -/
def nextUnit (s : State) (j : Job) : Except JErr (JUnit × State) :=
  if j.eng = 0 then .ok (slotCut s j (copyUnit s j j.pos), s)
  else
    match knownIndex j with
    | some i => .ok (slotCut s j (listUnit s j j.pos i), s)
    | none =>
      match jobRead s j (parSpm (jpar j 12)) (indexAddr j j.pos) 4 with
      | .error x => .error x
      | .ok (ib, s) => .ok (slotCut s j (listUnit s j j.pos (leNat ib)), s)

/-- The bytes a unit writes: those of its source, or those that stand for an element left out (R323). -/
def unitBytes (s : State) (j : Job) (u : JUnit) : Except JErr (List Byte × State) :=
  match u.src with
  | some a => jobRead s j (parSpm (jpar j 0)) a u.n
  | none => .ok (if j.eng = 1 then List.replicate u.n 0 else [], s)

/-- Whether a unit writes to the scratchpad: always into a ring. -/
def unitSpm (j : Job) : Bool := jobHen j || parSpm (jpar j 1)

/-- A regulator withholds an access of the next unit of a COPY, GATHER or SCATTER, or of the next record of a TRAJ. -/
def unitWithheld (s : State) (j : Job) : Bool :=
  if j.eng = 4 then
    jpar j 15 ≤ j.pos && jobWithheld s j (parSpm (jpar j 14)) (parAddr (jpar j 14) : Nat) 8 .write ||
      j.pos < jpar j 15 &&
        jobWithheld s j false ((parAddr (jpar j 12) + (jpar j 16 + j.pos) % jpar j 13 * 32 : Nat) : Int) 32 .write
  else
    j.eng ≠ 0 && (knownIndex j).isNone && jobWithheld s j (parSpm (jpar j 12)) (indexAddr j j.pos) 4 .read ||
      match nextUnit s j with
      | .error _ => false
      | .ok (u, s) =>
        (match u.src with | some a => jobWithheld s j (parSpm (jpar j 0)) a u.n .read | none => false) ||
          jobWithheld s j (unitSpm j) u.dst u.n .write

/-- A job pauses: its ring has no free slot for the next one, or a regulator withholds its next access (R314, R453). -/
def jobPaused (s : State) (j : Job) : Bool :=
  (jobHen j && !ringGone s j &&
    (let w := holeOf s j.core (jobHole j); j.pos % (phSlot w * 128) = 0 && j.pos < jobTotal j && phCount w ≤ phFilled w)) ||
  unitWithheld s j

/-- A slot written whole is passed on (R271, R314). -/
def passSlot (s : State) (j : Job) (pos : Nat) : State :=
  if jobHen j && pos % (phSlot (holeOf s j.core (jobHole j)) * 128) = 0 then advHole s j.core (jobHole j) false else s

/-- The zeros that fill a final partial slot. -/
def padSlot (s : State) (j : Job) : State :=
  let size := phSlot (holeOf s j.core (jobHole j)) * 128
  if jobHen j && j.pos % size ≠ 0 then
    advHole (setSpmBytesOf s j.core (ringDst s j j.pos).toNat (List.replicate (size - j.pos % size) 0)) j.core (jobHole j) false
  else s

/-- Perform the units of a job until it ends or pauses. `fuel` bounds them. -/
def runUnits (fuel : Nat) (s : State) (core e : Nat) : State :=
  match fuel with
  | 0 => s
  | fuel + 1 =>
    let j := getJob s core e
    if ringGone s j then failJob s core e { reason := 2 }
    else if jobTotal j ≤ j.pos then onJob (padSlot s j) core e fun j => { j with stopping := some 3 }
    else if jobPaused s j then s
    else
      match nextUnit s j with
      | .error x => failJob s core e x
      | .ok (u, s) =>
        match unitBytes s j u with
        | .error x => failJob s core e x
        | .ok (bs, s) =>
          match (if bs.isEmpty then .ok s else jobWrite s j (jobHen j) (unitSpm j) u.dst bs jobKinds none) with
          | .error x => failJob s core e x
          | .ok s =>
            let s := onJob s core e fun j => { j with pos := j.pos + u.n, units := j.units + bs.length, idx := u.idx }
            runUnits fuel (passSlot s j (j.pos + u.n)) core e

/-! ## TRAJ (R366) -/

/-- Append the records of a batch, then publish the index, a release with its tick after them (R298). `fuel` bounds the records. -/
def runTraj (fuel : Nat) (s : State) (core e : Nat) : State :=
  match fuel with
  | 0 => s
  | fuel + 1 =>
    let j := getJob s core e
    let k := j.pos
    if jobPaused s j then s
    else if jpar j 15 ≤ k then
      let s := tickEpoch s
      let r : SyncRec := { tag := j.tag, core, pkg := s.pkg.number, scope := 3 }
      match jobWrite s j false (parSpm (jpar j 14)) (parAddr (jpar j 14) : Nat) (leBytes 8 (jpar j 16 + jpar j 15)) jobKinds (some r) with
      | .error x => failJob s core e x
      | .ok s => onJob s core e fun j => { j with stopping := some 3 }
    else
      match jobRead s j true ((parAddr (jpar j 0) + 32 * k : Nat) : Int) 32 with
      | .error x => failJob s core e x
      | .ok (bs, s) =>
        match jobWrite s j false false ((parAddr (jpar j 12) + (jpar j 16 + k) % jpar j 13 * 32 : Nat) : Int) bs [0, 2] none with
        | .error x => failJob s core e x
        | .ok s => runTraj fuel (onJob s core e fun j => { j with pos := k + 1, units := k + 1 }) core e

/-! ## Arming (R313, R324, R343, R368) -/

/-- The first page of an armed range that its kind refuses, or that lies on another die than the first (R313, R324, R325). -/
def refusedPage (j : Job) (ps : List Piece) : Option Piece :=
  let kinds := if j.eng = 3 then [0, 1] else [0]
  let die := (ps.head?.map fun p => paDie p.pg.pa).getD 0
  ps.find? fun p => !kinds.contains p.pg.kind || paDie p.pg.pa ≠ die

/-- Arm a TRACK, SINK or NMRED job over its region, or end it. -/
def armJob (s : State) (core e : Nat) : State :=
  let j := getJob s core e
  match jobRegion s j with
  | .error t => failJob s core e (errOf t)
  | .ok ps =>
    match refusedPage j ps with
    | some p => failJob s core e { reason := 2, va := parAddr (jpar j 12) + p.off }
    | none =>
      let s := notePieces s j.asid (parAddr (jpar j 12)) ps
      let j := { j with armed := true, ranges := ps.map fun p => (p.pg.pa, p.len) }
      let s := setJob s core e j
      if j.eng = 6 then orderWrite s (nmBase j) (leBytes 128 1) { base := true, clearTag := true } else s

end Sys2Proof.Machine
end

