-- ==== Sys2Proof/Machine/Port.lean ====
section
/-! DEFINITION. Port jobs, their packets and responses, and what arrives at a target (R331 to R346). -/

namespace Sys2Proof.Machine

/-! ## The layout of packets (R334) -/

/-- A packet carries a reduction tag: domain 0 is the null domain, of which no task is a member (R386). -/
def tagged (p : Packet) : Bool := p.dom ≠ 0

/-- The first 64 bytes of a packet's header flit. The job tag is the handle of the job (R308), and the refusal state and reason are bytes
48 and 49 (DESIGN CHOICE, log entry 80). -/
def packetHeader (p : Packet) : List Byte :=
  leBytes 1 p.kind ++ leBytes 1 (p.vc % 8 + (if p.last then 8 else 0) + p.addfmt * 16) ++ leBytes 2 p.srcPkg ++ leBytes 2 p.node ++
  leBytes 2 p.tgtPkg ++ leBytes 4 p.seq ++ leBytes 4 p.fg ++ leBytes 4 p.tg ++ leBytes 6 p.off ++ leBytes 4 p.len ++
  leBytes 2 (p.dom + p.member * 2 ^ 10) ++ leBytes 8 p.incl ++
  leBytes 2 (p.rctr + (if p.ren then 2 ^ 12 else 0) + (if p.first then 2 ^ 13 else 0)) ++ leBytes 6 (p.jobSeq * 2 ^ 13 + p.jobCore * 2 ^ 5 + p.jobEntry) ++
  leBytes 1 p.rstate ++ leBytes 1 p.rreason ++ leBytes 14 0

/-- How many data flits hold a payload of `n` bytes. -/
def dataFlits (n : Nat) : Nat := (n + 255) / 256

/-- The flits of a packet: its header, and its payload in order, a final partial flit padded with zeros. -/
def packetFlits (p : Packet) : List (List Byte) :=
  (packetHeader p ++ leBytes 192 0) ::
    (List.range (dataFlits p.payload.length)).map fun k => ((p.payload.drop (256 * k)).take 256 ++ leBytes 256 0).take 256

/-- The bytes a packet puts on its fibre. -/
def packetBytes (p : Packet) : Nat := 256 * (1 + dataFlits p.payload.length)

/-! ## Parameters (R337) -/

def portKind (j : Job) : Nat := jpar j 12 % 4
/-- What a port job sends: 0 PUT, 1 PUTADD, 2 GET. -/
def sentKind (j : Job) : Nat := if portKind j = 3 then jpar j 12 / 32 % 2 else portKind j
def portFmt (j : Job) : Nat := jpar j 12 / 64 % 2
/-- The bytes of an element of a PUTADD. -/
def addSize (fmt : Nat) : Nat := if fmt = 1 then 2 else 4
def portLen (j : Job) : Nat := jpar j 13
def portDen (j : Job) : Bool := jpar j 17 / 2 ^ 10 % 2 = 1
/-- The fabric address and the local address of a port job. -/
def portFar (j : Job) : Nat := if portKind j = 2 then jpar j 0 else jpar j 1
def portNear (j : Job) : Nat := if portKind j = 2 then jpar j 1 else jpar j 0
def farNode (j : Job) : Nat := portFar j / 2 ^ 43 % 4096
def farOff (j : Job) : Nat := portFar j % 2 ^ 43

/-- A footprint range holds a fabric address (R337). -/
def rangeFabric (r : Bool × Nat × Nat) : Bool := !r.1 && 0 < r.2.2 && 2 ^ 55 ≤ r.2.1 + r.2.2 - 1

/-- The limits of R337 that raise OperandRange. -/
def portBad (s : State) (j : Job) : Bool :=
  let p := jpar j
  let k := portKind j
  let adds := sentKind j = 1
  let vc := p 12 / 4 % 8
  !onlyPars j (List.range 19) || 2 ^ 7 ≤ p 12 || !(vc = 0 || (k = 0 && (vc = 4 || vc = 5))) || (k ≠ 3 && p 12 / 32 % 2 = 1) ||
  (!adds && portFmt j = 1) || portLen j = 0 || 2 ^ 32 ≤ portLen j || (adds && portLen j % addSize (portFmt j) ≠ 0) ||
  2 ^ 33 ≤ p 14 || 2 ^ 13 ≤ p 15 || (k ≠ 3 && p 16 ≠ 0) || p 16 / 2 ^ 25 % 2 ^ 7 ≠ 0 || 2 ^ 11 ≤ p 17 || (!adds && p 17 ≠ 0) ||
  (!portDen j && p 18 ≠ 0) ||
  !isFabricPar (portFar j) || isFabricPar (portNear j) || isFabricPar (p 3) ||
  (readFp j ++ writeFp j).any rangeFabric ||
  !coveredBy (if k = 2 then writeFp j else readFp j) (parSpm (portNear j)) 3 (parAddr (portNear j)) (portLen j) ||
  (adds && farOff j % addSize (portFmt j) ≠ 0) ||
  (portDen j &&
    match liveDom s (p 17 % 1024) with
    | none => true
    | some d => d.list.isSome || 64 < d.members.length || !d.has s.t.me.tag)

/-- A counter beyond the header's among those an ARMPUT names. -/
def portOver (s : State) (j : Job) : Bool :=
  portKind j = 3 &&
    (s.t.hdr.counters ≤ jpar j 16 % 4096 || (jpar j 16 / 2 ^ 24 % 2 = 1 && s.t.hdr.counters ≤ jpar j 16 / 2 ^ 12 % 4096))

/-- The forwarding entry of a node: its fibre and package, where it is valid (R351). -/
def routeOf (s : State) (node : Nat) : Option (Nat × Nat) :=
  let w := tget 0 s.pkg.fwd node
  if w.getLsbD 63 then some (fld w 44 40, fld w 27 16) else none

def fibGen (s : State) (f : Nat) : Nat := tget 0 s.pkg.fibgen f

/-- The check of an expected TG at EGO (R338). -/
def portStale (s : State) (j : Job) : Option Trap :=
  match routeOf s (farNode j) with
  | none => none
  | some (f, _) =>
    let tg := jpar j 14 % 2 ^ 32
    if jpar j 14 / 2 ^ 32 = 1 && genAfter (fibGen s f) tg then some { code := cStale, i2 := f, i3 := fibGen s f * 2 ^ 32 + tg } else none

def execEgoPort (rd : Nat) (s : State) : Res :=
  notInTrap s <| notInSpec s <|
    let j := captured s 7
    match (egoFault s j (portOver s j) (portBad s j) false).orElse fun _ => portStale s j with
    | some t => fault s t
    | none =>
      let idx := match liveDom s (jpar j 17 % 1024) with | some d => if portDen j then d.idxOf s.t.me.tag else 0 | none => 0
      createJob s rd
        { j with
          route := routeOf s (farNode j), fg := s.pkg.fg, tg := s.pkg.tg, member := idx,
          trig := mapCnt s.t.regs.cntbase (jpar j 16 % 4096), failc := mapCnt s.t.regs.cntbase (jpar j 16 / 2 ^ 12 % 4096) }

/-! ## Sending (R333, R339, R350) -/

/-- Cut a transfer at 4,096-byte boundaries of the target offset: offset, length, and bytes before it. `fuel` bounds the packets. -/
def cutPackets (fuel off n before : Nat) : List (Nat × Nat × Nat) :=
  match fuel with
  | 0 => []
  | fuel + 1 =>
    if n = 0 then []
    else
      let k := Nat.min n (4096 - off % 4096)
      (off, k, before) :: cutPackets fuel (off + k) (n - k) (before + k)

/-- The packets of a job, before payload and sequence number. -/
def portPackets (s : State) (j : Job) (core e : Nat) : List Packet :=
  let cuts := cutPackets (portLen j / 4096 + 2) (farOff j) (portLen j) 0
  cuts.zipIdx.map fun c =>
    { kind := sentKind j + 1, vc := if sentKind j = 1 then 2 else jpar j 12 / 4 % 8, last := c.2 + 1 = cuts.length, addfmt := portFmt j,
      srcPkg := s.pkg.number, node := farNode j, tgtPkg := (j.route.getD (0, 0)).2, fg := j.fg, tg := j.tg, off := c.1.1, len := c.1.2.1,
      dom := if portDen j then jpar j 17 % 1024 else 0, member := j.member, incl := jpar j 18, rctr := jpar j 15 % 4096,
      ren := jpar j 15 / 2 ^ 12 % 2 = 1, first := c.2 = 0, jobCore := core, jobEntry := e, jobSeq := j.seq }

/-- A fibre takes nothing now: it is quiesced (R349), or its port is down (R495). -/
def fibreShut (s : State) (f : Nat) : Bool := s.pkg.quiet.contains f || s.pkg.portDown.contains f

/-- A fibre takes no packet of a job now: it is shut, or the tint's fabric budget is spent (R453). -/
def fibreBlocked (s : State) (core f tint : Nat) : Bool := fibreShut s f || overBudget s (dieOf core) 1 tint

/-- Whether VC `vc` of fibre `f` has no credit (R332). How many credits a port has the spec does not state; the state carries how many
attempts to send will find none (log entry 79). -/
def stalled (s : State) (f vc : Nat) : Bool := 0 < tget 0 s.pkg.stall (8 * f + vc)

/-- An attempt to send has found no credit. -/
def unstall (s : State) (f vc : Nat) : State :=
  onPkg s fun p => { p with stall := tset 0 p.stall (8 * f + vc) (tget 0 p.stall (8 * f + vc) - 1) }

/-- Send a packet on a fibre with the next sequence number of its VC and target. -/
def sendPacket (s : State) (f : Nat) (p : Packet) : State × Packet :=
  let k := 4096 * p.vc + p.tgtPkg
  let n := tget 0 s.pkg.pktSeq k
  let p := { p with seq := n }
  (emit (onPkg s fun g => { g with pktSeq := tset 0 g.pktSeq k ((n + 1) % 2 ^ 32) }) (.packet f p), p)

/-- End a port job in a state once its responses have arrived; nothing more is sent. -/
def failPort (s : State) (core e st reason : Nat) : State :=
  onJob s core e fun j => if j.stopping.isSome then j else { j with stopping := some st, reason }

/-- Whether fibre `f`'s circuit leads elsewhere than to package `pkg`, or nowhere. -/
def circuitMisses (s : State) (f pkg : Nat) : Bool :=
  match tget none s.pkg.circuit f with
  | some (q, _) => q != pkg
  | none => true

/-- Where the payload of a packet lies at the source. -/
def payloadAddr (j : Job) (p : Packet) : Int := (parAddr (portNear j) + (p.off - farOff j) : Nat)

/-- A regulator withholds the read of a packet's payload (R453). -/
def payloadWithheld (s : State) (j : Job) (p : Packet) : Bool :=
  p.kind ≠ 3 && jobWithheld s j (parSpm (portNear j)) (payloadAddr j p) p.len .read

/-- Put a packet of a job on a fibre, charged to the job's tint (R452). -/
def launchPacket (s : State) (core e f : Nat) (x : InFlight) : State :=
  let (s, p) := sendPacket s f x.pkt
  let s := charge s (dieOf core) 1 (getJob s core e).tint (packetBytes p)
  onJob s core e fun j => { j with flight := j.flight ++ [{ x with pkt := p, fibre := f }] }

/-- Whether a job is the one that its core's port engine sends for (R310, R333): one that has sent a part of its packets comes first,
then the one that started first (DEDUCED, log entry 79: an ARMPUT that has not fired holds nothing back). -/
def portTurn (s : State) (core e : Nat) : Bool :=
  let begun := fun j : Job => match j.unsent with | p :: _ => !p.first | [] => false
  let j := getJob s core e
  (coreCtx s core).c.jobs.all fun x =>
    x.1 = e || !(x.2.eng = 7 && holdsEngine x.2) || (begun j && !begun x.2) || (begun j == begun x.2 && j.order ≤ x.2.order)

/-- Send again what was answered Moved, ahead of the unsent packets, each under the forwarding table of now (R351). `fuel` bounds
them. -/
def sendResend (fuel : Nat) (s : State) (core e : Nat) : State :=
  match fuel with
  | 0 => s
  | fuel + 1 =>
    let j := getJob s core e
    match j.resend with
    | [] => s
    | x :: rest =>
      match routeOf s x.pkt.node with
      | none => failPort s core e 11 1
      | some (f, pkg) =>
        if circuitMisses s f pkg then failPort s core e 11 2
        else if fibreBlocked s core f j.tint then s
        else if stalled s f x.pkt.vc then unstall s f x.pkt.vc
        else
          let s := setJob s core e { j with resend := rest }
          sendResend fuel
            (launchPacket s core e f { x with pkt := { x.pkt with tgtPkg := pkg, fg := s.pkg.fg, tg := s.pkg.tg }, tg := s.pkg.tg }) core e

/-- Send a job's unsent packets while its fibre takes them. `fuel` bounds them. -/
def sendUnsent (fuel : Nat) (s : State) (core e : Nat) : State :=
  match fuel with
  | 0 => s
  | fuel + 1 =>
    let j := getJob s core e
    match j.unsent, j.route with
    | p :: rest, some (f, pkg) =>
      if genAfter (fibGen s f) j.tg then failPort s core e 9 1
      else if circuitMisses s f pkg then failPort s core e 11 2
      else if fibreBlocked s core f j.tint || payloadWithheld s j p then s
      else if stalled s f p.vc then unstall s f p.vc
      else
        match (if p.kind = 3 then .ok ([], s) else jobRead s j (parSpm (portNear j)) (payloadAddr j p) p.len) with
        | .error x => failJob s core e x
        | .ok (payload, s) =>
          let s := onJob s core e fun j => { j with unsent := rest }
          sendUnsent fuel (launchPacket s core e f { pkt := { p with payload }, tg := j.tg }) core e
    | _, _ => s

/-- Send for a port job what may go now. -/
def sendPort (s : State) (core e : Nat) : State :=
  let s := sendResend ((getJob s core e).resend.length + 1) s core e
  let j := getJob s core e
  if j.resend.isEmpty && j.stopping.isNone && portTurn s core e then sendUnsent (j.unsent.length + 1) s core e else s

/-- Begin to send. -/
def sendJob (s : State) (core e : Nat) : State :=
  let j := getJob s core e
  sendPort (setJob s core e { j with armed := false, unsent := portPackets s j core e }) core e

/-! ## JOB_START and ARMPUT_FIRE (R310, R342) -/

/-- A port job has something to send that may be tried now. -/
def portReady (s : State) (core e : Nat) : Bool :=
  let j := getJob s core e
  match j.resend, j.unsent with
  | x :: _, _ => (match routeOf s x.pkt.node with | some (f, _) => !fibreBlocked s core f j.tint | none => true)
  | [], p :: _ =>
    portTurn s core e && !payloadWithheld s j p &&
      (match j.route with | some (f, _) => !fibreBlocked s core f j.tint | none => false)
  | [], [] => false

/-- A job that has paused may go on. -/
def jobResumable (s : State) (core e : Nat) : Bool :=
  let j := getJob s core e
  j.live && j.st = 2 && j.stopping.isNone && !j.armed &&
    (if j.eng = 7 then portReady s core e else j.eng ≠ 3 && j.eng ≠ 5 && j.eng ≠ 6 && !jobPaused s j)

/-- Perform a job's accesses, from its start or from where it paused. -/
def runJob (s : State) (core e : Nat) : State :=
  let j := getJob s core e
  match j.eng with
  | 0 | 1 | 2 => runUnits (jobTotal j + 2) s core e
  | 4 => runTraj (jpar j 15 + 1) s core e
  | 7 => sendPort s core e
  | _ => s

/-- A task is parked: it lives, and runs on no core. -/
def parkedTask (s : State) (tag : Nat) : Bool := match getTask s tag with | some r => r.st ≠ 2 | none => false

/-- A job starts: it takes its place in the order of starts, and its units, or does its first accesses; grey pays for one whose task is
parked (R438). -/
def startJob (s : State) (core e : Nat) : State :=
  let order := (coreCtx s core).c.jobs.foldl (fun m x => Nat.max m (x.2.order + 1)) 0
  let s := onJob s core e fun j => { j with st := 2, order, tint := if parkedTask s j.tag then 3 else j.tint }
  let j := getJob s core e
  if j.eng = 3 || j.eng = 5 || j.eng = 6 then armJob s core e
  else if j.eng = 7 then
    match j.route with
    | none => failPort s core e 11 1
    | some _ => if isArmput j then meetArmput (setJob s core e { j with armed := true }) core e else sendJob s core e
  else runJob s core e

def execJobStart (s : State) : Res :=
  match s.arg with
  | .job core e =>
    if jobReady s core e then .next (startJob s core e)
    else if jobResumable s core e then .next (runJob s core e)
    else wait s
  | _ => .fault .noSuchEvent

/-- An ARMPUT has fired, and its path is to be checked. -/
def armDue (j : Job) : Bool := j.live && j.armed && j.fired && j.stopping.isNone

/-- An ARMPUT that has fired checks its path and sends (R342). -/
def fireArmput (s : State) (core e : Nat) : State :=
  match (getJob s core e).route with
  | none => failPort s core e 11 1
  | some (f, _) => if genAfter (fibGen s f) (getJob s core e).tg then failPort s core e 9 2 else sendJob s core e

def execArmputFire (s : State) : Res :=
  match s.arg with
  | .job core e => if armDue (getJob s core e) then .next (fireArmput s core e) else wait s
  | _ => .fault .noSuchEvent

/-! ## Responses at the source (R339, R340, R351) -/

/-- The live port job a response answers: the one that its job tag names. -/
def respJob (s : State) (p : Packet) : Option (Nat × Nat) :=
  let j := getJob s p.jobCore p.jobEntry
  if j.live && j.eng = 7 && j.seq = p.jobSeq then some (p.jobCore, p.jobEntry) else none

/-- A job all of whose packets are answered is done. -/
def portDone (s : State) (core e : Nat) : State :=
  onJob s core e fun j =>
    if j.unsent.isEmpty && j.resend.isEmpty && j.flight.isEmpty && j.stopping.isNone then { j with stopping := some 3 } else j

/-- A packet is answered: it leaves the flight and `n` bytes are counted. -/
def answered (s : State) (core e : Nat) (p : Packet) (n : Nat) : State :=
  portDone (onJob s core e fun j => { j with flight := j.flight.filter (fun x => x.pkt.off ≠ p.off), units := j.units + n }) core e

/-- Run `k` on the job that a response answers; a response to no job is dropped. -/
def onResponse (s : State) (p : Packet) (k : Nat → Nat → State) : State :=
  match respJob s p with
  | some (core, e) => k core e
  | none => s

/-- The bytes of the packet that a response answers. -/
def sentBytes (s : State) (core e : Nat) (p : Packet) : Nat :=
  match (getJob s core e).flight.find? fun x => x.pkt.off = p.off with | some x => x.pkt.len | none => 0

/-- An acknowledgement. -/
def ackArrives (s : State) (p : Packet) : State := onResponse s p fun core e => answered s core e p (sentBytes s core e p)

/-- A job performs no access more: it has met a race (R301), or an access of it has failed (R311, R449). One that is cancelled still writes
the data of requests it has sent (R321). -/
def accessesOver (j : Job) : Bool := match j.stopping with | some k => 5 ≤ k && k ≤ 7 | none => false

/-- The data of a GET. -/
def dataArrives (s : State) (p : Packet) : State :=
  onResponse s p fun core e =>
    let j := getJob s core e
    if accessesOver j then answered s core e p 0
    else
      match jobWrite s j false (parSpm (portNear j)) (payloadAddr j p) p.payload jobKinds none with
      | .ok s => answered s core e p p.payload.length
      | .error x => answered (if j.stopping.isSome then s else failJob s core e x) core e p 0

/-- A refusal, or EXCLUDED. -/
def refusalArrives (s : State) (p : Packet) : State :=
  onResponse s p fun core e => answered (failPort s core e p.rstate p.rreason) core e p 0

/-- Put a packet in its place among those to be sent again: in the order in which they were first sent. -/
def resendIns (x : InFlight) (xs : List InFlight) : List InFlight :=
  match xs with
  | [] => [x]
  | y :: rest => if x.pkt.off < y.pkt.off then x :: y :: rest else y :: resendIns x rest

/-- A Moved answer: the packet waits to be sent once more, or the job ends. The answer itself waits for nothing (R332). -/
def movedAnswer (s : State) (p : Packet) (core e : Nat) : State :=
  let j := getJob s core e
  match j.flight.find? fun x => x.pkt.off = p.off with
  | none => s
  | some x =>
    if x.moved then answered (failPort s core e 10 1) core e p 0
    else if j.stopping.isSome then answered s core e p 0
    else
      let s := setJob s core e { j with
        flight := j.flight.filter fun y => y.pkt.off ≠ p.off, resend := resendIns { x with moved := true } j.resend }
      sendPort s core e

/-- A Moved response. -/
def movedArrives (s : State) (p : Packet) : State := onResponse s p fun core e => movedAnswer s p core e

/-! ## Arrivals at the target (R335, R336) -/

/-- The fibre on which a packet without a route of its own leaves for a package: the first whose circuit reaches it, and fibre 0 where none
does (DESIGN CHOICE, log entry 89: the spec names no fibre for a response or a notice). -/
def fibreTo (s : State) (pkg : Nat) : Nat :=
  match s.pkg.circuit.find? fun e => match e.2 with | some (q, _) => q = pkg | none => false with
  | some (f, _) => f
  | none => 0

/-- Whether a packet that waits for its VC may be tried: its fibre is open (R349). -/
def heldOpen (s : State) (q : Packet) : Bool := !fibreShut s (fibreTo s q.tgtPkg)

/-- Whether such a packet may go now. -/
def heldReady (s : State) (q : Packet) : Bool := heldOpen s q && !stalled s (fibreTo s q.tgtPkg) q.vc

/-- The packet that the ports try next of those that wait: one that may go, before one whose VC has no credit (R332). -/
def heldDue (s : State) : Option Packet := (s.pkg.held.find? (heldReady s)).orElse fun _ => s.pkg.held.find? (heldOpen s)

/-- Try to send a packet that waits. -/
def sendHeld (s : State) (q : Packet) : State :=
  if heldReady s q then (sendPacket (onPkg s fun p => { p with held := p.held.erase q }) (fibreTo s q.tgtPkg) q).1
  else unstall s (fibreTo s q.tgtPkg) q.vc

/-- Send a response on VC1. It waits behind a response to the same package that waits. -/
def sendResponse (s : State) (q : Packet) : State :=
  if heldReady s q && !s.pkg.held.any (fun x => x.tgtPkg = q.tgtPkg && x.vc = q.vc) then (sendPacket s (fibreTo s q.tgtPkg) q).1
  else onPkg s fun g => { g with held := g.held ++ [q] }

/-- Answer a packet on VC1: what identifies the packet, and nothing of a request that a response has no use for. -/
def respond (s : State) (p : Packet) (kind rstate rreason : Nat) (payload : List Byte) : State :=
  sendResponse s
    { kind, vc := 1, srcPkg := s.pkg.number, tgtPkg := p.srcPkg, off := p.off, len := payload.length, jobCore := p.jobCore,
      jobEntry := p.jobEntry, jobSeq := p.jobSeq, rstate, rreason, payload }

/-- The job that a packet belongs to. -/
def jobTag (p : Packet) : Nat × Nat × Nat := (p.srcPkg, 32 * p.jobCore + p.jobEntry, p.jobSeq)

/-- A packet that ends its job here: none of that job's packets increments a counter from now on (R341). -/
def spoil (s : State) (p : Packet) : State := onPkg s fun g => { g with spoilt := jobTag p :: g.spoilt.filter (· ≠ jobTag p) }

/-- A refusal of R335. -/
def refuse (s : State) (p : Packet) (reason : Nat) : State := respond (spoil s p) p 7 12 reason []

/-- The answer EXCLUDED of R344. -/
def exclude (s : State) (p : Packet) (reason : Nat) : State := respond (spoil s p) p 7 14 reason []

/-- The translation of an arriving packet's bytes, or the reason it is refused. -/
def windowPieces (s : State) (p : Packet) (acc : Acc) : Except Nat (List Piece) :=
  if s.pkg.fwinlen < p.off + p.len then .error 3
  else
    match pieces s s.pkg.fwinasid true (s.pkg.fwinbase + p.off) p.len acc with
    | .error t => .error (if t.code = cTranslation then 1 else if t.code = cSealed then 4 else 2)
    | .ok ps => if ps.any fun q => 2 ≤ q.pg.kind then .error 2 else .ok ps

/-- The package serves the node a request names. -/
def servesNode (s : State) (node : Nat) : Bool := s.pkg.nodeid = 2 ^ 12 + node

/-- A packet has been performed. With a job's last one, and where none of its packets was refused here, its counter follows, a release
with its tick (R298, R340, R341). -/
def performed (s : State) (p : Packet) : State :=
  if !p.last then s
  else
    let s' := onPkg s fun g => { g with spoilt := g.spoilt.filter (· ≠ jobTag p) }
    if p.ren && !s.pkg.spoilt.contains (jobTag p) then cntAdd (tickEpoch s') ((s.pkg.fcntbase + p.rctr) % 4096) 1 4 0 0 else s'

/-- A packet is performed and acknowledged. -/
def acceptPacket (s : State) (p : Packet) : State := respond (performed s p) p 5 0 0 []

/-- A request that has arrived: answered Moved where the package does not serve its node, refused, or performed by `k`. -/
def onRequest (s : State) (p : Packet) (acc : Acc) (k : State → List Piece → State) : State :=
  let s := if p.first then onPkg s fun g => { g with spoilt := g.spoilt.filter (· ≠ jobTag p) } else s
  if !servesNode s p.node then respond s p 6 0 0 []
  else match windowPieces s p acc with | .error r => refuse s p r | .ok ps => k s ps

/-- The bytes of a PUT. -/
def putArrives (s : State) (p : Packet) : State :=
  onRequest s p .write fun s ps =>
    acceptPacket (ps.foldl (fun s q => orderWrite s q.pg.pa ((p.payload.drop q.off).take q.len) { clearTag := true, touch := some (effHint q.pg 1) }) s) p

/-- The request of a GET. -/
def getArrives (s : State) (p : Packet) : State :=
  onRequest s p .read fun s ps =>
    if ps.any fun q => (poisoned s q.pg.pa q.len).isSome then refuse s p 5
    else respond (performed (ps.foldl (fun s q => touchLines s q.pg.pa q.len (effHint q.pg 1) 4 false false) s) p) p 4 0 0 (peekPieces s ps)

/-! ## PUTADD (R344) -/

/-- One element of a PUTADD added at a physical address by unit `unit`, reaching the home slice with a hint; none for the base die. -/
def addElement (s : State) (unit fmt pa b : Nat) (hint : Option Nat) : State :=
  let z := addSize fmt
  let (n, s) := adderAdd s unit (fmt == 1) pa (peekN s pa z) b
  orderWrite s pa (leBytes z n) { base := hint.isNone, clearTag := true, touch := hint }

/-- The hint of the page that holds byte `k` of a translated range. -/
def hintAt (ps : List Piece) (k : Nat) : Nat :=
  match ps.find? fun p => p.off ≤ k && k < p.off + p.len with | some p => effHint p.pg 1 | none => 1

/-- The element values of a payload. -/
def elementsOf (fmt : Nat) (bs : List Byte) : List Nat :=
  (List.range (bs.length / addSize fmt)).map fun k => leNat ((bs.drop (addSize fmt * k)).take (addSize fmt))

/-- Add a payload element by element, in the format that the packet names. Where a region's job has another in its own parameters the
packet's still decides (DESIGN CHOICE, log entry 90: R344 folds "f32 by rne, bf16 by ns_round" and does not say whose format). -/
def addPayload (s : State) (p : Packet) (ps : List Piece) (unit : Nat → Nat) (base : Bool) : State :=
  (elementsOf p.addfmt p.payload).zipIdx.foldl
    (fun s x =>
      let k := addSize p.addfmt * x.2
      let pa := pieceAt ps k
      addElement s (unit pa) p.addfmt pa x.1 (if base then none else some (hintAt ps k))) s

/-- The near-memory adder of a byte: one for each of the three stacks of a die (R247, R343). -/
def baseUnit (pa : Nat) : Nat := 256 + 3 * paDie pa + pa / 256 % 3

/-- The NMRED job whose region a packet's bytes touch: an armed one, or one that has ended and is still in its entry. -/
def regionOf (s : State) (ps : List Piece) (armed : Bool) : Option (Nat × Nat) :=
  (coreList s).findSome? fun c =>
    match (coreCtx s c).c.jobs.find? fun e =>
        e.2.used && e.2.eng = 6 && (if armed then e.2.live && e.2.armed else !e.2.live) &&
          ps.any fun q => 0 < bytesIn e.2.ranges q.pg.pa q.len with
    | some (e, _) => some (c, e)
    | none => none

def popcount (n : Nat) : Nat := ((List.range 64).filter fun i => n.testBit i).length

/-- Whether a packet's elements lie aligned within a region's data. -/
def inData (j : Job) (p : Packet) (ps : List Piece) : Bool :=
  let z := addSize p.addfmt
  p.len % z = 0 && ps.all fun q =>
    match rangeOff j.ranges 0 q.pg.pa with
    | some off => q.pg.pa % z = 0 && 128 ≤ off && off + q.len ≤ 128 + jpar j 15
    | none => false

/-- A packet's elements folded at a region, with FOLDED, which is the job's UNITS (R318). -/
def foldAdds (s : State) (core e : Nat) (p : Packet) (ps : List Piece) : State :=
  let s := addPayload s p ps baseUnit true
  let j := getJob s core e
  let n := nmGet s j 44 4 + p.len
  onJob (nmPut s j 44 4 n) core e fun j => { j with units := n % 2 ^ 32 }

/-- A contribution folded at a bound region, counted and acknowledged. -/
def foldShare (s : State) (core e : Nat) (p : Packet) (ps : List Piece) : State :=
  let i := p.member
  let s := foldAdds s core e p ps
  let j := getJob s core e
  let a := tget 0 j.acked i + p.len
  let s := setJob s core e { j with acked := tset 0 j.acked i a }
  let s := if a = nmGet s j 40 4 then nmPut s j 16 8 (Nat.lor (nmGet s j 16 8) (Nat.lor (2 ^ i) p.incl)) else s
  acceptPacket (nmTest s core e) p

/-- The live mask and the generation of a domain, as a packet of it from another package or from this one finds them: those of the table's
entry, those that the last notice of it told (R345), or free values where this package has been told nothing of it (log entry 91). -/
def liveMask (s : State) (p : Packet) : (Nat × Nat) × State :=
  match (if p.srcPkg = s.pkg.number then getDom s p.dom
         else (getDom s p.dom).bind fun x => if x.level = 4 then some x else none), tget none s.pkg.told p.dom with
  | some d, _ => ((if d.list.isSome then 0 else d.mask, d.gen), s)
  | none, some (gen, live) => ((live, gen), s)
  | none, none => (((Config.liveMask s.free).toNat ||| 2 ^ p.member, (Config.liveGen s.free).toNat), bumpFree s)

/-- Bind a region to the domain of its first tagged packet: STATE 2, or 5 where the share is no whole number of bytes, which ends the
job (R344). -/
def bindRegion (s : State) (core e : Nat) (p : Packet) : State :=
  let ((mask, gen), s) := liveMask s p
  let j := getJob s core e
  let n := popcount mask
  let s := nmPut (nmPut (nmPut (nmPut s j 8 8 mask) j 4 2 p.dom) j 6 2 gen) j 40 4 (jpar j 15 / n)
  if n = 0 || jpar j 15 % n ≠ 0 then onJob (nmPut s j 0 4 5) core e fun j => { j with stopping := some 5, reason := 2 }
  else nmPut s j 0 4 2

/-- A tagged packet at a region. Poison of the bytes is consumed by the fold alone (R344, R483). -/
def taggedAdd (s : State) (core e : Nat) (p : Packet) (ps : List Piece) (poison : Bool) : State :=
  let j := getJob s core e
  let s := if nmGet s j 0 4 = 1 then bindRegion s core e p else s
  if nmGet s j 0 4 ≠ 2 then refuse s p 2
  else if p.dom ≠ nmGet s j 4 2 || !(nmGet s j 8 8).testBit p.member then exclude s p 2
  else if (nmGet s j 32 8).testBit p.member then exclude s p 1
  else if poison then refuse s p 5
  else foldShare s core e p ps

/-- The bytes of a PUTADD. -/
def putaddArrives (s : State) (p : Packet) : State :=
  onRequest s p .write fun s ps =>
    let poison := ps.any fun q => (poisoned s q.pg.pa q.len).isSome
    match regionOf s ps true with
    | some (core, e) =>
      let j := getJob s core e
      if !inData j p ps then refuse s p 3
      else if tagged p then taggedAdd s core e p ps poison
      else if 2 < nmGet s j 0 4 then refuse s p 2
      else if poison then refuse s p 5
      else acceptPacket (foldAdds s core e p ps) p
    | none =>
      if (regionOf s ps false).isSome then refuse s p 2
      else if ps.any fun q => q.pg.pa % addSize p.addfmt ≠ 0 then refuse s p 3
      else if poison then refuse s p 5
      else acceptPacket (addPayload s p ps adderUnit false) p

/-! ## Order on a VC under link-level replay (R333, R495) -/

/-- What a packet that has arrived does, by the kind of its arrival (R334). -/
def perform (kind : Nat) (s : State) (p : Packet) : State :=
  match kind with
  | 1 => putArrives s p
  | 2 => putaddArrives s p
  | 3 => getArrives s p
  | 4 => dataArrives s p
  | 5 => ackArrives s p
  | 6 => movedArrives s p
  | _ => refusalArrives s p

/-- A fibre by which packets of a package arrive. -/
def fibreFrom (s : State) (f pkg : Nat) : Bool :=
  match tget none s.pkg.circuit f with | some (q, _) => q = pkg | none => fibreTo s pkg = f

/-- The flits in replay that lie on the path of a packet: of its VC, from its package (R495). -/
def inReplay (s : State) (p : Packet) : List (Nat × Replay) :=
  s.pkg.replay.filter fun e => e.2.vc = p.vc && fibreFrom s (e.1 % 32) p.srcPkg

/-- The sequence number of the packet that a flit belongs to: flit `n` of an event is flit `n mod 17` of packet `n / 17` of its VC
(DESIGN CHOICE, log entry 92). -/
def Replay.packet (r : Replay) : Nat := r.flit / 17

/-- A packet that comes after one in replay is held at the receiver. -/
def mustHold (s : State) (p : Packet) : Bool := (inReplay s p).any fun e => genAfter p.seq e.2.packet

/-- The replays of a packet that has arrived are over. -/
def replayed (s : State) (p : Packet) : State :=
  onPkg s fun g => { g with replay := g.replay.filter fun e => !(e.2.packet = p.seq && e.2.vc = p.vc && fibreFrom s (e.1 % 32) p.srcPkg) }

/-- Perform the packets held at the receiver that wait for no replay any more, in their order. `fuel` bounds them. -/
def deliverHeld (fuel : Nat) (s : State) : State :=
  match fuel with
  | 0 => s
  | fuel + 1 =>
    match s.pkg.reseq.find? fun x => !mustHold s x.2 with
    | none => s
    | some x => deliverHeld fuel (perform x.1 (replayed (onPkg s fun g => { g with reseq := g.reseq.erase x }) x.2) x.2)

/-- A packet has arrived whole: it is performed, and then what waited for it, or it waits for an earlier one of its VC. -/
def receive (kind : Nat) (s : State) : Res :=
  match s.arg with
  | .packet p =>
    if mustHold s p then .next (onPkg s fun g => { g with reseq := g.reseq ++ [(kind, p)] })
    else
      let s := perform kind (replayed s p) p
      .next (deliverHeld s.pkg.reseq.length s)
  | _ => .fault .noSuchEvent

def execPutArrival (s : State) : Res := receive 1 s
def execPutaddArrival (s : State) : Res := receive 2 s
def execGetRequestArrival (s : State) : Res := receive 3 s
def execDataResponseArrival (s : State) : Res := receive 4 s
def execAcknowledgementArrival (s : State) : Res := receive 5 s
def execMovedResponse (s : State) : Res := receive 6 s
def execRefusalResponse (s : State) : Res := receive 7 s

end Sys2Proof.Machine
end

