-- ==== Sys2Proof/Machine/Caches.lean ====
section
/-! DEFINITION. What the memory system does on its own or for the host: evictions (R249, R253, R256), snoops and host accesses
(R252, R359, R474, R497), window beats (R245), the release epoch (R298), the tag patrol (R303) and doorbells (R475). -/

namespace Sys2Proof.Machine

/-! ## Evictions -/

def execL1Eviction (s : State) : Res :=
  match s.arg with
  | .num line => if (l1Get s line).isSome then .next (l1Drop s line) else wait s
  | _ => .fault .noSuchEvent

/-- A line is replaced: R249 names the order within a set, and the turns may name any line, as the mapping to sets is open. -/
def execL2Eviction (s : State) : Res :=
  match s.arg with
  | .num line =>
    if (tget none s.pkg.l2 line).isSome || !(tslice s.pkg.dirty (128 * line) 128).isEmpty then .next (l2Drop s line) else wait s
  | _ => .fault .noSuchEvent

/-! ## The host (R252, R473) -/

/-- A snoop of a host line: its data as the L2 holds it goes back to the host, and the line is kept shared or given up. -/
def snoopLine (s : State) (line kind : Nat) : State :=
  match tget none s.pkg.l2 line with
  | none => s
  | some _ =>
    let s := emit s (.snooped line (peekBytes s (128 * line) 128))
    if kind = 0 then l2Clean s line
    else l2Drop s line

def execHostSnoop (s : State) : Res :=
  match s.arg with
  | .snoop line kind =>
    if paKind (128 * line) = some 2 && kind < 3 then .next (snoopLine s line kind) else .fault .noSuchEvent
  | _ => .fault .noSuchEvent

/-- A byte of HBM is exposed to the host: an HDM decoder covers it (R252, R473). -/
def exposed (s : State) (pa : Nat) : Bool := s.pkg.hdm.any fun e => e.2.1 ≤ pa && pa < e.2.1 + e.2.2

/-- A host access lies within 64 bytes of exposed HBM, of the host's own memory, or of BAR0. -/
def hostKind (s : State) (pa n : Nat) : Option Nat :=
  if n = 0 || 64 < pa % 64 + n then none
  else match paKind pa with | some k => if k = 1 || (k = 0 && !exposed s pa) then none else some k | none => none

/-- The mailbox reads 8 bytes of a black box, in minimal mode (R479, R497). -/
def mailboxRead (s : State) (die off : Nat) : Res :=
  if die < 4 && off % 8 = 0 && off < 2 ^ 18 then
    if s.pkg.minimal then .next (emit s (.data (leBytes 8 (bbRead (getDie s die) off)) false)) else wait s
  else .fault .noSuchEvent

/-- The host sets an HDM decoder, in units of 256 MiB within HBM (R473; DESIGN CHOICE, log entry 84). -/
def setDecoder (s : State) (k base len : Nat) : Res :=
  if k < 4 && base % 2 ^ 28 = 0 && len % 2 ^ 28 = 0 && base + len ≤ hbmEnd then
    .next (onPkg s fun p => { p with hdm := tset (0, 0) p.hdm k (base, len) })
  else .fault .noSuchEvent

/-- The host's own line is given up by the L2 before the host uses it. -/
def giveUp (s : State) (pa : Nat) : State := if pa < hbmEnd then s else l2Drop s (pa / 128)

/-- A host read: the bytes at their order point, with CXL poison where they hold poison (R483). -/
def hostRead (s : State) (pa n : Nat) : Res :=
  match hostKind s pa n with
  | none => .fault .noSuchEvent
  | some 3 =>
    (match mmioRead s (pa - mmioBase) n with
    | some (v, s) => .next (emit s (.data (leBytes n v) false))
    | none => .refused .unknownMmio)
  | some _ =>
    if s.pkg.minimal then wait s
    else
      let s := if hbmEnd ≤ pa then giveUp s pa else touchLines s pa n 1 4 false false
      .next (emit s (.data (peekBytes s pa n) (poisoned s pa n).isSome))

/-- A host write; one to a sealed page is discarded and counted (R359). -/
def hostWrite (s : State) (pa : Nat) (bs : List Byte) : Res :=
  match hostKind s pa bs.length with
  | none => .fault .noSuchEvent
  | some 3 => (match mmioWrite s (pa - mmioBase) bs.length (leNat bs) with | some s => .next s | none => .refused .unknownMmio)
  | some _ =>
    if s.pkg.minimal then wait s
    else if sealedPage s pa then .next (onPkg s fun p => { p with vsealdrop := p.vsealdrop + 1 })
    else .next (orderWrite (giveUp s pa) pa bs { bypass := hbmEnd ≤ pa, clearTag := true, touch := if hbmEnd ≤ pa then none else some 1 })

def execHostAccess (s : State) : Res :=
  match s.arg with
  | .host (.read pa n) => hostRead s pa n
  | .host (.write pa bs) => hostWrite s pa bs
  | .host (.decoder k base len) => setDecoder s k base len
  | .host (.mailbox die off) => mailboxRead s die off
  | _ => .fault .noSuchEvent

def execLetterboxDoorbell (s : State) : Res :=
  match s.arg with
  | .doorbell k producer => if k < 16 then .next (doorbell s k producer) else .fault .noSuchEvent
  | _ => .fault .noSuchEvent

/-! ## Beats, the epoch, the patrol -/

/-- The beat of the `k`-th active byte of the window load that is ready at the head of the L queue reads its word ahead of the others
(R245). -/
def readBeat (s : State) (k : Nat) : Res :=
  match slotReady s 1 with
  | some (_, .vldw f x) =>
    let bs := lBytes s f x
    (match bs[k]? with
    | some b =>
      let w := b.2 / 32
      if (windowFault s (lEA s f x) bs true).isSome || (tget none s.t.slots.early w).isSome then wait s
      else .next (onSlots s fun q => { q with early := tset none q.early w (some (windowWord s w)) })
    | none => wait s)
  | _ => wait s

/-- One beat of the task in focus is performed at its target bank: one of its window stores, or, by the numbers after those, one of its
window load. -/
def execWindowBeat (s : State) : Res :=
  match s.arg with
  | .num k =>
    (match s.t.slots.beats[k]? with
    | some b => .next (landBeat (onSlots s fun q => { q with beats := q.beats.eraseIdx k }) b)
    | none => readBeat s (k - s.t.slots.beats.length))
  | _ => .fault .noSuchEvent

/-- All release requests pending share one tick. -/
def execEpochTick (s : State) : Res := if s.pkg.tickWanted then .next (tickEpoch s) else wait s

/-- The patrol visits one tag, in the L2 or scratch bank and in the sidecar. -/
def execTagPatrol (s : State) : Res :=
  match s.arg with
  | .num line =>
    .next (onPkg s fun p =>
      { p with tags := tset {} p.tags line (patrolled p.epoch (tget {} p.tags line)),
               sidecar := tset {} p.sidecar line (patrolled p.epoch (tget {} p.sidecar line)) })
  | _ => .fault .noSuchEvent

end Sys2Proof.Machine
end

