-- ==== Sys2Proof/Machine/Control.lean ====
section
/-! DEFINITION. The control words of major opcodes 0x0C to 0x0E (R81 to R94). -/

namespace Sys2Proof.Machine

/-! ## Branches (R82, R83) -/

def execPbr (b off : Nat) (s : State) : Res := done (setB s b (s.t.pc + BitVec.ofInt 64 (2 * sext 22 off)))

def execPbrxLoad (b ra : Nat) (s : State) : Res :=
  let w := getS s ra
  if w.getLsbD 0 then fault s { code := cMisaligned }
  else if fld w 63 56 ≠ 0 then fault s { code := cOperand }
  else done (setB s b w)

def execPbrxRead (rd b : Nat) (s : State) : Res := done (setS s rd (getB s b))

/-- c of R83. -/
def condQ (s : State) (q neg : Nat) : Bool := getQ s q != (neg == 1)

def execBr (b q neg : Nat) (s : State) : Res := if condQ s q neg then .next (branchTo s (getB s b) true) else done s

def execCall (b q neg : Nat) (s : State) : Res :=
  if condQ s q neg then .next (branchTo (setB s 7 (s.t.pc + 4)) (getB s b) false) else done s

def execRet (q neg : Nat) (s : State) : Res := if condQ s q neg then .next (branchTo s (getB s 7) true) else done s

/-! ## Loops (R85 to R88) -/

def loopActive (s : State) (lc : Nat) : Bool := s.t.loops.any fun l => l.lc = lc

def execLoop (lc ra imm : Nat) (s : State) : Res :=
  notInTrap s <|
    let stop := s.t.pc + BitVec.ofNat 64 (2 * imm)
    let beyond := match s.t.loops with | l :: _ => decide (l.e < stop) | [] => false
    if loopActive s lc || beyond then faultC s cLoopNest
    else
      let n := (getS s ra).setWidth 32
      let s := setLc s lc n
      if n = 0 then .next { s with t := { s.t with pc := stop } }
      else .next { s with t := { s.t with pc := s.t.pc + 4, loops := { lc, s := s.t.pc + 4, e := stop } :: s.t.loops } }

/-- The loops entered before `lc`. -/
def loopsOutside (lc : Nat) (ls : List LoopRec) : List LoopRec :=
  match ls with
  | [] => []
  | l :: rest => if l.lc = lc then rest else loopsOutside lc rest

/-- LOOPX. Where it leaves a loop, the loop end rule is not applied to an outer loop that ends at the same place (DEDUCED, log entry 96: R87
excepts a taken branch, and the spec calls BR, CALL and RET branches; LOOPX with its condition met moves the PC as one does). -/
def execLoopx (lc q neg : Nat) (s : State) : Res :=
  notInTrap s <|
    match s.t.loops.find? fun l => l.lc = lc with
    | none => faultC s cLoopNest
    | some l =>
      if condQ s q neg then .next { s with t := { s.t with pc := l.e, loops := loopsOutside lc s.t.loops } } else done s

/-! ## Predicates, NOP, END (R89 to R91) -/

/-- f of R89. -/
def qop (f : Nat) (a b : Bool) : Bool :=
  match f with
  | 0 => a && b
  | 1 => a || b
  | 2 => a != b
  | 3 => a && !b
  | 4 => a || !b
  | 5 => !(a && b)
  | 6 => !(a || b)
  | _ => a == b

def execQop (f qd qa qb : Nat) (s : State) : Res := done (setQ s qd (qop f (getQ s qa) (getQ s qb)))

def execNop (s : State) : Res := done s

/-! ## The CWT (R92 to R94) -/

/-- The entry range of CWTLD and CWTCLR: first entry and count, where it is well formed. -/
def cwtRange (w : Word) : Option (Nat × Nat) :=
  let count := fld w 25 16
  let first := fld w 8 0
  if fld w 63 33 ≠ 0 || fld w 31 26 ≠ 0 || fld w 15 9 ≠ 0 || count = 0 || 512 < first + count then none else some (first, count)

/-- The 256 bits of entry `k` of an image. -/
def entryImage (bs : List Byte) (k : Nat) : BitVec 256 := BitVec.ofNat 256 (leNat ((bs.drop (32 * k)).take 32))

/-- The first entry of an image, among `n` from `k` on, that fails the checks of R63: its place and the slot, numbered as
TRAPCAUSE numbers sources. -/
def badEntry (g : Nat) (bs : List Byte) (n k : Nat) : Option (Nat × Nat) :=
  match n with
  | 0 => none
  | n + 1 =>
    match decodeEntry g (entryImage bs k).toNat with
    | .error (slot, _) => some (k, slot + 1)
    | .ok _ => badEntry g bs n (k + 1)

/-- Load `n` entries of an image from entry `first` on. -/
def loadEntries (s : State) (bs : List Byte) (first n : Nat) : State :=
  onT (mend s (0x2000 + 4 * first) (4 * n)) fun t =>
    { t with cwt := (List.range n).foldl (fun m k => tset none m (first + k) (some (entryImage bs k))) t.cwt }

def execCwtld (ra rb : Nat) (s : State) : Res :=
  notInTrap s <| notInSpec s <|
    match cwtRange (getS s rb) with
    | none => faultC s cOperand
    | some (first, count) =>
      if (getS s ra).toNat % 32 ≠ 0 then faultC s cMisaligned
      else if s.t.hdr.cwt < first + count then faultC s cResource
      else
        match eaOf s ra 0 with
        | .error t => fault s t
        | .ok ea =>
          wordRead s ((getS s rb).getLsbD 32) ea (32 * count) 1 fun bs s' =>
            match badEntry s.t.g bs count 0 with
            | some (k, slot) => fault s { code := cBundle, i2 := first + k, i3 := slot }
            | none => doneC (loadEntries s' bs first count)

def execCwtclr (ra : Nat) (s : State) : Res :=
  notInTrap s <| notInSpec s <|
    match cwtRange (getS s ra) with
    | none => faultC s cOperand
    | some (first, count) =>
      if (getS s ra).getLsbD 32 then faultC s cOperand
      else if s.t.hdr.cwt < first + count then faultC s cResource
      else
        doneC (onT (mend s (0x2000 + 4 * first) (4 * count)) fun t => { t with cwt := (List.range count).foldl (fun m k => tset none m (first + k) none) t.cwt })

end Sys2Proof.Machine
end

