-- ==== Sys2Proof/Machine/Counters.lean ====
section
/-! DEFINITION. The package counters' words (R326 to R329). -/

namespace Sys2Proof.Machine

/-- The package counter a register names, or the fault of R327. -/
def counterOf (s : State) (ra : Nat) : Except Trap Nat :=
  let n := (getS s ra).toNat
  if 2 ^ 12 ≤ n then .error { code := cOperand }
  else if s.t.hdr.counters ≤ n then .error { code := cResource }
  else .ok (mapCnt s.t.regs.cntbase n)

/-- Bits [31:0] of a register (R328). -/
def low32 (w : Word) : Nat := w.toNat % 2 ^ 32

def execCntinc (rd ra rb : Nat) (s : State) : Res :=
  notInTrap s <| notInSpec s <|
    match counterOf s ra with
    | .error t => fault s t
    | .ok n =>
      asRelease s fun s =>
        let s' := cntAdd s n (low32 (getS s rb)) 3 s.t.me.tag s.cur
        doneC (setS s' rd ((getCnt s n + BitVec.ofNat 32 (low32 (getS s rb))).setWidth 64))

/-- The acquire of a CNTWAIT that passes (R329). -/
def counterAcquire (s : State) (n : Nat) : State :=
  if scopeRecOk (tget {} s.pkg.scoperec n) s.t.me.tag s.cur then acquire s else setFlag s stsSCOPEMISS

def execCntwait (rd ra rb : Nat) (s : State) : Res :=
  notInTrap s <| notInSpec s <|
    match counterOf s ra with
    | .error t => fault s t
    | .ok n =>
      if cntMet (getCnt s n) (low32 (getS s rb)) then done (setS (counterAcquire s n) rd ((getCnt s n).setWidth 64))
      else wait s

def execCntrd (rd ra : Nat) (s : State) : Res :=
  notInTrap s <|
    match counterOf s ra with
    | .error t => fault s t
    | .ok n => done (setS s rd ((getCnt s n).setWidth 64))

def execCntset (ra rb : Nat) (s : State) : Res :=
  notInTrap s <| notInSpec s <|
    match counterOf s ra with
    | .error t => fault s t
    | .ok n =>
      let s := setCnt s n (BitVec.ofNat 32 (low32 (getS s rb)))
      let s := onPkg s fun p => { p with scoperec := tset {} p.scoperec n {} }
      doneC (counterChanged wrPlain s n)

end Sys2Proof.Machine
end

