-- ==== Sys2Proof/Machine/Topology.lean ====
section
/-! DEFINITION. The optical circuits and the forwarding table: OCSET, TOPOQ, FWSET, FWQ, and the switch's requests and answers
(R347 to R353). -/

namespace Sys2Proof.Machine

/-- OCSET and FWSET need TOPOEN (R348). -/
def topoAllowed (s : State) (k : Res) : Res := if s.t.regs.topoen % 2 = 1 then k else faultC s cTopoDenied

/-! ## OCSET (R349) -/

/-- A reserved bit of a descriptor entry is set. -/
def ocsEntryBad (w : Nat) : Bool :=
  w / 2 ^ 60 % 8 ≠ 0 || w / 2 ^ 45 % 8 ≠ 0 || w / 2 ^ 28 % 2 ^ 12 ≠ 0 || w / 2 ^ 13 % 8 ≠ 0 || w % 2 ^ 8 ≠ 0

/-- Send a checked descriptor to the switch; the segment closes before it (R484). -/
def sendDescriptor (s : State) (rd tg : Nat) (entries : List Nat) : State :=
  let s := onPkg (closeSeg s) fun p => { p with ocset := some { core := s.cur, rd, tg } }
  emit (onT s fun t => { t with begun := 1 }) (.descriptor tg entries)

/-- Read and check the descriptor at `ea`, and send it. -/
def readDescriptor (s : State) (rd ea tg : Nat) : Res :=
  wordRead s false ea 8 1 fun bs s1 =>
    let n := leNat bs
    if n = 0 || 256 < n then faultC s cOperand
    else
      wordRead s1 false (ea + 8) (8 * n) 1 fun bs s2 =>
        let es := (List.range n).map fun k => leNat ((bs.drop (8 * k)).take 8)
        if es.any ocsEntryBad then faultC s cOperand else .next (sendDescriptor s2 rd tg es)

/-- An OCSET that has sent its descriptor completes with the switch's answer. -/
def ocsetAnswer (s : State) : Res :=
  match s.pkg.ocset with
  | none => wait s
  | some o =>
    match o.answer with
    | none => wait s
    | some (stale, v) =>
      let s := onT (onPkg s fun p => { p with ocset := none }) fun t => { t with begun := 0 }
      if stale then fault s { code := cStale, i2 := v, i3 := o.tg } else doneC (setS s o.rd (BitVec.ofNat 64 v))

/-- OCSET: the descriptor is checked and sent, and the word completes with the switch's answer. -/
def execOcset (rd ra rb : Nat) (s : State) : Res :=
  notInTrap s <| notInSpec s <| topoAllowed s <|
    let tg := low32 (getS s rb)
    match s.pkg.ocset with
    | some o => if o.core = s.cur && s.t.begun = 1 then ocsetAnswer s else wait s
    | none =>
      match eaOf s ra 0 with
      | .error t => fault s t
      | .ok ea => if ea % 8 ≠ 0 then fault s { code := cMisaligned, va := ea } else readDescriptor s rd ea tg

/-- The switch asks for a fibre to be quiesced: nothing more is sent on it. -/
def execOcsQuiesce (s : State) : Res :=
  match s.arg with
  | .num f =>
    let s := onPkg s fun p => { p with quiet := if p.quiet.contains f then p.quiet else f :: p.quiet }
    .next (emit s (.quiesced f))
  | _ => .fault .noSuchEvent

/-- Jobs with packets not sent on a fibre that has changed end STALE (R350). -/
def staleJobs (s : State) : State :=
  (liveJobs s).foldl
    (fun s x =>
      let j := x.2.2
      match j.route with
      | some (f, _) => if j.eng = 7 && !j.unsent.isEmpty && genAfter (fibGen s f) j.tg then failPort s x.1 x.2.1 9 1 else s
      | none => s) s

/-- The switch's confirmation. It answers the package's own OCSET where the event is one of the core that issued it. -/
def execOcsConfirmation (s : State) : Res :=
  match s.arg with
  | .circuits tg cs =>
    let s := onPkg s fun p =>
      { p with
        tg,
        fibgen := cs.foldl (fun m c => tset 0 m c.fibre tg) p.fibgen,
        circuit := cs.foldl (fun m c => tset none m c.fibre c.peer) p.circuit,
        quiet := p.quiet.filter fun f => !cs.any fun c => c.fibre = f,
        ocset := match p.ocset with
          | some o => if o.core = s.cur && o.tg = tg && o.answer.isNone then some { o with answer := some (false, 0) } else some o
          | none => none }
    .next (staleJobs s)
  | _ => .fault .noSuchEvent

/-- The switch answers the package's OCSET stale, or refuses it; no circuit moved. -/
def execSwitchStaleAnswer (s : State) : Res :=
  match s.arg, s.pkg.ocset with
  | .answer stale v, some o =>
    if o.answer.isNone then
      .next (onPkg s fun p =>
        { p with ocset := some { o with answer := some (stale, if stale then v else 1) }, quiet := if stale then p.quiet else [] })
    else wait s
  | .answer _ _, none => wait s
  | _, _ => .fault .noSuchEvent

/-! ## TOPOQ, FWSET, FWQ (R350 to R352) -/

/-- The circuit of a fibre in the layout of R349. -/
def circuitWord (s : State) (f : Nat) : Word :=
  match tget none s.pkg.circuit f with
  | some (q, g) => BitVec.ofNat 64 (2 ^ 63 + s.pkg.number % 2 ^ 12 * 2 ^ 48 + f * 2 ^ 40 + q % 2 ^ 12 * 2 ^ 16 + g % 2 ^ 5 * 2 ^ 8)
  | none => BitVec.ofNat 64 ((Config.noCircuit s.free).toNat % 2 ^ 63)

def execTopoq (rd ra sl : Nat) (s : State) : Res :=
  notInTrap s <|
    let f := (getS s ra).toNat
    if sl = 0 then done (setS s rd (BitVec.ofNat 64 s.pkg.tg))
    else if 2 ^ 5 ≤ f then faultC s cOperand
    else if sl = 1 then done (setS s rd (BitVec.ofNat 64 (fibGen s f)))
    else done (setS (bumpFree s) rd (circuitWord s f))

/-- A reserved bit of a forwarding entry is set (R351). -/
def fwEntryBad (w : Word) : Bool := fld w 62 45 ≠ 0 || fld w 39 28 ≠ 0 || fld w 15 0 ≠ 0

def execFwset (ra rb : Nat) (s : State) : Res :=
  notInTrap s <| notInSpec s <| topoAllowed s <|
    let e := getS s ra
    let w := getS s rb
    if fwEntryBad e || fld w 31 12 ≠ 0 then faultC s cOperand
    else if fld w 63 32 ≠ (s.pkg.fg + 1) % 2 ^ 32 then fault s { code := cStale, i2 := s.pkg.fg, i3 := fld w 63 32 }
    else doneC (onPkg s fun p => { p with fwd := tset 0 p.fwd (fld w 11 0) e, fg := fld w 63 32 })

def execFwq (rd ra sl : Nat) (s : State) : Res :=
  notInTrap s <|
    if sl = 0 then done (setS s rd (BitVec.ofNat 64 s.pkg.fg))
    else if sl = 2 then done (setS s rd (BitVec.ofNat 64 s.pkg.nodeid))
    else
      let n := (getS s ra).toNat
      if 2 ^ 12 ≤ n then faultC s cOperand else done (setS s rd (tget 0 s.pkg.fwd n))

end Sys2Proof.Machine
end

