-- ==== Sys2Proof/Machine/Versions.lean ====
section
/-! DEFINITION. Versioned weights: VPUB, VADOPT, VPIN, VUNPIN, VQRY, and the broadcasts of VPUB.f (R354 to R364). -/

namespace Sys2Proof.Machine

def ownerAsid (s : State) (h : Nat) : Nat := tget 0 s.pkg.vowner h

/-- The lowest entry of a handle in a state: 0 EMPTY, 1 STAGING, 2 CURRENT, 3 RETIRED. -/
def entryIn (s : State) (h st : Nat) : Option Nat := (List.range 16).find? fun i => (getVE s h i).st = st

/-- A word of major opcode 0x24 that names a handle in s(A): OperandRange, then VersionDenied (R354, R357). -/
def onHandle (s : State) (ra : Nat) (k : Nat → Res) : Res :=
  let h := (getS s ra).toNat
  if 2 ^ 6 ≤ h then faultC s cOperand else if ownerAsid s h ≠ s.t.me.asid then faultC s cVDenied else k h

/-! ## Buffers (R358, R359) -/

/-- The physical 64 KiB pages of a buffer of `n` pages at `va`, or the fault of R358 step 2. -/
def bufferPages (s : State) (asid va n : Nat) : Except Trap (List Nat) :=
  (List.range n).foldr
    (fun k acc =>
      let a := va + 2 ^ 16 * k
      match leafOf s asid a with
      | .error l => .error { code := cTranslation, va := a, i2 := Acc.read.num, i3 := l }
      | .ok (leaf, level) =>
        if leaf / 2 ^ 8 % 4 ≠ 0 then .error { code := cAccess, va := a, i2 := Acc.read.num, i3 := level }
        else
          match acc with
          | .error t => .error t
          | .ok ps => .ok ((leaf / 2 ^ 13 % 2 ^ 39 * 2 ^ 13 + a % pageSize level) / 2 ^ 16 :: ps)) (.ok [])

/-- The pages of both buffers of an entry. -/
def entryPages (s : State) (asid : Nat) (e : VEntry) : Except Trap (List Nat × List Nat) :=
  match bufferPages s asid e.wbase e.wlen with
  | .error t => .error t
  | .ok ws => match bufferPages s asid e.sbase (e.slen / 2 ^ 16) with | .error t => .error t | .ok ss => .ok (ws, ss)

/-! ## VPUB.stage (R358) -/

/-- A descriptor of 32 bytes as an entry; none where step 1 raises OperandRange. -/
def stageEntry (bs : List Byte) : Option VEntry :=
  let w := fun k => leNat ((bs.drop (8 * k)).take 8)
  let e : VEntry := { st := 1, version := w 0 % 2 ^ 32, slen := w 0 / 2 ^ 32, wbase := w 1, sbase := w 2, wlen := w 3 % 2 ^ 32 }
  if e.wlen = 0 || w 3 / 2 ^ 32 ≠ 0 || e.wbase % 2 ^ 16 ≠ 0 || e.sbase % 2 ^ 16 ≠ 0 || e.slen % 2 ^ 16 ≠ 0 ||
    2 ^ 55 < e.wbase + e.wlen * 2 ^ 16 || 2 ^ 55 ≤ e.sbase || 2 ^ 55 < e.sbase + e.slen then none else some e

/-- Whether a handle takes no new STAGING entry of a version. -/
def stageRefused (s : State) (h version : Nat) : Bool :=
  (entryIn s h 1).isSome ||
    (match entryIn s h 2 with | some c => !genAfter version (getVE s h c).version | none => false)

def execVpubStage (ra rb : Nat) (s : State) : Res :=
  notInTrap s <| notInSpec s <| onHandle s ra fun h =>
    match eaOf s rb 0 with
    | .error t => fault s t
    | .ok ea =>
      if ea % 32 ≠ 0 then fault s { code := cMisaligned, va := ea }
      else
        wordRead s false ea 32 1 fun bs s' =>
          match stageEntry bs with
          | none => faultC s cOperand
          | some e =>
            match entryPages s s.t.me.asid e with
            | .error t => fault s t
            | .ok _ =>
              match entryIn s h 0 with
              | some i => if stageRefused s h e.version then faultC s cVState else doneC (setVE s' h i e)
              | none => faultC s cVState

/-! ## Publishing (R355, R359) -/

/-- Seal an entry's pages and make it CURRENT; the old CURRENT entry retires. -/
def publishEntry (s : State) (h i : Nat) (pages : List Nat) : State :=
  let s := match entryIn s h 2 with
    | some c => let e := getVE s h c; setVE s h c (if e.pins = 0 then {} else { e with st := 3 })
    | none => s
  setVE s h i { getVE s h i with st := 2, pages }

/-- VPUB's checks and release wait on the STAGING entry of a handle, and then `k` on the entry and the pages of its buffers. -/
def onStaged (s : State) (h : Nat) (k : Nat → List Nat × List Nat → State → Res) : Res :=
  match entryIn s h 1 with
  | none => faultC s cVState
  | some i =>
    match entryPages s s.t.me.asid (getVE s h i) with
    | .error t => fault s t
    | .ok ps => asRelease s (k i ps)

def execVpub (rd ra : Nat) (s : State) : Res :=
  notInTrap s <| notInSpec s <| onHandle s ra fun h =>
    onStaged s h fun i ps s =>
      doneC (setS (publishEntry s h i (ps.1 ++ ps.2)) rd (BitVec.ofNat 64 (getVE s h i).version))

/-! ## VPUB.f (R360) -/

/-- A broadcast has all its answers: the status is written, the counter incremented, and the pin dropped. -/
def closePublish (s : State) (b : Publish) : State :=
  let s := writeVA wrPlain s b.tint b.asid b.priv (b.list + 8) (leBytes 4 b.published ++ leBytes 4 b.refused)
  let s := if b.cen then cntAdd (tickEpoch s) b.cnt 1 3 b.tag b.core else s
  unpin s b.handle b.index

/-- Packet `k` of the transfer of a broadcast to a node, 4,096 bytes of the pages its entry sealed, weights first, before its payload. The
domain field holds the handle, INCL the sender's WLEN and SLEN, and the job tag the core and the version (DESIGN CHOICE, log entry 80). -/
def broadcastHead (s : State) (b : Publish) (node pkg k : Nat) : Packet :=
  let e := getVE s b.handle b.index
  { kind := 1, vc := 3, last := k + 1 = 16 * e.pages.length, srcPkg := s.pkg.number, node, tgtPkg := pkg, fg := s.pkg.fg, tg := b.tg,
    off := 4096 * k, len := 4096, dom := b.handle, incl := e.wlen + 2 ^ 32 * e.slen, first := k = 0, jobCore := b.core,
    jobSeq := b.version }

/-- Where the payload of packet `k` of a broadcast lies. -/
def broadcastAddr (s : State) (b : Publish) (k : Nat) : Nat :=
  2 ^ 16 * (getVE s b.handle b.index).pages.getD (k / 16) 0 + 4096 * (k % 16)

/-- The packet of a broadcast that a node with `n` packets left is sent next. -/
def broadcastNext (s : State) (b : Publish) (n : Nat) : Nat := 16 * (getVE s b.handle b.index).pages.length - n

/-- A broadcast with one answer more. -/
def publishAnswer (b : Publish) (node : Nat) (ok : Bool) : Publish :=
  { b with
    waiting := b.waiting.erase node, left := b.left.filter (·.1 ≠ node),
    published := if ok then b.published + 1 else b.published, refused := if ok then b.refused else b.refused + 1 }

/-- Put a broadcast's new record in the place of its old one, or close it where every target has answered. -/
def keepPublish (s : State) (b b' : Publish) : State :=
  let rest := s.pkg.publishes.erase b
  if b'.waiting.isEmpty then closePublish (onPkg s fun p => { p with publishes := rest }) b'
  else onPkg s fun p => { p with publishes := rest ++ [b'] }

/-- Whether a node may be sent its next packet of a broadcast now, or is refused for want of a path: its fibre is open and no budget
withholds the packet or the read of its bytes (R453). -/
def nodeOpen (s : State) (b : Publish) (x : Nat × Nat) : Bool :=
  let pa := broadcastAddr s b (broadcastNext s b x.2)
  match routeOf s x.1 with
  | none => true
  | some (f, _) => !fibreBlocked s b.core f b.tint && !(linesOf pa 4096).any fun l => hbmWithheld s (128 * l) b.tint

/-- Whether its VC has a credit too. -/
def nodeReady (s : State) (b : Publish) (x : Nat × Nat) : Bool :=
  nodeOpen s b x && match routeOf s x.1 with | some (f, _) => !stalled s f 3 | none => true

/-- The broadcast and the node that the ports try next: one that may go, before one whose VC has no credit (R332). -/
def publishDue (s : State) : Option (Publish × Nat × Nat) :=
  let due := fun (ok : Publish → Nat × Nat → Bool) => s.pkg.publishes.findSome? fun b => (b.left.find? (ok b)).map fun x => (b, x)
  (due (nodeReady s)).orElse fun _ => due (nodeOpen s)

/-- Try to send the next packet of a broadcast to a node. One that no valid path reaches counts as a refusal (R341, R360). -/
def sendBroadcast (s : State) (b : Publish) (node n : Nat) : State :=
  let refused := keepPublish s b (publishAnswer b node false)
  match routeOf s node with
  | none => refused
  | some (f, pkg) =>
    if circuitMisses s f pkg || genAfter (fibGen s f) b.tg then refused
    else if stalled s f 3 then unstall s f 3
    else
      let k := broadcastNext s b n
      let pa := broadcastAddr s b k
      let s := touchLines s pa 4096 1 b.tint false false
      let p := { broadcastHead s b node pkg k with payload := peekBytes s pa 4096 }
      let s := charge (sendPacket s f p).1 (dieOf b.core) 1 b.tint (packetBytes p)
      keepPublish s b { b with left := if n ≤ 1 then b.left.filter (·.1 ≠ node) else b.left.map fun x => if x.1 = node then (node, n - 1) else x }

/-- Begin to send a published entry to a list of nodes. -/
def sendPublish (s : State) (b : Publish) (nodes : List Nat) : State :=
  let e := getVE s b.handle b.index
  let b := { b with waiting := nodes, left := nodes.map fun n => (n, 16 * e.pages.length) }
  onPkg (setVE s b.handle b.index { e with pins := e.pins + 1 }) fun p => { p with publishes := p.publishes ++ [b] }

/-- The first word of a target list breaks R360. -/
def listBad (w : Nat) : Bool := w % 2 ^ 12 = 0 || 2 ^ 25 ≤ w

def execVpubF (rd ra rb : Nat) (s : State) : Res :=
  notInTrap s <| notInSpec s <| onHandle s ra fun h =>
    match eaOf s rb 0 with
    | .error t => fault s t
    | .ok ea =>
      if ea % 8 ≠ 0 then fault s { code := cMisaligned, va := ea }
      else
        wordRead s false ea 8 1 fun bs s1 =>
          let w := leNat bs
          let cen := w / 2 ^ 24 % 2 = 1
          if listBad w then faultC s cOperand
          else if cen && s.t.hdr.counters ≤ w / 2 ^ 12 % 2 ^ 12 then faultC s cResource
          else
            wordRead s1 false (ea + 16) (2 * (w % 2 ^ 12)) 1 fun bs s2 =>
              let nodes := (List.range (w % 2 ^ 12)).map fun k => leNat ((bs.drop (2 * k)).take 2)
              if nodes.any (2 ^ 12 ≤ ·) then faultC s cOperand
              else
                onStaged s2 h fun i ps s =>
                  let version := (getVE s h i).version
                  let b : Publish :=
                    { handle := h, index := i, version, list := ea, asid := s.t.me.asid, priv := s.t.me.sup, cen,
                      cnt := mapCnt s.t.regs.cntbase (w / 2 ^ 12 % 2 ^ 12), core := s.cur, tag := s.t.me.tag, tint := tint s, tg := s.pkg.tg }
                  let s := sendPublish (publishEntry s h i (ps.1 ++ ps.2)) b nodes
                  doneC (setS s rd (BitVec.ofNat 64 version))

/-- A target's answer reaches the sender. -/
def execTargetAnswerArrival (s : State) : Res :=
  match s.arg with
  | .target h v node ok =>
    match s.pkg.publishes.find? fun b => b.handle = h && b.version = v && b.waiting.contains node with
    | none => wait s
    | some b => .next (keepPublish s b (publishAnswer b node ok))
  | _ => .fault .noSuchEvent

/-- Write an arrived buffer, page by page, as a fabric arrival (R336). -/
def landPages (s : State) (pages : List Nat) (data : Tbl Byte) : State :=
  pages.zipIdx.foldl
    (fun s p => clearTags (orderWriteRange s 4 (2 ^ 16 * p.1) (2 ^ 16) (tslice data (2 ^ 16 * p.2) (2 ^ 16))) (2 ^ 16 * p.1) (2 ^ 16)) s

/-- The STAGING entry that a broadcast matches, with the pages of its buffers where all of them may be written. -/
def matchStaged (s : State) (b : Broadcast) : Option (Nat × List Nat × List Nat) :=
  match entryIn s b.handle 1 with
  | none => none
  | some i =>
    let e := getVE s b.handle i
    let asid := ownerAsid s b.handle
    let writable := fun va n => n = 0 || (match pieces s asid true va n .write with | .ok _ => true | .error _ => false)
    match entryPages s asid e with
    | .error _ => none
    | .ok ps =>
      if e.version = b.version && e.wlen = b.wlen && e.slen = b.slen && writable e.wbase (2 ^ 16 * e.wlen) && writable e.sbase e.slen
      then some (i, ps) else none

/-- The answer of a target on VC1: an acknowledgement, or a refusal, that names its node and what it answers (DESIGN CHOICE, log entry
80). -/
def answerPublish (s : State) (b : Broadcast) (ok : Bool) : State :=
  sendResponse s
    { kind := if ok then 5 else 7, vc := 1, srcPkg := s.pkg.number, node := s.pkg.nodeid % 2 ^ 12, tgtPkg := b.srcPkg, dom := b.handle,
      jobCore := b.srcCore, jobSeq := b.version, rstate := if ok then 0 else 12 }

/-- A broadcast has arrived whole: it is written and published, or refused. -/
def execWeightBroadcastArrival (s : State) : Res :=
  match s.arg with
  | .broadcast b =>
    let s := afterReplay s 3
    match matchStaged s b with
    | none => .next (answerPublish s b false)
    | some (i, ws, ss) =>
      let s := landPages (landPages s ws b.wdata) ss b.sdata
      .next (answerPublish (publishEntry (tickEpoch s) b.handle i (ws ++ ss)) b true)
  | _ => .fault .noSuchEvent

/-! ## VADOPT (R361) -/

/-- VADOPT's result: the ring index, whether the hold changed, and its version. -/
def adoptWord (w : Word) (changed : Bool) : Word :=
  BitVec.ofNat 64 (holdI w * 2 ^ 33 + (if changed then 2 ^ 32 else 0) + fld w 63 32)

/-- Move the hold to entry `c`. The L1 drops the lines of its buffers. -/
def adoptEntry (s : State) (h c : Nat) : State :=
  let e := getVE s h c
  let s := releaseHold (setVE s h c { e with pins := e.pins + 1 }) s.t.regs.vhold
  let s := onRegs s fun r => { r with vhold := holdWord h c e.version }
  ((s.c.l1.map (·.1)).filter fun l => e.pages.contains (l / 512)).foldl l1Inval s

/-- VADOPT in either form; `move` says whether the policy adopts a newer entry. -/
def vadopt (move : Nat → Bool) (rd ra : Nat) (s : State) : Res :=
  notInTrap s <| notInSpec s <| onHandle s ra fun h =>
    let w := s.t.regs.vhold
    let mine := holdValid w && holdH w = h
    let adopt := !mine || move s.t.regs.adoptpol
    match entryIn s h 2 with
    | none => if adopt then faultC s cVState else doneC (setS s rd (adoptWord w false))
    | some c =>
      let same := mine && holdI w = c
      if adopt && !same then
        if 65535 ≤ (getVE s h c).pins then faultC s cVState
        else
          let s := acquire (adoptEntry s h c)
          doneC (setS s rd (adoptWord s.t.regs.vhold true))
      else doneC (setS (if same then acquire s else s) rd (adoptWord w false))

def execVadoptSeq (rd ra : Nat) (s : State) : Res := vadopt (fun pol => pol = 0 || pol = 1) rd ra s
def execVadoptStep (rd ra : Nat) (s : State) : Res := vadopt (fun pol => pol = 1) rd ra s

/-! ## VPIN, VUNPIN, VQRY (R362 to R364) -/

def execVpin (rd ra rb : Nat) (s : State) : Res :=
  notInTrap s <| notInSpec s <| onHandle s ra fun h =>
    let v := low32 (getS s rb)
    let entry := (List.range 16).find? fun i => let e := getVE s h i; 2 ≤ e.st && e.version = v
    let slot := (List.range 4).find? fun k => !holdValid (tget 0 s.t.regs.vpins k)
    match entry, slot with
    | some i, some k =>
      let e := getVE s h i
      if 65535 ≤ e.pins then faultC s cVState
      else
        let s := setVE s h i { e with pins := e.pins + 1 }
        let s := onRegs s fun r => { r with vpins := tset 0 r.vpins k (holdWord h i v) }
        doneC (setS s rd (BitVec.ofNat 64 (k + 16 * i)))
    | _, _ => faultC s cVState

/-- A hold or pin register with its valid bit cleared. -/
def holdInvalid (w : Word) : Word := w &&& ~~~(0x1000 : Word)

def execVunpin (ra : Nat) (s : State) : Res :=
  notInTrap s <| notInSpec s <|
    let k := (getS s ra).toNat
    if 4 < k then faultC s cOperand
    else
      let w := if k = 4 then s.t.regs.vhold else tget 0 s.t.regs.vpins k
      if !holdValid w then faultC s cVState
      else
        doneC (onRegs (releaseHold s w) fun r =>
          if k = 4 then { r with vhold := holdInvalid w } else { r with vpins := tset 0 r.vpins k (holdInvalid w) })

/-- Words 0 to 3 of a version-table entry (R354). -/
def entryWord (e : VEntry) (k : Nat) : Nat :=
  if k = 0 then e.version * 2 ^ 32 + e.pins * 2 ^ 16 + e.st
  else if k = 1 then e.wbase else if k = 2 then e.sbase else e.slen * 2 ^ 32 + e.wlen

def execVqry (rd ra sl : Nat) (s : State) : Res :=
  notInTrap s <|
    let w := getS s ra
    let h := fld w 5 0
    if fld w 63 12 ≠ 0 || fld w 7 6 ≠ 0 then faultC s cOperand
    else if ownerAsid s h ≠ s.t.me.asid then faultC s cVDenied
    else
      let v :=
        if sl = 0 then
          match entryIn s h 2 with | some c => 2 ^ 36 + c * 2 ^ 32 + (getVE s h c).version | none => 0
        else if sl ≤ 4 then entryWord (getVE s h (fld w 11 8)) (sl - 1)
        else s.t.regs.vhold.toNat
      done (setS s rd (BitVec.ofNat 64 v))

end Sys2Proof.Machine
end

