-- ==== Sys2Proof/Machine/Links.lean ====
section
/-! DEFINITION. The links' lanes and ports (R493 to R495). -/

namespace Sys2Proof.Machine

def setLane (s : State) (k : Nat) (x : Lane) : State := onPkg s fun p => { p with lanes := tset {} p.lanes k x }

/-- A record of the black box of die 0 about a lane. -/
def laneRecord (s : State) (type f l v : Nat) : State := bbRecord s 0 type 0xFF 0 (leBytes 1 f ++ leBytes 1 l ++ leBytes 8 v)

/-- A job with packets unsent or unacknowledged on a fibre ends LINK; what it had in flight there is lost. -/
def linkJobs (s : State) (f : Nat) : State :=
  (liveJobs s).foldl
    (fun s x =>
      let j := x.2.2
      let unsent := !j.unsent.isEmpty && (match j.route with | some (g, _) => g = f | none => false)
      if j.eng = 7 && (unsent || j.flight.any fun y => y.fibre = f) then
        onJob (failPort s x.1 x.2.1 13 1) x.1 x.2.1 fun j => { j with flight := j.flight.filter fun y => y.fibre ≠ f }
      else s) s

/-- A target of a VPUB.f whose fibre is down has its transfer ended LINK, which counts as a refusal (R341, R360). -/
def linkPublishes (s : State) (f : Nat) : State :=
  s.pkg.publishes.foldl
    (fun s b =>
      let lost := b.waiting.filter fun n => match routeOf s n with | some (g, _) => g = f | none => false
      if lost.isEmpty then s else keepPublish s b (lost.foldl (fun b n => publishAnswer b n false) b)) s

/-- What arrives by a fibre after a flit that is lost is lost too. -/
def dropReplays (s : State) (f : Nat) : State :=
  onPkg s fun p =>
    { p with replay := p.replay.filter (fun e => e.1 % 32 ≠ f), reseq := p.reseq.filter fun x => !fibreFrom s f x.2.srcPkg }

/-- A port goes down: its jobs and broadcasts end LINK and all its lanes retrain. -/
def takePortDown (s : State) (f : Nat) : State :=
  if s.pkg.portDown.contains f then s
  else
    let s := bbRecord (onPkg s fun p => { p with portDown := f :: p.portDown }) 0 12 0xFF 0 (leBytes 1 f)
    let s := (List.range 8).foldl
      (fun s l => let x := getLane s (8 * f + l); if x.out then s else setLane s (8 * f + l) { x with out := true, cut := true }) s
    linkPublishes (linkJobs (dropReplays s f) f) f

/-- A lane leaves service. A port left with fewer than 4 lanes goes down. -/
def removeLane (s : State) (f l : Nat) (cut : Bool) : State :=
  let x := getLane s (8 * f + l)
  let s := setLane s (8 * f + l) { x with out := true, cut, removals := x.removals + 1 }
  let s := laneRecord s 4 f l x.preber
  if inService s f < 4 then takePortDown s f else s

/-- OUT and BACK of LANE_BER_LIMIT (R493). -/
def berOut (s : State) : Nat := fld s.pkg.laneLimit 31 0
def berBack (s : State) : Nat := fld s.pkg.laneLimit 63 32

/-- `n` symbols of a lane are corrected: CORR shows them at once (R493). -/
def corrected (s : State) (f l n : Nat) : State :=
  let x := getLane s (8 * f + l)
  setLane s (8 * f + l) { x with corr := x.corr + n, win := x.win + n }

/-- A window of a lane closes with the symbols corrected in it. -/
def endWindow (s : State) (f l : Nat) : State :=
  let x := getLane s (8 * f + l)
  let n := x.win
  let s := setLane s (8 * f + l) { x with preber := n, win := 0, bad := 0, cut := false }
  if !x.out then (if berOut s < n then removeLane s f l false else s)
  else if !x.cut && n ≤ berBack s then
    laneRecord (setLane s (8 * f + l) { getLane s (8 * f + l) with out := false }) 5 f l n
  else s

/-- Symbols of a lane are corrected, and its window ends where the input says so: CORR counts also within a window (R493, R507). -/
def execFecWindowEnd (s : State) : Res :=
  match s.arg with
  | .lane f l n ends =>
    if f < 32 && l < 8 then .next (if ends then endWindow (corrected s f l n) f l else corrected s f l n) else .fault .noSuchEvent
  | _ => .fault .noSuchEvent

/-- An uncorrectable codeword of a flit: counted on its lane, and the flit is replayed, or has had its 8 replays. -/
def badFlit (s : State) (f l flit vc : Nat) : State :=
  let x := getLane s (8 * f + l)
  let s := setLane s (8 * f + l) { x with uncorr := x.uncorr + 1, bad := x.bad + 1 }
  let n := (tget {} s.pkg.replay (32 * flit + f)).count
  let s := laneRecord s 6 f l n
  let s := if !x.out && 2 ≤ x.bad + 1 then removeLane s f l true else s
  if 8 ≤ n then takePortDown s f
  else onPkg s fun p => { p with replay := tset {} p.replay (32 * flit + f) { flit, vc, count := n + 1 } }

def execUncorrectableFlit (s : State) : Res :=
  match s.arg with
  | .flit f l flit vc => if f < 32 && l < 8 then .next (badFlit s f l flit vc) else .fault .noSuchEvent
  | _ => .fault .noSuchEvent

/-- A port that is down comes up once 4 of its lanes have passed; in minimal mode the fabric stays down (R479). -/
def execPortUp (s : State) : Res :=
  match s.arg with
  | .num f =>
    if s.pkg.portDown.contains f && 4 ≤ inService s f && !s.pkg.minimal then
      .next (bbRecord (onPkg s fun p => { p with portDown := p.portDown.filter (· ≠ f) }) 0 12 0xFF 0 (leBytes 1 f))
    else wait s
  | _ => .fault .noSuchEvent

end Sys2Proof.Machine
end

