-- ==== Sys2Proof/Machine/Schedule.lean ====
section
/-! DEFINITION. The sorting frame: dispatch (R382, R385, R399 to R404, R411 to R417), aging, holds, quanta, the forced freeze and
the budget periods (R401, R403, R407, R412, R453). -/

namespace Sys2Proof.Machine

/-! ## Which core serves what (R398, R399, R403, R417) -/

/-- The gang width of the group a core leads under the byte it holds. -/
def serveWidth (s : State) (x : Nat) : Nat := 2 ^ (coreByte s x / 4 % 4)

/-- A core that may take a task: it leads its group, and every core of the group is bound, idle, and holds its new byte. -/
def canServe (s : State) (x : Nat) : Bool :=
  let b := coreByte s x
  b / 4 % 4 < 3 && b % 4 ≠ 3 && x % serveWidth s x = 0 &&
    (List.range (serveWidth s x)).all fun m =>
      let k := coreCtx s (x + m)
      bindByte s (x + m) ≠ 0 && !k.c.busy && k.c.lead.isNone && k.c.tint = tintByte s (x + m) && k.c.tint / 4 % 4 = b / 4 % 4

/-- Whether a core may take a READY task, by tint, gang width, anchor and hold. -/
def eligible (s : State) (x : Nat) (r : TaskRec) : Bool :=
  r.st = 1 && coreByte s x = r.gw * 4 + r.tint && (match getDom s r.dom with | some d => r.dom = 0 || anchorAdmits d x | none => true) &&
    !(r.held && r.last ≠ x)

/-- The eligible tasks of one queue of a core's die, in order. -/
def eligibleIn (s : State) (x cls prio : Nat) : List TaskRec :=
  ((tget [] (getDie s (dieOf x)).queues (queueKey (coreByte s x % 4) cls prio)).filterMap (getTask s)).filter (eligible s x)

/-- A class holds an eligible task at a priority. -/
def hasWork (s : State) (x prio cls : Nat) : Bool := !(eligibleIn s x cls prio).isEmpty

/-! ## Selection (R402, R404) -/

/-- The highest priority with an eligible task. -/
def topPrio (s : State) (x : Nat) : Option Nat := ([3, 2, 1, 0] : List Nat).find? fun p => (List.range 4).any (hasWork s x p)

/-- The next class after the one served last, in the order of R402, that a test admits. -/
def nextClass (last : Option Nat) (ok : Nat → Bool) : Option Nat :=
  let start := match last with | some c => c + 1 | none => 0
  ((List.range 4).map fun i => (start + i) % 4).find? ok

/-- Deficit round-robin at a priority: the class, and the deficits after it, keyed by 4 * tint + class. -/
def pickClass (s : State) (x prio : Nat) : Option (Nat × Tbl Nat) :=
  let d := getDie s (dieOf x)
  let tint := coreByte s x % 4
  let has := hasWork s x prio
  let w := fun c => tget 1 d.weight c
  let last := tget none d.served tint
  let def0 := (List.range 4).foldl (fun m c => if has c then m else tset 0 m (4 * tint + c) 0) d.deficit
  let stays := match last with | some c => has c && w c ≠ 0 && 1 ≤ tget 0 def0 (4 * tint + c) | none => false
  let next := if stays then last else nextClass last fun c => has c && w c ≠ 0
  match next with
  | some c =>
    let k := 4 * tint + c
    let v := tget 0 def0 k
    some (c, tset 0 def0 k ((if v < 1 then v + w c else v) - 1))
  | none => (nextClass last has).map fun c => (c, def0)

/-- Four or more tasks of an intensity run in a core's cluster. -/
def manyRun (s : State) (x intens : Nat) : Bool :=
  4 ≤ ((coreList s).filter fun k => clusterOf k = clusterOf x && (coreCtx s k).c.busy && (coreCtx s k).t.me.intens = intens).length

/-- Among the first four eligible tasks of a queue, the one that suits what the cluster runs. -/
def pickTask (s : State) (x : Nat) (es : List TaskRec) : Option TaskRec :=
  let no3 := manyRun s x 3 || overBudget s (dieOf x) 0 (coreByte s x % 4)
  let no1 := manyRun s x 1
  match (es.take 4).find? fun r => !(no3 && r.intens = 3) && !(no1 && r.intens = 1) with
  | some r => some r
  | none => es.head?

/-- The frame's selection for an idle core: the task, and the state with the deficits and the class served. -/
def selectFor (s : State) (x : Nat) : Option (TaskRec × State) :=
  if !canServe s x then none
  else
    match topPrio s x with
    | none => none
    | some p =>
      match pickClass s x p with
      | none => none
      | some (c, deficit) =>
        match pickTask s x (eligibleIn s x c p) with
        | none => none
        | some r =>
          some (r, onDie s (dieOf x) fun d => { d with deficit, served := tset none d.served (coreByte s x % 4) (some c) })

/-! ## First dispatch (R27, R380, R382) -/

/-- A resource header as read. -/
def headerOf (bs : List Byte) : Header :=
  { spm := envN bs 0 4, cwt := envN bs 4 2, holes := envN bs 6 1, domains := envN bs 8 2, barriers := envN bs 10 2,
    counters := envN bs 12 2, extent := envN bs 16 4, base := BitVec.ofNat 64 (envN bs 24 8), stubs := envN bs 32 8 }

/-- The header keeps R380 and fits the envelope. -/
def headerOk (bs : List Byte) (r : TaskRec) : Bool :=
  let h := headerOf bs
  r.hdr % 64 = 0 && envN bs 7 1 = r.gw && h.spm ≤ mib8 * 2 ^ r.gw && h.spm % 32 = 0 && 1 ≤ h.cwt && h.cwt ≤ 512 && h.holes ≤ 16 &&
    h.domains ≤ 1024 && h.barriers ≤ 1024 && h.counters ≤ 4096 && fmtOk (envN bs 14 2) && 4 ≤ h.extent && h.extent % 2 = 0 &&
    envN bs 20 4 = 0 && h.base.toNat % 2 = 0 && h.stubs % 64 = 0 && envN bs 40 24 = 0 && h.base.toNat + h.extent ≤ 2 ^ 56

/-- The header's bytes, or the fault of reading it. -/
def readHeader (s : State) (r : TaskRec) : Except Trap (List Byte) :=
  match pieces s r.asid r.sup r.hdr 64 .read with
  | .error t => .error t
  | .ok ps =>
    match softCheck s r.hdr ps with | some t => .error t | none => .ok (peekPieces s ps)

/-- The bytes that a dispatch reads from memory are charged to the task's tint (R452). Its reads are not withheld: they belong to the one
step of selection and dispatch (R402; DEDUCED, log entry 78). -/
def chargeRead (s : State) (r : TaskRec) (va n : Nat) : State :=
  match pieces s r.asid r.sup va n .read with
  | .error _ => s
  | .ok ps => touchPieces s r.tint ps

/-- The context of a task that has never run. An odd entry PC stays as the envelope gives it, and is fetched from (DESIGN CHOICE, log
entry 77: R43 says that the PC is even, and R378 and R390 check nothing there). -/
def freshTask (s : State) (r : TaskRec) (bs : List Byte) : Task :=
  { pc := r.pc,
    s := tset 0 (tset 0 [] 1 (BitVec.ofNat 64 r.env)) 2 (BitVec.ofNat 64 r.hdr),
    slots := { fmt := envN bs 14 2 },
    regs := { adoptpol := r.adopt, cntbase := r.cntbase, topoen := r.topoen, acqepoch := s.pkg.epoch },
    hdr := headerOf bs, me := r, g := 2 ^ r.gw }

/-- Put a task on the core in focus and its gang. -/
def attach (s : State) (t : Task) : State :=
  let s := { s with t }
  let s := onC s fun c =>
    { c with busy := true, lead := none, trap := false, priv := t.me.sup, req := none, frozenDue := false, rewind := none, woken := false,
             leaving := none, grace := false }
  (List.range t.g).foldl
    (fun s m => if m = 0 then s else onCore s (s.cur + m) fun x => { x with c := { x.c with lead := some s.cur } }) s

/-- Drop the L1 lines of a starting task's incoming regions, which its block names (R385, R452). -/
def dropIncoming (s : State) : State :=
  match readEdges s s.t.me s.t.me.inE with
  | some es => (regionLines s (es.flatMap (·.regions))).foldl l1Inval (touchBlock s s.t.me s.t.me.inE es)
  | none => s

/-- A task killed as it is dispatched. -/
def killAtDispatch (s : State) (r : TaskRec) (regs : TaskRegs) (exit : Nat) : State := retireRec (killJobs s r.tag) r regs 6 exit

/-- Start a task that has never run, or kill it. -/
def startTask (s : State) (r : TaskRec) : State :=
  let s := chargeRead s r r.hdr 64
  -- the supervisor's 30 s run from its first dispatch (R478)
  let s := onPkg s fun p => { p with bootWatch := p.bootWatch || (!p.booted && r.lbox = some 0) }
  match readHeader s r with
  | .error t =>
    killAtDispatch (faultRecord s (dieOf s.cur) r (BitVec.ofNat 64 t.code) r.pc [0, r.hdr, t.i2, t.i3] 0) r {} 2
  | .ok bs =>
    if headerOk bs r then
      let s := setTask (envStatus wrPlain s { r with st := 2 }) r.tag (some { r with st := 2 })
      dropIncoming (attach s (freshTask s { r with st := 2 } bs))
    else killAtDispatch s r {} 2

/-! ## Resumption (R415, R416, R425) -/

/-- A restored task reads its condition word first where a region is open. -/
def recheckSpec (s : State) : State :=
  let p := s.t.spec
  if p.isOpen then
    match translate s s.t.me.asid s.t.me.sup p.cond.toNat .read with
    | .error _ => abortSpec s 3
    | .ok pg =>
      let s := touchLines (onSpec s fun p => { p with pa := pg.pa }) pg.pa 8 1 s.t.me.tint true false
      if peekN s pg.pa 8 = p.exp.toNat then s else abortSpec s 3
  else s

/-- The nonzero bytes of the first `n` of a suspended task's save area, or the fault of reading them. -/
def areaBytes (s : State) (r : TaskRec) (n : Nat) : Except Trap (Tbl Byte) :=
  match pieces s r.asid r.sup r.save n .read with
  | .error t => .error t
  | .ok ps => .ok (ps.flatMap fun p => tshift (readRange s p.pg.pa p.len) p.off)

/-- The whole save area: a stub point's has no scratchpad image. -/
def readSave (s : State) (r : TaskRec) (d : Parked) : Except Trap (Tbl Byte) :=
  match areaBytes s r (offSpm (2 ^ r.gw)) with
  | .error t => .error t
  | .ok m =>
    if cellN m 0 1 % 16 = 1 then .ok m else areaBytes s r (offSpm (2 ^ r.gw) + (d.hdr.spm + 4095) / 4096 * 4096)

/-- A kill with EXIT 3 at dispatch, and its record. -/
def killRestore (s : State) (r : TaskRec) (t : Trap) : State :=
  killAtDispatch (faultRecord s (dieOf s.cur) r (BitVec.ofNat 64 t.code) r.pc (infoOf t 0) 0) r (savedRegs s r) 3

/-- The bytes of a save area move from HBM and are charged (R452). -/
def chargeArea (s : State) (r : TaskRec) (n : Nat) : State :=
  match pieces s r.asid r.sup r.save n .read with
  | .error _ => s
  | .ok ps => ps.foldl (fun s p => chargeHbm s p.pg.pa r.tint p.len false) s

/-- Resume a suspended task, or kill it. -/
def resumeTask (s : State) (r : TaskRec) : State :=
  let d := (tget none s.pkg.parked r.tag).getD {}
  match readSave s r d with
  | .error t => killRestore s r t
  | .ok m =>
    if saveOk m r.gw then
      let g := 2 ^ r.gw
      let s := chargeArea s r (if cellN m 0 1 % 16 = 1 then offSpm g else offSpm g + (d.hdr.spm + 4095) / 4096 * 4096)
      let s := setTask (envStatus wrPlain s { r with st := 2 }) r.tag (some { r with st := 2 })
      let s := attach s (restore m d { r with st := 2 } g)
      let s := restoreSpm s m (cellN m 0 4 % 16) g d.hdr.spm
      recheckSpec (acquire s)
    else killRestore s r { code := cOperand }

/-! ## CORE_DISPATCH -/

/-- One selection and dispatch for the core in focus. -/
def dispatchTask (s : State) (r : TaskRec) : State :=
  let s := dequeue s r
  let s := if r.age = 0 then s
    else writeVA wrPlain s r.tint r.asid r.sup (r.env + 57) [BitVec.ofNat 8 (r.intens * 4 + r.adopt)]
  let r := { r with age := 0, held := false }
  if r.ran then resumeTask s r else startTask s r

def execCoreDispatch (s : State) : Res :=
  let s := onPkg s fun p => { p with atOnce := p.atOnce.filter (· ≠ s.cur) }
  match selectFor s s.cur with
  | some (r, s) => .next (dispatchTask s r)
  | none => wait s

/-! ## Waiting tasks (R401, R403) -/

/-- A waiting task whose AGE_LIMIT has passed enters the queue one priority higher. -/
def promote (s : State) (r : TaskRec) : State :=
  let s := dequeue s r
  let r := { r with age := r.age + 1 }
  let s := writeVA wrPlain s r.tint r.asid r.sup (r.env + 57) [BitVec.ofNat 8 (r.age * 16 + r.intens * 4 + r.adopt)]
  let k := queueKey r.tint r.cls (effPrio r)
  onDie (setTask s r.tag (some r)) r.die fun d => { d with queues := tset [] d.queues k (tget [] d.queues k ++ [r.tag]) }

/-- What the event's number names: a task by its tag. -/
def onTag (s : State) (k : TaskRec → Res) : Res :=
  match s.arg with
  | .num tag => match getTask s tag with | some r => k r | none => wait s
  | _ => .fault .noSuchEvent

def execAgingPromotion (s : State) : Res :=
  onTag s fun r =>
    if r.st = 1 && r.age < 3 && effPrio r < 3 && (getDie s r.die).ageLimit ≠ 0 then .next (promote s r) else wait s

def execAffinityHoldLapse (s : State) : Res :=
  onTag s fun r => if r.st = 1 && r.held then .next (setTask s r.tag (some { r with held := false })) else wait s

/-! ## Quanta, the freeze, throttling (R21, R407, R412) -/

/-- The quantum of the class of the task in focus; none for the system class or where it is 0. -/
def quantumOf (s : State) : Option Nat :=
  let k := s.t.me.cls
  let q := tget (quantumDefault k) (getDie s (dieOf s.cur)).quantum k
  if k = 3 || q = 0 then none else some q

/-- An eligible task waits for the core in focus. -/
def workWaits (s : State) : Bool := (List.range 4).any fun p => (List.range 4).any (hasWork s s.cur p)

def execQuantumExpiry (s : State) : Res :=
  if s.c.busy && (quantumOf s).isSome && workWaits s then .next (postReq s s.cur 1) else wait s

/-- GRACE runs out for a request, pending or honoured by a stub that runs (R410, R412). In trap mode the freeze waits for SYSRET; a word
that may not be interrupted, a bundle that the C slot is in, a rewind and an abort come first. -/
def execForcedFreeze (s : State) : Res :=
  if !s.c.busy || !(s.c.req.isSome || s.c.grace || s.c.frozenDue) || s.c.leaving.isSome || s.t.begun = 1 then wait s
  else if s.c.trap then .next (onC s fun c => { c with frozenDue := true })
  else if midBundle s || s.c.rewind.isSome || s.t.spec.pending.isSome then wait s
  else .next (suspend s { kind := 3, susp := 5, st := 1, pc := s.t.pc })

/-- The regulators withhold the issue of the slots named, or of none: L and M are the slots they act on. -/
def execThrottling (s : State) : Res :=
  match s.arg with
  | .num m => .next (onC s fun c => { c with throttled := ([1, 4] : List Nat).filter m.testBit })
  | _ => .fault .noSuchEvent

/-- A new period on every die. -/
def execBudgetPeriod (s : State) : Res :=
  .next ((List.range 4).foldl (fun s d => onDie s d fun x => { x with spend := [], storm := [] }) s)

end Sys2Proof.Machine
end

