-- ==== Sys2Proof/Machine/Fetch.lean ====
section
/-! DEFINITION. The next stream item: the bounds of its fetch, its translation, its decoding (R43, R45, R66, R67, R87, R458), and
the registers it waits for (R22, R103). -/

namespace Sys2Proof.Machine

/-- Where code may be fetched: the kernel's extent (R66), or the handler's in trap mode (R458). -/
def extentOf (s : State) : Nat × Nat :=
  if s.c.trap then ((getDie s (dieOf s.cur)).trapvec.toNat, (getDie s (dieOf s.cur)).trapext.toNat)
  else (s.t.hdr.base.toNat, s.t.hdr.extent)

def inExtent (s : State) (a : Nat) : Bool := (extentOf s).1 ≤ a && a + 2 ≤ (extentOf s).1 + (extentOf s).2

/-- Where the parcel at a virtual address lies. -/
def fetchPage (s : State) (va : Nat) : Except Trap PageInfo :=
  if !inExtent s va then .error { code := cFetchBound } else translate s s.t.me.asid s.c.priv va .fetch

/-- The two bytes of the parcel at a virtual address. Code is read at its order point. -/
def fetchParcel (s : State) (va : Nat) : Except Trap (List Byte) :=
  match fetchPage s va with
  | .error t => .error t
  | .ok pg =>
    match poisoned s pg.pa 2 with
    | some (pa, str) => .error { code := cSoft, va, i2 := str, i3 := pa }
    | none => .ok (peekBytes s pg.pa 2)

/-- Whether a parcel is the head of a scalar word (R43). -/
def isWordHead (bs : List Byte) : Bool := leNat bs < 2 ^ 15

/-- The bytes of the item at the PC: one parcel, or the two of a scalar word. -/
def fetchBytes (s : State) : Except Trap (List Byte) :=
  match fetchParcel s s.t.pc.toNat with
  | .error t => .error t
  | .ok head =>
    if isWordHead head then
      match fetchParcel s (s.t.pc.toNat + 2) with
      | .error t => .error t
      | .ok tail => .ok (head ++ tail)
    else .ok head

/-- A scalar word that straddles the end of an active loop (R87). -/
def straddles (s : State) (n : Nat) : Bool := n = 4 && !s.c.trap && s.t.loops.any fun l => l.e = s.t.pc + 2

/-- The stream item at the PC, or the fault of its fetch or decoding. -/
def fetchItem (s : State) : Except Trap Instr :=
  match fetchBytes s with
  | .error t => .error t
  | .ok bs =>
    match decodeBytes bs with
    | .error _ => .error { code := cIllegal }
    | .ok (i, _) => if straddles s bs.length then .error { code := cIllegal } else .ok i

/-- What the fetch of one parcel leaves behind: its translation (R446), and its line in the L2 (R249, R452). -/
def noteParcel (s : State) (va : Nat) : State :=
  match fetchPage s va with
  | .error _ => s
  | .ok pg => touchLines (noteLeaf s s.t.me.asid va) pg.pa 2 (effHint pg 1) (tint s) true false

/-- What the fetch of the item at the PC leaves behind. -/
def afterFetch (s : State) : State :=
  let a := s.t.pc.toNat
  match fetchParcel s a with
  | .error _ => s
  | .ok head => if isWordHead head then noteParcel (noteParcel s a) (a + 2) else noteParcel s a

/-- The HBM budget withholds the fetch of a parcel (R453). -/
def parcelWithheld (s : State) (va : Nat) : Bool :=
  match fetchPage s va with | .ok pg => hbmWithheld s pg.pa (tint s) | .error _ => false

/-- The HBM budget withholds the fetch of the item at the PC: its head, or the tail of a word that has one. -/
def fetchWithheld (s : State) : Bool :=
  parcelWithheld s s.t.pc.toNat ||
    match fetchParcel s s.t.pc.toNat with
    | .ok head => isWordHead head && parcelWithheld s (s.t.pc.toNat + 2)
    | .error _ => false

/-- The granule of the q file, for a predicate other than q0. -/
def qGranule (q : Nat) : List Nat := if q = 0 then [] else [72]

/-- The registers other than scalar ones that a stream word names as operands, by granule. -/
def otherReads (s : State) (i : Instr) : List Nat :=
  let ring := fun e : Nat =>
    let ctl := (tget 0 s.t.eng (32 * e + 2)).toNat
    if ctl / 2 ^ 17 % 2 = 1 then (List.range 4).map (192 + 4 * (ctl / 2 ^ 13 % 16) + ·) else []
  match i with
  | .issueParcel entry bp _ => qGranule bp ++ (List.range 4).map (0x2000 + 4 * entry + ·)
  | .sel q _ _ _ => qGranule q
  | .pbrxRead _ b => [64 + b]
  | .br b q _ => qGranule q ++ [64 + b]
  | .call b q _ => qGranule q ++ [64 + b]
  | .ret q _ => qGranule q ++ [71]
  | .loopx _ q _ => qGranule q
  | .qop _ _ qa qb => qGranule qa ++ qGranule qb
  | .chkqQ qa qb => qGranule qa ++ qGranule qb
  | .mshq _ sh f => [128 + 4 * sh + f]
  | .phqry _ h f => [192 + 4 * h + f]
  | .egoCopy _ => ring 0
  | .egoGather _ => ring 1
  | .mfsr _ num => [0x1000 + num]
  | _ => []

/-- The loop counters that the end of an item of `n` bytes reads (R87). -/
def endReads (s : State) (n : Nat) : List Nat :=
  if s.c.trap then [] else (s.t.loops.filter fun l => l.e = s.t.pc + BitVec.ofNat 64 n).map fun l => 73 + l.lc / 2

/-- Every register granule that a stream item reads (R22, R483). -/
def itemReads (s : State) (i : Instr) : List Nat :=
  let n := match i with | .issueParcel _ _ _ => 2 | _ => 4
  (sregs i).1 ++ otherReads s i ++ endReads s n

/-- Whether a word may run in trap mode (R458): by its major opcode, and not one of the four that are excluded by name. -/
def runsInTrap (i : Instr) : Bool :=
  match i with
  | .issueParcel _ _ _ => false
  | .loopx _ _ _ => false
  | .endTask => false
  | .cwtld _ _ => false
  | .cwtclr _ => false
  | i =>
    match encode i with
    | some w => let mo := w / 2 ^ 25; mo ≤ 0x0D || (0x10 ≤ mo && mo ≤ 0x16) || mo = 0x30
    | none => false

/-- IllegalInstruction or IllegalBundle of an item that has been decoded, which comes before every other fault of it (R67). -/
def itemIllegal (s : State) (i : Instr) : Option Trap :=
  if s.c.trap && !runsInTrap i then some { code := cIllegal }
  else
    match i with
    | .issueParcel entry _ _ => if (bundleAt s entry).isNone then some { code := cBundle } else none
    | .mfsr _ num => if srIllegal srRead num then some { code := cIllegal } else none
    | .mtsr _ num => if srIllegal srWrite num then some { code := cIllegal } else none
    | _ => none

/-- The next stream item of the core in focus, ready to execute: or the wait or the fault that comes before it. -/
def streamTurn (s : State) : Except Res (Instr × State) :=
  if fetchWithheld s then .error (wait s)
  else
    match fetchItem s with
    | .error t => .error (fault s t)
    | .ok i =>
      match itemIllegal s i with
      | some t => .error (fault s t)
      | none =>
        if !s.c.trap && scalarDue s ((sregs i).1 ++ (sregs i).2) then .error (wait s)
        else
          match poisonedReg s (itemReads s i) with
          | some t => .error (fault s t)
          | none => .ok (i, afterFetch s)

end Sys2Proof.Machine
end

