-- ==== Sys2Proof/Machine/Turns.lean ====
section
/-! DEFINITION. Which agent moves next, and what it does: the order of the spec where it gives one, and otherwise the list of turns
the state carries, or the model's own order where that list is empty (log entries 3 and 4). -/

namespace Sys2Proof.Machine

/-- Whether an instruction is an event of the opcode table. -/
def isEvent (i : Instr) : Bool :=
  match i with
  | .trapEntry => true
  | .timerExpiry => true
  | .specAbort => true
  | .rewind => true
  | .scoreDecay => true
  | .scrub => true
  | .l1Eviction => true
  | .epochTick => true
  | .tagPatrol => true
  | .windowBeat => true
  | .jobStart => true
  | .jobEnd => true
  | .armputFire => true
  | .putArrival => true
  | .putaddArrival => true
  | .getRequestArrival => true
  | .dataResponseArrival => true
  | .acknowledgementArrival => true
  | .movedResponse => true
  | .refusalResponse => true
  | .domainNotice => true
  | .weightBroadcastArrival => true
  | .ocsQuiesce => true
  | .ocsConfirmation => true
  | .fecWindowEnd => true
  | .uncorrectableFlit => true
  | .portUp => true
  | .coreDispatch => true
  | .agingPromotion => true
  | .affinityHoldLapse => true
  | .quantumExpiry => true
  | .forcedFreeze => true
  | .budgetPeriod => true
  | .letterboxDoorbell => true
  | .hostAccess => true
  | .entropyHealthFailure => true
  | .coldReset => true
  | .warmReset => true
  | .bootTimeout => true
  | .mailboxImage => true
  | .mailboxAttestation => true
  | .mailboxReset => true
  | .l2Eviction => true
  | .hostSnoop => true
  | .wfeTimeout => true
  | .noiseSourceRestart => true
  | .switchStaleAnswer => true
  | .targetAnswerArrival => true
  | .barrierNotice => true
  | .throttling => true
  | _ => false

/-- An event of the task in focus is pending and may be taken (R456, R458, R472). -/
def eventDue (s : State) : Bool := !s.c.trap && eventPending s

/-- A ready operation of a slot: it runs, unless the record or handle it uses is poisoned (R483). -/
def slotTurn (s : State) (k : Nat) (i : Instr) : Except Res (Instr × State) :=
  match slotPoison s k i with
  | some t => .error (slotFault s k t)
  | none => .ok (i, s)

/-- Something is to be taken at the next bundle boundaries, and no slot goes beyond its own (R412, R426, R456, R486). -/
def stopDue (s : State) : Bool :=
  !s.c.trap && (s.c.rewind.isSome || s.t.spec.pending.isSome || s.c.frozenDue || eventPending s)

/-- A word has begun that completes before anything is taken: one that may not be interrupted (R349), or a WFE that is due (R469), which
a rewind abandons (R486). -/
def wordFirst (s : State) : Bool := s.t.begun = 1 || (s.c.rewind.isNone && 2 ≤ s.t.begun && wfeDue s)

/-- A word that has begun goes on: an OCSET that has sent its descriptor is not fetched again (R349). -/
def begunTurn (s : State) : Except Res (Instr × State) := if s.t.begun = 1 then .error (ocsetAnswer s) else streamTurn s

/-- A slot may not go on: a word that may not be interrupted has begun (R349), or something is due that slot 0 alone goes to its bundle
boundary for, or, for a rewind, not even that one, as the bundle it is in is discarded (R486). -/
def slotHeld (s : State) (k : Nat) : Bool :=
  s.t.begun = 1 || s.c.rewind.isSome || (stopDue s && !(k = 0 && midBundle s))

/-- What the core in focus does next (R349, R486, R456, R426, R412, R413, R30): a word that may not be interrupted, a rewind, the rest of a
bundle that the C slot is in, a WFE that is due, then what is due at a bundle boundary, then the ready slot operation of the lowest
index, then the stream. -/
def coreTurn (s : State) : Except Res (Instr × State) :=
  if !s.c.busy then (if s.c.lead.isSome then .error (wait s) else .ok (.coreDispatch, s))
  else
    match s.c.leaving with
    | some l => .error (if jobsOnSpm s then wait s else .next (finishSuspend s l))
    | none =>
      if s.t.begun = 1 then begunTurn s
      else if s.c.rewind.isSome && !s.c.trap then .ok (.rewind, s)
      else if !s.c.trap && midBundle s then
        (match slotReady s 0 with | some (_, i) => slotTurn s 0 i | none => .error (wait s))
      else if wordFirst s then begunTurn s
      else if s.t.spec.pending.isSome && !s.c.trap then .ok (.specAbort, s)
      else if s.c.frozenDue && !s.c.trap then .ok (.forcedFreeze, s)
      else if eventDue s then .ok (.trapEntry, s)
      else if s.c.trap then streamTurn s
      else
        match firstReady s with
        | some (k, _, i) => slotTurn s k i
        | none => streamTurn s

/-- What the ports send on their own: a packet that waits, and the next packet of a broadcast (R332, R360). -/
def portWork (s : State) : Option State :=
  match heldDue s with
  | some q => some (sendHeld s q)
  | none => (publishDue s).map fun x => sendBroadcast s x.1 x.2.1 x.2.2

/-- One turn of an agent. -/
def pickTurn (t : Turn) (s : State) : Except Res (Instr × State) :=
  let s := { s with arg := .none }
  match t with
  | .core n => if n < 256 then coreTurn (focus s n) else .error (.fault .noSuchEvent)
  | .slot n k =>
    if n < 256 && k < 6 then
      let s := focus s n
      if !s.c.busy || s.c.trap || s.c.leaving.isSome || slotHeld s k then .error (wait s)
      else
        match slotReady s k with
        | some (_, i) => slotTurn s k i
        | none => .error (wait s)
    else .error (.fault .noSuchEvent)
  | .stream n =>
    if n < 256 then
      let s := focus s n
      if !s.c.busy || s.c.leaving.isSome || (stopDue s && !wordFirst s) then .error (wait s)
      else begunTurn s
    else .error (.fault .noSuchEvent)
  | .commit n =>
    if n < 256 then .error (let s := focus s n; if s.t.spec.commit then .next (commitSpec s) else wait s) else .error (.fault .noSuchEvent)
  | .ports => .error (match portWork s with | some s => .next s | none => wait s)
  | .event n i a =>
    if n < 256 && isEvent i then .ok (i, { focus s n with arg := a }) else .error (.fault .noSuchEvent)

/-- The event that a job is due, of those the device performs on its own. -/
def jobEvent (s : State) (x : Nat × Nat × Job) : Option Instr :=
  if canEnd x.2.2 then some .jobEnd
  else if armDue x.2.2 then some .armputFire
  else if jobReady s x.1 x.2.1 || jobResumable s x.1 x.2.1 then some .jobStart
  else none

/-- The first event that a job is due. -/
def dueJob (s : State) (js : List (Nat × Nat × Job)) : Option Turn :=
  js.findSome? fun x => (jobEvent s x).map fun i => .event s.cur i (.job x.1 x.2.1)

/-- The turn of the model's own order: the device's due work, the ports' among it, then the core in focus. -/
def ownTurn (s : State) : Turn :=
  if s.pkg.tickWanted then .event s.cur .epochTick .none
  else
    match dueJob s (liveJobs s) with
    | some t => t
    | none =>
      if (portWork s).isSome then .ports
      else if !s.t.slots.beats.isEmpty then .event s.cur .windowBeat (.num 0) else .core s.cur

/-- An ARMPUT that has fired and whose path is to be checked at once (R342). -/
def firedPut (s : State) : Option Turn :=
  match (liveJobs s).find? fun x => armDue x.2.2 with
  | some (core, e, _) => some (.event s.cur .armputFire (.job core e))
  | none => none

/-- A core whose region a write has decided to commit, where no budget withholds the drain (R423, R453). -/
def commitDue (s : State) : Option Turn :=
  ((coreList s).find? fun n => (coreCtx s n).c.busy && (coreCtx s n).t.spec.commit && !drainWithheld (focus s n)).map .commit

/-- What the device does before any turn: a commit that is decided, and an ARMPUT that has fired. -/
def firstWork (s : State) : Option Turn := (commitDue s).orElse fun _ => firedPut s

/-- What comes before any turn: a selection that the frame makes at once (R403), and the device's first work. -/
def urgent (s : State) : Option Turn :=
  match s.pkg.atOnce with
  | n :: _ => some (.event n .coreDispatch .none)
  | [] => firstWork s

/-- What the machine does next, and the state in which it does it. -/
def pick (s : State) : Except Res (Instr × State) :=
  match urgent s with
  | some t => pickTurn t s
  | none =>
    match s.turns with
    | [] => pickTurn (ownTurn s) s
    | t :: rest => pickTurn t { s with turns := rest }

/-! ## A program placed by hand -/

/-- Where withFetchWord puts the instruction: a 64 MiB page of ASID 0 mapped onto HBM at its own address. -/
def probeVA : Nat := 0x4000000

/-- The page tables of the probe: the root pointer, three tables and a leaf that is valid, R, W, X, U, of kind HBM (R442). -/
def probeTables (s : State) : List (Nat × Nat) :=
  let b := s.pkg.ptbase
  [(b, 0x2000), (0x2000, 0x4000 + 1), (0x4000, 0x6000 + 1), (0x6008, 0x4000000 + 0x3F)]

/-- The machine as it stands, with a white task of one-core width running at the probe address on the core in focus, and the
bytes of an instruction there. An issue parcel's CWT entry is loaded with an idle bundle. -/
def placeWord (s : State) (bytes : List Byte) (entry : Nat) : State :=
  let s := (probeTables s).foldl (fun s e => pokeBytes s true e.1 (leBytes 8 e.2)) s
  let s := pokeBytes s true probeVA bytes
  let me : TaskRec := { tag := 1, tint := 2, ran := true }
  let s := { s with
    turns := [], arg := .none,
    c := { s.c with
      busy := true, lead := none, priv := true, trap := false, rewind := none, frozenDue := false, leaving := none, grace := false },
    t := { s.t with
      pc := BitVec.ofNat 64 probeVA, loops := [], me, g := 1, tick := none, begun := 0, undo := none,
      cwt := tset none s.t.cwt entry (some 0), slots := { s.t.slots with queue := [], beats := [], early := [] },
      hdr := { spm := mib8, cwt := 512, holes := 16, domains := 1024, barriers := 1024, counters := 4096,
               extent := 0x1000, base := BitVec.ofNat 64 probeVA, stubs := 0 } },
    pkg := { s.pkg with tickWanted := false, atOnce := [], held := [] } }
  setTask (afterFetch s) 1 (some me)

end Sys2Proof.Machine
end

