-- ==== Sys2Proof/Machine/VInt.lean ====
section
/-! DEFINITION. The integer operations of the V slots (R162 to R166). -/

namespace Sys2Proof.Machine

/-- The value of an element under a type's signedness. -/
def intVal (ty raw : Nat) : Int := if isSigned ty then sext (8 * esizeI ty) raw else (raw : Int)

/-- The range of an integer type. -/
def intLo (ty : Nat) : Int := if isSigned ty then -((2 : Int) ^ (8 * esizeI ty - 1 : Nat)) else 0
def intHi (ty : Nat) : Int := if isSigned ty then (2 : Int) ^ (8 * esizeI ty - 1 : Nat) - 1 else (2 : Int) ^ (8 * esizeI ty : Nat) - 1

/-- The stored bits and flags of an exact integer result (R163). -/
def storeInt (ty : Nat) (sat : Bool) (x : Int) : Nat × Nat :=
  let n := 8 * esizeI ty
  if intLo ty ≤ x && x ≤ intHi ty then (wrapN n x, 0)
  else if sat then (wrapN n (if x < 0 then intLo ty else intHi ty), fSATV)
  else (wrapN n x, 0)

/-- An operation on the raw elements va, the second source and vc. -/
def vrawop (s : State) (v : Nat) (f : VF) (x : BCtx) (lat : Nat) (op : Nat → Nat → Nat → Nat × Nat) : Res :=
  let e := esizeI f.ty
  let va := vsrc s v f.va x
  let vc := vsrc s v f.vc x
  let imm := immInt f.ty f.imm
  vnext (velems s v f x lat e (vlen s f / e) (plain fun k => op (elemAt va e k) (second s v f x e imm k) (elemAt vc e k))) v

/-- An operation with an exact integer result (R163). -/
def vintop (s : State) (v : Nat) (f : VF) (x : BCtx) (lat : Nat) (op : Int → Int → Int → Int) : Res :=
  vrawop s v f x lat fun a b c => storeInt f.ty f.sat (op (intVal f.ty a) (intVal f.ty b) (intVal f.ty c))

def execVadd (v : Nat) (f : VF) (x : BCtx) (s : State) : Res := vintop s v f x 1 fun a b _ => a + b
def execVsub (v : Nat) (f : VF) (x : BCtx) (s : State) : Res := vintop s v f x 1 fun a b _ => a - b
def execVmul (v : Nat) (f : VF) (x : BCtx) (s : State) : Res := vintop s v f x 3 fun a b _ => a * b
def execVmulh (v : Nat) (f : VF) (x : BCtx) (s : State) : Res :=
  vintop s v f x 3 fun a b _ => (a * b).fdiv ((2 : Int) ^ (8 * esizeI f.ty : Nat))
def execVmad (v : Nat) (f : VF) (x : BCtx) (s : State) : Res := vintop s v f x 3 fun a b c => a * b + c
def execVmin (v : Nat) (f : VF) (x : BCtx) (s : State) : Res := vintop s v f x 1 fun a b _ => min a b
def execVmax (v : Nat) (f : VF) (x : BCtx) (s : State) : Res := vintop s v f x 1 fun a b _ => max a b
def execVabs (v : Nat) (f : VF) (x : BCtx) (s : State) : Res := vintop s v f x 1 fun a _ _ => (a.natAbs : Int)
def execVneg (v : Nat) (f : VF) (x : BCtx) (s : State) : Res := vintop s v f x 1 fun a _ _ => -a
def execVand (v : Nat) (f : VF) (x : BCtx) (s : State) : Res := vrawop s v f x 1 fun a b _ => (Nat.land a b, 0)
def execVor (v : Nat) (f : VF) (x : BCtx) (s : State) : Res := vrawop s v f x 1 fun a b _ => (Nat.lor a b, 0)
def execVxor (v : Nat) (f : VF) (x : BCtx) (s : State) : Res := vrawop s v f x 1 fun a b _ => (Nat.xor a b, 0)
def execVnot (v : Nat) (f : VF) (x : BCtx) (s : State) : Res :=
  vrawop s v f x 1 fun a _ _ => (2 ^ (8 * esizeI f.ty) - 1 - a, 0)

/-- A shift count, where every count of the width or more is the width (R164). -/
def shiftCount (ty b : Nat) : Nat := Nat.min b (8 * esizeI ty)

def execVshl (v : Nat) (f : VF) (x : BCtx) (s : State) : Res :=
  vrawop s v f x 1 fun a b _ => storeInt f.ty f.sat (intVal f.ty a * (2 : Int) ^ shiftCount f.ty b)
def execVshr (v : Nat) (f : VF) (x : BCtx) (s : State) : Res := vrawop s v f x 1 fun a b _ => (a / 2 ^ shiftCount f.ty b, 0)
def execVsar (v : Nat) (f : VF) (x : BCtx) (s : State) : Res :=
  vrawop s v f x 1 fun a b _ =>
    (wrapN (8 * esizeI f.ty) ((sext (8 * esizeI f.ty) a).fdiv ((2 : Int) ^ shiftCount f.ty b)), 0)

/-- The conditions of VCMP (R165). -/
def intCond (c : Nat) (a b : Int) (ra rb : Nat) : Bool :=
  match c with
  | 0 => a = b
  | 1 => a ≠ b
  | 2 => a < b
  | 3 => b ≤ a
  | 4 => a ≤ b
  | 5 => b < a
  | 6 => Nat.land ra rb ≠ 0
  | _ => Nat.land ra rb = 0

def execVcmp (v : Nat) (f : VF) (x : BCtx) (s : State) : Res :=
  let e := esizeI f.ty
  let va := vsrc s v f.va x
  let imm := immInt f.ty f.imm
  vnext
    (vpreds s v f x 1 e (vlen s f / e) fun k =>
      let a := elemAt va e k
      let b := second s v f x e imm k
      (intCond (f.vc % 8) (intVal f.ty a) (intVal f.ty b) a b, 0)) v

def execVsel (v : Nat) (f : VF) (x : BCtx) (s : State) : Res :=
  let e := esizeI f.ty
  let va := vsrc s v f.va x
  let sel := psrc s v (f.vc % 8) x
  let imm := immInt f.ty f.imm
  vnext
    (velems s v f x 1 e (vlen s f / e)
      (pure1 fun k => if sel.getLsbD (k * e) then elemAt va e k else second s v f x e imm k)) v

def execVli (v : Nat) (f : VF) (x : BCtx) (s : State) : Res :=
  vnext (velems s v f x 1 (esizeI f.ty) (vlen s f / esizeI f.ty) (pure1 fun _ => immInt f.ty f.imm)) v

def execVmov (v : Nat) (f : VF) (x : BCtx) (s : State) : Res :=
  let e := esizeI f.ty
  let va := vsrc s v f.va x
  vnext
    (velems s v f x 1 e (vlen s f / e)
      (pure1 fun k => if f.form = 2 then x.scal.toNat % 2 ^ (8 * e) else elemAt va e k)) v

end Sys2Proof.Machine
end

