-- ==== Sys2Proof/Machine/VFloat.lean ====
section
/-! DEFINITION. The floating-point operations, the conversions and the accumulator writes of the V slots (R167 to R178). -/

namespace Sys2Proof.Machine

/-- The effective saturation of a V operation (R119). -/
def vsat (s : State) (f : VF) (x : BCtx) : Bool := f.sat || fmtSat s x

/-- A source element as a value, after DAZ (R122). -/
def fsrc (s : State) (x : BCtx) (ty raw : Nat) : FV := dazF (fmtDaz s x) (fmtOf ty) (decodeF (fmtOf ty) raw)

/-- Round and store an exact result at byte `b` of the destination (R128, R168), with the flags of the operation itself. A finite
value of a special case (`direct`) is stored as it is and leaves the residue alone. -/
def vstore (s : State) (v : Nat) (f : VF) (x : BCtx) (ty b : Nat) (y : FV × Nat) (r : Tbl (BitVec 32)) (direct : Bool := false) :
    Elem :=
  if vmode s f x = 4 && !direct then
    let lane := 128 * v + b / 4
    let (bits, fl, r') := nsRound (fmtOf ty) (vsat s f x) (fmtFtz s x) y.1 (tget 0 r lane).toNat
    (bits, fl ||| y.2, tset 0 r lane (BitVec.ofNat 32 r'))
  else
    let (bits, fl) := storeVec (fmtOf ty) (vmode s f x % 4) (vsat s f x) (fmtFtz s x) y.1
    (bits, fl ||| y.2, r)

/-- No finite value is a special case: addition, multiplication and their fused forms. -/
def noneSpecial (_ _ : FV) : Bool := false

/-- An operation with a rounded result (R168); `op` gets whether the mode rounds toward -infinity, and `special` says for which
sources a finite result is that of a special case of R169 or IEEE 754. -/
def vfop (s : State) (v : Nat) (f : VF) (x : BCtx) (lat : Nat) (special : FV → FV → Bool) (op : Bool → FV → FV → FV → FV × Nat) :
    Res :=
  let e := esizeF f.ty
  let va := vsrc s v f.va x
  let vc := vsrc s v f.vc x
  let imm := immFloat f.ty f.imm
  vnext
    (velems s v f x lat e (vlen s f / e) fun k r =>
      let a := fsrc s x f.ty (elemAt va e k)
      let b := fsrc s x f.ty (second s v f x e imm k)
      let y := op (vmode s f x = 2) a b (fsrc s x f.ty (elemAt vc e k))
      vstore s v f x f.ty (e * k) y r (special a b && !y.1.isNan && !y.1.isInf)) v

/-- A finite value over an infinity. -/
def divSpecial (_ b : FV) : Bool := b.isInf
/-- A zero or an infinite source: the rows of R169's table, and the root of -0. -/
def edgeSpecial (a _ : FV) : Bool := a.isZero || a.isInf
/-- VFLOG2 of 1. -/
def logSpecial (a _ : FV) : Bool := !a.isNan && !a.isInf && !a.neg && dyEq a.dy { m := 1, e := 0 }

def execVfadd (v : Nat) (f : VF) (x : BCtx) (s : State) : Res := vfop s v f x 4 noneSpecial fun rdn a b _ => fvAdd rdn a b
def execVfsub (v : Nat) (f : VF) (x : BCtx) (s : State) : Res := vfop s v f x 4 noneSpecial fun rdn a b _ => fvAdd rdn a b.flip
def execVfmul (v : Nat) (f : VF) (x : BCtx) (s : State) : Res := vfop s v f x 4 noneSpecial fun _ a b _ => fvMul a b
def execVfma (v : Nat) (f : VF) (x : BCtx) (s : State) : Res := vfop s v f x 4 noneSpecial fun rdn a b c => fvFma rdn a b c
def execVfms (v : Nat) (f : VF) (x : BCtx) (s : State) : Res := vfop s v f x 4 noneSpecial fun rdn a b c => fvFma rdn a b c.flip
def execVfnma (v : Nat) (f : VF) (x : BCtx) (s : State) : Res := vfop s v f x 4 noneSpecial fun rdn a b c => fvFma rdn a.flip b c
def execVfdiv (v : Nat) (f : VF) (x : BCtx) (s : State) : Res := vfop s v f x 14 divSpecial fun _ a b _ => fvDiv a b
def execVfsqrt (v : Nat) (f : VF) (x : BCtx) (s : State) : Res := vfop s v f x 14 edgeSpecial fun _ a _ _ => fvSqrt a
def execVfrcp (v : Nat) (f : VF) (x : BCtx) (s : State) : Res := vfop s v f x 6 edgeSpecial fun _ a _ _ => fvRcp a
def execVfrsq (v : Nat) (f : VF) (x : BCtx) (s : State) : Res := vfop s v f x 6 edgeSpecial fun _ a _ _ => fvRsq a
def execVfexp2 (v : Nat) (f : VF) (x : BCtx) (s : State) : Res := vfop s v f x 6 edgeSpecial fun _ a _ _ => fvExp2 a
def execVflog2 (v : Nat) (f : VF) (x : BCtx) (s : State) : Res := vfop s v f x 6 logSpecial fun _ a _ _ => fvLog2 a

/-- An operation whose result is one of its sources, its sign aside: nothing is rounded (R170). -/
def vfpick (s : State) (v : Nat) (f : VF) (x : BCtx) (op : FV → FV → FV × Nat) : Res :=
  let e := esizeF f.ty
  let va := vsrc s v f.va x
  let imm := immFloat f.ty f.imm
  vnext
    (velems s v f x 4 e (vlen s f / e)
      (plain fun k =>
        let y := op (fsrc s x f.ty (elemAt va e k)) (fsrc s x f.ty (second s v f x e imm k))
        ((storeVec (fmtOf f.ty) 0 false false y.1).1, y.2))) v

/-- The value with its sign bit set to `neg`. -/
def withSign (neg : Bool) (x : FV) : FV := if x.neg = neg then x else x.flip

def execVfmin (v : Nat) (f : VF) (x : BCtx) (s : State) : Res := vfpick s v f x fun a b => fvPick false a b
def execVfmax (v : Nat) (f : VF) (x : BCtx) (s : State) : Res := vfpick s v f x fun a b => fvPick true a b
def execVfabs (v : Nat) (f : VF) (x : BCtx) (s : State) : Res := vfpick s v f x fun a _ => (withSign false a, sigFlag [a])
def execVfneg (v : Nat) (f : VF) (x : BCtx) (s : State) : Res := vfpick s v f x fun a _ => (a.flip, sigFlag [a])

/-- The conditions of VFCMP (R171) and the flags they set. -/
def floatCond (c : Nat) (a b : FV) : Bool × Nat :=
  let un := a.isNan || b.isNan
  let o := fvCmp a b
  let quiet := sigFlag [a, b]
  let loud := if un then fNV else 0
  match c with
  | 0 => (!un && o = 0, quiet)
  | 1 => (un || o ≠ 0, quiet)
  | 2 => (!un && o < 0, loud)
  | 3 => (!un && o ≤ 0, loud)
  | 4 => (!un && 0 < o, loud)
  | 5 => (!un && 0 ≤ o, loud)
  | 6 => (un, quiet)
  | _ => (!un, quiet)

def execVfcmp (v : Nat) (f : VF) (x : BCtx) (s : State) : Res :=
  let e := esizeF f.ty
  let va := vsrc s v f.va x
  let imm := immFloat f.ty f.imm
  vnext
    (vpreds s v f x 4 e (vlen s f / e) fun k =>
      floatCond (f.vc % 8) (fsrc s x f.ty (elemAt va e k)) (fsrc s x f.ty (second s v f x e imm k))) v

/-! ## Conversions (R172 to R175) -/

/-- Floating type `src` to floating type `dst` of one element at byte `b` (R172). -/
def cvtFloat (s : State) (v : Nat) (f : VF) (x : BCtx) (dst src b raw : Nat) (r : Tbl (BitVec 32)) : Elem :=
  let y := fsrc s x src raw
  let fl := sigFlag [y]
  if esizeF src < esizeF dst then ((storeVec (fmtOf dst) 0 false false y).1, fl, r)
  else vstore s v f x dst b (y, fl) r

/-- A conversion between sizes `ed` and `es`, packed into the low end of the narrower side's register (R172). -/
def vconvert (s : State) (v : Nat) (f : VF) (x : BCtx) (ed es : Nat) (el : Nat → Nat → Tbl (BitVec 32) → Elem) : Res :=
  let va := vsrc s v f.va x
  let n := vlen s f / Nat.max ed es
  vnext (velemsTail s v f x 4 ed n (if ed < es then n * ed else vlen s f) fun k r => el k (elemAt va es k) r) v

def execVfcvt (v : Nat) (f : VF) (x : BCtx) (s : State) : Res :=
  let src := f.imm % 8
  let s := if f.imm / 8 % 2 = 1 then onT s fun t => { t with rsd := tclear t.rsd (128 * v) (vlen s f / 4) } else s
  vconvert s v f x (esizeF f.ty) (esizeF src) fun k raw r => cvtFloat s v f x f.ty src (esizeF f.ty * k) raw r

def execVicvt (v : Nat) (f : VF) (x : BCtx) (s : State) : Res :=
  let other := f.imm % 8
  match f.imm / 8 % 4 with
  | 0 =>
    vconvert s v f x (esizeI f.ty) (esizeF other) fun _ raw r =>
      let y := fsrc s x other raw
      let (n, fl) := toInt (vmode s f x) (vsat s f x) (intLo f.ty) (intHi f.ty) y
      (wrapN (8 * esizeI f.ty) n, fl, r)
  | 1 =>
    vconvert s v f x (esizeF other) (esizeI f.ty) fun k raw r =>
      vstore s v f x other (esizeF other * k) (fvOf false (dyOfInt (intVal f.ty raw)), 0) r
  | _ =>
    vconvert s v f x (esizeI f.ty) (esizeI other) fun _ raw r =>
      let n := intVal other raw
      if esizeI other < esizeI f.ty then (wrapN (8 * esizeI f.ty) n, 0, r)
      else
        let (n, fl) := storeInt f.ty f.sat n
        (n, fl, r)

def execVnarrow (v : Nat) (f : VF) (x : BCtx) (s : State) : Res :=
  let src := f.imm % 8
  let es := esizeF src
  let ed := esizeF f.ty
  let m := vlen s f / es
  let va := vsrc s v f.va x
  let vb := vsrc s v f.vb x
  vnext
    (velems s v f x 4 ed (2 * m) fun k r =>
      cvtFloat s v f x f.ty src (ed * k) (if k < m then elemAt va es k else elemAt vb es (k - m)) r) v

def execVwiden (v : Nat) (f : VF) (x : BCtx) (s : State) : Res :=
  let src := f.imm % 8
  let ed := esizeF f.ty
  let n := vlen s f / ed
  let va := vsrc s v f.va x
  vnext
    (velems s v f x 4 ed n fun k r =>
      cvtFloat s v f x f.ty src (ed * k) (elemAt va (esizeF src) (k + f.imm / 16 % 2 * n)) r) v

/-! ## VACC, VNORM (R176 to R178) -/

/-- Add a vector, or its squares, into a row of an accumulator. -/
def vrow (square : Bool) (v : Nat) (f : VF) (x : BCtx) (s : State) : Res :=
  let e := esizeF f.ty
  let n := vlen s f / e
  let va := vsrc s v f.va x
  let p := psrc s v f.pred x
  let xs := ((List.range n).filter (activeAt p e)).map fun k => (f.imm / 2 ^ 7 % 32 * n + k, fsrc s x f.ty (elemAt va e k))
  if xs.any fun e => e.2.isNan || e.2.isInf then slotFault s (2 + v) { code := cAccOperand }
  else
    let neg := f.imm / 2 ^ 12 % 2 = 1
    let t := xs.map fun e =>
      let d := if square then dyMul e.2.dy e.2.dy else e.2.dy
      (e.1, if neg then dyNeg d else d)
    match namedWrite s (f.vd % 4) (f.imm % 128) t (f.imm / 2 ^ 13 % 2 = 1) with
    | .error t => slotFault s (2 + v) t
    | .ok s => vnext s v

def execVacc (v : Nat) (f : VF) (x : BCtx) (s : State) : Res := vrow false v f x s
def execVnorm (v : Nat) (f : VF) (x : BCtx) (s : State) : Res := vrow true v f x s

end Sys2Proof.Machine
end

