-- ==== Sys2Proof/Machine/VData.lean ====
section
/-! DEFINITION. Data movement, reductions, scans, predicate operations, the vector check and the lane generators of the V slots
(R181 to R196). -/

namespace Sys2Proof.Machine

/-! ## Permutes (R185) -/

/-- The number of elements of an integer operation. -/
def vcount (s : State) (f : VF) : Nat := vlen s f / esizeI f.ty

/-- A permute: each destination element is a function of its index. -/
def vmove (s : State) (v : Nat) (f : VF) (x : BCtx) (el : Nat → Nat) : Res :=
  vnext (velems s v f x 2 (esizeI f.ty) (vcount s f) (pure1 el)) v

/-- An element of a register, or 0 at an index of `n` or more. -/
def elemOr (s : State) (v reg : Nat) (f : VF) (x : BCtx) (j : Nat) : Nat :=
  if j < vcount s f then elemAt (vsrc s v reg x) (esizeI f.ty) j else 0

/-- The index of VBCAST, VINS and VEXT, and the count of PCNT. -/
def vindex (f : VF) (x : BCtx) : Nat := if f.form = 2 then x.scal.toNat else f.imm

def execVperm (v : Nat) (f : VF) (x : BCtx) (s : State) : Res :=
  vmove s v f x fun k => elemOr s v f.va f x (elemAt (vsrc s v f.vb x) (esizeI f.ty) k)

def execVbcast (v : Nat) (f : VF) (x : BCtx) (s : State) : Res := vmove s v f x fun _ => elemOr s v f.va f x (vindex f x)

/-- Element `j` of the run vc, va, vc around va (R185 VSLIDE). -/
def slideElem (s : State) (v : Nat) (f : VF) (x : BCtx) (j : Int) : Nat :=
  let n := (vcount s f : Int)
  if 0 ≤ j && j < n then elemOr s v f.va f x j.toNat
  else if n ≤ j && j < 2 * n then elemOr s v f.vc f x (j - n).toNat
  else if -n ≤ j && j < 0 then elemOr s v f.vc f x (j + n).toNat
  else 0

def execVslide (v : Nat) (f : VF) (x : BCtx) (s : State) : Res :=
  let d : Int := if f.form = 2 then x.scal.toInt else sext 16 f.imm
  vmove s v f x fun k => slideElem s v f x ((k : Int) + d)

def execVzip (v : Nat) (f : VF) (x : BCtx) (s : State) : Res :=
  vmove s v f x fun k =>
    elemOr s v (if k % 2 = 0 then f.va else f.vb) f x (k / 2 + f.imm % 2 * (vcount s f / 2))

def execVunzip (v : Nat) (f : VF) (x : BCtx) (s : State) : Res :=
  vmove s v f x fun k =>
    let j := 2 * k + f.imm % 2
    if j < vcount s f then elemOr s v f.va f x j else elemOr s v f.vb f x (j - vcount s f)

def execVins (v : Nat) (f : VF) (x : BCtx) (s : State) : Res :=
  if vcount s f ≤ vindex f x then vnext s v
  else vmove s v f x fun k => if k = vindex f x then elemOr s v f.va f x 0 else elemOr s v f.vd f x k

def execVext (v : Nat) (f : VF) (x : BCtx) (s : State) : Res :=
  vmove s v f x fun k => if k = 0 then elemOr s v f.va f x (vindex f x) else 0

/-- The active source elements, in ascending index. -/
def activeElems (s : State) (v : Nat) (f : VF) (x : BCtx) (e : Nat) : List (Nat × Nat) :=
  let p := psrc s v f.pred x
  let va := vsrc s v f.va x
  ((List.range (vlen s f / e)).filter (activeAt p e)).map fun k => (k, elemAt va e k)

def execVcompress (v : Nat) (f : VF) (x : BCtx) (s : State) : Res :=
  let e := esizeI f.ty
  let xs := (activeElems s v f x e).zipIdx.map fun y => (y.2, y.1.2)
  let rest := if f.zero then ((List.range (vcount s f)).filter fun k => xs.length ≤ k).map fun k => (k, 0) else []
  vnext (vout s v f x 2 e (vlen s f) (xs ++ rest) 0) v

/-! ## Reductions (R136, R186) -/

/-- One level of the tree: neighbours are combined; a position without a value gives way. -/
def pairUp {α : Type} (op : α → α → α × Nat) (xs : List (Option α)) : List (Option α) × Nat :=
  match xs with
  | a :: b :: rest =>
    let (ys, fl) := pairUp op rest
    match a, b with
    | some u, some w => let (y, f) := op u w; (some y :: ys, fl ||| f)
    | some u, none => (some u :: ys, fl)
    | none, c => (c :: ys, fl)
  | [a] => ([a], 0)
  | [] => ([], 0)

/-- The fixed pairwise tree (R136): `fuel` is at least its number of levels, and further levels pass its root on. -/
def reduceTree {α : Type} (op : α → α → α × Nat) (fuel : Nat) (xs : List (Option α)) : Option α × Nat :=
  match fuel with
  | 0 => (xs.head?.getD none, 0)
  | fuel + 1 =>
    let (ys, f) := pairUp op xs
    let (y, g) := reduceTree op fuel ys
    (y, f ||| g)

/-- The positions of a reduction, in order, each with its value where it is active. -/
def leaves {α : Type} (s : State) (v : Nat) (f : VF) (x : BCtx) (e : Nat) (val : Nat → α) : List (Option α) :=
  let p := psrc s v f.pred x
  let va := vsrc s v f.va x
  (List.range (vlen s f / e)).map fun k => if activeAt p e k then some (val (elemAt va e k)) else none

/-- A reduction's result in element 0, zeros in the others. -/
def vreduced (s : State) (v : Nat) (f : VF) (x : BCtx) (e bits fl : Nat) : Res :=
  vnext (vout s v f x 6 e (vlen s f) ((0, bits) :: ((List.range (vlen s f / e)).drop 1).map fun k => (k, 0)) fl) v

def vreduceI (s : State) (v : Nat) (f : VF) (x : BCtx) (empty : Int) (op : Int → Int → Int × Nat) : Res :=
  let e := esizeI f.ty
  let (y, fl) := reduceTree op (vlen s f / e) (leaves s v f x e (intVal f.ty))
  vreduced s v f x e (wrapN (8 * e) (y.getD empty)) fl

/-- An integer sum, stored at each node (R163). -/
def addI (ty : Nat) (sat : Bool) (a b : Int) : Int × Nat := let (y, fl) := storeInt ty sat (a + b); (intVal ty y, fl)

def execVredaddI (v : Nat) (f : VF) (x : BCtx) (s : State) : Res := vreduceI s v f x 0 (addI f.ty f.sat)
def execVredmaxI (v : Nat) (f : VF) (x : BCtx) (s : State) : Res := vreduceI s v f x (intLo f.ty) fun a b => (max a b, 0)
def execVredminI (v : Nat) (f : VF) (x : BCtx) (s : State) : Res := vreduceI s v f x (intHi f.ty) fun a b => (min a b, 0)

/-- The flags of signalling sources among the active elements. -/
def sigActive (s : State) (v : Nat) (f : VF) (x : BCtx) : Nat :=
  sigFlag ((activeElems s v f x (esizeF f.ty)).map fun e => decodeF (fmtOf f.ty) e.2)

def vreduceF (s : State) (v : Nat) (f : VF) (x : BCtx) (empty : FV) (op : FV → FV → FV × Nat) : Res :=
  let e := esizeF f.ty
  let (y, fl) := reduceTree op (vlen s f / e) (leaves s v f x e (fsrc s x f.ty))
  vreduced s v f x e (storeVec (fmtOf f.ty) 0 false false (y.getD empty)).1 (fl ||| sigActive s v f x)

/-- The result of a node of the tree (R136): rounded to the element type, with FTZ and R119. -/
def nodeF (s : State) (f : VF) (x : BCtx) (y : FV × Nat) : FV × Nat :=
  let (bits, fl) := storeVec (fmtOf f.ty) (vmode s f x) (vsat s f x) (fmtFtz s x) y.1
  (decodeF (fmtOf f.ty) bits, y.2 ||| fl)

/-- A floating sum, rounded at each node (R136). -/
def addF (s : State) (f : VF) (x : BCtx) (a b : FV) : FV × Nat := nodeF s f x (fvAdd (vmode s f x = 2) a b)

def execVredaddF (v : Nat) (f : VF) (x : BCtx) (s : State) : Res := vreduceF s v f x (.val false 0 0) (addF s f x)
def execVredmaxF (v : Nat) (f : VF) (x : BCtx) (s : State) : Res := vreduceF s v f x (.inf true) fun a b => nodeF s f x (fvPick true a b)
def execVredminF (v : Nat) (f : VF) (x : BCtx) (s : State) : Res := vreduceF s v f x (.inf false) fun a b => nodeF s f x (fvPick false a b)

/-! ## VARGMAX (R187) -/

/-- The first greatest of a list of indexed values. -/
def argBest {α : Type} (less : α → α → Bool) (xs : List (Nat × α)) : Option (Nat × α) :=
  xs.foldl (fun b e => match b with | none => some e | some y => if less y.2 e.2 then some e else some y) none

/-- Write a VARGMAX result: the value, and the index at bytes 4 to 7. -/
def vargOut (s : State) (v : Nat) (f : VF) (x : BCtx) (bits idx fl : Nat) : Res :=
  let rest := ((List.range (vlen s f / 4)).drop 2).map fun k => (k, 0)
  vnext (vout s v f x 6 4 (vlen s f) ((0, bits) :: (1, idx) :: rest) fl) v

def execVargmaxI (v : Nat) (f : VF) (x : BCtx) (s : State) : Res :=
  let e := esizeI f.ty
  match argBest (fun a b => decide (intVal f.ty a < intVal f.ty b)) (activeElems s v f x e) with
  | some (k, y) => vargOut s v f x y k 0
  | none => vargOut s v f x (wrapN (8 * e) (intLo f.ty)) 0xFFFFFFFF 0

/-- The order of VARGMAX on floating values: a NaN below every number, -0 below +0. -/
def argLess (a b : FV) : Bool :=
  if a.isNan then !b.isNan
  else if b.isNan then false
  else fvCmp a b < 0 || (fvCmp a b = 0 && a.neg && !b.neg)

def execVargmaxF (v : Nat) (f : VF) (x : BCtx) (s : State) : Res :=
  let e := esizeF f.ty
  let enc := fun y : FV => (storeVec (fmtOf f.ty) 0 false false y).1
  let fl := sigActive s v f x
  match argBest argLess ((activeElems s v f x e).map fun y => (y.1, fsrc s x f.ty y.2)) with
  | some (k, y) => vargOut s v f x (enc y) k fl
  | none => vargOut s v f x (enc (.inf true)) 0xFFFFFFFF fl

/-! ## Scans (R188) -/

/-- Running sums over `n` elements from element `k` on: `acc` is the sum so far. -/
def scanFrom {α : Type} (act : Nat → Bool) (zero excl : Bool) (add : α → Nat → α × Nat) (out : α → Nat) (ks : List Nat) (acc : α) :
    List (Nat × Nat) × Nat :=
  match ks with
  | [] => ([], 0)
  | k :: rest =>
    if act k then
      let (next, fl) := add acc k
      let (ys, g) := scanFrom act zero excl add out rest next
      ((k, out (if excl then acc else next)) :: ys, fl ||| g)
    else
      let (ys, g) := scanFrom act zero excl add out rest acc
      (if zero then (k, 0) :: ys else ys, g)

def vscan {α : Type} (s : State) (v : Nat) (f : VF) (x : BCtx) (e : Nat) (add : α → Nat → α × Nat) (out : α → Nat) (start : α)
    (fl : Nat) : Res :=
  let p := psrc s v f.pred x
  let (xs, g) := scanFrom (activeAt p e) f.zero (f.imm % 2 = 1) add out (List.range (vlen s f / e)) start
  vnext (vout s v f x 6 e (vlen s f) xs (fl ||| g)) v

def execVscanI (v : Nat) (f : VF) (x : BCtx) (s : State) : Res :=
  let e := esizeI f.ty
  let va := vsrc s v f.va x
  vscan s v f x e (fun acc k => addI f.ty f.sat acc (intVal f.ty (elemAt va e k))) (wrapN (8 * e)) 0 0

def execVscanF (v : Nat) (f : VF) (x : BCtx) (s : State) : Res :=
  let e := esizeF f.ty
  let va := vsrc s v f.va x
  vscan s v f x e (fun acc k => addF s f x acc (fsrc s x f.ty (elemAt va e k)))
    (fun y => (storeVec (fmtOf f.ty) 0 false false y).1) (.val false 0 0) (sigActive s v f x)

/-! ## Predicate operations (R190) -/

/-- A predicate operation: the truth of each active element from its index. -/
def vpred (s : State) (v : Nat) (f : VF) (x : BCtx) (el : Nat → Bool) : Res :=
  vnext (vpreds s v f x 1 (esizeI f.ty) (vcount s f) fun k => (el k, 0)) v

/-- Bit of a source predicate at element `k`. -/
def pbit (s : State) (v p : Nat) (f : VF) (x : BCtx) (k : Nat) : Bool := (psrc s v (p % 8) x).getLsbD (k * esizeI f.ty)

/-- The lowest element that is active and true in `va`. -/
def firstTrue (s : State) (v : Nat) (f : VF) (x : BCtx) : Option Nat :=
  (List.range (vcount s f)).find? fun k => activeAt (psrc s v f.pred x) (esizeI f.ty) k && pbit s v f.va f x k

def execPand (v : Nat) (f : VF) (x : BCtx) (s : State) : Res := vpred s v f x fun k => pbit s v f.va f x k && pbit s v f.vb f x k
def execPor (v : Nat) (f : VF) (x : BCtx) (s : State) : Res := vpred s v f x fun k => pbit s v f.va f x k || pbit s v f.vb f x k
def execPxor (v : Nat) (f : VF) (x : BCtx) (s : State) : Res := vpred s v f x fun k => pbit s v f.va f x k != pbit s v f.vb f x k
def execPnot (v : Nat) (f : VF) (x : BCtx) (s : State) : Res := vpred s v f x fun k => !pbit s v f.va f x k
def execPfirst (v : Nat) (f : VF) (x : BCtx) (s : State) : Res := vpred s v f x fun k => firstTrue s v f x = some k
def execPpop (v : Nat) (f : VF) (x : BCtx) (s : State) : Res :=
  vpred s v f x fun k => pbit s v f.va f x k && decide (firstTrue s v f x ≠ some k)
def execPcnt (v : Nat) (f : VF) (x : BCtx) (s : State) : Res := vpred s v f x fun k => k < vindex f x

/-! ## The vector check (R191) -/

def execVchk (v : Nat) (f : VF) (x : BCtx) (s : State) : Res :=
  let e := esizeI f.ty
  let p := psrc s v f.pred x
  let va := vsrc s v f.va x
  let vb := vsrc s v f.vb x
  if (List.range (vlen s f / e)).any fun k => activeAt p e k && decide (elemAt va e k ≠ elemAt vb e k) then
    .next (rewindCause s cCheck (3 + v) x.idx)
  else vnext s v

/-! ## Lane generators (R193 to R196) -/

def genKey (s : State) (x : BCtx) : BitVec 128 := (readAt s .key x.idx).setWidth 128
def genStride (s : State) (x : BCtx) : BitVec 128 := (readAt s .stride x.idx).setWidth 128
def genCtr (s : State) (x : BCtx) (l : Nat) : BitVec 128 := (readAt s (.ctr l) x.idx).setWidth 128

/-- A write of generator state: V0's writes come before V1's (R194). -/
def genPut (s : State) (v : Nat) (x : BCtx) (d : Dest) (mask val : VReg) : State :=
  addLatch s { dest := d, mask, tgt := x.idx + 3, cls := 1 + v, iss := x.idx, val }

/-- The active lanes of an operation. -/
def genLanes (s : State) (v : Nat) (f : VF) (x : BCtx) : List Nat :=
  (List.range (vlen s f / 4)).filter (activeAt (psrc s v f.pred x) 4)

/-- Add to the counters of the active lanes. -/
def genAdd (s : State) (v : Nat) (f : VF) (x : BCtx) (d : BitVec 128) : State :=
  (genLanes s v f x).foldl (fun s l => genPut s v x (.ctr l) (maskAt 128 [0]) ((genCtr s x l + d).setWidth 4096)) s

def execVrand (v : Nat) (f : VF) (x : BCtx) (s : State) : Res :=
  let t := f.imm % 4
  let a := f.imm / 4 % 4
  let d := genStride s x
  let s' := velems s v f x 3 4 (vlen s f / 4) (pure1 fun l =>
    ((lmix (genKey s x) (genCtr s x l + BitVec.ofNat 128 t * d)).setWidth 32).toNat)
  if a = 0 then vnext s' v else vnext (genAdd (closeSeg s') v f x (BitVec.ofNat 128 a * d)) v

def execVrkey (v : Nat) (f : VF) (x : BCtx) (s : State) : Res :=
  let va := vsrc s v f.va x
  let s := closeSeg s
  if f.imm = 4 then
    let s := genPut s v x .key (maskAt 128 [0]) (va &&& maskAt 128 [0])
    vnext (genPut s v x .stride (maskAt 128 [0]) ((va >>> 128) &&& maskAt 128 [0])) v
  else
    vnext
      ((genLanes s v f x).foldl
        (fun s l => genPut s v x (.ctr l) (maskAt 32 [f.imm]) (packAt 32 [(f.imm, elemAt va 4 l)])) s) v

def execVrskip (v : Nat) (f : VF) (x : BCtx) (s : State) : Res :=
  let d : BitVec 128 :=
    match f.form with
    | 0 => (vsrc s v f.va x).setWidth 128
    | 1 => BitVec.ofNat 128 f.imm
    | _ => x.scal.setWidth 128
  vnext (genAdd (closeSeg s) v f x d) v

def execVrsave (v : Nat) (f : VF) (x : BCtx) (s : State) : Res :=
  if f.imm = 4 then
    let both := (genKey s x).toNat + (genStride s x).toNat * 2 ^ 128
    let xs := (List.range (vlen s f / 4)).map fun k => (k, both / 2 ^ (32 * k) % 2 ^ 32)
    vnext (vout s v f x 3 4 (vlen s f) xs 0) v
  else
    vnext (velems s v f x 3 4 (vlen s f / 4) (pure1 fun l => (genCtr s x l).toNat / 2 ^ (32 * f.imm) % 2 ^ 32)) v

end Sys2Proof.Machine
end

