-- ==== Sys2Proof/Machine/XSlot.lean ====
section
/-! DEFINITION. The moves of the X slot (R61, R103). -/

namespace Sys2Proof.Machine

def xfOf (s : State) : XF := (headOf s 5).xf
def xIdx (s : State) : Nat := (headOf s 5).idx

/-- All bytes of a register at the task's gang width. -/
def wholeReg (s : State) : VReg := BitVec.ofNat 4096 (2 ^ (1024 * s.t.g) - 1)

/-- The first 8 bytes of a vector register as the operation reads it. -/
def xLow (s : State) (n : Nat) : Word := (readAt s (vecXY n) (xIdx s)).setWidth 64

/-- A result of the X slot becomes visible two indices later. -/
def xput (s : State) (d : Dest) (mask val : VReg) : State :=
  if mask = 0 then s else addLatch s { dest := d, mask, tgt := xIdx s + 2, cls := 2, iss := xIdx s, val }

/-- A word in every 8-byte group. -/
def everyGroup (w : Word) : VReg := BitVec.ofNat 4096 ((List.range 64).foldl (fun a k => a + w.toNat * 2 ^ (64 * k)) 0)

def execXmv (s : State) : Res :=
  slotNext (xput s (vecXY (xfOf s).a) (wholeReg s) (readAt s (vecXY (xfOf s).b) (xIdx s))) 5

def execXts (s : State) : Res := slotNext (setS s (xfOf s).a (xLow s (xfOf s).b)) 5

def execXfs (s : State) : Res := slotNext (xput s (vecXY (xfOf s).a) (wholeReg s) (everyGroup (headOf s 5).ctx.scal)) 5

def execXta (s : State) : Res :=
  slotNext (xput s (.addr (xfOf s).a) (BitVec.ofNat 4096 (2 ^ 64 - 1)) ((xLow s (xfOf s).b).setWidth 4096)) 5

def execXfa (s : State) : Res :=
  slotNext (xput s (vecXY (xfOf s).a) (wholeReg s) (everyGroup ((readAt s (.addr (xfOf s).b) (xIdx s)).setWidth 64))) 5

/-- The number of ones of a predicate. -/
def ones (n : Nat) (p : VReg) : Nat := ((List.range n).filter fun k => p.getLsbD k).length

def execXpc (s : State) : Res :=
  slotNext (setS s (xfOf s).a (BitVec.ofNat 64 (ones (128 * s.t.g) (readAt s (predXY (xfOf s).b) (xIdx s))))) 5

end Sys2Proof.Machine
end

