-- ==== Sys2Proof/Machine/Dispatch.lean ====
section
/-! DEFINITION. What each instruction does: one direct call of its meaning for each constructor. -/

namespace Sys2Proof.Machine

def exec (i : Instr) (s : State) : Host.Outcome State Fault Refusal :=
  match i with
  | .issueParcel entry bp bias => Sys2Proof.Machine.execIssueParcel entry bp bias s
  | .add rd ra rb => Sys2Proof.Machine.execAdd rd ra rb s
  | .sub rd ra rb => Sys2Proof.Machine.execSub rd ra rb s
  | .and rd ra rb => Sys2Proof.Machine.execAnd rd ra rb s
  | .or rd ra rb => Sys2Proof.Machine.execOr rd ra rb s
  | .xor rd ra rb => Sys2Proof.Machine.execXor rd ra rb s
  | .andn rd ra rb => Sys2Proof.Machine.execAndn rd ra rb s
  | .shl rd ra rb => Sys2Proof.Machine.execShl rd ra rb s
  | .shr rd ra rb => Sys2Proof.Machine.execShr rd ra rb s
  | .sar rd ra rb => Sys2Proof.Machine.execSar rd ra rb s
  | .rol rd ra rb => Sys2Proof.Machine.execRol rd ra rb s
  | .mul rd ra rb => Sys2Proof.Machine.execMul rd ra rb s
  | .mulh rd ra rb => Sys2Proof.Machine.execMulh rd ra rb s
  | .mulhn rd ra rb => Sys2Proof.Machine.execMulhn rd ra rb s
  | .div rd ra rb => Sys2Proof.Machine.execDiv rd ra rb s
  | .divn rd ra rb => Sys2Proof.Machine.execDivn rd ra rb s
  | .rem rd ra rb => Sys2Proof.Machine.execRem rd ra rb s
  | .remn rd ra rb => Sys2Proof.Machine.execRemn rd ra rb s
  | .min rd ra rb => Sys2Proof.Machine.execMin rd ra rb s
  | .max rd ra rb => Sys2Proof.Machine.execMax rd ra rb s
  | .minn rd ra rb => Sys2Proof.Machine.execMinn rd ra rb s
  | .maxn rd ra rb => Sys2Proof.Machine.execMaxn rd ra rb s
  | .clz rd ra => Sys2Proof.Machine.execClz rd ra s
  | .ctz rd ra => Sys2Proof.Machine.execCtz rd ra s
  | .popc rd ra => Sys2Proof.Machine.execPopc rd ra s
  | .bswap rd ra => Sys2Proof.Machine.execBswap rd ra s
  | .bext rd ra rb => Sys2Proof.Machine.execBext rd ra rb s
  | .bins rd ra rb => Sys2Proof.Machine.execBins rd ra rb s
  | .sel n rd ra rb => Sys2Proof.Machine.execSel n rd ra rb s
  | .cmp c rd ra rb => Sys2Proof.Machine.execCmp c rd ra rb s
  | .cmpq c qd ra rb => Sys2Proof.Machine.execCmpq c qd ra rb s
  | .sewma rd ra rb => Sys2Proof.Machine.execSewma rd ra rb s
  | .fadd rm p rd ra rb => Sys2Proof.Machine.execFadd rm p rd ra rb s
  | .fsub rm p rd ra rb => Sys2Proof.Machine.execFsub rm p rd ra rb s
  | .fmul rm p rd ra rb => Sys2Proof.Machine.execFmul rm p rd ra rb s
  | .ffma rm p rd ra rb => Sys2Proof.Machine.execFfma rm p rd ra rb s
  | .fdiv rm p rd ra rb => Sys2Proof.Machine.execFdiv rm p rd ra rb s
  | .fsqrt rm p rd ra => Sys2Proof.Machine.execFsqrt rm p rd ra s
  | .fmin p rd ra rb => Sys2Proof.Machine.execFmin p rd ra rb s
  | .fmax p rd ra rb => Sys2Proof.Machine.execFmax p rd ra rb s
  | .fcmpq cc p qd ra rb => Sys2Proof.Machine.execFcmpq cc p qd ra rb s
  | .fcvt rm code rd ra => Sys2Proof.Machine.execFcvt rm code rd ra s
  | .fclass p rd ra => Sys2Proof.Machine.execFclass p rd ra s
  | .frcp rm p rd ra => Sys2Proof.Machine.execFrcp rm p rd ra s
  | .addi rd ra imm => Sys2Proof.Machine.execAddi rd ra imm s
  | .andi rd ra imm => Sys2Proof.Machine.execAndi rd ra imm s
  | .ori rd ra imm => Sys2Proof.Machine.execOri rd ra imm s
  | .xori rd ra imm => Sys2Proof.Machine.execXori rd ra imm s
  | .shli rd ra n => Sys2Proof.Machine.execShli rd ra n s
  | .shri rd ra n => Sys2Proof.Machine.execShri rd ra n s
  | .sari rd ra n => Sys2Proof.Machine.execSari rd ra n s
  | .cmpqi c qd ra imm => Sys2Proof.Machine.execCmpqi c qd ra imm s
  | .lui rd imm => Sys2Proof.Machine.execLui rd imm s
  | .addpc rd imm => Sys2Proof.Machine.execAddpc rd imm s
  | .pbr b off => Sys2Proof.Machine.execPbr b off s
  | .nop => Sys2Proof.Machine.execNop s
  | .pbrxLoad b ra => Sys2Proof.Machine.execPbrxLoad b ra s
  | .pbrxRead rd b => Sys2Proof.Machine.execPbrxRead rd b s
  | .br b q neg => Sys2Proof.Machine.execBr b q neg s
  | .call b q neg => Sys2Proof.Machine.execCall b q neg s
  | .ret q neg => Sys2Proof.Machine.execRet q neg s
  | .loopx lc q neg => Sys2Proof.Machine.execLoopx lc q neg s
  | .endTask => Sys2Proof.Machine.execEndTask s
  | .cwtld ra rb => Sys2Proof.Machine.execCwtld ra rb s
  | .cwtclr ra => Sys2Proof.Machine.execCwtclr ra s
  | .qop f qd qa qb => Sys2Proof.Machine.execQop f qd qa qb s
  | .loop lc ra imm => Sys2Proof.Machine.execLoop lc ra imm s
  | .ld rd ra sz sp hint off => Sys2Proof.Machine.execLd rd ra sz sp hint off s
  | .st rd ra sz sp hint off => Sys2Proof.Machine.execSt rd ra sz sp hint off s
  | .ldlast rd ra sz off => Sys2Proof.Machine.execLdlast rd ra sz off s
  | .lda rd ra sz off => Sys2Proof.Machine.execLda rd ra sz off s
  | .stl rd ra sz off => Sys2Proof.Machine.execStl rd ra sz off s
  | .aadd w ord rd ra rb => Sys2Proof.Machine.execAadd w ord rd ra rb s
  | .amin w ord rd ra rb => Sys2Proof.Machine.execAmin w ord rd ra rb s
  | .amax w ord rd ra rb => Sys2Proof.Machine.execAmax w ord rd ra rb s
  | .aminn w ord rd ra rb => Sys2Proof.Machine.execAminn w ord rd ra rb s
  | .amaxn w ord rd ra rb => Sys2Proof.Machine.execAmaxn w ord rd ra rb s
  | .aand w ord rd ra rb => Sys2Proof.Machine.execAand w ord rd ra rb s
  | .aor w ord rd ra rb => Sys2Proof.Machine.execAor w ord rd ra rb s
  | .axor w ord rd ra rb => Sys2Proof.Machine.execAxor w ord rd ra rb s
  | .aswap w ord rd ra rb => Sys2Proof.Machine.execAswap w ord rd ra rb s
  | .acas w ord rd ra rb => Sys2Proof.Machine.execAcas w ord rd ra rb s
  | .afadd w ord rd ra rb => Sys2Proof.Machine.execAfadd w ord rd ra rb s
  | .fenceFull scope => Sys2Proof.Machine.execFenceFull scope s
  | .fenceRel scope => Sys2Proof.Machine.execFenceRel scope s
  | .fenceAcq scope => Sys2Proof.Machine.execFenceAcq scope s
  | .clean ra rb => Sys2Proof.Machine.execClean ra rb s
  | .cleanAll => Sys2Proof.Machine.execCleanAll s
  | .inval ra rb => Sys2Proof.Machine.execInval ra rb s
  | .invalAll => Sys2Proof.Machine.execInvalAll s
  | .phcfg h ra spm => Sys2Proof.Machine.execPhcfg h ra spm s
  | .phqry rd h f => Sys2Proof.Machine.execPhqry rd h f s
  | .eset eng k ra rb => Sys2Proof.Machine.execEset eng k ra rb s
  | .egoCopy rd => Sys2Proof.Machine.execEgoCopy rd s
  | .egoGather rd => Sys2Proof.Machine.execEgoGather rd s
  | .egoScatter rd => Sys2Proof.Machine.execEgoScatter rd s
  | .egoTrack rd => Sys2Proof.Machine.execEgoTrack rd s
  | .egoTraj rd => Sys2Proof.Machine.execEgoTraj rd s
  | .egoSink rd => Sys2Proof.Machine.execEgoSink rd s
  | .egoNmred rd => Sys2Proof.Machine.execEgoNmred rd s
  | .egoPort rd => Sys2Proof.Machine.execEgoPort rd s
  | .estat rd rb => Sys2Proof.Machine.execEstat rd rb s
  | .ewait rd rb => Sys2Proof.Machine.execEwait rd rb s
  | .ecancel rd rb => Sys2Proof.Machine.execEcancel rd rb s
  | .mshapeLoad sh ra spm => Sys2Proof.Machine.execMshapeLoad sh ra spm s
  | .mshapeWord sh ra f => Sys2Proof.Machine.execMshapeWord sh ra f s
  | .mshq rd sh f => Sys2Proof.Machine.execMshq rd sh f s
  | .mgeo rd c => Sys2Proof.Machine.execMgeo rd c s
  | .maccsave acc ra spm => Sys2Proof.Machine.execMaccsave acc ra spm s
  | .maccload acc ra spm => Sys2Proof.Machine.execMaccload acc ra spm s
  | .mstat rd ra sl => Sys2Proof.Machine.execMstat rd ra sl s
  | .mstatReset rd => Sys2Proof.Machine.execMstatReset rd s
  | .cntinc rd ra rb => Sys2Proof.Machine.execCntinc rd ra rb s
  | .cntwait rd ra rb => Sys2Proof.Machine.execCntwait rd ra rb s
  | .cntrd rd ra => Sys2Proof.Machine.execCntrd rd ra s
  | .cntset ra rb => Sys2Proof.Machine.execCntset ra rb s
  | .ocset rd ra rb => Sys2Proof.Machine.execOcset rd ra rb s
  | .topoq rd ra sl => Sys2Proof.Machine.execTopoq rd ra sl s
  | .fwset ra rb => Sys2Proof.Machine.execFwset ra rb s
  | .fwq rd ra sl => Sys2Proof.Machine.execFwq rd ra sl s
  | .vpubStage ra rb => Sys2Proof.Machine.execVpubStage ra rb s
  | .vpub rd ra => Sys2Proof.Machine.execVpub rd ra s
  | .vpubF rd ra rb => Sys2Proof.Machine.execVpubF rd ra rb s
  | .vadoptSeq rd ra => Sys2Proof.Machine.execVadoptSeq rd ra s
  | .vadoptStep rd ra => Sys2Proof.Machine.execVadoptStep rd ra s
  | .vpin rd ra rb => Sys2Proof.Machine.execVpin rd ra rb s
  | .vunpin ra => Sys2Proof.Machine.execVunpin ra s
  | .vqry rd ra sl => Sys2Proof.Machine.execVqry rd ra sl s
  | .tspawn rd ra => Sys2Proof.Machine.execTspawn rd ra s
  | .twait rd ra => Sys2Proof.Machine.execTwait rd ra s
  | .yield => Sys2Proof.Machine.execYield s
  | .tkillKill ra => Sys2Proof.Machine.execTkillKill ra s
  | .tkillHalt ra => Sys2Proof.Machine.execTkillHalt ra s
  | .tself rd sl => Sys2Proof.Machine.execTself rd sl s
  | .dbar rd ra => Sys2Proof.Machine.execDbar rd ra s
  | .djoin rd ra => Sys2Proof.Machine.execDjoin rd ra s
  | .djoinNew rd ra rb => Sys2Proof.Machine.execDjoinNew rd ra rb s
  | .dleave rd ra => Sys2Proof.Machine.execDleave rd ra s
  | .devict rd ra rb => Sys2Proof.Machine.execDevict rd ra rb s
  | .dphase rd ra sl => Sys2Proof.Machine.execDphase rd ra sl s
  | .spec b ra rb => Sys2Proof.Machine.execSpec b ra rb s
  | .scommit rd => Sys2Proof.Machine.execScommit rd s
  | .sabort => Sys2Proof.Machine.execSabort s
  | .sstat rd sl => Sys2Proof.Machine.execSstat rd sl s
  | .yieldpt k => Sys2Proof.Machine.execYieldpt k s
  | .mfsr r num => Sys2Proof.Machine.execMfsr r num s
  | .mtsr r num => Sys2Proof.Machine.execMtsr r num s
  | .mtsrFmt rs => Sys2Proof.Machine.execMtsrFmt rs s
  | .mtsrTimer rs => Sys2Proof.Machine.execMtsrTimer rs s
  | .mtsrTrappc rs => Sys2Proof.Machine.execMtsrTrappc rs s
  | .repartition rs k => Sys2Proof.Machine.execRepartition rs k s
  | .preempt rs => Sys2Proof.Machine.execPreempt rs s
  | .vsealdropClear rs => Sys2Proof.Machine.execVsealdropClear rs s
  | .bootok rs => Sys2Proof.Machine.execBootok rs s
  | .resumetask rs => Sys2Proof.Machine.execResumetask rs s
  | .trap code => Sys2Proof.Machine.execTrap code s
  | .sysretResume => Sys2Proof.Machine.execSysretResume s
  | .sysretSuspend => Sys2Proof.Machine.execSysretSuspend s
  | .sysretKill => Sys2Proof.Machine.execSysretKill s
  | .tlbinvPage ra rb => Sys2Proof.Machine.execTlbinvPage ra rb s
  | .tlbinvAsid ra rb => Sys2Proof.Machine.execTlbinvAsid ra rb s
  | .tlbinvAll => Sys2Proof.Machine.execTlbinvAll s
  | .tnoise rd => Sys2Proof.Machine.execTnoise rd s
  | .bind ra rb => Sys2Proof.Machine.execBind ra rb s
  | .wfe ra => Sys2Proof.Machine.execWfe ra s
  | .chkq ra rb => Sys2Proof.Machine.execChkq ra rb s
  | .chkqQ qa qb => Sys2Proof.Machine.execChkqQ qa qb s
  | .quarq rd ra sl => Sys2Proof.Machine.execQuarq rd ra sl s
  | .quarqQuarantine rd ra => Sys2Proof.Machine.execQuarqQuarantine rd ra s
  | .quarqClear rd ra => Sys2Proof.Machine.execQuarqClear rd ra s
  | .sync => Sys2Proof.Machine.execSync s
  | .seg => Sys2Proof.Machine.execSeg s
  | .rdv => Sys2Proof.Machine.execRdv s
  | .fmtw => Sys2Proof.Machine.execFmtw s
  | .pha => Sys2Proof.Machine.execPha s
  | .chk => Sys2Proof.Machine.execChk s
  | .trc => Sys2Proof.Machine.execTrc s
  | .vadd v f x => Sys2Proof.Machine.execVadd v f x s
  | .vsub v f x => Sys2Proof.Machine.execVsub v f x s
  | .vmul v f x => Sys2Proof.Machine.execVmul v f x s
  | .vmulh v f x => Sys2Proof.Machine.execVmulh v f x s
  | .vmad v f x => Sys2Proof.Machine.execVmad v f x s
  | .vmin v f x => Sys2Proof.Machine.execVmin v f x s
  | .vmax v f x => Sys2Proof.Machine.execVmax v f x s
  | .vabs v f x => Sys2Proof.Machine.execVabs v f x s
  | .vneg v f x => Sys2Proof.Machine.execVneg v f x s
  | .vand v f x => Sys2Proof.Machine.execVand v f x s
  | .vor v f x => Sys2Proof.Machine.execVor v f x s
  | .vxor v f x => Sys2Proof.Machine.execVxor v f x s
  | .vnot v f x => Sys2Proof.Machine.execVnot v f x s
  | .vshl v f x => Sys2Proof.Machine.execVshl v f x s
  | .vshr v f x => Sys2Proof.Machine.execVshr v f x s
  | .vsar v f x => Sys2Proof.Machine.execVsar v f x s
  | .vcmp v f x => Sys2Proof.Machine.execVcmp v f x s
  | .vsel v f x => Sys2Proof.Machine.execVsel v f x s
  | .vli v f x => Sys2Proof.Machine.execVli v f x s
  | .vmov v f x => Sys2Proof.Machine.execVmov v f x s
  | .vfadd v f x => Sys2Proof.Machine.execVfadd v f x s
  | .vfsub v f x => Sys2Proof.Machine.execVfsub v f x s
  | .vfmul v f x => Sys2Proof.Machine.execVfmul v f x s
  | .vfma v f x => Sys2Proof.Machine.execVfma v f x s
  | .vfms v f x => Sys2Proof.Machine.execVfms v f x s
  | .vfnma v f x => Sys2Proof.Machine.execVfnma v f x s
  | .vfmin v f x => Sys2Proof.Machine.execVfmin v f x s
  | .vfmax v f x => Sys2Proof.Machine.execVfmax v f x s
  | .vfabs v f x => Sys2Proof.Machine.execVfabs v f x s
  | .vfneg v f x => Sys2Proof.Machine.execVfneg v f x s
  | .vfdiv v f x => Sys2Proof.Machine.execVfdiv v f x s
  | .vfsqrt v f x => Sys2Proof.Machine.execVfsqrt v f x s
  | .vfrcp v f x => Sys2Proof.Machine.execVfrcp v f x s
  | .vfrsq v f x => Sys2Proof.Machine.execVfrsq v f x s
  | .vfexp2 v f x => Sys2Proof.Machine.execVfexp2 v f x s
  | .vflog2 v f x => Sys2Proof.Machine.execVflog2 v f x s
  | .vfcmp v f x => Sys2Proof.Machine.execVfcmp v f x s
  | .vfcvt v f x => Sys2Proof.Machine.execVfcvt v f x s
  | .vicvt v f x => Sys2Proof.Machine.execVicvt v f x s
  | .vnarrow v f x => Sys2Proof.Machine.execVnarrow v f x s
  | .vwiden v f x => Sys2Proof.Machine.execVwiden v f x s
  | .vacc v f x => Sys2Proof.Machine.execVacc v f x s
  | .vnorm v f x => Sys2Proof.Machine.execVnorm v f x s
  | .vperm v f x => Sys2Proof.Machine.execVperm v f x s
  | .vbcast v f x => Sys2Proof.Machine.execVbcast v f x s
  | .vslide v f x => Sys2Proof.Machine.execVslide v f x s
  | .vzip v f x => Sys2Proof.Machine.execVzip v f x s
  | .vunzip v f x => Sys2Proof.Machine.execVunzip v f x s
  | .vins v f x => Sys2Proof.Machine.execVins v f x s
  | .vext v f x => Sys2Proof.Machine.execVext v f x s
  | .vcompress v f x => Sys2Proof.Machine.execVcompress v f x s
  | .vredaddI v f x => Sys2Proof.Machine.execVredaddI v f x s
  | .vredmaxI v f x => Sys2Proof.Machine.execVredmaxI v f x s
  | .vredminI v f x => Sys2Proof.Machine.execVredminI v f x s
  | .vargmaxI v f x => Sys2Proof.Machine.execVargmaxI v f x s
  | .vscanI v f x => Sys2Proof.Machine.execVscanI v f x s
  | .vredaddF v f x => Sys2Proof.Machine.execVredaddF v f x s
  | .vredmaxF v f x => Sys2Proof.Machine.execVredmaxF v f x s
  | .vredminF v f x => Sys2Proof.Machine.execVredminF v f x s
  | .vargmaxF v f x => Sys2Proof.Machine.execVargmaxF v f x s
  | .vscanF v f x => Sys2Proof.Machine.execVscanF v f x s
  | .pand v f x => Sys2Proof.Machine.execPand v f x s
  | .por v f x => Sys2Proof.Machine.execPor v f x s
  | .pxor v f x => Sys2Proof.Machine.execPxor v f x s
  | .pnot v f x => Sys2Proof.Machine.execPnot v f x s
  | .pfirst v f x => Sys2Proof.Machine.execPfirst v f x s
  | .ppop v f x => Sys2Proof.Machine.execPpop v f x s
  | .pcnt v f x => Sys2Proof.Machine.execPcnt v f x s
  | .vrand v f x => Sys2Proof.Machine.execVrand v f x s
  | .vrkey v f x => Sys2Proof.Machine.execVrkey v f x s
  | .vrskip v f x => Sys2Proof.Machine.execVrskip v f x s
  | .vrsave v f x => Sys2Proof.Machine.execVrsave v f x s
  | .vchk v f x => Sys2Proof.Machine.execVchk v f x s
  | .vld f x => Sys2Proof.Machine.execVld f x s
  | .vst f x => Sys2Proof.Machine.execVst f x s
  | .vldff f x => Sys2Proof.Machine.execVldff f x s
  | .vldx f x => Sys2Proof.Machine.execVldx f x s
  | .vstx f x => Sys2Proof.Machine.execVstx f x s
  | .vldw f x => Sys2Proof.Machine.execVldw f x s
  | .vstw f x => Sys2Proof.Machine.execVstw f x s
  | .phpop f x => Sys2Proof.Machine.execPhpop f x s
  | .phpush f x => Sys2Proof.Machine.execPhpush f x s
  | .ainc f x => Sys2Proof.Machine.execAinc f x s
  | .aset f x => Sys2Proof.Machine.execAset f x s
  | .mnop => Sys2Proof.Machine.execMnop s
  | .mwl => Sys2Proof.Machine.execMwl s
  | .mpush => Sys2Proof.Machine.execMpush s
  | .mswap => Sys2Proof.Machine.execMswap s
  | .mdrain => Sys2Proof.Machine.execMdrain s
  | .mclr => Sys2Proof.Machine.execMclr s
  | .mchk => Sys2Proof.Machine.execMchk s
  | .mnorm => Sys2Proof.Machine.execMnorm s
  | .xmv => Sys2Proof.Machine.execXmv s
  | .xts => Sys2Proof.Machine.execXts s
  | .xfs => Sys2Proof.Machine.execXfs s
  | .xta => Sys2Proof.Machine.execXta s
  | .xfa => Sys2Proof.Machine.execXfa s
  | .xpc => Sys2Proof.Machine.execXpc s
  | .trapEntry => Sys2Proof.Machine.execTrapEntry s
  | .timerExpiry => Sys2Proof.Machine.execTimerExpiry s
  | .specAbort => Sys2Proof.Machine.execSpecAbort s
  | .rewind => Sys2Proof.Machine.execRewind s
  | .scoreDecay => Sys2Proof.Machine.execScoreDecay s
  | .scrub => Sys2Proof.Machine.execScrub s
  | .l1Eviction => Sys2Proof.Machine.execL1Eviction s
  | .epochTick => Sys2Proof.Machine.execEpochTick s
  | .tagPatrol => Sys2Proof.Machine.execTagPatrol s
  | .windowBeat => Sys2Proof.Machine.execWindowBeat s
  | .jobStart => Sys2Proof.Machine.execJobStart s
  | .jobEnd => Sys2Proof.Machine.execJobEnd s
  | .armputFire => Sys2Proof.Machine.execArmputFire s
  | .putArrival => Sys2Proof.Machine.execPutArrival s
  | .putaddArrival => Sys2Proof.Machine.execPutaddArrival s
  | .getRequestArrival => Sys2Proof.Machine.execGetRequestArrival s
  | .dataResponseArrival => Sys2Proof.Machine.execDataResponseArrival s
  | .acknowledgementArrival => Sys2Proof.Machine.execAcknowledgementArrival s
  | .movedResponse => Sys2Proof.Machine.execMovedResponse s
  | .refusalResponse => Sys2Proof.Machine.execRefusalResponse s
  | .domainNotice => Sys2Proof.Machine.execDomainNotice s
  | .weightBroadcastArrival => Sys2Proof.Machine.execWeightBroadcastArrival s
  | .ocsQuiesce => Sys2Proof.Machine.execOcsQuiesce s
  | .ocsConfirmation => Sys2Proof.Machine.execOcsConfirmation s
  | .fecWindowEnd => Sys2Proof.Machine.execFecWindowEnd s
  | .uncorrectableFlit => Sys2Proof.Machine.execUncorrectableFlit s
  | .portUp => Sys2Proof.Machine.execPortUp s
  | .coreDispatch => Sys2Proof.Machine.execCoreDispatch s
  | .agingPromotion => Sys2Proof.Machine.execAgingPromotion s
  | .affinityHoldLapse => Sys2Proof.Machine.execAffinityHoldLapse s
  | .quantumExpiry => Sys2Proof.Machine.execQuantumExpiry s
  | .forcedFreeze => Sys2Proof.Machine.execForcedFreeze s
  | .budgetPeriod => Sys2Proof.Machine.execBudgetPeriod s
  | .letterboxDoorbell => Sys2Proof.Machine.execLetterboxDoorbell s
  | .hostAccess => Sys2Proof.Machine.execHostAccess s
  | .entropyHealthFailure => Sys2Proof.Machine.execEntropyHealthFailure s
  | .coldReset => Sys2Proof.Machine.execColdReset s
  | .warmReset => Sys2Proof.Machine.execWarmReset s
  | .bootTimeout => Sys2Proof.Machine.execBootTimeout s
  | .mailboxImage => Sys2Proof.Machine.execMailboxImage s
  | .mailboxAttestation => Sys2Proof.Machine.execMailboxAttestation s
  | .mailboxReset => Sys2Proof.Machine.execMailboxReset s
  | .l2Eviction => Sys2Proof.Machine.execL2Eviction s
  | .hostSnoop => Sys2Proof.Machine.execHostSnoop s
  | .wfeTimeout => Sys2Proof.Machine.execWfeTimeout s
  | .noiseSourceRestart => Sys2Proof.Machine.execNoiseSourceRestart s
  | .switchStaleAnswer => Sys2Proof.Machine.execSwitchStaleAnswer s
  | .targetAnswerArrival => Sys2Proof.Machine.execTargetAnswerArrival s
  | .barrierNotice => Sys2Proof.Machine.execBarrierNotice s
  | .throttling => Sys2Proof.Machine.execThrottling s

end Sys2Proof.Machine
end

