-- ==== Sys2Proof/Machine/Arbiter.lean ====
section
/-! DEFINITION. Which fault the handler receives (R455): where an operation that a slot was ready to perform comes earlier in program
order than the item that has faulted, and faults too, the earlier fault is the one that is taken. -/

namespace Sys2Proof.Machine

/-- A step from `s` to `u` has entered the handler: trap mode is new. -/
def tookTrap (s u : State) : Bool := u.c.trap && !(coreCtx s u.cur).c.trap

/-- A step from `s` to `u` has taken a fault: the handler is new, and its cause is no event. -/
def tookFault (s u : State) : Bool := tookTrap s u && !u.c.cause.getLsbD 8

/-- Where the item whose fault `u` shows stands in program order: the bundle and the slot, or none for a stream item, which comes after
every bundle in the queues, and for an event, to which every fault is prior (R455, R457). -/
def faultPlace (u : State) : Option (Nat × Nat) :=
  let src := fld u.c.cause 12 10
  if src = 0 || src = 7 then none else some ((tget 0 u.c.info 0).toNat, src - 1)

/-- Whether slot `k` at bundle `j` comes before a place: bundle by bundle, and in one bundle C, L, V0, V1, M, X. -/
def placedBefore (j k : Nat) (place : Option (Nat × Nat)) : Bool :=
  match place with
  | none => true
  | some (j', k') => j < j' || (j = j' && k < k')

/-- What slot `k` answers where it performs its ready operation. -/
def slotStep (s : State) (k : Nat) (i : Instr) : Res :=
  match slotTurn s k i with
  | .error r => r
  | .ok (i, s) => exec i s

/-- The fault of the first of slots `ks` before a place, in program order, whose ready operation faults. -/
def earlierFault (s : State) (place : Option (Nat × Nat)) (ks : List Nat) : Option ((Nat × Nat) × Res) :=
  match ks with
  | [] => none
  | k :: rest =>
    match slotReady s k with
    | none => earlierFault s place rest
    | some (j, i) =>
      if !placedBefore j k place then earlierFault s place rest
      else
        match slotStep s k i with
        | .next u =>
          if tookFault s u then (earlierFault s (some (j, k)) rest).orElse fun _ => some ((j, k), .next u)
          else earlierFault s place rest
        | _ => earlierFault s place rest

/-- Where an earlier fault is taken instead of the trap `u` shows: the state before the step, from which the turn is gone and, where the
item that trapped was an OCSET, its exchange with the switch, so that it runs again as a whole. -/
def beforeTrap (s u : State) : State :=
  onPkg { focus s u.cur with turns := u.turns, arg := .none } fun p => { p with ocset := u.pkg.ocset }

/-- The answer of a step from `s`, once the fault or event that it takes, if it takes one, has been arbitrated (R455). Every other item
that would have faulted had no effect, and runs again on resume; an event stays pending. -/
def arbitrate (s : State) (r : Res) : Res :=
  match r with
  | .next u =>
    if tookTrap s u then
      match earlierFault (beforeTrap s u) (faultPlace u) [0, 1, 2, 3, 4, 5] with
      | some (_, r') => r'
      | none => r
    else r
  | r => r

end Sys2Proof.Machine
end

