-- ==== Sys2Proof/Machine/Step.lean ====
section
/-! DEFINITION. One step of the machine, and a word placed where the next step fetches it. -/

namespace Sys2Proof.Machine

/-- What the agent whose turn it is answers: its next instruction, or what comes before it (Turns). -/
def turnStep (s : State) : Host.Outcome State Fault Refusal :=
  match pick s with
  | .error r => r
  | .ok (i, s) => exec i s

/-- One step: that answer, with the fault of the item first in program order where several fault (R455). -/
def step (s : State) : Host.Outcome State Fault Refusal := arbitrate s (turnStep s)

/-- `s` with the instruction of an opcode-table word at the PC of a running task, so that the next step runs it. -/
def State.withFetchWord (s : State) (nbits w : Nat) : State :=
  placeWord s (tableWordBytes nbits w) (if nbits ≤ 16 then w / 64 % 512 else 0)

end Sys2Proof.Machine
end

