-- ==== Sys2Proof/Laws/PerInstr.lean ====
section
/-! SUPPORT. Decoding gives back what was encoded, one lemma for each instruction (R43 to R61): for a word of the stream, the bytes of
the instruction decode to it; for an operation of the V and the L slot, the slot's field decodes to it. The C, M and X operations and
the events carry no operands, and nothing is claimed of them here. -/

namespace Sys2Proof.Laws.Encoding

/-- Decoding the encoding of a well-formed instruction gives it back, with every operand. -/
def Statement (i : Instr) : Prop :=
  (i.wf 1 = true → ∀ bs, encodeBytes i = some bs → decodeBytes bs = .ok (i, [])) ∧
  (∀ g op v f x, i.vParts = some (op, v, f, x) → wfV g op f = true →
    decodeV g (encodeV (.op op f)) = .ok (.op op f) ∧ Instr.ofV op v f x = some i) ∧
  (∀ op f x, i.lParts = some (op, f, x) → wfL op f = true →
    decodeL (encodeL (some (op, f))) = .ok (some (op, f)) ∧ Instr.ofL op f x = some i)

/-- A parcel of two bytes, read back. -/
theorem parcel_num (p : Nat) : (BitVec.ofNat 8 p).toNat + (BitVec.ofNat 8 (p / 256)).toNat * 256 = p % 65536 := by
  simp only [BitVec.toNat_ofNat]; omega

/-- A number that no special form of MTSR names is not the number of one. -/
theorem not_special {num k a b : Nat} (hs : specialMtsr num = false) (hk : specialMtsr k = true) (ha : k / 64 = a) (hb : k % 64 = b) :
    (num / 64 == a && num % 64 == b) = false := by
  have hne : num ≠ k := fun e => by rw [e, hk] at hs; exact absurd hs (by decide)
  rw [Bool.and_eq_false_iff, beq_eq_false_iff_ne, beq_eq_false_iff_ne]
  omega

theorem not_tintmap {num : Nat} (hs : specialMtsr num = false) : (num / 64 == 4 && num / 8 % 8 == 0) = false := by
  unfold specialMtsr at hs
  simp only [Bool.or_eq_false_iff, Bool.and_eq_false_iff, decide_eq_false_iff_not] at hs
  rw [Bool.and_eq_false_iff, beq_eq_false_iff_ne, beq_eq_false_iff_ne]
  omega

/-- The decoder's view of a scalar word laid out as the hardware stores it. -/
theorem decodeBytes_wordBytes (w : Nat) (i : Instr) (h : w < 2 ^ 31) (hd : decodeWord w = .ok i) :
    decodeBytes (wordBytes w) = .ok (i, []) := by
  have e1 := parcel_num (w / 2 ^ 16)
  have e2 := parcel_num (w % 2 ^ 16)
  unfold wordBytes parcelBytes
  simp only [List.cons_append, List.nil_append, decodeBytes]
  rw [e1, e2]
  have h1 : w / 2 ^ 16 % 65536 = w / 2 ^ 16 := by omega
  have h2 : w % 2 ^ 16 % 65536 = w % 2 ^ 16 := by omega
  have h3 : w / 2 ^ 16 / 2 ^ 15 = 0 := by omega
  have h4 : w / 2 ^ 16 * 2 ^ 16 + w % 2 ^ 16 = w := by omega
  rw [h1, h2, h3, h4, hd]
  rfl

theorem used_ok (i : Instr) (h : i.wf 1 = true) : used true i = .ok i := by
  unfold used; rw [h]; rfl

/-- A word of the stream, from the decoding of its number. -/
theorem word (i : Instr) (w : Nat) (hb : encodeBytes i = some (wordBytes w)) (hv : i.vParts = none)
    (hl : i.lParts = none) (h : i.wf 1 = true → w < 2 ^ 31 ∧ decodeWord w = .ok i) : Statement i := by
  refine ⟨fun hw bs hbs => ?_, fun g op v f x e => ?_, fun _ _ _ e => ?_⟩
  · rw [hb] at hbs
    cases hbs
    exact decodeBytes_wordBytes w i (h hw).1 (h hw).2
  · rw [hv] at e; exact absurd e (by simp)
  · rw [hl] at e; exact absurd e (by simp)

/-- An instruction without a word and without operands. -/
theorem none (i : Instr) (hb : encodeBytes i = Option.none) (hv : i.vParts = Option.none) (hl : i.lParts = Option.none) :
    Statement i := by
  refine ⟨fun _ bs hbs => ?_, fun g op v f x e => ?_, fun _ _ _ e => ?_⟩
  · rw [hb] at hbs; exact absurd hbs (by simp)
  · rw [hv] at e; exact absurd e (by simp)
  · rw [hl] at e; exact absurd e (by simp)

theorem major_00 (w : Nat) (h : w / 2 ^ 25 = 0) : decodeWord w = decodeMO00 w := by
  unfold decodeWord; rw [h]; rfl

theorem major_01 (w : Nat) (h : w / 2 ^ 25 = 1) : decodeWord w = decodeMO01 w := by
  unfold decodeWord; rw [h]; rfl

theorem major_02 (w : Nat) (h : w / 2 ^ 25 = 2) : decodeWord w = decodeMO02 w := by
  unfold decodeWord; rw [h]; rfl

theorem major_03 (w : Nat) (h : w / 2 ^ 25 = 3) : decodeWord w = decodeMO03 w := by
  unfold decodeWord; rw [h]; rfl

theorem major_04 (w : Nat) (h : w / 2 ^ 25 = 4) : decodeWord w = decodeMO04 w := by
  unfold decodeWord; rw [h]; rfl

theorem major_05 (w : Nat) (h : w / 2 ^ 25 = 5) : decodeWord w = decodeMO05 w := by
  unfold decodeWord; rw [h]; rfl

theorem major_06 (w : Nat) (h : w / 2 ^ 25 = 6) : decodeWord w = decodeMO06 w := by
  unfold decodeWord; rw [h]; rfl

theorem major_07 (w : Nat) (h : w / 2 ^ 25 = 7) : decodeWord w = decodeMO07 w := by
  unfold decodeWord; rw [h]; rfl

theorem major_08 (w : Nat) (h : w / 2 ^ 25 = 8) : decodeWord w = decodeMO08 w := by
  unfold decodeWord; rw [h]; rfl

theorem major_09 (w : Nat) (h : w / 2 ^ 25 = 9) : decodeWord w = decodeMO09 w := by
  unfold decodeWord; rw [h]; rfl

theorem major_0A (w : Nat) (h : w / 2 ^ 25 = 10) : decodeWord w = decodeMO0A w := by
  unfold decodeWord; rw [h]; rfl

theorem major_0B (w : Nat) (h : w / 2 ^ 25 = 11) : decodeWord w = decodeMO0B w := by
  unfold decodeWord; rw [h]; rfl

theorem major_0C (w : Nat) (h : w / 2 ^ 25 = 12) : decodeWord w = decodeMO0C w := by
  unfold decodeWord; rw [h]; rfl

theorem major_0D (w : Nat) (h : w / 2 ^ 25 = 13) : decodeWord w = decodeMO0D w := by
  unfold decodeWord; rw [h]; rfl

theorem major_0E (w : Nat) (h : w / 2 ^ 25 = 14) : decodeWord w = decodeMO0E w := by
  unfold decodeWord; rw [h]; rfl

theorem major_10 (w : Nat) (h : w / 2 ^ 25 = 16) : decodeWord w = decodeMO10 w := by
  unfold decodeWord; rw [h]; rfl

theorem major_11 (w : Nat) (h : w / 2 ^ 25 = 17) : decodeWord w = decodeMO11 w := by
  unfold decodeWord; rw [h]; rfl

theorem major_12 (w : Nat) (h : w / 2 ^ 25 = 18) : decodeWord w = decodeMO12 w := by
  unfold decodeWord; rw [h]; rfl

theorem major_13 (w : Nat) (h : w / 2 ^ 25 = 19) : decodeWord w = decodeMO13 w := by
  unfold decodeWord; rw [h]; rfl

theorem major_14 (w : Nat) (h : w / 2 ^ 25 = 20) : decodeWord w = decodeMO14 w := by
  unfold decodeWord; rw [h]; rfl

theorem major_15 (w : Nat) (h : w / 2 ^ 25 = 21) : decodeWord w = decodeMO15 w := by
  unfold decodeWord; rw [h]; rfl

theorem major_16 (w : Nat) (h : w / 2 ^ 25 = 22) : decodeWord w = decodeMO16 w := by
  unfold decodeWord; rw [h]; rfl

theorem major_18 (w : Nat) (h : w / 2 ^ 25 = 24) : decodeWord w = decodeMO18 w := by
  unfold decodeWord; rw [h]; rfl

theorem major_20 (w : Nat) (h : w / 2 ^ 25 = 32) : decodeWord w = decodeMO20 w := by
  unfold decodeWord; rw [h]; rfl

theorem major_21 (w : Nat) (h : w / 2 ^ 25 = 33) : decodeWord w = decodeMO21 w := by
  unfold decodeWord; rw [h]; rfl

theorem major_22 (w : Nat) (h : w / 2 ^ 25 = 34) : decodeWord w = decodeMO22 w := by
  unfold decodeWord; rw [h]; rfl

theorem major_23 (w : Nat) (h : w / 2 ^ 25 = 35) : decodeWord w = decodeMO23 w := by
  unfold decodeWord; rw [h]; rfl

theorem major_24 (w : Nat) (h : w / 2 ^ 25 = 36) : decodeWord w = decodeMO24 w := by
  unfold decodeWord; rw [h]; rfl

theorem major_28 (w : Nat) (h : w / 2 ^ 25 = 40) : decodeWord w = decodeMO28 w := by
  unfold decodeWord; rw [h]; rfl

theorem major_29 (w : Nat) (h : w / 2 ^ 25 = 41) : decodeWord w = decodeMO29 w := by
  unfold decodeWord; rw [h]; rfl

theorem major_2A (w : Nat) (h : w / 2 ^ 25 = 42) : decodeWord w = decodeMO2A w := by
  unfold decodeWord; rw [h]; rfl

theorem major_2B (w : Nat) (h : w / 2 ^ 25 = 43) : decodeWord w = decodeMO2B w := by
  unfold decodeWord; rw [h]; rfl

theorem major_30 (w : Nat) (h : w / 2 ^ 25 = 48) : decodeWord w = decodeMO30 w := by
  unfold decodeWord; rw [h]; rfl

theorem major_31 (w : Nat) (h : w / 2 ^ 25 = 49) : decodeWord w = decodeMO31 w := by
  unfold decodeWord; rw [h]; rfl

theorem issueParcel (entry bp bias : Nat) : Statement (.issueParcel entry bp bias) := by
  refine ⟨fun hw bs hbs => ?_, fun g op v f x e => absurd e (by simp [Instr.vParts]), fun op f x e => absurd e (by simp [Instr.lParts])⟩
  have h : (decide (entry < 512) && decide (bp < 4) && decide (bias < 16)) = true := hw
  simp only [Bool.and_eq_true, decide_eq_true_eq] at h
  obtain ⟨w, hw0⟩ : ∃ w, w = 0x8000 + entry * 2 ^ 6 + bp * 2 ^ 4 + bias := ⟨_, rfl⟩
  have e : some (parcelBytes (0x8000 + put entry 6 + put bp 4 + bias)) = some bs := hbs
  simp only [put, ← hw0] at e
  cases e
  have e1 := parcel_num w
  unfold parcelBytes
  simp only [decodeBytes]
  rw [e1]
  have h1 : w % 65536 = w := by omega
  have h2 : w / 2 ^ 15 = 1 := by omega
  have h3 : bits w 14 6 = entry := by unfold bits; omega
  have h4 : bits w 5 4 = bp := by unfold bits; omega
  have h5 : bits w 3 0 = bias := by unfold bits; omega
  rw [h1, h2]
  simp only [decodeParcel, h3, h4, h5, used_ok _ hw]
  rfl

theorem add (rd ra rb : Nat) : Statement (.add rd ra rb) := by
  obtain ⟨W, e⟩ : ∃ W, W = 0x00000001 + rd * 2 ^ 19 + ra * 2 ^ 13 + rb * 2 ^ 7 := ⟨_, rfl⟩
  refine word _ W (by rw [e]; rfl) rfl rfl fun hX => ?_
  have hY : (rd < 64 && ra < 64 && rb < 64) = true := hX
  simp only [Bool.and_eq_true, decide_eq_true_eq] at hY
  have f0 : bits W 24 19 = rd := by unfold bits; omega
  have f1 : bits W 18 13 = ra := by unfold bits; omega
  have f2 : bits W 12 7 = rb := by unfold bits; omega
  have f3 : bits W 6 0 = 1 := by unfold bits; omega
  refine ⟨by omega, ?_⟩
  rw [major_00 W (by omega)]
  unfold decodeMO00
  simp only [f0, f1, f2, f3]
  exact used_ok _ hX

theorem sub (rd ra rb : Nat) : Statement (.sub rd ra rb) := by
  obtain ⟨W, e⟩ : ∃ W, W = 0x00000002 + rd * 2 ^ 19 + ra * 2 ^ 13 + rb * 2 ^ 7 := ⟨_, rfl⟩
  refine word _ W (by rw [e]; rfl) rfl rfl fun hX => ?_
  have hY : (rd < 64 && ra < 64 && rb < 64) = true := hX
  simp only [Bool.and_eq_true, decide_eq_true_eq] at hY
  have f0 : bits W 24 19 = rd := by unfold bits; omega
  have f1 : bits W 18 13 = ra := by unfold bits; omega
  have f2 : bits W 12 7 = rb := by unfold bits; omega
  have f3 : bits W 6 0 = 2 := by unfold bits; omega
  refine ⟨by omega, ?_⟩
  rw [major_00 W (by omega)]
  unfold decodeMO00
  simp only [f0, f1, f2, f3]
  exact used_ok _ hX

theorem and (rd ra rb : Nat) : Statement (.and rd ra rb) := by
  obtain ⟨W, e⟩ : ∃ W, W = 0x00000003 + rd * 2 ^ 19 + ra * 2 ^ 13 + rb * 2 ^ 7 := ⟨_, rfl⟩
  refine word _ W (by rw [e]; rfl) rfl rfl fun hX => ?_
  have hY : (rd < 64 && ra < 64 && rb < 64) = true := hX
  simp only [Bool.and_eq_true, decide_eq_true_eq] at hY
  have f0 : bits W 24 19 = rd := by unfold bits; omega
  have f1 : bits W 18 13 = ra := by unfold bits; omega
  have f2 : bits W 12 7 = rb := by unfold bits; omega
  have f3 : bits W 6 0 = 3 := by unfold bits; omega
  refine ⟨by omega, ?_⟩
  rw [major_00 W (by omega)]
  unfold decodeMO00
  simp only [f0, f1, f2, f3]
  exact used_ok _ hX

theorem or (rd ra rb : Nat) : Statement (.or rd ra rb) := by
  obtain ⟨W, e⟩ : ∃ W, W = 0x00000004 + rd * 2 ^ 19 + ra * 2 ^ 13 + rb * 2 ^ 7 := ⟨_, rfl⟩
  refine word _ W (by rw [e]; rfl) rfl rfl fun hX => ?_
  have hY : (rd < 64 && ra < 64 && rb < 64) = true := hX
  simp only [Bool.and_eq_true, decide_eq_true_eq] at hY
  have f0 : bits W 24 19 = rd := by unfold bits; omega
  have f1 : bits W 18 13 = ra := by unfold bits; omega
  have f2 : bits W 12 7 = rb := by unfold bits; omega
  have f3 : bits W 6 0 = 4 := by unfold bits; omega
  refine ⟨by omega, ?_⟩
  rw [major_00 W (by omega)]
  unfold decodeMO00
  simp only [f0, f1, f2, f3]
  exact used_ok _ hX

theorem xor (rd ra rb : Nat) : Statement (.xor rd ra rb) := by
  obtain ⟨W, e⟩ : ∃ W, W = 0x00000005 + rd * 2 ^ 19 + ra * 2 ^ 13 + rb * 2 ^ 7 := ⟨_, rfl⟩
  refine word _ W (by rw [e]; rfl) rfl rfl fun hX => ?_
  have hY : (rd < 64 && ra < 64 && rb < 64) = true := hX
  simp only [Bool.and_eq_true, decide_eq_true_eq] at hY
  have f0 : bits W 24 19 = rd := by unfold bits; omega
  have f1 : bits W 18 13 = ra := by unfold bits; omega
  have f2 : bits W 12 7 = rb := by unfold bits; omega
  have f3 : bits W 6 0 = 5 := by unfold bits; omega
  refine ⟨by omega, ?_⟩
  rw [major_00 W (by omega)]
  unfold decodeMO00
  simp only [f0, f1, f2, f3]
  exact used_ok _ hX

theorem andn (rd ra rb : Nat) : Statement (.andn rd ra rb) := by
  obtain ⟨W, e⟩ : ∃ W, W = 0x00000006 + rd * 2 ^ 19 + ra * 2 ^ 13 + rb * 2 ^ 7 := ⟨_, rfl⟩
  refine word _ W (by rw [e]; rfl) rfl rfl fun hX => ?_
  have hY : (rd < 64 && ra < 64 && rb < 64) = true := hX
  simp only [Bool.and_eq_true, decide_eq_true_eq] at hY
  have f0 : bits W 24 19 = rd := by unfold bits; omega
  have f1 : bits W 18 13 = ra := by unfold bits; omega
  have f2 : bits W 12 7 = rb := by unfold bits; omega
  have f3 : bits W 6 0 = 6 := by unfold bits; omega
  refine ⟨by omega, ?_⟩
  rw [major_00 W (by omega)]
  unfold decodeMO00
  simp only [f0, f1, f2, f3]
  exact used_ok _ hX

theorem shl (rd ra rb : Nat) : Statement (.shl rd ra rb) := by
  obtain ⟨W, e⟩ : ∃ W, W = 0x00000007 + rd * 2 ^ 19 + ra * 2 ^ 13 + rb * 2 ^ 7 := ⟨_, rfl⟩
  refine word _ W (by rw [e]; rfl) rfl rfl fun hX => ?_
  have hY : (rd < 64 && ra < 64 && rb < 64) = true := hX
  simp only [Bool.and_eq_true, decide_eq_true_eq] at hY
  have f0 : bits W 24 19 = rd := by unfold bits; omega
  have f1 : bits W 18 13 = ra := by unfold bits; omega
  have f2 : bits W 12 7 = rb := by unfold bits; omega
  have f3 : bits W 6 0 = 7 := by unfold bits; omega
  refine ⟨by omega, ?_⟩
  rw [major_00 W (by omega)]
  unfold decodeMO00
  simp only [f0, f1, f2, f3]
  exact used_ok _ hX

theorem shr (rd ra rb : Nat) : Statement (.shr rd ra rb) := by
  obtain ⟨W, e⟩ : ∃ W, W = 0x00000008 + rd * 2 ^ 19 + ra * 2 ^ 13 + rb * 2 ^ 7 := ⟨_, rfl⟩
  refine word _ W (by rw [e]; rfl) rfl rfl fun hX => ?_
  have hY : (rd < 64 && ra < 64 && rb < 64) = true := hX
  simp only [Bool.and_eq_true, decide_eq_true_eq] at hY
  have f0 : bits W 24 19 = rd := by unfold bits; omega
  have f1 : bits W 18 13 = ra := by unfold bits; omega
  have f2 : bits W 12 7 = rb := by unfold bits; omega
  have f3 : bits W 6 0 = 8 := by unfold bits; omega
  refine ⟨by omega, ?_⟩
  rw [major_00 W (by omega)]
  unfold decodeMO00
  simp only [f0, f1, f2, f3]
  exact used_ok _ hX

theorem sar (rd ra rb : Nat) : Statement (.sar rd ra rb) := by
  obtain ⟨W, e⟩ : ∃ W, W = 0x00000009 + rd * 2 ^ 19 + ra * 2 ^ 13 + rb * 2 ^ 7 := ⟨_, rfl⟩
  refine word _ W (by rw [e]; rfl) rfl rfl fun hX => ?_
  have hY : (rd < 64 && ra < 64 && rb < 64) = true := hX
  simp only [Bool.and_eq_true, decide_eq_true_eq] at hY
  have f0 : bits W 24 19 = rd := by unfold bits; omega
  have f1 : bits W 18 13 = ra := by unfold bits; omega
  have f2 : bits W 12 7 = rb := by unfold bits; omega
  have f3 : bits W 6 0 = 9 := by unfold bits; omega
  refine ⟨by omega, ?_⟩
  rw [major_00 W (by omega)]
  unfold decodeMO00
  simp only [f0, f1, f2, f3]
  exact used_ok _ hX

theorem rol (rd ra rb : Nat) : Statement (.rol rd ra rb) := by
  obtain ⟨W, e⟩ : ∃ W, W = 0x0000000A + rd * 2 ^ 19 + ra * 2 ^ 13 + rb * 2 ^ 7 := ⟨_, rfl⟩
  refine word _ W (by rw [e]; rfl) rfl rfl fun hX => ?_
  have hY : (rd < 64 && ra < 64 && rb < 64) = true := hX
  simp only [Bool.and_eq_true, decide_eq_true_eq] at hY
  have f0 : bits W 24 19 = rd := by unfold bits; omega
  have f1 : bits W 18 13 = ra := by unfold bits; omega
  have f2 : bits W 12 7 = rb := by unfold bits; omega
  have f3 : bits W 6 0 = 10 := by unfold bits; omega
  refine ⟨by omega, ?_⟩
  rw [major_00 W (by omega)]
  unfold decodeMO00
  simp only [f0, f1, f2, f3]
  exact used_ok _ hX

theorem mul (rd ra rb : Nat) : Statement (.mul rd ra rb) := by
  obtain ⟨W, e⟩ : ∃ W, W = 0x02000001 + rd * 2 ^ 19 + ra * 2 ^ 13 + rb * 2 ^ 7 := ⟨_, rfl⟩
  refine word _ W (by rw [e]; rfl) rfl rfl fun hX => ?_
  have hY : (rd < 64 && ra < 64 && rb < 64) = true := hX
  simp only [Bool.and_eq_true, decide_eq_true_eq] at hY
  have f0 : bits W 24 19 = rd := by unfold bits; omega
  have f1 : bits W 18 13 = ra := by unfold bits; omega
  have f2 : bits W 12 7 = rb := by unfold bits; omega
  have f3 : bits W 6 0 = 1 := by unfold bits; omega
  refine ⟨by omega, ?_⟩
  rw [major_01 W (by omega)]
  unfold decodeMO01
  simp only [f0, f1, f2, f3]
  exact used_ok _ hX

theorem mulh (rd ra rb : Nat) : Statement (.mulh rd ra rb) := by
  obtain ⟨W, e⟩ : ∃ W, W = 0x02000002 + rd * 2 ^ 19 + ra * 2 ^ 13 + rb * 2 ^ 7 := ⟨_, rfl⟩
  refine word _ W (by rw [e]; rfl) rfl rfl fun hX => ?_
  have hY : (rd < 64 && ra < 64 && rb < 64) = true := hX
  simp only [Bool.and_eq_true, decide_eq_true_eq] at hY
  have f0 : bits W 24 19 = rd := by unfold bits; omega
  have f1 : bits W 18 13 = ra := by unfold bits; omega
  have f2 : bits W 12 7 = rb := by unfold bits; omega
  have f3 : bits W 6 0 = 2 := by unfold bits; omega
  refine ⟨by omega, ?_⟩
  rw [major_01 W (by omega)]
  unfold decodeMO01
  simp only [f0, f1, f2, f3]
  exact used_ok _ hX

theorem mulhn (rd ra rb : Nat) : Statement (.mulhn rd ra rb) := by
  obtain ⟨W, e⟩ : ∃ W, W = 0x02000003 + rd * 2 ^ 19 + ra * 2 ^ 13 + rb * 2 ^ 7 := ⟨_, rfl⟩
  refine word _ W (by rw [e]; rfl) rfl rfl fun hX => ?_
  have hY : (rd < 64 && ra < 64 && rb < 64) = true := hX
  simp only [Bool.and_eq_true, decide_eq_true_eq] at hY
  have f0 : bits W 24 19 = rd := by unfold bits; omega
  have f1 : bits W 18 13 = ra := by unfold bits; omega
  have f2 : bits W 12 7 = rb := by unfold bits; omega
  have f3 : bits W 6 0 = 3 := by unfold bits; omega
  refine ⟨by omega, ?_⟩
  rw [major_01 W (by omega)]
  unfold decodeMO01
  simp only [f0, f1, f2, f3]
  exact used_ok _ hX

theorem div (rd ra rb : Nat) : Statement (.div rd ra rb) := by
  obtain ⟨W, e⟩ : ∃ W, W = 0x02000004 + rd * 2 ^ 19 + ra * 2 ^ 13 + rb * 2 ^ 7 := ⟨_, rfl⟩
  refine word _ W (by rw [e]; rfl) rfl rfl fun hX => ?_
  have hY : (rd < 64 && ra < 64 && rb < 64) = true := hX
  simp only [Bool.and_eq_true, decide_eq_true_eq] at hY
  have f0 : bits W 24 19 = rd := by unfold bits; omega
  have f1 : bits W 18 13 = ra := by unfold bits; omega
  have f2 : bits W 12 7 = rb := by unfold bits; omega
  have f3 : bits W 6 0 = 4 := by unfold bits; omega
  refine ⟨by omega, ?_⟩
  rw [major_01 W (by omega)]
  unfold decodeMO01
  simp only [f0, f1, f2, f3]
  exact used_ok _ hX

theorem divn (rd ra rb : Nat) : Statement (.divn rd ra rb) := by
  obtain ⟨W, e⟩ : ∃ W, W = 0x02000005 + rd * 2 ^ 19 + ra * 2 ^ 13 + rb * 2 ^ 7 := ⟨_, rfl⟩
  refine word _ W (by rw [e]; rfl) rfl rfl fun hX => ?_
  have hY : (rd < 64 && ra < 64 && rb < 64) = true := hX
  simp only [Bool.and_eq_true, decide_eq_true_eq] at hY
  have f0 : bits W 24 19 = rd := by unfold bits; omega
  have f1 : bits W 18 13 = ra := by unfold bits; omega
  have f2 : bits W 12 7 = rb := by unfold bits; omega
  have f3 : bits W 6 0 = 5 := by unfold bits; omega
  refine ⟨by omega, ?_⟩
  rw [major_01 W (by omega)]
  unfold decodeMO01
  simp only [f0, f1, f2, f3]
  exact used_ok _ hX

theorem rem (rd ra rb : Nat) : Statement (.rem rd ra rb) := by
  obtain ⟨W, e⟩ : ∃ W, W = 0x02000006 + rd * 2 ^ 19 + ra * 2 ^ 13 + rb * 2 ^ 7 := ⟨_, rfl⟩
  refine word _ W (by rw [e]; rfl) rfl rfl fun hX => ?_
  have hY : (rd < 64 && ra < 64 && rb < 64) = true := hX
  simp only [Bool.and_eq_true, decide_eq_true_eq] at hY
  have f0 : bits W 24 19 = rd := by unfold bits; omega
  have f1 : bits W 18 13 = ra := by unfold bits; omega
  have f2 : bits W 12 7 = rb := by unfold bits; omega
  have f3 : bits W 6 0 = 6 := by unfold bits; omega
  refine ⟨by omega, ?_⟩
  rw [major_01 W (by omega)]
  unfold decodeMO01
  simp only [f0, f1, f2, f3]
  exact used_ok _ hX

theorem remn (rd ra rb : Nat) : Statement (.remn rd ra rb) := by
  obtain ⟨W, e⟩ : ∃ W, W = 0x02000007 + rd * 2 ^ 19 + ra * 2 ^ 13 + rb * 2 ^ 7 := ⟨_, rfl⟩
  refine word _ W (by rw [e]; rfl) rfl rfl fun hX => ?_
  have hY : (rd < 64 && ra < 64 && rb < 64) = true := hX
  simp only [Bool.and_eq_true, decide_eq_true_eq] at hY
  have f0 : bits W 24 19 = rd := by unfold bits; omega
  have f1 : bits W 18 13 = ra := by unfold bits; omega
  have f2 : bits W 12 7 = rb := by unfold bits; omega
  have f3 : bits W 6 0 = 7 := by unfold bits; omega
  refine ⟨by omega, ?_⟩
  rw [major_01 W (by omega)]
  unfold decodeMO01
  simp only [f0, f1, f2, f3]
  exact used_ok _ hX

theorem min (rd ra rb : Nat) : Statement (.min rd ra rb) := by
  obtain ⟨W, e⟩ : ∃ W, W = 0x02000008 + rd * 2 ^ 19 + ra * 2 ^ 13 + rb * 2 ^ 7 := ⟨_, rfl⟩
  refine word _ W (by rw [e]; rfl) rfl rfl fun hX => ?_
  have hY : (rd < 64 && ra < 64 && rb < 64) = true := hX
  simp only [Bool.and_eq_true, decide_eq_true_eq] at hY
  have f0 : bits W 24 19 = rd := by unfold bits; omega
  have f1 : bits W 18 13 = ra := by unfold bits; omega
  have f2 : bits W 12 7 = rb := by unfold bits; omega
  have f3 : bits W 6 0 = 8 := by unfold bits; omega
  refine ⟨by omega, ?_⟩
  rw [major_01 W (by omega)]
  unfold decodeMO01
  simp only [f0, f1, f2, f3]
  exact used_ok _ hX

theorem max (rd ra rb : Nat) : Statement (.max rd ra rb) := by
  obtain ⟨W, e⟩ : ∃ W, W = 0x02000009 + rd * 2 ^ 19 + ra * 2 ^ 13 + rb * 2 ^ 7 := ⟨_, rfl⟩
  refine word _ W (by rw [e]; rfl) rfl rfl fun hX => ?_
  have hY : (rd < 64 && ra < 64 && rb < 64) = true := hX
  simp only [Bool.and_eq_true, decide_eq_true_eq] at hY
  have f0 : bits W 24 19 = rd := by unfold bits; omega
  have f1 : bits W 18 13 = ra := by unfold bits; omega
  have f2 : bits W 12 7 = rb := by unfold bits; omega
  have f3 : bits W 6 0 = 9 := by unfold bits; omega
  refine ⟨by omega, ?_⟩
  rw [major_01 W (by omega)]
  unfold decodeMO01
  simp only [f0, f1, f2, f3]
  exact used_ok _ hX

theorem minn (rd ra rb : Nat) : Statement (.minn rd ra rb) := by
  obtain ⟨W, e⟩ : ∃ W, W = 0x0200000A + rd * 2 ^ 19 + ra * 2 ^ 13 + rb * 2 ^ 7 := ⟨_, rfl⟩
  refine word _ W (by rw [e]; rfl) rfl rfl fun hX => ?_
  have hY : (rd < 64 && ra < 64 && rb < 64) = true := hX
  simp only [Bool.and_eq_true, decide_eq_true_eq] at hY
  have f0 : bits W 24 19 = rd := by unfold bits; omega
  have f1 : bits W 18 13 = ra := by unfold bits; omega
  have f2 : bits W 12 7 = rb := by unfold bits; omega
  have f3 : bits W 6 0 = 10 := by unfold bits; omega
  refine ⟨by omega, ?_⟩
  rw [major_01 W (by omega)]
  unfold decodeMO01
  simp only [f0, f1, f2, f3]
  exact used_ok _ hX

theorem maxn (rd ra rb : Nat) : Statement (.maxn rd ra rb) := by
  obtain ⟨W, e⟩ : ∃ W, W = 0x0200000B + rd * 2 ^ 19 + ra * 2 ^ 13 + rb * 2 ^ 7 := ⟨_, rfl⟩
  refine word _ W (by rw [e]; rfl) rfl rfl fun hX => ?_
  have hY : (rd < 64 && ra < 64 && rb < 64) = true := hX
  simp only [Bool.and_eq_true, decide_eq_true_eq] at hY
  have f0 : bits W 24 19 = rd := by unfold bits; omega
  have f1 : bits W 18 13 = ra := by unfold bits; omega
  have f2 : bits W 12 7 = rb := by unfold bits; omega
  have f3 : bits W 6 0 = 11 := by unfold bits; omega
  refine ⟨by omega, ?_⟩
  rw [major_01 W (by omega)]
  unfold decodeMO01
  simp only [f0, f1, f2, f3]
  exact used_ok _ hX

theorem clz (rd ra : Nat) : Statement (.clz rd ra) := by
  obtain ⟨W, e⟩ : ∃ W, W = 0x04000001 + rd * 2 ^ 19 + ra * 2 ^ 13 := ⟨_, rfl⟩
  refine word _ W (by rw [e]; rfl) rfl rfl fun hX => ?_
  have hY : (rd < 64 && ra < 64) = true := hX
  simp only [Bool.and_eq_true, decide_eq_true_eq] at hY
  have f0 : bits W 24 19 = rd := by unfold bits; omega
  have f1 : bits W 18 13 = ra := by unfold bits; omega
  have f2 : bits W 12 7 = 0 := by unfold bits; omega
  have f4 : bits W 6 0 = 1 := by unfold bits; omega
  refine ⟨by omega, ?_⟩
  rw [major_02 W (by omega)]
  unfold decodeMO02
  simp only [f0, f1, f2, f4]
  exact used_ok _ hX

theorem ctz (rd ra : Nat) : Statement (.ctz rd ra) := by
  obtain ⟨W, e⟩ : ∃ W, W = 0x04000002 + rd * 2 ^ 19 + ra * 2 ^ 13 := ⟨_, rfl⟩
  refine word _ W (by rw [e]; rfl) rfl rfl fun hX => ?_
  have hY : (rd < 64 && ra < 64) = true := hX
  simp only [Bool.and_eq_true, decide_eq_true_eq] at hY
  have f0 : bits W 24 19 = rd := by unfold bits; omega
  have f1 : bits W 18 13 = ra := by unfold bits; omega
  have f2 : bits W 12 7 = 0 := by unfold bits; omega
  have f4 : bits W 6 0 = 2 := by unfold bits; omega
  refine ⟨by omega, ?_⟩
  rw [major_02 W (by omega)]
  unfold decodeMO02
  simp only [f0, f1, f2, f4]
  exact used_ok _ hX

theorem popc (rd ra : Nat) : Statement (.popc rd ra) := by
  obtain ⟨W, e⟩ : ∃ W, W = 0x04000003 + rd * 2 ^ 19 + ra * 2 ^ 13 := ⟨_, rfl⟩
  refine word _ W (by rw [e]; rfl) rfl rfl fun hX => ?_
  have hY : (rd < 64 && ra < 64) = true := hX
  simp only [Bool.and_eq_true, decide_eq_true_eq] at hY
  have f0 : bits W 24 19 = rd := by unfold bits; omega
  have f1 : bits W 18 13 = ra := by unfold bits; omega
  have f2 : bits W 12 7 = 0 := by unfold bits; omega
  have f4 : bits W 6 0 = 3 := by unfold bits; omega
  refine ⟨by omega, ?_⟩
  rw [major_02 W (by omega)]
  unfold decodeMO02
  simp only [f0, f1, f2, f4]
  exact used_ok _ hX

theorem bswap (rd ra : Nat) : Statement (.bswap rd ra) := by
  obtain ⟨W, e⟩ : ∃ W, W = 0x04000004 + rd * 2 ^ 19 + ra * 2 ^ 13 := ⟨_, rfl⟩
  refine word _ W (by rw [e]; rfl) rfl rfl fun hX => ?_
  have hY : (rd < 64 && ra < 64) = true := hX
  simp only [Bool.and_eq_true, decide_eq_true_eq] at hY
  have f0 : bits W 24 19 = rd := by unfold bits; omega
  have f1 : bits W 18 13 = ra := by unfold bits; omega
  have f2 : bits W 12 7 = 0 := by unfold bits; omega
  have f4 : bits W 6 0 = 4 := by unfold bits; omega
  refine ⟨by omega, ?_⟩
  rw [major_02 W (by omega)]
  unfold decodeMO02
  simp only [f0, f1, f2, f4]
  exact used_ok _ hX

theorem bext (rd ra rb : Nat) : Statement (.bext rd ra rb) := by
  obtain ⟨W, e⟩ : ∃ W, W = 0x04000005 + rd * 2 ^ 19 + ra * 2 ^ 13 + rb * 2 ^ 7 := ⟨_, rfl⟩
  refine word _ W (by rw [e]; rfl) rfl rfl fun hX => ?_
  have hY : (rd < 64 && ra < 64 && rb < 64) = true := hX
  simp only [Bool.and_eq_true, decide_eq_true_eq] at hY
  have f0 : bits W 24 19 = rd := by unfold bits; omega
  have f1 : bits W 18 13 = ra := by unfold bits; omega
  have f2 : bits W 12 7 = rb := by unfold bits; omega
  have f4 : bits W 6 0 = 5 := by unfold bits; omega
  refine ⟨by omega, ?_⟩
  rw [major_02 W (by omega)]
  unfold decodeMO02
  simp only [f0, f1, f2, f4]
  exact used_ok _ hX

theorem bins (rd ra rb : Nat) : Statement (.bins rd ra rb) := by
  obtain ⟨W, e⟩ : ∃ W, W = 0x04000006 + rd * 2 ^ 19 + ra * 2 ^ 13 + rb * 2 ^ 7 := ⟨_, rfl⟩
  refine word _ W (by rw [e]; rfl) rfl rfl fun hX => ?_
  have hY : (rd < 64 && ra < 64 && rb < 64) = true := hX
  simp only [Bool.and_eq_true, decide_eq_true_eq] at hY
  have f0 : bits W 24 19 = rd := by unfold bits; omega
  have f1 : bits W 18 13 = ra := by unfold bits; omega
  have f2 : bits W 12 7 = rb := by unfold bits; omega
  have f4 : bits W 6 0 = 6 := by unfold bits; omega
  refine ⟨by omega, ?_⟩
  rw [major_02 W (by omega)]
  unfold decodeMO02
  simp only [f0, f1, f2, f4]
  exact used_ok _ hX

theorem sel (n rd ra rb : Nat) : Statement (.sel n rd ra rb) := by
  obtain ⟨W, e⟩ : ∃ W, W = 0x04000010 + rd * 2 ^ 19 + ra * 2 ^ 13 + rb * 2 ^ 7 + n := ⟨_, rfl⟩
  refine word _ W (by rw [e]; rfl) rfl rfl fun hX => ?_
  have hY : (n < 8 && rd < 64 && ra < 64 && rb < 64) = true := hX
  simp only [Bool.and_eq_true, decide_eq_true_eq] at hY
  have f0 : bits W 24 19 = rd := by unfold bits; omega
  have f1 : bits W 18 13 = ra := by unfold bits; omega
  have f2 : bits W 12 7 = rb := by unfold bits; omega
  have f3 : bits W 6 3 = 2 := by unfold bits; omega
  have f4 : bits W 6 0 = 16 + n := by unfold bits; omega
  have f5 : bits W 2 0 = n := by unfold bits; omega
  refine ⟨by omega, ?_⟩
  rw [major_02 W (by omega)]
  unfold decodeMO02
  simp only [f0, f1, f2, f3, f4, f5]
  obtain rfl | rfl | rfl | rfl | rfl | rfl | rfl | rfl :=
    (by omega : n = 0 ∨ n = 1 ∨ n = 2 ∨ n = 3 ∨ n = 4 ∨ n = 5 ∨ n = 6 ∨ n = 7) <;> exact used_ok _ hX

theorem cmp (c rd ra rb : Nat) : Statement (.cmp c rd ra rb) := by
  obtain ⟨W, e⟩ : ∃ W, W = 0x04000020 + rd * 2 ^ 19 + ra * 2 ^ 13 + rb * 2 ^ 7 + c := ⟨_, rfl⟩
  refine word _ W (by rw [e]; rfl) rfl rfl fun hX => ?_
  have hY : (c < 8 && rd < 64 && ra < 64 && rb < 64) = true := hX
  simp only [Bool.and_eq_true, decide_eq_true_eq] at hY
  have f0 : bits W 24 19 = rd := by unfold bits; omega
  have f1 : bits W 18 13 = ra := by unfold bits; omega
  have f2 : bits W 12 7 = rb := by unfold bits; omega
  have f3 : bits W 6 3 = 4 := by unfold bits; omega
  have f4 : bits W 6 0 = 32 + c := by unfold bits; omega
  have f5 : bits W 2 0 = c := by unfold bits; omega
  refine ⟨by omega, ?_⟩
  rw [major_02 W (by omega)]
  unfold decodeMO02
  simp only [f0, f1, f2, f3, f4, f5]
  obtain rfl | rfl | rfl | rfl | rfl | rfl | rfl | rfl :=
    (by omega : c = 0 ∨ c = 1 ∨ c = 2 ∨ c = 3 ∨ c = 4 ∨ c = 5 ∨ c = 6 ∨ c = 7) <;> exact used_ok _ hX

theorem cmpq (c qd ra rb : Nat) : Statement (.cmpq c qd ra rb) := by
  obtain ⟨W, e⟩ : ∃ W, W = 0x04000030 + qd * 2 ^ 19 + ra * 2 ^ 13 + rb * 2 ^ 7 + c := ⟨_, rfl⟩
  refine word _ W (by rw [e]; rfl) rfl rfl fun hX => ?_
  have hY : (c < 8 && qd < 8 && ra < 64 && rb < 64) = true := hX
  simp only [Bool.and_eq_true, decide_eq_true_eq] at hY
  have f0 : bits W 24 19 = qd := by unfold bits; omega
  have f1 : bits W 18 13 = ra := by unfold bits; omega
  have f2 : bits W 12 7 = rb := by unfold bits; omega
  have f3 : bits W 6 3 = 6 := by unfold bits; omega
  have f4 : bits W 6 0 = 48 + c := by unfold bits; omega
  have f5 : bits W 2 0 = c := by unfold bits; omega
  refine ⟨by omega, ?_⟩
  rw [major_02 W (by omega)]
  unfold decodeMO02
  simp only [f0, f1, f2, f3, f4, f5]
  obtain rfl | rfl | rfl | rfl | rfl | rfl | rfl | rfl :=
    (by omega : c = 0 ∨ c = 1 ∨ c = 2 ∨ c = 3 ∨ c = 4 ∨ c = 5 ∨ c = 6 ∨ c = 7) <;> exact used_ok _ hX

theorem sewma (rd ra rb : Nat) : Statement (.sewma rd ra rb) := by
  obtain ⟨W, e⟩ : ∃ W, W = 0x04000040 + rd * 2 ^ 19 + ra * 2 ^ 13 + rb * 2 ^ 7 := ⟨_, rfl⟩
  refine word _ W (by rw [e]; rfl) rfl rfl fun hX => ?_
  have hY : (rd < 64 && ra < 64 && rb < 64) = true := hX
  simp only [Bool.and_eq_true, decide_eq_true_eq] at hY
  have f0 : bits W 24 19 = rd := by unfold bits; omega
  have f1 : bits W 18 13 = ra := by unfold bits; omega
  have f2 : bits W 12 7 = rb := by unfold bits; omega
  have f4 : bits W 6 0 = 64 := by unfold bits; omega
  refine ⟨by omega, ?_⟩
  rw [major_02 W (by omega)]
  unfold decodeMO02
  simp only [f0, f1, f2, f4]
  exact used_ok _ hX

theorem fadd (rm p rd ra rb : Nat) : Statement (.fadd rm p rd ra rb) := by
  obtain ⟨W, e⟩ : ∃ W, W = 0x06000001 + rd * 2 ^ 19 + ra * 2 ^ 13 + rb * 2 ^ 7 + rm * 2 ^ 5 + p * 2 ^ 4 := ⟨_, rfl⟩
  refine word _ W (by rw [e]; rfl) rfl rfl fun hX => ?_
  have hY : (rm < 3 && p < 2 && rd < 64 && ra < 64 && rb < 64) = true := hX
  simp only [Bool.and_eq_true, decide_eq_true_eq] at hY
  have f0 : bits W 24 19 = rd := by unfold bits; omega
  have f1 : bits W 18 13 = ra := by unfold bits; omega
  have f2 : bits W 12 7 = rb := by unfold bits; omega
  have f3 : bits W 6 5 = rm := by unfold bits; omega
  have f4 : bits W 4 4 = p := by unfold bits; omega
  have f5 : bits W 3 0 = 1 := by unfold bits; omega
  refine ⟨by omega, ?_⟩
  rw [major_03 W (by omega)]
  unfold decodeMO03
  simp only [f0, f1, f2, f3, f4, f5]
  exact used_ok _ hX

theorem fsub (rm p rd ra rb : Nat) : Statement (.fsub rm p rd ra rb) := by
  obtain ⟨W, e⟩ : ∃ W, W = 0x06000002 + rd * 2 ^ 19 + ra * 2 ^ 13 + rb * 2 ^ 7 + rm * 2 ^ 5 + p * 2 ^ 4 := ⟨_, rfl⟩
  refine word _ W (by rw [e]; rfl) rfl rfl fun hX => ?_
  have hY : (rm < 3 && p < 2 && rd < 64 && ra < 64 && rb < 64) = true := hX
  simp only [Bool.and_eq_true, decide_eq_true_eq] at hY
  have f0 : bits W 24 19 = rd := by unfold bits; omega
  have f1 : bits W 18 13 = ra := by unfold bits; omega
  have f2 : bits W 12 7 = rb := by unfold bits; omega
  have f3 : bits W 6 5 = rm := by unfold bits; omega
  have f4 : bits W 4 4 = p := by unfold bits; omega
  have f5 : bits W 3 0 = 2 := by unfold bits; omega
  refine ⟨by omega, ?_⟩
  rw [major_03 W (by omega)]
  unfold decodeMO03
  simp only [f0, f1, f2, f3, f4, f5]
  exact used_ok _ hX

theorem fmul (rm p rd ra rb : Nat) : Statement (.fmul rm p rd ra rb) := by
  obtain ⟨W, e⟩ : ∃ W, W = 0x06000003 + rd * 2 ^ 19 + ra * 2 ^ 13 + rb * 2 ^ 7 + rm * 2 ^ 5 + p * 2 ^ 4 := ⟨_, rfl⟩
  refine word _ W (by rw [e]; rfl) rfl rfl fun hX => ?_
  have hY : (rm < 3 && p < 2 && rd < 64 && ra < 64 && rb < 64) = true := hX
  simp only [Bool.and_eq_true, decide_eq_true_eq] at hY
  have f0 : bits W 24 19 = rd := by unfold bits; omega
  have f1 : bits W 18 13 = ra := by unfold bits; omega
  have f2 : bits W 12 7 = rb := by unfold bits; omega
  have f3 : bits W 6 5 = rm := by unfold bits; omega
  have f4 : bits W 4 4 = p := by unfold bits; omega
  have f5 : bits W 3 0 = 3 := by unfold bits; omega
  refine ⟨by omega, ?_⟩
  rw [major_03 W (by omega)]
  unfold decodeMO03
  simp only [f0, f1, f2, f3, f4, f5]
  exact used_ok _ hX

theorem ffma (rm p rd ra rb : Nat) : Statement (.ffma rm p rd ra rb) := by
  obtain ⟨W, e⟩ : ∃ W, W = 0x06000004 + rd * 2 ^ 19 + ra * 2 ^ 13 + rb * 2 ^ 7 + rm * 2 ^ 5 + p * 2 ^ 4 := ⟨_, rfl⟩
  refine word _ W (by rw [e]; rfl) rfl rfl fun hX => ?_
  have hY : (rm < 3 && p < 2 && rd < 64 && ra < 64 && rb < 64) = true := hX
  simp only [Bool.and_eq_true, decide_eq_true_eq] at hY
  have f0 : bits W 24 19 = rd := by unfold bits; omega
  have f1 : bits W 18 13 = ra := by unfold bits; omega
  have f2 : bits W 12 7 = rb := by unfold bits; omega
  have f3 : bits W 6 5 = rm := by unfold bits; omega
  have f4 : bits W 4 4 = p := by unfold bits; omega
  have f5 : bits W 3 0 = 4 := by unfold bits; omega
  refine ⟨by omega, ?_⟩
  rw [major_03 W (by omega)]
  unfold decodeMO03
  simp only [f0, f1, f2, f3, f4, f5]
  exact used_ok _ hX

theorem fdiv (rm p rd ra rb : Nat) : Statement (.fdiv rm p rd ra rb) := by
  obtain ⟨W, e⟩ : ∃ W, W = 0x06000005 + rd * 2 ^ 19 + ra * 2 ^ 13 + rb * 2 ^ 7 + rm * 2 ^ 5 + p * 2 ^ 4 := ⟨_, rfl⟩
  refine word _ W (by rw [e]; rfl) rfl rfl fun hX => ?_
  have hY : (rm < 3 && p < 2 && rd < 64 && ra < 64 && rb < 64) = true := hX
  simp only [Bool.and_eq_true, decide_eq_true_eq] at hY
  have f0 : bits W 24 19 = rd := by unfold bits; omega
  have f1 : bits W 18 13 = ra := by unfold bits; omega
  have f2 : bits W 12 7 = rb := by unfold bits; omega
  have f3 : bits W 6 5 = rm := by unfold bits; omega
  have f4 : bits W 4 4 = p := by unfold bits; omega
  have f5 : bits W 3 0 = 5 := by unfold bits; omega
  refine ⟨by omega, ?_⟩
  rw [major_03 W (by omega)]
  unfold decodeMO03
  simp only [f0, f1, f2, f3, f4, f5]
  exact used_ok _ hX

theorem fsqrt (rm p rd ra : Nat) : Statement (.fsqrt rm p rd ra) := by
  obtain ⟨W, e⟩ : ∃ W, W = 0x06000006 + rd * 2 ^ 19 + ra * 2 ^ 13 + rm * 2 ^ 5 + p * 2 ^ 4 := ⟨_, rfl⟩
  refine word _ W (by rw [e]; rfl) rfl rfl fun hX => ?_
  have hY : (rm < 3 && p < 2 && rd < 64 && ra < 64) = true := hX
  simp only [Bool.and_eq_true, decide_eq_true_eq] at hY
  have f0 : bits W 24 19 = rd := by unfold bits; omega
  have f1 : bits W 18 13 = ra := by unfold bits; omega
  have f2 : bits W 12 7 = 0 := by unfold bits; omega
  have f3 : bits W 6 5 = rm := by unfold bits; omega
  have f4 : bits W 4 4 = p := by unfold bits; omega
  have f5 : bits W 3 0 = 6 := by unfold bits; omega
  refine ⟨by omega, ?_⟩
  rw [major_03 W (by omega)]
  unfold decodeMO03
  simp only [f0, f1, f2, f3, f4, f5]
  exact used_ok _ hX

theorem fmin (p rd ra rb : Nat) : Statement (.fmin p rd ra rb) := by
  obtain ⟨W, e⟩ : ∃ W, W = 0x06000007 + rd * 2 ^ 19 + ra * 2 ^ 13 + rb * 2 ^ 7 + p * 2 ^ 4 := ⟨_, rfl⟩
  refine word _ W (by rw [e]; rfl) rfl rfl fun hX => ?_
  have hY : (p < 2 && rd < 64 && ra < 64 && rb < 64) = true := hX
  simp only [Bool.and_eq_true, decide_eq_true_eq] at hY
  have f0 : bits W 24 19 = rd := by unfold bits; omega
  have f1 : bits W 18 13 = ra := by unfold bits; omega
  have f2 : bits W 12 7 = rb := by unfold bits; omega
  have f3 : bits W 6 5 = 0 := by unfold bits; omega
  have f4 : bits W 4 4 = p := by unfold bits; omega
  have f5 : bits W 3 0 = 7 := by unfold bits; omega
  refine ⟨by omega, ?_⟩
  rw [major_03 W (by omega)]
  unfold decodeMO03
  simp only [f0, f1, f2, f3, f4, f5]
  exact used_ok _ hX

theorem fmax (p rd ra rb : Nat) : Statement (.fmax p rd ra rb) := by
  obtain ⟨W, e⟩ : ∃ W, W = 0x06000008 + rd * 2 ^ 19 + ra * 2 ^ 13 + rb * 2 ^ 7 + p * 2 ^ 4 := ⟨_, rfl⟩
  refine word _ W (by rw [e]; rfl) rfl rfl fun hX => ?_
  have hY : (p < 2 && rd < 64 && ra < 64 && rb < 64) = true := hX
  simp only [Bool.and_eq_true, decide_eq_true_eq] at hY
  have f0 : bits W 24 19 = rd := by unfold bits; omega
  have f1 : bits W 18 13 = ra := by unfold bits; omega
  have f2 : bits W 12 7 = rb := by unfold bits; omega
  have f3 : bits W 6 5 = 0 := by unfold bits; omega
  have f4 : bits W 4 4 = p := by unfold bits; omega
  have f5 : bits W 3 0 = 8 := by unfold bits; omega
  refine ⟨by omega, ?_⟩
  rw [major_03 W (by omega)]
  unfold decodeMO03
  simp only [f0, f1, f2, f3, f4, f5]
  exact used_ok _ hX

theorem fcmpq (cc p qd ra rb : Nat) : Statement (.fcmpq cc p qd ra rb) := by
  obtain ⟨W, e⟩ : ∃ W, W = 0x06000009 + qd * 2 ^ 19 + ra * 2 ^ 13 + rb * 2 ^ 7 + cc * 2 ^ 5 + p * 2 ^ 4 := ⟨_, rfl⟩
  refine word _ W (by rw [e]; rfl) rfl rfl fun hX => ?_
  have hY : (cc < 4 && p < 2 && qd < 8 && ra < 64 && rb < 64) = true := hX
  simp only [Bool.and_eq_true, decide_eq_true_eq] at hY
  have f0 : bits W 24 19 = qd := by unfold bits; omega
  have f1 : bits W 18 13 = ra := by unfold bits; omega
  have f2 : bits W 12 7 = rb := by unfold bits; omega
  have f3 : bits W 6 5 = cc := by unfold bits; omega
  have f4 : bits W 4 4 = p := by unfold bits; omega
  have f5 : bits W 3 0 = 9 := by unfold bits; omega
  refine ⟨by omega, ?_⟩
  rw [major_03 W (by omega)]
  unfold decodeMO03
  simp only [f0, f1, f2, f3, f4, f5]
  exact used_ok _ hX

theorem fcvt (rm code rd ra : Nat) : Statement (.fcvt rm code rd ra) := by
  obtain ⟨W, e⟩ : ∃ W, W = 0x0600000A + rd * 2 ^ 19 + ra * 2 ^ 13 + code * 2 ^ 7 + rm * 2 ^ 5 := ⟨_, rfl⟩
  refine word _ W (by rw [e]; rfl) rfl rfl fun hX => ?_
  have hY : (rm < 3 && code < 10 && rd < 64 && ra < 64) = true := hX
  simp only [Bool.and_eq_true, decide_eq_true_eq] at hY
  have f0 : bits W 24 19 = rd := by unfold bits; omega
  have f1 : bits W 18 13 = ra := by unfold bits; omega
  have f2 : bits W 12 7 = code := by unfold bits; omega
  have f3 : bits W 6 5 = rm := by unfold bits; omega
  have f4 : bits W 4 4 = 0 := by unfold bits; omega
  have f5 : bits W 3 0 = 10 := by unfold bits; omega
  refine ⟨by omega, ?_⟩
  rw [major_03 W (by omega)]
  unfold decodeMO03
  simp only [f0, f1, f2, f3, f4, f5]
  exact used_ok _ hX

theorem fclass (p rd ra : Nat) : Statement (.fclass p rd ra) := by
  obtain ⟨W, e⟩ : ∃ W, W = 0x0600000B + rd * 2 ^ 19 + ra * 2 ^ 13 + p * 2 ^ 4 := ⟨_, rfl⟩
  refine word _ W (by rw [e]; rfl) rfl rfl fun hX => ?_
  have hY : (p < 2 && rd < 64 && ra < 64) = true := hX
  simp only [Bool.and_eq_true, decide_eq_true_eq] at hY
  have f0 : bits W 24 19 = rd := by unfold bits; omega
  have f1 : bits W 18 13 = ra := by unfold bits; omega
  have f2 : bits W 12 7 = 0 := by unfold bits; omega
  have f3 : bits W 6 5 = 0 := by unfold bits; omega
  have f4 : bits W 4 4 = p := by unfold bits; omega
  have f5 : bits W 3 0 = 11 := by unfold bits; omega
  refine ⟨by omega, ?_⟩
  rw [major_03 W (by omega)]
  unfold decodeMO03
  simp only [f0, f1, f2, f3, f4, f5]
  exact used_ok _ hX

theorem frcp (rm p rd ra : Nat) : Statement (.frcp rm p rd ra) := by
  obtain ⟨W, e⟩ : ∃ W, W = 0x0600000C + rd * 2 ^ 19 + ra * 2 ^ 13 + rm * 2 ^ 5 + p * 2 ^ 4 := ⟨_, rfl⟩
  refine word _ W (by rw [e]; rfl) rfl rfl fun hX => ?_
  have hY : (rm < 3 && p < 2 && rd < 64 && ra < 64) = true := hX
  simp only [Bool.and_eq_true, decide_eq_true_eq] at hY
  have f0 : bits W 24 19 = rd := by unfold bits; omega
  have f1 : bits W 18 13 = ra := by unfold bits; omega
  have f2 : bits W 12 7 = 0 := by unfold bits; omega
  have f3 : bits W 6 5 = rm := by unfold bits; omega
  have f4 : bits W 4 4 = p := by unfold bits; omega
  have f5 : bits W 3 0 = 12 := by unfold bits; omega
  refine ⟨by omega, ?_⟩
  rw [major_03 W (by omega)]
  unfold decodeMO03
  simp only [f0, f1, f2, f3, f4, f5]
  exact used_ok _ hX

theorem addi (rd ra imm : Nat) : Statement (.addi rd ra imm) := by
  obtain ⟨W, e⟩ : ∃ W, W = 0x08000000 + rd * 2 ^ 19 + ra * 2 ^ 13 + imm := ⟨_, rfl⟩
  refine word _ W (by rw [e]; rfl) rfl rfl fun hX => ?_
  have hY : (rd < 64 && ra < 64 && imm < 8192) = true := hX
  simp only [Bool.and_eq_true, decide_eq_true_eq] at hY
  have f0 : bits W 24 19 = rd := by unfold bits; omega
  have f1 : bits W 18 13 = ra := by unfold bits; omega
  have f2 : bits W 12 0 = imm := by unfold bits; omega
  refine ⟨by omega, ?_⟩
  rw [major_04 W (by omega)]
  unfold decodeMO04
  simp only [f0, f1, f2]
  exact used_ok _ hX

theorem andi (rd ra imm : Nat) : Statement (.andi rd ra imm) := by
  obtain ⟨W, e⟩ : ∃ W, W = 0x0A000000 + rd * 2 ^ 19 + ra * 2 ^ 13 + imm := ⟨_, rfl⟩
  refine word _ W (by rw [e]; rfl) rfl rfl fun hX => ?_
  have hY : (rd < 64 && ra < 64 && imm < 8192) = true := hX
  simp only [Bool.and_eq_true, decide_eq_true_eq] at hY
  have f0 : bits W 24 19 = rd := by unfold bits; omega
  have f1 : bits W 18 13 = ra := by unfold bits; omega
  have f2 : bits W 12 0 = imm := by unfold bits; omega
  refine ⟨by omega, ?_⟩
  rw [major_05 W (by omega)]
  unfold decodeMO05
  simp only [f0, f1, f2]
  exact used_ok _ hX

theorem ori (rd ra imm : Nat) : Statement (.ori rd ra imm) := by
  obtain ⟨W, e⟩ : ∃ W, W = 0x0C000000 + rd * 2 ^ 19 + ra * 2 ^ 13 + imm := ⟨_, rfl⟩
  refine word _ W (by rw [e]; rfl) rfl rfl fun hX => ?_
  have hY : (rd < 64 && ra < 64 && imm < 8192) = true := hX
  simp only [Bool.and_eq_true, decide_eq_true_eq] at hY
  have f0 : bits W 24 19 = rd := by unfold bits; omega
  have f1 : bits W 18 13 = ra := by unfold bits; omega
  have f2 : bits W 12 0 = imm := by unfold bits; omega
  refine ⟨by omega, ?_⟩
  rw [major_06 W (by omega)]
  unfold decodeMO06
  simp only [f0, f1, f2]
  exact used_ok _ hX

theorem xori (rd ra imm : Nat) : Statement (.xori rd ra imm) := by
  obtain ⟨W, e⟩ : ∃ W, W = 0x0E000000 + rd * 2 ^ 19 + ra * 2 ^ 13 + imm := ⟨_, rfl⟩
  refine word _ W (by rw [e]; rfl) rfl rfl fun hX => ?_
  have hY : (rd < 64 && ra < 64 && imm < 8192) = true := hX
  simp only [Bool.and_eq_true, decide_eq_true_eq] at hY
  have f0 : bits W 24 19 = rd := by unfold bits; omega
  have f1 : bits W 18 13 = ra := by unfold bits; omega
  have f2 : bits W 12 0 = imm := by unfold bits; omega
  refine ⟨by omega, ?_⟩
  rw [major_07 W (by omega)]
  unfold decodeMO07
  simp only [f0, f1, f2]
  exact used_ok _ hX

theorem shli (rd ra n : Nat) : Statement (.shli rd ra n) := by
  obtain ⟨W, e⟩ : ∃ W, W = 0x10000000 + rd * 2 ^ 19 + ra * 2 ^ 13 + n := ⟨_, rfl⟩
  refine word _ W (by rw [e]; rfl) rfl rfl fun hX => ?_
  have hY : (rd < 64 && ra < 64 && n < 64) = true := hX
  simp only [Bool.and_eq_true, decide_eq_true_eq] at hY
  have f0 : bits W 24 19 = rd := by unfold bits; omega
  have f1 : bits W 18 13 = ra := by unfold bits; omega
  have f2 : bits W 12 6 = 0 := by unfold bits; omega
  have f3 : bits W 5 0 = n := by unfold bits; omega
  refine ⟨by omega, ?_⟩
  rw [major_08 W (by omega)]
  unfold decodeMO08
  simp only [f0, f1, f2, f3]
  exact used_ok _ hX

theorem shri (rd ra n : Nat) : Statement (.shri rd ra n) := by
  obtain ⟨W, e⟩ : ∃ W, W = 0x10000040 + rd * 2 ^ 19 + ra * 2 ^ 13 + n := ⟨_, rfl⟩
  refine word _ W (by rw [e]; rfl) rfl rfl fun hX => ?_
  have hY : (rd < 64 && ra < 64 && n < 64) = true := hX
  simp only [Bool.and_eq_true, decide_eq_true_eq] at hY
  have f0 : bits W 24 19 = rd := by unfold bits; omega
  have f1 : bits W 18 13 = ra := by unfold bits; omega
  have f2 : bits W 12 6 = 1 := by unfold bits; omega
  have f3 : bits W 5 0 = n := by unfold bits; omega
  refine ⟨by omega, ?_⟩
  rw [major_08 W (by omega)]
  unfold decodeMO08
  simp only [f0, f1, f2, f3]
  exact used_ok _ hX

theorem sari (rd ra n : Nat) : Statement (.sari rd ra n) := by
  obtain ⟨W, e⟩ : ∃ W, W = 0x10000080 + rd * 2 ^ 19 + ra * 2 ^ 13 + n := ⟨_, rfl⟩
  refine word _ W (by rw [e]; rfl) rfl rfl fun hX => ?_
  have hY : (rd < 64 && ra < 64 && n < 64) = true := hX
  simp only [Bool.and_eq_true, decide_eq_true_eq] at hY
  have f0 : bits W 24 19 = rd := by unfold bits; omega
  have f1 : bits W 18 13 = ra := by unfold bits; omega
  have f2 : bits W 12 6 = 2 := by unfold bits; omega
  have f3 : bits W 5 0 = n := by unfold bits; omega
  refine ⟨by omega, ?_⟩
  rw [major_08 W (by omega)]
  unfold decodeMO08
  simp only [f0, f1, f2, f3]
  exact used_ok _ hX

theorem cmpqi (c qd ra imm : Nat) : Statement (.cmpqi c qd ra imm) := by
  obtain ⟨W, e⟩ : ∃ W, W = 0x12000000 + qd * 2 ^ 19 + ra * 2 ^ 13 + c * 2 ^ 10 + imm := ⟨_, rfl⟩
  refine word _ W (by rw [e]; rfl) rfl rfl fun hX => ?_
  have hY : (c < 8 && qd < 8 && ra < 64 && imm < 1024) = true := hX
  simp only [Bool.and_eq_true, decide_eq_true_eq] at hY
  have f0 : bits W 24 19 = qd := by unfold bits; omega
  have f1 : bits W 18 13 = ra := by unfold bits; omega
  have f2 : bits W 12 10 = c := by unfold bits; omega
  have f3 : bits W 9 0 = imm := by unfold bits; omega
  refine ⟨by omega, ?_⟩
  rw [major_09 W (by omega)]
  unfold decodeMO09
  simp only [f0, f1, f2, f3]
  exact used_ok _ hX

theorem lui (rd imm : Nat) : Statement (.lui rd imm) := by
  obtain ⟨W, e⟩ : ∃ W, W = 0x14000000 + rd * 2 ^ 19 + imm := ⟨_, rfl⟩
  refine word _ W (by rw [e]; rfl) rfl rfl fun hX => ?_
  have hY : (rd < 64 && imm < 524288) = true := hX
  simp only [Bool.and_eq_true, decide_eq_true_eq] at hY
  have f0 : bits W 24 19 = rd := by unfold bits; omega
  have f1 : bits W 18 0 = imm := by unfold bits; omega
  refine ⟨by omega, ?_⟩
  rw [major_0A W (by omega)]
  unfold decodeMO0A
  simp only [f0, f1]
  exact used_ok _ hX

theorem addpc (rd imm : Nat) : Statement (.addpc rd imm) := by
  obtain ⟨W, e⟩ : ∃ W, W = 0x16000000 + rd * 2 ^ 19 + imm := ⟨_, rfl⟩
  refine word _ W (by rw [e]; rfl) rfl rfl fun hX => ?_
  have hY : (rd < 64 && imm < 524288) = true := hX
  simp only [Bool.and_eq_true, decide_eq_true_eq] at hY
  have f0 : bits W 24 19 = rd := by unfold bits; omega
  have f1 : bits W 18 0 = imm := by unfold bits; omega
  refine ⟨by omega, ?_⟩
  rw [major_0B W (by omega)]
  unfold decodeMO0B
  simp only [f0, f1]
  exact used_ok _ hX

theorem pbr (b off : Nat) : Statement (.pbr b off) := by
  obtain ⟨W, e⟩ : ∃ W, W = 0x18000000 + b * 2 ^ 22 + off := ⟨_, rfl⟩
  refine word _ W (by rw [e]; rfl) rfl rfl fun hX => ?_
  have hY : (b < 8 && off < 4194304) = true := hX
  simp only [Bool.and_eq_true, decide_eq_true_eq] at hY
  have f0 : bits W 24 22 = b := by unfold bits; omega
  have f1 : bits W 21 0 = off := by unfold bits; omega
  refine ⟨by omega, ?_⟩
  rw [major_0C W (by omega)]
  unfold decodeMO0C
  simp only [f0, f1]
  exact used_ok _ hX

theorem nop : Statement .nop := by
  obtain ⟨W, e⟩ : ∃ W, W = 0x1A000001 := ⟨_, rfl⟩
  refine word _ W (by rw [e]; rfl) rfl rfl fun hX => ?_
  have f0 : bits W 24 19 = 0 := by unfold bits; omega
  have f1 : bits W 18 13 = 0 := by unfold bits; omega
  have f3 : bits W 12 7 = 0 := by unfold bits; omega
  have f6 : bits W 6 0 = 1 := by unfold bits; omega
  refine ⟨by omega, ?_⟩
  rw [major_0D W (by omega)]
  unfold decodeMO0D
  simp only [f0, f1, f3, f6]
  exact used_ok _ hX

theorem pbrxLoad (b ra : Nat) : Statement (.pbrxLoad b ra) := by
  obtain ⟨W, e⟩ : ∃ W, W = 0x1A000002 + b * 2 ^ 19 + ra * 2 ^ 13 := ⟨_, rfl⟩
  refine word _ W (by rw [e]; rfl) rfl rfl fun hX => ?_
  have hY : (b < 8 && ra < 64) = true := hX
  simp only [Bool.and_eq_true, decide_eq_true_eq] at hY
  have f0 : bits W 24 19 = b := by unfold bits; omega
  have f1 : bits W 18 13 = ra := by unfold bits; omega
  have f3 : bits W 12 7 = 0 := by unfold bits; omega
  have f6 : bits W 6 0 = 2 := by unfold bits; omega
  refine ⟨by omega, ?_⟩
  rw [major_0D W (by omega)]
  unfold decodeMO0D
  simp only [f0, f1, f3, f6]
  exact used_ok _ hX

theorem pbrxRead (rd b : Nat) : Statement (.pbrxRead rd b) := by
  obtain ⟨W, e⟩ : ∃ W, W = 0x1A000082 + rd * 2 ^ 19 + b * 2 ^ 13 := ⟨_, rfl⟩
  refine word _ W (by rw [e]; rfl) rfl rfl fun hX => ?_
  have hY : (rd < 64 && b < 8) = true := hX
  simp only [Bool.and_eq_true, decide_eq_true_eq] at hY
  have f0 : bits W 24 19 = rd := by unfold bits; omega
  have f1 : bits W 18 13 = b := by unfold bits; omega
  have f3 : bits W 12 7 = 1 := by unfold bits; omega
  have f6 : bits W 6 0 = 2 := by unfold bits; omega
  refine ⟨by omega, ?_⟩
  rw [major_0D W (by omega)]
  unfold decodeMO0D
  simp only [f0, f1, f3, f6]
  exact used_ok _ hX

theorem br (b q neg : Nat) : Statement (.br b q neg) := by
  obtain ⟨W, e⟩ : ∃ W, W = 0x1A000003 + b * 2 ^ 19 + q * 2 ^ 13 + neg * 2 ^ 7 := ⟨_, rfl⟩
  refine word _ W (by rw [e]; rfl) rfl rfl fun hX => ?_
  have hY : (b < 8 && q < 8 && neg < 2) = true := hX
  simp only [Bool.and_eq_true, decide_eq_true_eq] at hY
  have f0 : bits W 24 19 = b := by unfold bits; omega
  have f1 : bits W 18 13 = q := by unfold bits; omega
  have f2 : bits W 12 8 = 0 := by unfold bits; omega
  have f4 : bits W 7 7 = neg := by unfold bits; omega
  have f6 : bits W 6 0 = 3 := by unfold bits; omega
  refine ⟨by omega, ?_⟩
  rw [major_0D W (by omega)]
  unfold decodeMO0D
  simp only [f0, f1, f2, f4, f6]
  exact used_ok _ hX

theorem call (b q neg : Nat) : Statement (.call b q neg) := by
  obtain ⟨W, e⟩ : ∃ W, W = 0x1A000004 + b * 2 ^ 19 + q * 2 ^ 13 + neg * 2 ^ 7 := ⟨_, rfl⟩
  refine word _ W (by rw [e]; rfl) rfl rfl fun hX => ?_
  have hY : (b < 8 && q < 8 && neg < 2) = true := hX
  simp only [Bool.and_eq_true, decide_eq_true_eq] at hY
  have f0 : bits W 24 19 = b := by unfold bits; omega
  have f1 : bits W 18 13 = q := by unfold bits; omega
  have f2 : bits W 12 8 = 0 := by unfold bits; omega
  have f4 : bits W 7 7 = neg := by unfold bits; omega
  have f6 : bits W 6 0 = 4 := by unfold bits; omega
  refine ⟨by omega, ?_⟩
  rw [major_0D W (by omega)]
  unfold decodeMO0D
  simp only [f0, f1, f2, f4, f6]
  exact used_ok _ hX

theorem ret (q neg : Nat) : Statement (.ret q neg) := by
  obtain ⟨W, e⟩ : ∃ W, W = 0x1A000005 + q * 2 ^ 13 + neg * 2 ^ 7 := ⟨_, rfl⟩
  refine word _ W (by rw [e]; rfl) rfl rfl fun hX => ?_
  have hY : (q < 8 && neg < 2) = true := hX
  simp only [Bool.and_eq_true, decide_eq_true_eq] at hY
  have f0 : bits W 24 19 = 0 := by unfold bits; omega
  have f1 : bits W 18 13 = q := by unfold bits; omega
  have f2 : bits W 12 8 = 0 := by unfold bits; omega
  have f4 : bits W 7 7 = neg := by unfold bits; omega
  have f6 : bits W 6 0 = 5 := by unfold bits; omega
  refine ⟨by omega, ?_⟩
  rw [major_0D W (by omega)]
  unfold decodeMO0D
  simp only [f0, f1, f2, f4, f6]
  exact used_ok _ hX

theorem loopx (lc q neg : Nat) : Statement (.loopx lc q neg) := by
  obtain ⟨W, e⟩ : ∃ W, W = 0x1A000006 + lc * 2 ^ 19 + q * 2 ^ 13 + neg * 2 ^ 7 := ⟨_, rfl⟩
  refine word _ W (by rw [e]; rfl) rfl rfl fun hX => ?_
  have hY : (lc < 4 && q < 8 && neg < 2) = true := hX
  simp only [Bool.and_eq_true, decide_eq_true_eq] at hY
  have f0 : bits W 24 19 = lc := by unfold bits; omega
  have f1 : bits W 18 13 = q := by unfold bits; omega
  have f2 : bits W 12 8 = 0 := by unfold bits; omega
  have f4 : bits W 7 7 = neg := by unfold bits; omega
  have f6 : bits W 6 0 = 6 := by unfold bits; omega
  refine ⟨by omega, ?_⟩
  rw [major_0D W (by omega)]
  unfold decodeMO0D
  simp only [f0, f1, f2, f4, f6]
  exact used_ok _ hX

theorem endTask : Statement .endTask := by
  obtain ⟨W, e⟩ : ∃ W, W = 0x1A000007 := ⟨_, rfl⟩
  refine word _ W (by rw [e]; rfl) rfl rfl fun hX => ?_
  have f0 : bits W 24 19 = 0 := by unfold bits; omega
  have f1 : bits W 18 13 = 0 := by unfold bits; omega
  have f3 : bits W 12 7 = 0 := by unfold bits; omega
  have f6 : bits W 6 0 = 7 := by unfold bits; omega
  refine ⟨by omega, ?_⟩
  rw [major_0D W (by omega)]
  unfold decodeMO0D
  simp only [f0, f1, f3, f6]
  exact used_ok _ hX

theorem cwtld (ra rb : Nat) : Statement (.cwtld ra rb) := by
  obtain ⟨W, e⟩ : ∃ W, W = 0x1A000008 + ra * 2 ^ 13 + rb * 2 ^ 7 := ⟨_, rfl⟩
  refine word _ W (by rw [e]; rfl) rfl rfl fun hX => ?_
  have hY : (ra < 64 && rb < 64) = true := hX
  simp only [Bool.and_eq_true, decide_eq_true_eq] at hY
  have f0 : bits W 24 19 = 0 := by unfold bits; omega
  have f1 : bits W 18 13 = ra := by unfold bits; omega
  have f3 : bits W 12 7 = rb := by unfold bits; omega
  have f6 : bits W 6 0 = 8 := by unfold bits; omega
  refine ⟨by omega, ?_⟩
  rw [major_0D W (by omega)]
  unfold decodeMO0D
  simp only [f0, f1, f3, f6]
  exact used_ok _ hX

theorem cwtclr (ra : Nat) : Statement (.cwtclr ra) := by
  obtain ⟨W, e⟩ : ∃ W, W = 0x1A000009 + ra * 2 ^ 13 := ⟨_, rfl⟩
  refine word _ W (by rw [e]; rfl) rfl rfl fun hX => ?_
  have hY : (decide (ra < 64)) = true := hX
  simp only [decide_eq_true_eq] at hY
  have f0 : bits W 24 19 = 0 := by unfold bits; omega
  have f1 : bits W 18 13 = ra := by unfold bits; omega
  have f3 : bits W 12 7 = 0 := by unfold bits; omega
  have f6 : bits W 6 0 = 9 := by unfold bits; omega
  refine ⟨by omega, ?_⟩
  rw [major_0D W (by omega)]
  unfold decodeMO0D
  simp only [f0, f1, f3, f6]
  exact used_ok _ hX

theorem qop (f qd qa qb : Nat) : Statement (.qop f qd qa qb) := by
  obtain ⟨W, e⟩ : ∃ W, W = 0x1A000010 + qd * 2 ^ 19 + qa * 2 ^ 13 + qb * 2 ^ 7 + f := ⟨_, rfl⟩
  refine word _ W (by rw [e]; rfl) rfl rfl fun hX => ?_
  have hY : (f < 8 && qd < 8 && qa < 8 && qb < 8) = true := hX
  simp only [Bool.and_eq_true, decide_eq_true_eq] at hY
  have f0 : bits W 24 19 = qd := by unfold bits; omega
  have f1 : bits W 18 13 = qa := by unfold bits; omega
  have f3 : bits W 12 7 = qb := by unfold bits; omega
  have f5 : bits W 6 3 = 2 := by unfold bits; omega
  have f6 : bits W 6 0 = 16 + f := by unfold bits; omega
  have f7 : bits W 2 0 = f := by unfold bits; omega
  refine ⟨by omega, ?_⟩
  rw [major_0D W (by omega)]
  unfold decodeMO0D
  simp only [f0, f1, f3, f5, f6, f7]
  obtain rfl | rfl | rfl | rfl | rfl | rfl | rfl | rfl :=
    (by omega : f = 0 ∨ f = 1 ∨ f = 2 ∨ f = 3 ∨ f = 4 ∨ f = 5 ∨ f = 6 ∨ f = 7) <;> exact used_ok _ hX

theorem loop (lc ra imm : Nat) : Statement (.loop lc ra imm) := by
  obtain ⟨W, e⟩ : ∃ W, W = 0x1C000000 + lc * 2 ^ 19 + ra * 2 ^ 13 + imm := ⟨_, rfl⟩
  refine word _ W (by rw [e]; rfl) rfl rfl fun hX => ?_
  have hY : (lc < 4 && ra < 64 && imm < 8192 && 3 <= imm) = true := hX
  simp only [Bool.and_eq_true, decide_eq_true_eq] at hY
  have f0 : bits W 24 19 = lc := by unfold bits; omega
  have f1 : bits W 18 13 = ra := by unfold bits; omega
  have f2 : bits W 12 0 = imm := by unfold bits; omega
  refine ⟨by omega, ?_⟩
  rw [major_0E W (by omega)]
  unfold decodeMO0E
  simp only [f0, f1, f2]
  exact used_ok _ hX

theorem ld (rd ra sz sp hint off : Nat) : Statement (.ld rd ra sz sp hint off) := by
  obtain ⟨W, e⟩ : ∃ W, W = 0x20000000 + rd * 2 ^ 19 + ra * 2 ^ 13 + sz * 2 ^ 11 + sp * 2 ^ 10 + hint * 2 ^ 8 + off := ⟨_, rfl⟩
  refine word _ W (by rw [e]; rfl) rfl rfl fun hX => ?_
  have hY : (rd < 64 && ra < 64 && sz < 4 && sp < 2 && hint < 4 && off < 256) = true := hX
  simp only [Bool.and_eq_true, decide_eq_true_eq] at hY
  have f0 : bits W 24 19 = rd := by unfold bits; omega
  have f1 : bits W 18 13 = ra := by unfold bits; omega
  have f2 : bits W 12 11 = sz := by unfold bits; omega
  have f3 : bits W 10 10 = sp := by unfold bits; omega
  have f4 : bits W 9 8 = hint := by unfold bits; omega
  have f5 : bits W 7 0 = off := by unfold bits; omega
  refine ⟨by omega, ?_⟩
  rw [major_10 W (by omega)]
  unfold decodeMO10
  simp only [f0, f1, f2, f3, f4, f5]
  exact used_ok _ hX

theorem st (rd ra sz sp hint off : Nat) : Statement (.st rd ra sz sp hint off) := by
  obtain ⟨W, e⟩ : ∃ W, W = 0x22000000 + rd * 2 ^ 19 + ra * 2 ^ 13 + sz * 2 ^ 11 + sp * 2 ^ 10 + hint * 2 ^ 8 + off := ⟨_, rfl⟩
  refine word _ W (by rw [e]; rfl) rfl rfl fun hX => ?_
  have hY : (rd < 64 && ra < 64 && sz < 4 && sp < 2 && hint < 4 && off < 256) = true := hX
  simp only [Bool.and_eq_true, decide_eq_true_eq] at hY
  have f0 : bits W 24 19 = rd := by unfold bits; omega
  have f1 : bits W 18 13 = ra := by unfold bits; omega
  have f2 : bits W 12 11 = sz := by unfold bits; omega
  have f3 : bits W 10 10 = sp := by unfold bits; omega
  have f4 : bits W 9 8 = hint := by unfold bits; omega
  have f5 : bits W 7 0 = off := by unfold bits; omega
  refine ⟨by omega, ?_⟩
  rw [major_11 W (by omega)]
  unfold decodeMO11
  simp only [f0, f1, f2, f3, f4, f5]
  exact used_ok _ hX

theorem ldlast (rd ra sz off : Nat) : Statement (.ldlast rd ra sz off) := by
  obtain ⟨W, e⟩ : ∃ W, W = 0x24000000 + rd * 2 ^ 19 + ra * 2 ^ 13 + sz * 2 ^ 11 + off := ⟨_, rfl⟩
  refine word _ W (by rw [e]; rfl) rfl rfl fun hX => ?_
  have hY : (rd < 64 && ra < 64 && sz < 4 && off < 256) = true := hX
  simp only [Bool.and_eq_true, decide_eq_true_eq] at hY
  have f0 : bits W 24 19 = rd := by unfold bits; omega
  have f1 : bits W 18 13 = ra := by unfold bits; omega
  have f2 : bits W 12 11 = sz := by unfold bits; omega
  have f3 : bits W 10 8 = 0 := by unfold bits; omega
  have f4 : bits W 7 0 = off := by unfold bits; omega
  refine ⟨by omega, ?_⟩
  rw [major_12 W (by omega)]
  unfold decodeMO12
  simp only [f0, f1, f2, f3, f4]
  exact used_ok _ hX

theorem lda (rd ra sz off : Nat) : Statement (.lda rd ra sz off) := by
  obtain ⟨W, e⟩ : ∃ W, W = 0x26000000 + rd * 2 ^ 19 + ra * 2 ^ 13 + sz * 2 ^ 11 + off := ⟨_, rfl⟩
  refine word _ W (by rw [e]; rfl) rfl rfl fun hX => ?_
  have hY : (rd < 64 && ra < 64 && sz < 4 && off < 256) = true := hX
  simp only [Bool.and_eq_true, decide_eq_true_eq] at hY
  have f0 : bits W 24 19 = rd := by unfold bits; omega
  have f1 : bits W 18 13 = ra := by unfold bits; omega
  have f2 : bits W 12 11 = sz := by unfold bits; omega
  have f3 : bits W 10 8 = 0 := by unfold bits; omega
  have f4 : bits W 7 0 = off := by unfold bits; omega
  refine ⟨by omega, ?_⟩
  rw [major_13 W (by omega)]
  unfold decodeMO13
  simp only [f0, f1, f2, f3, f4]
  exact used_ok _ hX

theorem stl (rd ra sz off : Nat) : Statement (.stl rd ra sz off) := by
  obtain ⟨W, e⟩ : ∃ W, W = 0x28000000 + rd * 2 ^ 19 + ra * 2 ^ 13 + sz * 2 ^ 11 + off := ⟨_, rfl⟩
  refine word _ W (by rw [e]; rfl) rfl rfl fun hX => ?_
  have hY : (rd < 64 && ra < 64 && sz < 4 && off < 256) = true := hX
  simp only [Bool.and_eq_true, decide_eq_true_eq] at hY
  have f0 : bits W 24 19 = rd := by unfold bits; omega
  have f1 : bits W 18 13 = ra := by unfold bits; omega
  have f2 : bits W 12 11 = sz := by unfold bits; omega
  have f3 : bits W 10 8 = 0 := by unfold bits; omega
  have f4 : bits W 7 0 = off := by unfold bits; omega
  refine ⟨by omega, ?_⟩
  rw [major_14 W (by omega)]
  unfold decodeMO14
  simp only [f0, f1, f2, f3, f4]
  exact used_ok _ hX

theorem aadd (w ord rd ra rb : Nat) : Statement (.aadd w ord rd ra rb) := by
  obtain ⟨W, e⟩ : ∃ W, W = 0x2A000008 + rd * 2 ^ 19 + ra * 2 ^ 13 + rb * 2 ^ 7 + w * 2 ^ 2 + ord := ⟨_, rfl⟩
  refine word _ W (by rw [e]; rfl) rfl rfl fun hX => ?_
  have hY : (w < 2 && ord < 4 && rd < 64 && ra < 64 && rb < 64) = true := hX
  simp only [Bool.and_eq_true, decide_eq_true_eq] at hY
  have f0 : bits W 24 19 = rd := by unfold bits; omega
  have f1 : bits W 18 13 = ra := by unfold bits; omega
  have f2 : bits W 12 7 = rb := by unfold bits; omega
  have f3 : bits W 6 3 = 1 := by unfold bits; omega
  have f4 : bits W 2 2 = w := by unfold bits; omega
  have f5 : bits W 1 0 = ord := by unfold bits; omega
  refine ⟨by omega, ?_⟩
  rw [major_15 W (by omega)]
  unfold decodeMO15
  simp only [f0, f1, f2, f3, f4, f5]
  exact used_ok _ hX

theorem amin (w ord rd ra rb : Nat) : Statement (.amin w ord rd ra rb) := by
  obtain ⟨W, e⟩ : ∃ W, W = 0x2A000010 + rd * 2 ^ 19 + ra * 2 ^ 13 + rb * 2 ^ 7 + w * 2 ^ 2 + ord := ⟨_, rfl⟩
  refine word _ W (by rw [e]; rfl) rfl rfl fun hX => ?_
  have hY : (w < 2 && ord < 4 && rd < 64 && ra < 64 && rb < 64) = true := hX
  simp only [Bool.and_eq_true, decide_eq_true_eq] at hY
  have f0 : bits W 24 19 = rd := by unfold bits; omega
  have f1 : bits W 18 13 = ra := by unfold bits; omega
  have f2 : bits W 12 7 = rb := by unfold bits; omega
  have f3 : bits W 6 3 = 2 := by unfold bits; omega
  have f4 : bits W 2 2 = w := by unfold bits; omega
  have f5 : bits W 1 0 = ord := by unfold bits; omega
  refine ⟨by omega, ?_⟩
  rw [major_15 W (by omega)]
  unfold decodeMO15
  simp only [f0, f1, f2, f3, f4, f5]
  exact used_ok _ hX

theorem amax (w ord rd ra rb : Nat) : Statement (.amax w ord rd ra rb) := by
  obtain ⟨W, e⟩ : ∃ W, W = 0x2A000018 + rd * 2 ^ 19 + ra * 2 ^ 13 + rb * 2 ^ 7 + w * 2 ^ 2 + ord := ⟨_, rfl⟩
  refine word _ W (by rw [e]; rfl) rfl rfl fun hX => ?_
  have hY : (w < 2 && ord < 4 && rd < 64 && ra < 64 && rb < 64) = true := hX
  simp only [Bool.and_eq_true, decide_eq_true_eq] at hY
  have f0 : bits W 24 19 = rd := by unfold bits; omega
  have f1 : bits W 18 13 = ra := by unfold bits; omega
  have f2 : bits W 12 7 = rb := by unfold bits; omega
  have f3 : bits W 6 3 = 3 := by unfold bits; omega
  have f4 : bits W 2 2 = w := by unfold bits; omega
  have f5 : bits W 1 0 = ord := by unfold bits; omega
  refine ⟨by omega, ?_⟩
  rw [major_15 W (by omega)]
  unfold decodeMO15
  simp only [f0, f1, f2, f3, f4, f5]
  exact used_ok _ hX

theorem aminn (w ord rd ra rb : Nat) : Statement (.aminn w ord rd ra rb) := by
  obtain ⟨W, e⟩ : ∃ W, W = 0x2A000020 + rd * 2 ^ 19 + ra * 2 ^ 13 + rb * 2 ^ 7 + w * 2 ^ 2 + ord := ⟨_, rfl⟩
  refine word _ W (by rw [e]; rfl) rfl rfl fun hX => ?_
  have hY : (w < 2 && ord < 4 && rd < 64 && ra < 64 && rb < 64) = true := hX
  simp only [Bool.and_eq_true, decide_eq_true_eq] at hY
  have f0 : bits W 24 19 = rd := by unfold bits; omega
  have f1 : bits W 18 13 = ra := by unfold bits; omega
  have f2 : bits W 12 7 = rb := by unfold bits; omega
  have f3 : bits W 6 3 = 4 := by unfold bits; omega
  have f4 : bits W 2 2 = w := by unfold bits; omega
  have f5 : bits W 1 0 = ord := by unfold bits; omega
  refine ⟨by omega, ?_⟩
  rw [major_15 W (by omega)]
  unfold decodeMO15
  simp only [f0, f1, f2, f3, f4, f5]
  exact used_ok _ hX

theorem amaxn (w ord rd ra rb : Nat) : Statement (.amaxn w ord rd ra rb) := by
  obtain ⟨W, e⟩ : ∃ W, W = 0x2A000028 + rd * 2 ^ 19 + ra * 2 ^ 13 + rb * 2 ^ 7 + w * 2 ^ 2 + ord := ⟨_, rfl⟩
  refine word _ W (by rw [e]; rfl) rfl rfl fun hX => ?_
  have hY : (w < 2 && ord < 4 && rd < 64 && ra < 64 && rb < 64) = true := hX
  simp only [Bool.and_eq_true, decide_eq_true_eq] at hY
  have f0 : bits W 24 19 = rd := by unfold bits; omega
  have f1 : bits W 18 13 = ra := by unfold bits; omega
  have f2 : bits W 12 7 = rb := by unfold bits; omega
  have f3 : bits W 6 3 = 5 := by unfold bits; omega
  have f4 : bits W 2 2 = w := by unfold bits; omega
  have f5 : bits W 1 0 = ord := by unfold bits; omega
  refine ⟨by omega, ?_⟩
  rw [major_15 W (by omega)]
  unfold decodeMO15
  simp only [f0, f1, f2, f3, f4, f5]
  exact used_ok _ hX

theorem aand (w ord rd ra rb : Nat) : Statement (.aand w ord rd ra rb) := by
  obtain ⟨W, e⟩ : ∃ W, W = 0x2A000030 + rd * 2 ^ 19 + ra * 2 ^ 13 + rb * 2 ^ 7 + w * 2 ^ 2 + ord := ⟨_, rfl⟩
  refine word _ W (by rw [e]; rfl) rfl rfl fun hX => ?_
  have hY : (w < 2 && ord < 4 && rd < 64 && ra < 64 && rb < 64) = true := hX
  simp only [Bool.and_eq_true, decide_eq_true_eq] at hY
  have f0 : bits W 24 19 = rd := by unfold bits; omega
  have f1 : bits W 18 13 = ra := by unfold bits; omega
  have f2 : bits W 12 7 = rb := by unfold bits; omega
  have f3 : bits W 6 3 = 6 := by unfold bits; omega
  have f4 : bits W 2 2 = w := by unfold bits; omega
  have f5 : bits W 1 0 = ord := by unfold bits; omega
  refine ⟨by omega, ?_⟩
  rw [major_15 W (by omega)]
  unfold decodeMO15
  simp only [f0, f1, f2, f3, f4, f5]
  exact used_ok _ hX

theorem aor (w ord rd ra rb : Nat) : Statement (.aor w ord rd ra rb) := by
  obtain ⟨W, e⟩ : ∃ W, W = 0x2A000038 + rd * 2 ^ 19 + ra * 2 ^ 13 + rb * 2 ^ 7 + w * 2 ^ 2 + ord := ⟨_, rfl⟩
  refine word _ W (by rw [e]; rfl) rfl rfl fun hX => ?_
  have hY : (w < 2 && ord < 4 && rd < 64 && ra < 64 && rb < 64) = true := hX
  simp only [Bool.and_eq_true, decide_eq_true_eq] at hY
  have f0 : bits W 24 19 = rd := by unfold bits; omega
  have f1 : bits W 18 13 = ra := by unfold bits; omega
  have f2 : bits W 12 7 = rb := by unfold bits; omega
  have f3 : bits W 6 3 = 7 := by unfold bits; omega
  have f4 : bits W 2 2 = w := by unfold bits; omega
  have f5 : bits W 1 0 = ord := by unfold bits; omega
  refine ⟨by omega, ?_⟩
  rw [major_15 W (by omega)]
  unfold decodeMO15
  simp only [f0, f1, f2, f3, f4, f5]
  exact used_ok _ hX

theorem axor (w ord rd ra rb : Nat) : Statement (.axor w ord rd ra rb) := by
  obtain ⟨W, e⟩ : ∃ W, W = 0x2A000040 + rd * 2 ^ 19 + ra * 2 ^ 13 + rb * 2 ^ 7 + w * 2 ^ 2 + ord := ⟨_, rfl⟩
  refine word _ W (by rw [e]; rfl) rfl rfl fun hX => ?_
  have hY : (w < 2 && ord < 4 && rd < 64 && ra < 64 && rb < 64) = true := hX
  simp only [Bool.and_eq_true, decide_eq_true_eq] at hY
  have f0 : bits W 24 19 = rd := by unfold bits; omega
  have f1 : bits W 18 13 = ra := by unfold bits; omega
  have f2 : bits W 12 7 = rb := by unfold bits; omega
  have f3 : bits W 6 3 = 8 := by unfold bits; omega
  have f4 : bits W 2 2 = w := by unfold bits; omega
  have f5 : bits W 1 0 = ord := by unfold bits; omega
  refine ⟨by omega, ?_⟩
  rw [major_15 W (by omega)]
  unfold decodeMO15
  simp only [f0, f1, f2, f3, f4, f5]
  exact used_ok _ hX

theorem aswap (w ord rd ra rb : Nat) : Statement (.aswap w ord rd ra rb) := by
  obtain ⟨W, e⟩ : ∃ W, W = 0x2A000048 + rd * 2 ^ 19 + ra * 2 ^ 13 + rb * 2 ^ 7 + w * 2 ^ 2 + ord := ⟨_, rfl⟩
  refine word _ W (by rw [e]; rfl) rfl rfl fun hX => ?_
  have hY : (w < 2 && ord < 4 && rd < 64 && ra < 64 && rb < 64) = true := hX
  simp only [Bool.and_eq_true, decide_eq_true_eq] at hY
  have f0 : bits W 24 19 = rd := by unfold bits; omega
  have f1 : bits W 18 13 = ra := by unfold bits; omega
  have f2 : bits W 12 7 = rb := by unfold bits; omega
  have f3 : bits W 6 3 = 9 := by unfold bits; omega
  have f4 : bits W 2 2 = w := by unfold bits; omega
  have f5 : bits W 1 0 = ord := by unfold bits; omega
  refine ⟨by omega, ?_⟩
  rw [major_15 W (by omega)]
  unfold decodeMO15
  simp only [f0, f1, f2, f3, f4, f5]
  exact used_ok _ hX

theorem acas (w ord rd ra rb : Nat) : Statement (.acas w ord rd ra rb) := by
  obtain ⟨W, e⟩ : ∃ W, W = 0x2A000050 + rd * 2 ^ 19 + ra * 2 ^ 13 + rb * 2 ^ 7 + w * 2 ^ 2 + ord := ⟨_, rfl⟩
  refine word _ W (by rw [e]; rfl) rfl rfl fun hX => ?_
  have hY : (w < 2 && ord < 4 && rd < 64 && ra < 64 && rb < 64) = true := hX
  simp only [Bool.and_eq_true, decide_eq_true_eq] at hY
  have f0 : bits W 24 19 = rd := by unfold bits; omega
  have f1 : bits W 18 13 = ra := by unfold bits; omega
  have f2 : bits W 12 7 = rb := by unfold bits; omega
  have f3 : bits W 6 3 = 10 := by unfold bits; omega
  have f4 : bits W 2 2 = w := by unfold bits; omega
  have f5 : bits W 1 0 = ord := by unfold bits; omega
  refine ⟨by omega, ?_⟩
  rw [major_15 W (by omega)]
  unfold decodeMO15
  simp only [f0, f1, f2, f3, f4, f5]
  exact used_ok _ hX

theorem afadd (w ord rd ra rb : Nat) : Statement (.afadd w ord rd ra rb) := by
  obtain ⟨W, e⟩ : ∃ W, W = 0x2A000058 + rd * 2 ^ 19 + ra * 2 ^ 13 + rb * 2 ^ 7 + w * 2 ^ 2 + ord := ⟨_, rfl⟩
  refine word _ W (by rw [e]; rfl) rfl rfl fun hX => ?_
  have hY : (w < 2 && ord < 4 && rd < 64 && ra < 64 && rb < 64) = true := hX
  simp only [Bool.and_eq_true, decide_eq_true_eq] at hY
  have f0 : bits W 24 19 = rd := by unfold bits; omega
  have f1 : bits W 18 13 = ra := by unfold bits; omega
  have f2 : bits W 12 7 = rb := by unfold bits; omega
  have f3 : bits W 6 3 = 11 := by unfold bits; omega
  have f4 : bits W 2 2 = w := by unfold bits; omega
  have f5 : bits W 1 0 = ord := by unfold bits; omega
  refine ⟨by omega, ?_⟩
  rw [major_15 W (by omega)]
  unfold decodeMO15
  simp only [f0, f1, f2, f3, f4, f5]
  exact used_ok _ hX

theorem fenceFull (scope : Nat) : Statement (.fenceFull scope) := by
  obtain ⟨W, e⟩ : ∃ W, W = 0x2C000001 + scope * 2 ^ 19 := ⟨_, rfl⟩
  refine word _ W (by rw [e]; rfl) rfl rfl fun hX => ?_
  have hY : (decide (scope < 5)) = true := hX
  simp only [decide_eq_true_eq] at hY
  have f0 : bits W 24 19 = scope := by unfold bits; omega
  have f1 : bits W 18 13 = 0 := by unfold bits; omega
  have f2 : bits W 12 7 = 0 := by unfold bits; omega
  have f3 : bits W 6 0 = 1 := by unfold bits; omega
  refine ⟨by omega, ?_⟩
  rw [major_16 W (by omega)]
  unfold decodeMO16
  simp only [f0, f1, f2, f3]
  exact used_ok _ hX

theorem fenceRel (scope : Nat) : Statement (.fenceRel scope) := by
  obtain ⟨W, e⟩ : ∃ W, W = 0x2C002001 + scope * 2 ^ 19 := ⟨_, rfl⟩
  refine word _ W (by rw [e]; rfl) rfl rfl fun hX => ?_
  have hY : (decide (scope < 5)) = true := hX
  simp only [decide_eq_true_eq] at hY
  have f0 : bits W 24 19 = scope := by unfold bits; omega
  have f1 : bits W 18 13 = 1 := by unfold bits; omega
  have f2 : bits W 12 7 = 0 := by unfold bits; omega
  have f3 : bits W 6 0 = 1 := by unfold bits; omega
  refine ⟨by omega, ?_⟩
  rw [major_16 W (by omega)]
  unfold decodeMO16
  simp only [f0, f1, f2, f3]
  exact used_ok _ hX

theorem fenceAcq (scope : Nat) : Statement (.fenceAcq scope) := by
  obtain ⟨W, e⟩ : ∃ W, W = 0x2C004001 + scope * 2 ^ 19 := ⟨_, rfl⟩
  refine word _ W (by rw [e]; rfl) rfl rfl fun hX => ?_
  have hY : (decide (scope < 5)) = true := hX
  simp only [decide_eq_true_eq] at hY
  have f0 : bits W 24 19 = scope := by unfold bits; omega
  have f1 : bits W 18 13 = 2 := by unfold bits; omega
  have f2 : bits W 12 7 = 0 := by unfold bits; omega
  have f3 : bits W 6 0 = 1 := by unfold bits; omega
  refine ⟨by omega, ?_⟩
  rw [major_16 W (by omega)]
  unfold decodeMO16
  simp only [f0, f1, f2, f3]
  exact used_ok _ hX

theorem clean (ra rb : Nat) : Statement (.clean ra rb) := by
  obtain ⟨W, e⟩ : ∃ W, W = 0x2C000002 + ra * 2 ^ 13 + rb * 2 ^ 7 := ⟨_, rfl⟩
  refine word _ W (by rw [e]; rfl) rfl rfl fun hX => ?_
  have hY : (ra < 64 && rb < 64) = true := hX
  simp only [Bool.and_eq_true, decide_eq_true_eq] at hY
  have f0 : bits W 24 19 = 0 := by unfold bits; omega
  have f1 : bits W 18 13 = ra := by unfold bits; omega
  have f2 : bits W 12 7 = rb := by unfold bits; omega
  have f3 : bits W 6 0 = 2 := by unfold bits; omega
  refine ⟨by omega, ?_⟩
  rw [major_16 W (by omega)]
  unfold decodeMO16
  simp only [f0, f1, f2, f3]
  exact used_ok _ hX

theorem cleanAll : Statement .cleanAll := by
  obtain ⟨W, e⟩ : ∃ W, W = 0x2C080002 := ⟨_, rfl⟩
  refine word _ W (by rw [e]; rfl) rfl rfl fun hX => ?_
  have f0 : bits W 24 19 = 1 := by unfold bits; omega
  have f1 : bits W 18 13 = 0 := by unfold bits; omega
  have f2 : bits W 12 7 = 0 := by unfold bits; omega
  have f3 : bits W 6 0 = 2 := by unfold bits; omega
  refine ⟨by omega, ?_⟩
  rw [major_16 W (by omega)]
  unfold decodeMO16
  simp only [f0, f1, f2, f3]
  exact used_ok _ hX

theorem inval (ra rb : Nat) : Statement (.inval ra rb) := by
  obtain ⟨W, e⟩ : ∃ W, W = 0x2C000003 + ra * 2 ^ 13 + rb * 2 ^ 7 := ⟨_, rfl⟩
  refine word _ W (by rw [e]; rfl) rfl rfl fun hX => ?_
  have hY : (ra < 64 && rb < 64) = true := hX
  simp only [Bool.and_eq_true, decide_eq_true_eq] at hY
  have f0 : bits W 24 19 = 0 := by unfold bits; omega
  have f1 : bits W 18 13 = ra := by unfold bits; omega
  have f2 : bits W 12 7 = rb := by unfold bits; omega
  have f3 : bits W 6 0 = 3 := by unfold bits; omega
  refine ⟨by omega, ?_⟩
  rw [major_16 W (by omega)]
  unfold decodeMO16
  simp only [f0, f1, f2, f3]
  exact used_ok _ hX

theorem invalAll : Statement .invalAll := by
  obtain ⟨W, e⟩ : ∃ W, W = 0x2C080003 := ⟨_, rfl⟩
  refine word _ W (by rw [e]; rfl) rfl rfl fun hX => ?_
  have f0 : bits W 24 19 = 1 := by unfold bits; omega
  have f1 : bits W 18 13 = 0 := by unfold bits; omega
  have f2 : bits W 12 7 = 0 := by unfold bits; omega
  have f3 : bits W 6 0 = 3 := by unfold bits; omega
  refine ⟨by omega, ?_⟩
  rw [major_16 W (by omega)]
  unfold decodeMO16
  simp only [f0, f1, f2, f3]
  exact used_ok _ hX

theorem phcfg (h ra spm : Nat) : Statement (.phcfg h ra spm) := by
  obtain ⟨W, e⟩ : ∃ W, W = 0x30000001 + h * 2 ^ 19 + ra * 2 ^ 13 + spm * 2 ^ 7 := ⟨_, rfl⟩
  refine word _ W (by rw [e]; rfl) rfl rfl fun hX => ?_
  have hY : (h < 16 && ra < 64 && spm < 2) = true := hX
  simp only [Bool.and_eq_true, decide_eq_true_eq] at hY
  have f0 : bits W 24 19 = h := by unfold bits; omega
  have f1 : bits W 18 13 = ra := by unfold bits; omega
  have f3 : bits W 12 8 = 0 := by unfold bits; omega
  have f5 : bits W 7 7 = spm := by unfold bits; omega
  have f6 : bits W 6 0 = 1 := by unfold bits; omega
  refine ⟨by omega, ?_⟩
  rw [major_18 W (by omega)]
  unfold decodeMO18
  simp only [f0, f1, f3, f5, f6]
  exact used_ok _ hX

theorem phqry (rd h f : Nat) : Statement (.phqry rd h f) := by
  obtain ⟨W, e⟩ : ∃ W, W = 0x30000002 + rd * 2 ^ 19 + h * 2 ^ 13 + f * 2 ^ 7 := ⟨_, rfl⟩
  refine word _ W (by rw [e]; rfl) rfl rfl fun hX => ?_
  have hY : (rd < 64 && h < 16 && f < 4) = true := hX
  simp only [Bool.and_eq_true, decide_eq_true_eq] at hY
  have f0 : bits W 24 19 = rd := by unfold bits; omega
  have f1 : bits W 18 13 = h := by unfold bits; omega
  have f2 : bits W 12 9 = 0 := by unfold bits; omega
  have f4 : bits W 8 7 = f := by unfold bits; omega
  have f6 : bits W 6 0 = 2 := by unfold bits; omega
  refine ⟨by omega, ?_⟩
  rw [major_18 W (by omega)]
  unfold decodeMO18
  simp only [f0, f1, f2, f4, f6]
  exact used_ok _ hX

theorem eset (eng k ra rb : Nat) : Statement (.eset eng k ra rb) := by
  obtain ⟨W, e⟩ : ∃ W, W = 0x40000000 + eng * 2 ^ 21 + k * 2 ^ 12 + ra * 2 ^ 6 + rb := ⟨_, rfl⟩
  refine word _ W (by rw [e]; rfl) rfl rfl fun hX => ?_
  have hY : (eng < 8 && k < 16 && ra < 64 && rb < 64) = true := hX
  simp only [Bool.and_eq_true, decide_eq_true_eq] at hY
  have f0 : bits W 24 21 = eng := by unfold bits; omega
  have f1 : bits W 24 12 = eng * 512 + k := by unfold bits; omega
  have f2 : bits W 20 20 = 0 := by unfold bits; omega
  have f3 : bits W 19 19 = 0 := by unfold bits; omega
  have f4 : bits W 18 16 = 0 := by unfold bits; omega
  have f5 : bits W 15 12 = k := by unfold bits; omega
  have f6 : bits W 11 6 = ra := by unfold bits; omega
  have f7 : bits W 5 0 = rb := by unfold bits; omega
  refine ⟨by omega, ?_⟩
  rw [major_20 W (by omega)]
  unfold decodeMO20
  simp only [f0, f1, f2, f3, f4, f5, f6, f7]
  exact used_ok _ hX

theorem egoCopy (rd : Nat) : Statement (.egoCopy rd) := by
  obtain ⟨W, e⟩ : ∃ W, W = 0x40100000 + rd * 2 ^ 6 := ⟨_, rfl⟩
  refine word _ W (by rw [e]; rfl) rfl rfl fun hX => ?_
  have hY : (decide (rd < 64)) = true := hX
  simp only [decide_eq_true_eq] at hY
  have f0 : bits W 24 21 = 0 := by unfold bits; omega
  have f1 : bits W 24 12 = 256 := by unfold bits; omega
  have f2 : bits W 20 20 = 1 := by unfold bits; omega
  have f3 : bits W 19 19 = 0 := by unfold bits; omega
  have f4 : bits W 18 16 = 0 := by unfold bits; omega
  have f5 : bits W 15 12 = 0 := by unfold bits; omega
  have f6 : bits W 11 6 = rd := by unfold bits; omega
  have f7 : bits W 5 0 = 0 := by unfold bits; omega
  refine ⟨by omega, ?_⟩
  rw [major_20 W (by omega)]
  unfold decodeMO20
  simp only [f0, f1, f2, f3, f4, f5, f6, f7]
  exact used_ok _ hX

theorem egoGather (rd : Nat) : Statement (.egoGather rd) := by
  obtain ⟨W, e⟩ : ∃ W, W = 0x40300000 + rd * 2 ^ 6 := ⟨_, rfl⟩
  refine word _ W (by rw [e]; rfl) rfl rfl fun hX => ?_
  have hY : (decide (rd < 64)) = true := hX
  simp only [decide_eq_true_eq] at hY
  have f0 : bits W 24 21 = 1 := by unfold bits; omega
  have f1 : bits W 24 12 = 768 := by unfold bits; omega
  have f2 : bits W 20 20 = 1 := by unfold bits; omega
  have f3 : bits W 19 19 = 0 := by unfold bits; omega
  have f4 : bits W 18 16 = 0 := by unfold bits; omega
  have f5 : bits W 15 12 = 0 := by unfold bits; omega
  have f6 : bits W 11 6 = rd := by unfold bits; omega
  have f7 : bits W 5 0 = 0 := by unfold bits; omega
  refine ⟨by omega, ?_⟩
  rw [major_20 W (by omega)]
  unfold decodeMO20
  simp only [f0, f1, f2, f3, f4, f5, f6, f7]
  exact used_ok _ hX

theorem egoScatter (rd : Nat) : Statement (.egoScatter rd) := by
  obtain ⟨W, e⟩ : ∃ W, W = 0x40500000 + rd * 2 ^ 6 := ⟨_, rfl⟩
  refine word _ W (by rw [e]; rfl) rfl rfl fun hX => ?_
  have hY : (decide (rd < 64)) = true := hX
  simp only [decide_eq_true_eq] at hY
  have f0 : bits W 24 21 = 2 := by unfold bits; omega
  have f1 : bits W 24 12 = 1280 := by unfold bits; omega
  have f2 : bits W 20 20 = 1 := by unfold bits; omega
  have f3 : bits W 19 19 = 0 := by unfold bits; omega
  have f4 : bits W 18 16 = 0 := by unfold bits; omega
  have f5 : bits W 15 12 = 0 := by unfold bits; omega
  have f6 : bits W 11 6 = rd := by unfold bits; omega
  have f7 : bits W 5 0 = 0 := by unfold bits; omega
  refine ⟨by omega, ?_⟩
  rw [major_20 W (by omega)]
  unfold decodeMO20
  simp only [f0, f1, f2, f3, f4, f5, f6, f7]
  exact used_ok _ hX

theorem egoTrack (rd : Nat) : Statement (.egoTrack rd) := by
  obtain ⟨W, e⟩ : ∃ W, W = 0x40700000 + rd * 2 ^ 6 := ⟨_, rfl⟩
  refine word _ W (by rw [e]; rfl) rfl rfl fun hX => ?_
  have hY : (decide (rd < 64)) = true := hX
  simp only [decide_eq_true_eq] at hY
  have f0 : bits W 24 21 = 3 := by unfold bits; omega
  have f1 : bits W 24 12 = 1792 := by unfold bits; omega
  have f2 : bits W 20 20 = 1 := by unfold bits; omega
  have f3 : bits W 19 19 = 0 := by unfold bits; omega
  have f4 : bits W 18 16 = 0 := by unfold bits; omega
  have f5 : bits W 15 12 = 0 := by unfold bits; omega
  have f6 : bits W 11 6 = rd := by unfold bits; omega
  have f7 : bits W 5 0 = 0 := by unfold bits; omega
  refine ⟨by omega, ?_⟩
  rw [major_20 W (by omega)]
  unfold decodeMO20
  simp only [f0, f1, f2, f3, f4, f5, f6, f7]
  exact used_ok _ hX

theorem egoTraj (rd : Nat) : Statement (.egoTraj rd) := by
  obtain ⟨W, e⟩ : ∃ W, W = 0x40900000 + rd * 2 ^ 6 := ⟨_, rfl⟩
  refine word _ W (by rw [e]; rfl) rfl rfl fun hX => ?_
  have hY : (decide (rd < 64)) = true := hX
  simp only [decide_eq_true_eq] at hY
  have f0 : bits W 24 21 = 4 := by unfold bits; omega
  have f1 : bits W 24 12 = 2304 := by unfold bits; omega
  have f2 : bits W 20 20 = 1 := by unfold bits; omega
  have f3 : bits W 19 19 = 0 := by unfold bits; omega
  have f4 : bits W 18 16 = 0 := by unfold bits; omega
  have f5 : bits W 15 12 = 0 := by unfold bits; omega
  have f6 : bits W 11 6 = rd := by unfold bits; omega
  have f7 : bits W 5 0 = 0 := by unfold bits; omega
  refine ⟨by omega, ?_⟩
  rw [major_20 W (by omega)]
  unfold decodeMO20
  simp only [f0, f1, f2, f3, f4, f5, f6, f7]
  exact used_ok _ hX

theorem egoSink (rd : Nat) : Statement (.egoSink rd) := by
  obtain ⟨W, e⟩ : ∃ W, W = 0x40B00000 + rd * 2 ^ 6 := ⟨_, rfl⟩
  refine word _ W (by rw [e]; rfl) rfl rfl fun hX => ?_
  have hY : (decide (rd < 64)) = true := hX
  simp only [decide_eq_true_eq] at hY
  have f0 : bits W 24 21 = 5 := by unfold bits; omega
  have f1 : bits W 24 12 = 2816 := by unfold bits; omega
  have f2 : bits W 20 20 = 1 := by unfold bits; omega
  have f3 : bits W 19 19 = 0 := by unfold bits; omega
  have f4 : bits W 18 16 = 0 := by unfold bits; omega
  have f5 : bits W 15 12 = 0 := by unfold bits; omega
  have f6 : bits W 11 6 = rd := by unfold bits; omega
  have f7 : bits W 5 0 = 0 := by unfold bits; omega
  refine ⟨by omega, ?_⟩
  rw [major_20 W (by omega)]
  unfold decodeMO20
  simp only [f0, f1, f2, f3, f4, f5, f6, f7]
  exact used_ok _ hX

theorem egoNmred (rd : Nat) : Statement (.egoNmred rd) := by
  obtain ⟨W, e⟩ : ∃ W, W = 0x40D00000 + rd * 2 ^ 6 := ⟨_, rfl⟩
  refine word _ W (by rw [e]; rfl) rfl rfl fun hX => ?_
  have hY : (decide (rd < 64)) = true := hX
  simp only [decide_eq_true_eq] at hY
  have f0 : bits W 24 21 = 6 := by unfold bits; omega
  have f1 : bits W 24 12 = 3328 := by unfold bits; omega
  have f2 : bits W 20 20 = 1 := by unfold bits; omega
  have f3 : bits W 19 19 = 0 := by unfold bits; omega
  have f4 : bits W 18 16 = 0 := by unfold bits; omega
  have f5 : bits W 15 12 = 0 := by unfold bits; omega
  have f6 : bits W 11 6 = rd := by unfold bits; omega
  have f7 : bits W 5 0 = 0 := by unfold bits; omega
  refine ⟨by omega, ?_⟩
  rw [major_20 W (by omega)]
  unfold decodeMO20
  simp only [f0, f1, f2, f3, f4, f5, f6, f7]
  exact used_ok _ hX

theorem egoPort (rd : Nat) : Statement (.egoPort rd) := by
  obtain ⟨W, e⟩ : ∃ W, W = 0x40F00000 + rd * 2 ^ 6 := ⟨_, rfl⟩
  refine word _ W (by rw [e]; rfl) rfl rfl fun hX => ?_
  have hY : (decide (rd < 64)) = true := hX
  simp only [decide_eq_true_eq] at hY
  have f0 : bits W 24 21 = 7 := by unfold bits; omega
  have f1 : bits W 24 12 = 3840 := by unfold bits; omega
  have f2 : bits W 20 20 = 1 := by unfold bits; omega
  have f3 : bits W 19 19 = 0 := by unfold bits; omega
  have f4 : bits W 18 16 = 0 := by unfold bits; omega
  have f5 : bits W 15 12 = 0 := by unfold bits; omega
  have f6 : bits W 11 6 = rd := by unfold bits; omega
  have f7 : bits W 5 0 = 0 := by unfold bits; omega
  refine ⟨by omega, ?_⟩
  rw [major_20 W (by omega)]
  unfold decodeMO20
  simp only [f0, f1, f2, f3, f4, f5, f6, f7]
  exact used_ok _ hX

theorem estat (rd rb : Nat) : Statement (.estat rd rb) := by
  obtain ⟨W, e⟩ : ∃ W, W = 0x40101000 + rd * 2 ^ 6 + rb := ⟨_, rfl⟩
  refine word _ W (by rw [e]; rfl) rfl rfl fun hX => ?_
  have hY : (rd < 64 && rb < 64) = true := hX
  simp only [Bool.and_eq_true, decide_eq_true_eq] at hY
  have f0 : bits W 24 21 = 0 := by unfold bits; omega
  have f1 : bits W 24 12 = 257 := by unfold bits; omega
  have f2 : bits W 20 20 = 1 := by unfold bits; omega
  have f3 : bits W 19 19 = 0 := by unfold bits; omega
  have f4 : bits W 18 16 = 0 := by unfold bits; omega
  have f5 : bits W 15 12 = 1 := by unfold bits; omega
  have f6 : bits W 11 6 = rd := by unfold bits; omega
  have f7 : bits W 5 0 = rb := by unfold bits; omega
  refine ⟨by omega, ?_⟩
  rw [major_20 W (by omega)]
  unfold decodeMO20
  simp only [f0, f1, f2, f3, f4, f5, f6, f7]
  exact used_ok _ hX

theorem ewait (rd rb : Nat) : Statement (.ewait rd rb) := by
  obtain ⟨W, e⟩ : ∃ W, W = 0x40102000 + rd * 2 ^ 6 + rb := ⟨_, rfl⟩
  refine word _ W (by rw [e]; rfl) rfl rfl fun hX => ?_
  have hY : (rd < 64 && rb < 64) = true := hX
  simp only [Bool.and_eq_true, decide_eq_true_eq] at hY
  have f0 : bits W 24 21 = 0 := by unfold bits; omega
  have f1 : bits W 24 12 = 258 := by unfold bits; omega
  have f2 : bits W 20 20 = 1 := by unfold bits; omega
  have f3 : bits W 19 19 = 0 := by unfold bits; omega
  have f4 : bits W 18 16 = 0 := by unfold bits; omega
  have f5 : bits W 15 12 = 2 := by unfold bits; omega
  have f6 : bits W 11 6 = rd := by unfold bits; omega
  have f7 : bits W 5 0 = rb := by unfold bits; omega
  refine ⟨by omega, ?_⟩
  rw [major_20 W (by omega)]
  unfold decodeMO20
  simp only [f0, f1, f2, f3, f4, f5, f6, f7]
  exact used_ok _ hX

theorem ecancel (rd rb : Nat) : Statement (.ecancel rd rb) := by
  obtain ⟨W, e⟩ : ∃ W, W = 0x40103000 + rd * 2 ^ 6 + rb := ⟨_, rfl⟩
  refine word _ W (by rw [e]; rfl) rfl rfl fun hX => ?_
  have hY : (rd < 64 && rb < 64) = true := hX
  simp only [Bool.and_eq_true, decide_eq_true_eq] at hY
  have f0 : bits W 24 21 = 0 := by unfold bits; omega
  have f1 : bits W 24 12 = 259 := by unfold bits; omega
  have f2 : bits W 20 20 = 1 := by unfold bits; omega
  have f3 : bits W 19 19 = 0 := by unfold bits; omega
  have f4 : bits W 18 16 = 0 := by unfold bits; omega
  have f5 : bits W 15 12 = 3 := by unfold bits; omega
  have f6 : bits W 11 6 = rd := by unfold bits; omega
  have f7 : bits W 5 0 = rb := by unfold bits; omega
  refine ⟨by omega, ?_⟩
  rw [major_20 W (by omega)]
  unfold decodeMO20
  simp only [f0, f1, f2, f3, f4, f5, f6, f7]
  exact used_ok _ hX

theorem mshapeLoad (sh ra spm : Nat) : Statement (.mshapeLoad sh ra spm) := by
  obtain ⟨W, e⟩ : ∃ W, W = 0x42000001 + sh * 2 ^ 19 + ra * 2 ^ 13 + spm * 2 ^ 7 := ⟨_, rfl⟩
  refine word _ W (by rw [e]; rfl) rfl rfl fun hX => ?_
  have hY : (sh < 16 && ra < 64 && spm < 2) = true := hX
  simp only [Bool.and_eq_true, decide_eq_true_eq] at hY
  have f0 : bits W 24 19 = sh := by unfold bits; omega
  have f1 : bits W 18 13 = ra := by unfold bits; omega
  have f4 : bits W 12 8 = 0 := by unfold bits; omega
  have f8 : bits W 7 7 = spm := by unfold bits; omega
  have f9 : bits W 6 0 = 1 := by unfold bits; omega
  refine ⟨by omega, ?_⟩
  rw [major_21 W (by omega)]
  unfold decodeMO21
  simp only [f0, f1, f4, f8, f9]
  exact used_ok _ hX

theorem mshapeWord (sh ra f : Nat) : Statement (.mshapeWord sh ra f) := by
  obtain ⟨W, e⟩ : ∃ W, W = 0x42000002 + sh * 2 ^ 19 + ra * 2 ^ 13 + f * 2 ^ 7 := ⟨_, rfl⟩
  refine word _ W (by rw [e]; rfl) rfl rfl fun hX => ?_
  have hY : (sh < 16 && ra < 64 && f < 4) = true := hX
  simp only [Bool.and_eq_true, decide_eq_true_eq] at hY
  have f0 : bits W 24 19 = sh := by unfold bits; omega
  have f1 : bits W 18 13 = ra := by unfold bits; omega
  have f3 : bits W 12 9 = 0 := by unfold bits; omega
  have f7 : bits W 8 7 = f := by unfold bits; omega
  have f9 : bits W 6 0 = 2 := by unfold bits; omega
  refine ⟨by omega, ?_⟩
  rw [major_21 W (by omega)]
  unfold decodeMO21
  simp only [f0, f1, f3, f7, f9]
  exact used_ok _ hX

theorem mshq (rd sh f : Nat) : Statement (.mshq rd sh f) := by
  obtain ⟨W, e⟩ : ∃ W, W = 0x42000003 + rd * 2 ^ 19 + sh * 2 ^ 13 + f * 2 ^ 7 := ⟨_, rfl⟩
  refine word _ W (by rw [e]; rfl) rfl rfl fun hX => ?_
  have hY : (rd < 64 && sh < 16 && f < 4) = true := hX
  simp only [Bool.and_eq_true, decide_eq_true_eq] at hY
  have f0 : bits W 24 19 = rd := by unfold bits; omega
  have f1 : bits W 18 13 = sh := by unfold bits; omega
  have f3 : bits W 12 9 = 0 := by unfold bits; omega
  have f7 : bits W 8 7 = f := by unfold bits; omega
  have f9 : bits W 6 0 = 3 := by unfold bits; omega
  refine ⟨by omega, ?_⟩
  rw [major_21 W (by omega)]
  unfold decodeMO21
  simp only [f0, f1, f3, f7, f9]
  exact used_ok _ hX

theorem mgeo (rd c : Nat) : Statement (.mgeo rd c) := by
  obtain ⟨W, e⟩ : ∃ W, W = 0x42000004 + rd * 2 ^ 19 + c * 2 ^ 7 := ⟨_, rfl⟩
  refine word _ W (by rw [e]; rfl) rfl rfl fun hX => ?_
  have hY : (rd < 64 && c < 4) = true := hX
  simp only [Bool.and_eq_true, decide_eq_true_eq] at hY
  have f0 : bits W 24 19 = rd := by unfold bits; omega
  have f1 : bits W 18 13 = 0 := by unfold bits; omega
  have f3 : bits W 12 9 = 0 := by unfold bits; omega
  have f7 : bits W 8 7 = c := by unfold bits; omega
  have f9 : bits W 6 0 = 4 := by unfold bits; omega
  refine ⟨by omega, ?_⟩
  rw [major_21 W (by omega)]
  unfold decodeMO21
  simp only [f0, f1, f3, f7, f9]
  exact used_ok _ hX

theorem maccsave (acc ra spm : Nat) : Statement (.maccsave acc ra spm) := by
  obtain ⟨W, e⟩ : ∃ W, W = 0x42000005 + acc * 2 ^ 19 + ra * 2 ^ 13 + spm * 2 ^ 7 := ⟨_, rfl⟩
  refine word _ W (by rw [e]; rfl) rfl rfl fun hX => ?_
  have hY : (acc < 4 && ra < 64 && spm < 2) = true := hX
  simp only [Bool.and_eq_true, decide_eq_true_eq] at hY
  have f0 : bits W 24 19 = acc := by unfold bits; omega
  have f1 : bits W 18 13 = ra := by unfold bits; omega
  have f4 : bits W 12 8 = 0 := by unfold bits; omega
  have f8 : bits W 7 7 = spm := by unfold bits; omega
  have f9 : bits W 6 0 = 5 := by unfold bits; omega
  refine ⟨by omega, ?_⟩
  rw [major_21 W (by omega)]
  unfold decodeMO21
  simp only [f0, f1, f4, f8, f9]
  exact used_ok _ hX

theorem maccload (acc ra spm : Nat) : Statement (.maccload acc ra spm) := by
  obtain ⟨W, e⟩ : ∃ W, W = 0x42000006 + acc * 2 ^ 19 + ra * 2 ^ 13 + spm * 2 ^ 7 := ⟨_, rfl⟩
  refine word _ W (by rw [e]; rfl) rfl rfl fun hX => ?_
  have hY : (acc < 4 && ra < 64 && spm < 2) = true := hX
  simp only [Bool.and_eq_true, decide_eq_true_eq] at hY
  have f0 : bits W 24 19 = acc := by unfold bits; omega
  have f1 : bits W 18 13 = ra := by unfold bits; omega
  have f4 : bits W 12 8 = 0 := by unfold bits; omega
  have f8 : bits W 7 7 = spm := by unfold bits; omega
  have f9 : bits W 6 0 = 6 := by unfold bits; omega
  refine ⟨by omega, ?_⟩
  rw [major_21 W (by omega)]
  unfold decodeMO21
  simp only [f0, f1, f4, f8, f9]
  exact used_ok _ hX

theorem mstat (rd ra sl : Nat) : Statement (.mstat rd ra sl) := by
  obtain ⟨W, e⟩ : ∃ W, W = 0x42000007 + rd * 2 ^ 19 + ra * 2 ^ 13 + sl * 2 ^ 7 := ⟨_, rfl⟩
  refine word _ W (by rw [e]; rfl) rfl rfl fun hX => ?_
  have hY : (rd < 64 && ra < 64 && sl < 7 && sl != 5 && (sl != 0 && sl != 1 || ra == 0)) = true := hX
  simp only [Bool.and_eq_true, decide_eq_true_eq] at hY
  have f0 : bits W 24 19 = rd := by unfold bits; omega
  have f1 : bits W 18 13 = ra := by unfold bits; omega
  have f2 : bits W 12 10 = 0 := by unfold bits; omega
  have f5 : bits W 12 7 = sl := by unfold bits; omega
  have f6 : bits W 9 7 = sl := by unfold bits; omega
  have f9 : bits W 6 0 = 7 := by unfold bits; omega
  refine ⟨by omega, ?_⟩
  rw [major_21 W (by omega)]
  unfold decodeMO21
  simp only [f0, f1, f2, f5, f6, f9]
  have n1 : (sl == 5) = false := by simpa using hY.1.2
  simp only [n1, Bool.and_false]
  exact used_ok _ hX

theorem mstatReset (rd : Nat) : Statement (.mstatReset rd) := by
  obtain ⟨W, e⟩ : ∃ W, W = 0x42000287 + rd * 2 ^ 19 := ⟨_, rfl⟩
  refine word _ W (by rw [e]; rfl) rfl rfl fun hX => ?_
  have hY : (decide (rd < 64)) = true := hX
  simp only [decide_eq_true_eq] at hY
  have f0 : bits W 24 19 = rd := by unfold bits; omega
  have f1 : bits W 18 13 = 0 := by unfold bits; omega
  have f2 : bits W 12 10 = 0 := by unfold bits; omega
  have f5 : bits W 12 7 = 5 := by unfold bits; omega
  have f6 : bits W 9 7 = 5 := by unfold bits; omega
  have f9 : bits W 6 0 = 7 := by unfold bits; omega
  refine ⟨by omega, ?_⟩
  rw [major_21 W (by omega)]
  unfold decodeMO21
  simp only [f0, f1, f2, f5, f6, f9]
  exact used_ok _ hX

theorem cntinc (rd ra rb : Nat) : Statement (.cntinc rd ra rb) := by
  obtain ⟨W, e⟩ : ∃ W, W = 0x44000001 + rd * 2 ^ 19 + ra * 2 ^ 13 + rb * 2 ^ 7 := ⟨_, rfl⟩
  refine word _ W (by rw [e]; rfl) rfl rfl fun hX => ?_
  have hY : (rd < 64 && ra < 64 && rb < 64) = true := hX
  simp only [Bool.and_eq_true, decide_eq_true_eq] at hY
  have f0 : bits W 24 19 = rd := by unfold bits; omega
  have f1 : bits W 18 13 = ra := by unfold bits; omega
  have f2 : bits W 12 7 = rb := by unfold bits; omega
  have f3 : bits W 6 0 = 1 := by unfold bits; omega
  refine ⟨by omega, ?_⟩
  rw [major_22 W (by omega)]
  unfold decodeMO22
  simp only [f0, f1, f2, f3]
  exact used_ok _ hX

theorem cntwait (rd ra rb : Nat) : Statement (.cntwait rd ra rb) := by
  obtain ⟨W, e⟩ : ∃ W, W = 0x44000002 + rd * 2 ^ 19 + ra * 2 ^ 13 + rb * 2 ^ 7 := ⟨_, rfl⟩
  refine word _ W (by rw [e]; rfl) rfl rfl fun hX => ?_
  have hY : (rd < 64 && ra < 64 && rb < 64) = true := hX
  simp only [Bool.and_eq_true, decide_eq_true_eq] at hY
  have f0 : bits W 24 19 = rd := by unfold bits; omega
  have f1 : bits W 18 13 = ra := by unfold bits; omega
  have f2 : bits W 12 7 = rb := by unfold bits; omega
  have f3 : bits W 6 0 = 2 := by unfold bits; omega
  refine ⟨by omega, ?_⟩
  rw [major_22 W (by omega)]
  unfold decodeMO22
  simp only [f0, f1, f2, f3]
  exact used_ok _ hX

theorem cntrd (rd ra : Nat) : Statement (.cntrd rd ra) := by
  obtain ⟨W, e⟩ : ∃ W, W = 0x44000003 + rd * 2 ^ 19 + ra * 2 ^ 13 := ⟨_, rfl⟩
  refine word _ W (by rw [e]; rfl) rfl rfl fun hX => ?_
  have hY : (rd < 64 && ra < 64) = true := hX
  simp only [Bool.and_eq_true, decide_eq_true_eq] at hY
  have f0 : bits W 24 19 = rd := by unfold bits; omega
  have f1 : bits W 18 13 = ra := by unfold bits; omega
  have f2 : bits W 12 7 = 0 := by unfold bits; omega
  have f3 : bits W 6 0 = 3 := by unfold bits; omega
  refine ⟨by omega, ?_⟩
  rw [major_22 W (by omega)]
  unfold decodeMO22
  simp only [f0, f1, f2, f3]
  exact used_ok _ hX

theorem cntset (ra rb : Nat) : Statement (.cntset ra rb) := by
  obtain ⟨W, e⟩ : ∃ W, W = 0x44000004 + ra * 2 ^ 13 + rb * 2 ^ 7 := ⟨_, rfl⟩
  refine word _ W (by rw [e]; rfl) rfl rfl fun hX => ?_
  have hY : (ra < 64 && rb < 64) = true := hX
  simp only [Bool.and_eq_true, decide_eq_true_eq] at hY
  have f0 : bits W 24 19 = 0 := by unfold bits; omega
  have f1 : bits W 18 13 = ra := by unfold bits; omega
  have f2 : bits W 12 7 = rb := by unfold bits; omega
  have f3 : bits W 6 0 = 4 := by unfold bits; omega
  refine ⟨by omega, ?_⟩
  rw [major_22 W (by omega)]
  unfold decodeMO22
  simp only [f0, f1, f2, f3]
  exact used_ok _ hX

theorem ocset (rd ra rb : Nat) : Statement (.ocset rd ra rb) := by
  obtain ⟨W, e⟩ : ∃ W, W = 0x46000001 + rd * 2 ^ 19 + ra * 2 ^ 13 + rb * 2 ^ 7 := ⟨_, rfl⟩
  refine word _ W (by rw [e]; rfl) rfl rfl fun hX => ?_
  have hY : (rd < 64 && ra < 64 && rb < 64) = true := hX
  simp only [Bool.and_eq_true, decide_eq_true_eq] at hY
  have f0 : bits W 24 19 = rd := by unfold bits; omega
  have f1 : bits W 18 13 = ra := by unfold bits; omega
  have f3 : bits W 12 7 = rb := by unfold bits; omega
  have f5 : bits W 6 0 = 1 := by unfold bits; omega
  refine ⟨by omega, ?_⟩
  rw [major_23 W (by omega)]
  unfold decodeMO23
  simp only [f0, f1, f3, f5]
  exact used_ok _ hX

theorem topoq (rd ra sl : Nat) : Statement (.topoq rd ra sl) := by
  obtain ⟨W, e⟩ : ∃ W, W = 0x46000002 + rd * 2 ^ 19 + ra * 2 ^ 13 + sl * 2 ^ 7 := ⟨_, rfl⟩
  refine word _ W (by rw [e]; rfl) rfl rfl fun hX => ?_
  have hY : (rd < 64 && ra < 64 && sl < 3 && (sl != 0 || ra == 0)) = true := hX
  simp only [Bool.and_eq_true, decide_eq_true_eq] at hY
  have f0 : bits W 24 19 = rd := by unfold bits; omega
  have f1 : bits W 18 13 = ra := by unfold bits; omega
  have f2 : bits W 12 9 = 0 := by unfold bits; omega
  have f4 : bits W 8 7 = sl := by unfold bits; omega
  have f5 : bits W 6 0 = 2 := by unfold bits; omega
  refine ⟨by omega, ?_⟩
  rw [major_23 W (by omega)]
  unfold decodeMO23
  simp only [f0, f1, f2, f4, f5]
  exact used_ok _ hX

theorem fwset (ra rb : Nat) : Statement (.fwset ra rb) := by
  obtain ⟨W, e⟩ : ∃ W, W = 0x46000003 + ra * 2 ^ 13 + rb * 2 ^ 7 := ⟨_, rfl⟩
  refine word _ W (by rw [e]; rfl) rfl rfl fun hX => ?_
  have hY : (ra < 64 && rb < 64) = true := hX
  simp only [Bool.and_eq_true, decide_eq_true_eq] at hY
  have f0 : bits W 24 19 = 0 := by unfold bits; omega
  have f1 : bits W 18 13 = ra := by unfold bits; omega
  have f3 : bits W 12 7 = rb := by unfold bits; omega
  have f5 : bits W 6 0 = 3 := by unfold bits; omega
  refine ⟨by omega, ?_⟩
  rw [major_23 W (by omega)]
  unfold decodeMO23
  simp only [f0, f1, f3, f5]
  exact used_ok _ hX

theorem fwq (rd ra sl : Nat) : Statement (.fwq rd ra sl) := by
  obtain ⟨W, e⟩ : ∃ W, W = 0x46000004 + rd * 2 ^ 19 + ra * 2 ^ 13 + sl * 2 ^ 7 := ⟨_, rfl⟩
  refine word _ W (by rw [e]; rfl) rfl rfl fun hX => ?_
  have hY : (rd < 64 && ra < 64 && sl < 3 && (sl == 1 || ra == 0)) = true := hX
  simp only [Bool.and_eq_true, decide_eq_true_eq] at hY
  have f0 : bits W 24 19 = rd := by unfold bits; omega
  have f1 : bits W 18 13 = ra := by unfold bits; omega
  have f2 : bits W 12 9 = 0 := by unfold bits; omega
  have f4 : bits W 8 7 = sl := by unfold bits; omega
  have f5 : bits W 6 0 = 4 := by unfold bits; omega
  refine ⟨by omega, ?_⟩
  rw [major_23 W (by omega)]
  unfold decodeMO23
  simp only [f0, f1, f2, f4, f5]
  exact used_ok _ hX

theorem vpubStage (ra rb : Nat) : Statement (.vpubStage ra rb) := by
  obtain ⟨W, e⟩ : ∃ W, W = 0x48000001 + ra * 2 ^ 13 + rb * 2 ^ 7 := ⟨_, rfl⟩
  refine word _ W (by rw [e]; rfl) rfl rfl fun hX => ?_
  have hY : (ra < 64 && rb < 64) = true := hX
  simp only [Bool.and_eq_true, decide_eq_true_eq] at hY
  have f0 : bits W 24 19 = 0 := by unfold bits; omega
  have f1 : bits W 18 13 = ra := by unfold bits; omega
  have f3 : bits W 12 7 = rb := by unfold bits; omega
  have f5 : bits W 6 0 = 1 := by unfold bits; omega
  refine ⟨by omega, ?_⟩
  rw [major_24 W (by omega)]
  unfold decodeMO24
  simp only [f0, f1, f3, f5]
  exact used_ok _ hX

theorem vpub (rd ra : Nat) : Statement (.vpub rd ra) := by
  obtain ⟨W, e⟩ : ∃ W, W = 0x48000002 + rd * 2 ^ 19 + ra * 2 ^ 13 := ⟨_, rfl⟩
  refine word _ W (by rw [e]; rfl) rfl rfl fun hX => ?_
  have hY : (rd < 64 && ra < 64) = true := hX
  simp only [Bool.and_eq_true, decide_eq_true_eq] at hY
  have f0 : bits W 24 19 = rd := by unfold bits; omega
  have f1 : bits W 18 13 = ra := by unfold bits; omega
  have f3 : bits W 12 7 = 0 := by unfold bits; omega
  have f5 : bits W 6 0 = 2 := by unfold bits; omega
  refine ⟨by omega, ?_⟩
  rw [major_24 W (by omega)]
  unfold decodeMO24
  simp only [f0, f1, f3, f5]
  exact used_ok _ hX

theorem vpubF (rd ra rb : Nat) : Statement (.vpubF rd ra rb) := by
  obtain ⟨W, e⟩ : ∃ W, W = 0x48000003 + rd * 2 ^ 19 + ra * 2 ^ 13 + rb * 2 ^ 7 := ⟨_, rfl⟩
  refine word _ W (by rw [e]; rfl) rfl rfl fun hX => ?_
  have hY : (rd < 64 && ra < 64 && rb < 64) = true := hX
  simp only [Bool.and_eq_true, decide_eq_true_eq] at hY
  have f0 : bits W 24 19 = rd := by unfold bits; omega
  have f1 : bits W 18 13 = ra := by unfold bits; omega
  have f3 : bits W 12 7 = rb := by unfold bits; omega
  have f5 : bits W 6 0 = 3 := by unfold bits; omega
  refine ⟨by omega, ?_⟩
  rw [major_24 W (by omega)]
  unfold decodeMO24
  simp only [f0, f1, f3, f5]
  exact used_ok _ hX

theorem vadoptSeq (rd ra : Nat) : Statement (.vadoptSeq rd ra) := by
  obtain ⟨W, e⟩ : ∃ W, W = 0x48000004 + rd * 2 ^ 19 + ra * 2 ^ 13 := ⟨_, rfl⟩
  refine word _ W (by rw [e]; rfl) rfl rfl fun hX => ?_
  have hY : (rd < 64 && ra < 64) = true := hX
  simp only [Bool.and_eq_true, decide_eq_true_eq] at hY
  have f0 : bits W 24 19 = rd := by unfold bits; omega
  have f1 : bits W 18 13 = ra := by unfold bits; omega
  have f3 : bits W 12 7 = 0 := by unfold bits; omega
  have f5 : bits W 6 0 = 4 := by unfold bits; omega
  refine ⟨by omega, ?_⟩
  rw [major_24 W (by omega)]
  unfold decodeMO24
  simp only [f0, f1, f3, f5]
  exact used_ok _ hX

theorem vadoptStep (rd ra : Nat) : Statement (.vadoptStep rd ra) := by
  obtain ⟨W, e⟩ : ∃ W, W = 0x48000005 + rd * 2 ^ 19 + ra * 2 ^ 13 := ⟨_, rfl⟩
  refine word _ W (by rw [e]; rfl) rfl rfl fun hX => ?_
  have hY : (rd < 64 && ra < 64) = true := hX
  simp only [Bool.and_eq_true, decide_eq_true_eq] at hY
  have f0 : bits W 24 19 = rd := by unfold bits; omega
  have f1 : bits W 18 13 = ra := by unfold bits; omega
  have f3 : bits W 12 7 = 0 := by unfold bits; omega
  have f5 : bits W 6 0 = 5 := by unfold bits; omega
  refine ⟨by omega, ?_⟩
  rw [major_24 W (by omega)]
  unfold decodeMO24
  simp only [f0, f1, f3, f5]
  exact used_ok _ hX

theorem vpin (rd ra rb : Nat) : Statement (.vpin rd ra rb) := by
  obtain ⟨W, e⟩ : ∃ W, W = 0x48000006 + rd * 2 ^ 19 + ra * 2 ^ 13 + rb * 2 ^ 7 := ⟨_, rfl⟩
  refine word _ W (by rw [e]; rfl) rfl rfl fun hX => ?_
  have hY : (rd < 64 && ra < 64 && rb < 64) = true := hX
  simp only [Bool.and_eq_true, decide_eq_true_eq] at hY
  have f0 : bits W 24 19 = rd := by unfold bits; omega
  have f1 : bits W 18 13 = ra := by unfold bits; omega
  have f3 : bits W 12 7 = rb := by unfold bits; omega
  have f5 : bits W 6 0 = 6 := by unfold bits; omega
  refine ⟨by omega, ?_⟩
  rw [major_24 W (by omega)]
  unfold decodeMO24
  simp only [f0, f1, f3, f5]
  exact used_ok _ hX

theorem vunpin (ra : Nat) : Statement (.vunpin ra) := by
  obtain ⟨W, e⟩ : ∃ W, W = 0x48000007 + ra * 2 ^ 13 := ⟨_, rfl⟩
  refine word _ W (by rw [e]; rfl) rfl rfl fun hX => ?_
  have hY : (decide (ra < 64)) = true := hX
  simp only [decide_eq_true_eq] at hY
  have f0 : bits W 24 19 = 0 := by unfold bits; omega
  have f1 : bits W 18 13 = ra := by unfold bits; omega
  have f3 : bits W 12 7 = 0 := by unfold bits; omega
  have f5 : bits W 6 0 = 7 := by unfold bits; omega
  refine ⟨by omega, ?_⟩
  rw [major_24 W (by omega)]
  unfold decodeMO24
  simp only [f0, f1, f3, f5]
  exact used_ok _ hX

theorem vqry (rd ra sl : Nat) : Statement (.vqry rd ra sl) := by
  obtain ⟨W, e⟩ : ∃ W, W = 0x48000008 + rd * 2 ^ 19 + ra * 2 ^ 13 + sl * 2 ^ 7 := ⟨_, rfl⟩
  refine word _ W (by rw [e]; rfl) rfl rfl fun hX => ?_
  have hY : (rd < 64 && ra < 64 && sl < 6) = true := hX
  simp only [Bool.and_eq_true, decide_eq_true_eq] at hY
  have f0 : bits W 24 19 = rd := by unfold bits; omega
  have f1 : bits W 18 13 = ra := by unfold bits; omega
  have f2 : bits W 12 10 = 0 := by unfold bits; omega
  have f4 : bits W 9 7 = sl := by unfold bits; omega
  have f5 : bits W 6 0 = 8 := by unfold bits; omega
  refine ⟨by omega, ?_⟩
  rw [major_24 W (by omega)]
  unfold decodeMO24
  simp only [f0, f1, f2, f4, f5]
  exact used_ok _ hX

theorem tspawn (rd ra : Nat) : Statement (.tspawn rd ra) := by
  obtain ⟨W, e⟩ : ∃ W, W = 0x50000001 + rd * 2 ^ 19 + ra * 2 ^ 13 := ⟨_, rfl⟩
  refine word _ W (by rw [e]; rfl) rfl rfl fun hX => ?_
  have hY : (rd < 64 && ra < 64) = true := hX
  simp only [Bool.and_eq_true, decide_eq_true_eq] at hY
  have f0 : bits W 24 19 = rd := by unfold bits; omega
  have f1 : bits W 18 13 = ra := by unfold bits; omega
  have f3 : bits W 12 7 = 0 := by unfold bits; omega
  have f5 : bits W 6 0 = 1 := by unfold bits; omega
  refine ⟨by omega, ?_⟩
  rw [major_28 W (by omega)]
  unfold decodeMO28
  simp only [f0, f1, f3, f5]
  exact used_ok _ hX

theorem twait (rd ra : Nat) : Statement (.twait rd ra) := by
  obtain ⟨W, e⟩ : ∃ W, W = 0x50000002 + rd * 2 ^ 19 + ra * 2 ^ 13 := ⟨_, rfl⟩
  refine word _ W (by rw [e]; rfl) rfl rfl fun hX => ?_
  have hY : (rd < 64 && ra < 64) = true := hX
  simp only [Bool.and_eq_true, decide_eq_true_eq] at hY
  have f0 : bits W 24 19 = rd := by unfold bits; omega
  have f1 : bits W 18 13 = ra := by unfold bits; omega
  have f3 : bits W 12 7 = 0 := by unfold bits; omega
  have f5 : bits W 6 0 = 2 := by unfold bits; omega
  refine ⟨by omega, ?_⟩
  rw [major_28 W (by omega)]
  unfold decodeMO28
  simp only [f0, f1, f3, f5]
  exact used_ok _ hX

theorem yield : Statement .yield := by
  obtain ⟨W, e⟩ : ∃ W, W = 0x50000003 := ⟨_, rfl⟩
  refine word _ W (by rw [e]; rfl) rfl rfl fun hX => ?_
  have f0 : bits W 24 19 = 0 := by unfold bits; omega
  have f1 : bits W 18 13 = 0 := by unfold bits; omega
  have f3 : bits W 12 7 = 0 := by unfold bits; omega
  have f5 : bits W 6 0 = 3 := by unfold bits; omega
  refine ⟨by omega, ?_⟩
  rw [major_28 W (by omega)]
  unfold decodeMO28
  simp only [f0, f1, f3, f5]
  exact used_ok _ hX

theorem tkillKill (ra : Nat) : Statement (.tkillKill ra) := by
  obtain ⟨W, e⟩ : ∃ W, W = 0x50000004 + ra * 2 ^ 13 := ⟨_, rfl⟩
  refine word _ W (by rw [e]; rfl) rfl rfl fun hX => ?_
  have hY : (decide (ra < 64)) = true := hX
  simp only [decide_eq_true_eq] at hY
  have f0 : bits W 24 19 = 0 := by unfold bits; omega
  have f1 : bits W 18 13 = ra := by unfold bits; omega
  have f3 : bits W 12 7 = 0 := by unfold bits; omega
  have f5 : bits W 6 0 = 4 := by unfold bits; omega
  refine ⟨by omega, ?_⟩
  rw [major_28 W (by omega)]
  unfold decodeMO28
  simp only [f0, f1, f3, f5]
  exact used_ok _ hX

theorem tkillHalt (ra : Nat) : Statement (.tkillHalt ra) := by
  obtain ⟨W, e⟩ : ∃ W, W = 0x50000084 + ra * 2 ^ 13 := ⟨_, rfl⟩
  refine word _ W (by rw [e]; rfl) rfl rfl fun hX => ?_
  have hY : (decide (ra < 64)) = true := hX
  simp only [decide_eq_true_eq] at hY
  have f0 : bits W 24 19 = 0 := by unfold bits; omega
  have f1 : bits W 18 13 = ra := by unfold bits; omega
  have f3 : bits W 12 7 = 1 := by unfold bits; omega
  have f5 : bits W 6 0 = 4 := by unfold bits; omega
  refine ⟨by omega, ?_⟩
  rw [major_28 W (by omega)]
  unfold decodeMO28
  simp only [f0, f1, f3, f5]
  exact used_ok _ hX

theorem tself (rd sl : Nat) : Statement (.tself rd sl) := by
  obtain ⟨W, e⟩ : ∃ W, W = 0x50000005 + rd * 2 ^ 19 + sl * 2 ^ 7 := ⟨_, rfl⟩
  refine word _ W (by rw [e]; rfl) rfl rfl fun hX => ?_
  have hY : (rd < 64 && sl < 4) = true := hX
  simp only [Bool.and_eq_true, decide_eq_true_eq] at hY
  have f0 : bits W 24 19 = rd := by unfold bits; omega
  have f1 : bits W 18 13 = 0 := by unfold bits; omega
  have f2 : bits W 12 9 = 0 := by unfold bits; omega
  have f4 : bits W 8 7 = sl := by unfold bits; omega
  have f5 : bits W 6 0 = 5 := by unfold bits; omega
  refine ⟨by omega, ?_⟩
  rw [major_28 W (by omega)]
  unfold decodeMO28
  simp only [f0, f1, f2, f4, f5]
  exact used_ok _ hX

theorem dbar (rd ra : Nat) : Statement (.dbar rd ra) := by
  obtain ⟨W, e⟩ : ∃ W, W = 0x52000001 + rd * 2 ^ 19 + ra * 2 ^ 13 := ⟨_, rfl⟩
  refine word _ W (by rw [e]; rfl) rfl rfl fun hX => ?_
  have hY : (rd < 64 && ra < 64) = true := hX
  simp only [Bool.and_eq_true, decide_eq_true_eq] at hY
  have f0 : bits W 24 19 = rd := by unfold bits; omega
  have f1 : bits W 18 13 = ra := by unfold bits; omega
  have f3 : bits W 12 7 = 0 := by unfold bits; omega
  have f5 : bits W 6 0 = 1 := by unfold bits; omega
  refine ⟨by omega, ?_⟩
  rw [major_29 W (by omega)]
  unfold decodeMO29
  simp only [f0, f1, f3, f5]
  exact used_ok _ hX

theorem djoin (rd ra : Nat) : Statement (.djoin rd ra) := by
  obtain ⟨W, e⟩ : ∃ W, W = 0x52000002 + rd * 2 ^ 19 + ra * 2 ^ 13 := ⟨_, rfl⟩
  refine word _ W (by rw [e]; rfl) rfl rfl fun hX => ?_
  have hY : (rd < 64 && ra < 64) = true := hX
  simp only [Bool.and_eq_true, decide_eq_true_eq] at hY
  have f0 : bits W 24 19 = rd := by unfold bits; omega
  have f1 : bits W 18 13 = ra := by unfold bits; omega
  have f3 : bits W 12 7 = 0 := by unfold bits; omega
  have f5 : bits W 6 0 = 2 := by unfold bits; omega
  refine ⟨by omega, ?_⟩
  rw [major_29 W (by omega)]
  unfold decodeMO29
  simp only [f0, f1, f3, f5]
  exact used_ok _ hX

theorem djoinNew (rd ra rb : Nat) : Statement (.djoinNew rd ra rb) := by
  obtain ⟨W, e⟩ : ∃ W, W = 0x52000003 + rd * 2 ^ 19 + ra * 2 ^ 13 + rb * 2 ^ 7 := ⟨_, rfl⟩
  refine word _ W (by rw [e]; rfl) rfl rfl fun hX => ?_
  have hY : (rd < 64 && ra < 64 && rb < 64) = true := hX
  simp only [Bool.and_eq_true, decide_eq_true_eq] at hY
  have f0 : bits W 24 19 = rd := by unfold bits; omega
  have f1 : bits W 18 13 = ra := by unfold bits; omega
  have f3 : bits W 12 7 = rb := by unfold bits; omega
  have f5 : bits W 6 0 = 3 := by unfold bits; omega
  refine ⟨by omega, ?_⟩
  rw [major_29 W (by omega)]
  unfold decodeMO29
  simp only [f0, f1, f3, f5]
  exact used_ok _ hX

theorem dleave (rd ra : Nat) : Statement (.dleave rd ra) := by
  obtain ⟨W, e⟩ : ∃ W, W = 0x52000004 + rd * 2 ^ 19 + ra * 2 ^ 13 := ⟨_, rfl⟩
  refine word _ W (by rw [e]; rfl) rfl rfl fun hX => ?_
  have hY : (rd < 64 && ra < 64) = true := hX
  simp only [Bool.and_eq_true, decide_eq_true_eq] at hY
  have f0 : bits W 24 19 = rd := by unfold bits; omega
  have f1 : bits W 18 13 = ra := by unfold bits; omega
  have f3 : bits W 12 7 = 0 := by unfold bits; omega
  have f5 : bits W 6 0 = 4 := by unfold bits; omega
  refine ⟨by omega, ?_⟩
  rw [major_29 W (by omega)]
  unfold decodeMO29
  simp only [f0, f1, f3, f5]
  exact used_ok _ hX

theorem devict (rd ra rb : Nat) : Statement (.devict rd ra rb) := by
  obtain ⟨W, e⟩ : ∃ W, W = 0x52000005 + rd * 2 ^ 19 + ra * 2 ^ 13 + rb * 2 ^ 7 := ⟨_, rfl⟩
  refine word _ W (by rw [e]; rfl) rfl rfl fun hX => ?_
  have hY : (rd < 64 && ra < 64 && rb < 64) = true := hX
  simp only [Bool.and_eq_true, decide_eq_true_eq] at hY
  have f0 : bits W 24 19 = rd := by unfold bits; omega
  have f1 : bits W 18 13 = ra := by unfold bits; omega
  have f3 : bits W 12 7 = rb := by unfold bits; omega
  have f5 : bits W 6 0 = 5 := by unfold bits; omega
  refine ⟨by omega, ?_⟩
  rw [major_29 W (by omega)]
  unfold decodeMO29
  simp only [f0, f1, f3, f5]
  exact used_ok _ hX

theorem dphase (rd ra sl : Nat) : Statement (.dphase rd ra sl) := by
  obtain ⟨W, e⟩ : ∃ W, W = 0x52000006 + rd * 2 ^ 19 + ra * 2 ^ 13 + sl * 2 ^ 7 := ⟨_, rfl⟩
  refine word _ W (by rw [e]; rfl) rfl rfl fun hX => ?_
  have hY : (rd < 64 && ra < 64 && sl < 6) = true := hX
  simp only [Bool.and_eq_true, decide_eq_true_eq] at hY
  have f0 : bits W 24 19 = rd := by unfold bits; omega
  have f1 : bits W 18 13 = ra := by unfold bits; omega
  have f2 : bits W 12 10 = 0 := by unfold bits; omega
  have f4 : bits W 9 7 = sl := by unfold bits; omega
  have f5 : bits W 6 0 = 6 := by unfold bits; omega
  refine ⟨by omega, ?_⟩
  rw [major_29 W (by omega)]
  unfold decodeMO29
  simp only [f0, f1, f2, f4, f5]
  exact used_ok _ hX

theorem spec (b ra rb : Nat) : Statement (.spec b ra rb) := by
  obtain ⟨W, e⟩ : ∃ W, W = 0x54000001 + b * 2 ^ 19 + ra * 2 ^ 13 + rb * 2 ^ 7 := ⟨_, rfl⟩
  refine word _ W (by rw [e]; rfl) rfl rfl fun hX => ?_
  have hY : (b < 8 && ra < 64 && rb < 64) = true := hX
  simp only [Bool.and_eq_true, decide_eq_true_eq] at hY
  have f0 : bits W 24 19 = b := by unfold bits; omega
  have f1 : bits W 18 13 = ra := by unfold bits; omega
  have f3 : bits W 12 7 = rb := by unfold bits; omega
  have f5 : bits W 6 0 = 1 := by unfold bits; omega
  refine ⟨by omega, ?_⟩
  rw [major_2A W (by omega)]
  unfold decodeMO2A
  simp only [f0, f1, f3, f5]
  exact used_ok _ hX

theorem scommit (rd : Nat) : Statement (.scommit rd) := by
  obtain ⟨W, e⟩ : ∃ W, W = 0x54000002 + rd * 2 ^ 19 := ⟨_, rfl⟩
  refine word _ W (by rw [e]; rfl) rfl rfl fun hX => ?_
  have hY : (decide (rd < 64)) = true := hX
  simp only [decide_eq_true_eq] at hY
  have f0 : bits W 24 19 = rd := by unfold bits; omega
  have f1 : bits W 18 13 = 0 := by unfold bits; omega
  have f3 : bits W 12 7 = 0 := by unfold bits; omega
  have f5 : bits W 6 0 = 2 := by unfold bits; omega
  refine ⟨by omega, ?_⟩
  rw [major_2A W (by omega)]
  unfold decodeMO2A
  simp only [f0, f1, f3, f5]
  exact used_ok _ hX

theorem sabort : Statement .sabort := by
  obtain ⟨W, e⟩ : ∃ W, W = 0x54000003 := ⟨_, rfl⟩
  refine word _ W (by rw [e]; rfl) rfl rfl fun hX => ?_
  have f0 : bits W 24 19 = 0 := by unfold bits; omega
  have f1 : bits W 18 13 = 0 := by unfold bits; omega
  have f3 : bits W 12 7 = 0 := by unfold bits; omega
  have f5 : bits W 6 0 = 3 := by unfold bits; omega
  refine ⟨by omega, ?_⟩
  rw [major_2A W (by omega)]
  unfold decodeMO2A
  simp only [f0, f1, f3, f5]
  exact used_ok _ hX

theorem sstat (rd sl : Nat) : Statement (.sstat rd sl) := by
  obtain ⟨W, e⟩ : ∃ W, W = 0x54000004 + rd * 2 ^ 19 + sl * 2 ^ 7 := ⟨_, rfl⟩
  refine word _ W (by rw [e]; rfl) rfl rfl fun hX => ?_
  have hY : (rd < 64 && sl < 4) = true := hX
  simp only [Bool.and_eq_true, decide_eq_true_eq] at hY
  have f0 : bits W 24 19 = rd := by unfold bits; omega
  have f1 : bits W 18 13 = 0 := by unfold bits; omega
  have f2 : bits W 12 9 = 0 := by unfold bits; omega
  have f4 : bits W 8 7 = sl := by unfold bits; omega
  have f5 : bits W 6 0 = 4 := by unfold bits; omega
  refine ⟨by omega, ?_⟩
  rw [major_2A W (by omega)]
  unfold decodeMO2A
  simp only [f0, f1, f2, f4, f5]
  exact used_ok _ hX

theorem yieldpt (k : Nat) : Statement (.yieldpt k) := by
  obtain ⟨W, e⟩ : ∃ W, W = 0x56000000 + k := ⟨_, rfl⟩
  refine word _ W (by rw [e]; rfl) rfl rfl fun hX => ?_
  have hY : (decide (k < 4)) = true := hX
  simp only [decide_eq_true_eq] at hY
  have f0 : bits W 24 19 = 0 := by unfold bits; omega
  have f1 : bits W 18 13 = 0 := by unfold bits; omega
  have f2 : bits W 12 7 = 0 := by unfold bits; omega
  have f3 : bits W 6 2 = 0 := by unfold bits; omega
  have f4 : bits W 1 0 = k := by unfold bits; omega
  refine ⟨by omega, ?_⟩
  rw [major_2B W (by omega)]
  unfold decodeMO2B
  simp only [f0, f1, f2, f3, f4]
  exact used_ok _ hX

theorem mfsr (r num : Nat) : Statement (.mfsr r num) := by
  obtain ⟨W, e⟩ : ∃ W, W = 0x60000001 + r * 2 ^ 19 + num * 2 ^ 7 := ⟨_, rfl⟩
  refine word _ W (by rw [e]; rfl) rfl rfl fun hX => ?_
  have hY : (r < 64 && num < 4096) = true := hX
  simp only [Bool.and_eq_true, decide_eq_true_eq] at hY
  have f0 : bits W 24 19 = r := by unfold bits; omega
  have f2 : bits W 18 7 = num := by unfold bits; omega
  have f6 : bits W 6 0 = 1 := by unfold bits; omega
  refine ⟨by omega, ?_⟩
  rw [major_30 W (by omega)]
  unfold decodeMO30
  simp only [f0, f2, f6]
  exact used_ok _ hX

theorem mtsr (r num : Nat) : Statement (.mtsr r num) := by
  obtain ⟨W, e⟩ : ∃ W, W = 0x60000002 + r * 2 ^ 19 + num * 2 ^ 7 := ⟨_, rfl⟩
  refine word _ W (by rw [e]; rfl) rfl rfl fun hX => ?_
  have hY : (r < 64 && num < 4096 && !specialMtsr num) = true := hX
  simp only [Bool.and_eq_true, decide_eq_true_eq, Bool.not_eq_true'] at hY
  have g1 : bits W 18 13 = num / 64 := by unfold bits; omega
  have g2 : bits W 12 7 = num % 64 := by unfold bits; omega
  have g3 : bits W 12 10 = num / 8 % 8 := by unfold bits; omega
  have f0 : bits W 24 19 = r := by unfold bits; omega
  have f2 : bits W 18 7 = num := by unfold bits; omega
  have f6 : bits W 6 0 = 2 := by unfold bits; omega
  refine ⟨by omega, ?_⟩
  rw [major_30 W (by omega)]
  unfold decodeMO30
  simp only [g1, g2, g3, f0, f2, f6]
  rw [not_special hY.2 (k := 1) rfl rfl rfl, not_special hY.2 (k := 0x24) rfl rfl rfl, not_special hY.2 (k := 0x81) rfl rfl rfl,
    not_special hY.2 (k := 0x10E) rfl rfl rfl, not_special hY.2 (k := 0x207) rfl rfl rfl,
    not_special hY.2 (k := 0x213) rfl rfl rfl, not_special hY.2 (k := 0x214) rfl rfl rfl, not_tintmap hY.2]
  exact used_ok _ hX

theorem mtsrFmt (rs : Nat) : Statement (.mtsrFmt rs) := by
  obtain ⟨W, e⟩ : ∃ W, W = 0x60000082 + rs * 2 ^ 19 := ⟨_, rfl⟩
  refine word _ W (by rw [e]; rfl) rfl rfl fun hX => ?_
  have hY : (decide (rs < 64)) = true := hX
  simp only [decide_eq_true_eq] at hY
  have f0 : bits W 24 19 = rs := by unfold bits; omega
  have f1 : bits W 18 13 = 0 := by unfold bits; omega
  have f2 : bits W 18 7 = 1 := by unfold bits; omega
  have f3 : bits W 12 10 = 0 := by unfold bits; omega
  have f4 : bits W 12 7 = 1 := by unfold bits; omega
  have f5 : bits W 9 7 = 1 := by unfold bits; omega
  have f6 : bits W 6 0 = 2 := by unfold bits; omega
  refine ⟨by omega, ?_⟩
  rw [major_30 W (by omega)]
  unfold decodeMO30
  simp only [f0, f1, f2, f3, f4, f5, f6]
  exact used_ok _ hX

theorem mtsrTimer (rs : Nat) : Statement (.mtsrTimer rs) := by
  obtain ⟨W, e⟩ : ∃ W, W = 0x60001202 + rs * 2 ^ 19 := ⟨_, rfl⟩
  refine word _ W (by rw [e]; rfl) rfl rfl fun hX => ?_
  have hY : (decide (rs < 64)) = true := hX
  simp only [decide_eq_true_eq] at hY
  have f0 : bits W 24 19 = rs := by unfold bits; omega
  have f1 : bits W 18 13 = 0 := by unfold bits; omega
  have f2 : bits W 18 7 = 36 := by unfold bits; omega
  have f3 : bits W 12 10 = 4 := by unfold bits; omega
  have f4 : bits W 12 7 = 36 := by unfold bits; omega
  have f5 : bits W 9 7 = 4 := by unfold bits; omega
  have f6 : bits W 6 0 = 2 := by unfold bits; omega
  refine ⟨by omega, ?_⟩
  rw [major_30 W (by omega)]
  unfold decodeMO30
  simp only [f0, f1, f2, f3, f4, f5, f6]
  exact used_ok _ hX

theorem mtsrTrappc (rs : Nat) : Statement (.mtsrTrappc rs) := by
  obtain ⟨W, e⟩ : ∃ W, W = 0x60004082 + rs * 2 ^ 19 := ⟨_, rfl⟩
  refine word _ W (by rw [e]; rfl) rfl rfl fun hX => ?_
  have hY : (decide (rs < 64)) = true := hX
  simp only [decide_eq_true_eq] at hY
  have f0 : bits W 24 19 = rs := by unfold bits; omega
  have f1 : bits W 18 13 = 2 := by unfold bits; omega
  have f2 : bits W 18 7 = 129 := by unfold bits; omega
  have f3 : bits W 12 10 = 0 := by unfold bits; omega
  have f4 : bits W 12 7 = 1 := by unfold bits; omega
  have f5 : bits W 9 7 = 1 := by unfold bits; omega
  have f6 : bits W 6 0 = 2 := by unfold bits; omega
  refine ⟨by omega, ?_⟩
  rw [major_30 W (by omega)]
  unfold decodeMO30
  simp only [f0, f1, f2, f3, f4, f5, f6]
  exact used_ok _ hX

theorem repartition (rs k : Nat) : Statement (.repartition rs k) := by
  obtain ⟨W, e⟩ : ∃ W, W = 0x60008002 + rs * 2 ^ 19 + k * 2 ^ 7 := ⟨_, rfl⟩
  refine word _ W (by rw [e]; rfl) rfl rfl fun hX => ?_
  have hY : (rs < 64 && k < 8) = true := hX
  simp only [Bool.and_eq_true, decide_eq_true_eq] at hY
  have f0 : bits W 24 19 = rs := by unfold bits; omega
  have f1 : bits W 18 13 = 4 := by unfold bits; omega
  have f2 : bits W 18 7 = 256 + k := by unfold bits; omega
  have f3 : bits W 12 10 = 0 := by unfold bits; omega
  have f4 : bits W 12 7 = k := by unfold bits; omega
  have f5 : bits W 9 7 = k := by unfold bits; omega
  have f6 : bits W 6 0 = 2 := by unfold bits; omega
  refine ⟨by omega, ?_⟩
  rw [major_30 W (by omega)]
  unfold decodeMO30
  simp only [f0, f1, f2, f3, f4, f5, f6]
  have n1 : (k == 14) = false := by simp; omega
  simp only [n1]
  exact used_ok _ hX

theorem preempt (rs : Nat) : Statement (.preempt rs) := by
  obtain ⟨W, e⟩ : ∃ W, W = 0x60008702 + rs * 2 ^ 19 := ⟨_, rfl⟩
  refine word _ W (by rw [e]; rfl) rfl rfl fun hX => ?_
  have hY : (decide (rs < 64)) = true := hX
  simp only [decide_eq_true_eq] at hY
  have f0 : bits W 24 19 = rs := by unfold bits; omega
  have f1 : bits W 18 13 = 4 := by unfold bits; omega
  have f2 : bits W 18 7 = 270 := by unfold bits; omega
  have f3 : bits W 12 10 = 1 := by unfold bits; omega
  have f4 : bits W 12 7 = 14 := by unfold bits; omega
  have f5 : bits W 9 7 = 6 := by unfold bits; omega
  have f6 : bits W 6 0 = 2 := by unfold bits; omega
  refine ⟨by omega, ?_⟩
  rw [major_30 W (by omega)]
  unfold decodeMO30
  simp only [f0, f1, f2, f3, f4, f5, f6]
  exact used_ok _ hX

theorem vsealdropClear (rs : Nat) : Statement (.vsealdropClear rs) := by
  obtain ⟨W, e⟩ : ∃ W, W = 0x60010382 + rs * 2 ^ 19 := ⟨_, rfl⟩
  refine word _ W (by rw [e]; rfl) rfl rfl fun hX => ?_
  have hY : (decide (rs < 64)) = true := hX
  simp only [decide_eq_true_eq] at hY
  have f0 : bits W 24 19 = rs := by unfold bits; omega
  have f1 : bits W 18 13 = 8 := by unfold bits; omega
  have f2 : bits W 18 7 = 519 := by unfold bits; omega
  have f3 : bits W 12 10 = 0 := by unfold bits; omega
  have f4 : bits W 12 7 = 7 := by unfold bits; omega
  have f5 : bits W 9 7 = 7 := by unfold bits; omega
  have f6 : bits W 6 0 = 2 := by unfold bits; omega
  refine ⟨by omega, ?_⟩
  rw [major_30 W (by omega)]
  unfold decodeMO30
  simp only [f0, f1, f2, f3, f4, f5, f6]
  exact used_ok _ hX

theorem bootok (rs : Nat) : Statement (.bootok rs) := by
  obtain ⟨W, e⟩ : ∃ W, W = 0x60010982 + rs * 2 ^ 19 := ⟨_, rfl⟩
  refine word _ W (by rw [e]; rfl) rfl rfl fun hX => ?_
  have hY : (decide (rs < 64)) = true := hX
  simp only [decide_eq_true_eq] at hY
  have f0 : bits W 24 19 = rs := by unfold bits; omega
  have f1 : bits W 18 13 = 8 := by unfold bits; omega
  have f2 : bits W 18 7 = 531 := by unfold bits; omega
  have f3 : bits W 12 10 = 2 := by unfold bits; omega
  have f4 : bits W 12 7 = 19 := by unfold bits; omega
  have f5 : bits W 9 7 = 3 := by unfold bits; omega
  have f6 : bits W 6 0 = 2 := by unfold bits; omega
  refine ⟨by omega, ?_⟩
  rw [major_30 W (by omega)]
  unfold decodeMO30
  simp only [f0, f1, f2, f3, f4, f5, f6]
  exact used_ok _ hX

theorem resumetask (rs : Nat) : Statement (.resumetask rs) := by
  obtain ⟨W, e⟩ : ∃ W, W = 0x60010A02 + rs * 2 ^ 19 := ⟨_, rfl⟩
  refine word _ W (by rw [e]; rfl) rfl rfl fun hX => ?_
  have hY : (decide (rs < 64)) = true := hX
  simp only [decide_eq_true_eq] at hY
  have f0 : bits W 24 19 = rs := by unfold bits; omega
  have f1 : bits W 18 13 = 8 := by unfold bits; omega
  have f2 : bits W 18 7 = 532 := by unfold bits; omega
  have f3 : bits W 12 10 = 2 := by unfold bits; omega
  have f4 : bits W 12 7 = 20 := by unfold bits; omega
  have f5 : bits W 9 7 = 4 := by unfold bits; omega
  have f6 : bits W 6 0 = 2 := by unfold bits; omega
  refine ⟨by omega, ?_⟩
  rw [major_30 W (by omega)]
  unfold decodeMO30
  simp only [f0, f1, f2, f3, f4, f5, f6]
  exact used_ok _ hX

theorem trap (code : Nat) : Statement (.trap code) := by
  obtain ⟨W, e⟩ : ∃ W, W = 0x60000003 + code * 2 ^ 7 := ⟨_, rfl⟩
  refine word _ W (by rw [e]; rfl) rfl rfl fun hX => ?_
  have hY : (decide (code < 4096)) = true := hX
  simp only [decide_eq_true_eq] at hY
  have f0 : bits W 24 19 = 0 := by unfold bits; omega
  have f2 : bits W 18 7 = code := by unfold bits; omega
  have f6 : bits W 6 0 = 3 := by unfold bits; omega
  refine ⟨by omega, ?_⟩
  rw [major_30 W (by omega)]
  unfold decodeMO30
  simp only [f0, f2, f6]
  exact used_ok _ hX

theorem sysretResume : Statement .sysretResume := by
  obtain ⟨W, e⟩ : ∃ W, W = 0x60000004 := ⟨_, rfl⟩
  refine word _ W (by rw [e]; rfl) rfl rfl fun hX => ?_
  have f0 : bits W 24 19 = 0 := by unfold bits; omega
  have f1 : bits W 18 13 = 0 := by unfold bits; omega
  have f4 : bits W 12 7 = 0 := by unfold bits; omega
  have f6 : bits W 6 0 = 4 := by unfold bits; omega
  refine ⟨by omega, ?_⟩
  rw [major_30 W (by omega)]
  unfold decodeMO30
  simp only [f0, f1, f4, f6]
  exact used_ok _ hX

theorem sysretSuspend : Statement .sysretSuspend := by
  obtain ⟨W, e⟩ : ∃ W, W = 0x60000084 := ⟨_, rfl⟩
  refine word _ W (by rw [e]; rfl) rfl rfl fun hX => ?_
  have f0 : bits W 24 19 = 0 := by unfold bits; omega
  have f1 : bits W 18 13 = 0 := by unfold bits; omega
  have f4 : bits W 12 7 = 1 := by unfold bits; omega
  have f6 : bits W 6 0 = 4 := by unfold bits; omega
  refine ⟨by omega, ?_⟩
  rw [major_30 W (by omega)]
  unfold decodeMO30
  simp only [f0, f1, f4, f6]
  exact used_ok _ hX

theorem sysretKill : Statement .sysretKill := by
  obtain ⟨W, e⟩ : ∃ W, W = 0x60000104 := ⟨_, rfl⟩
  refine word _ W (by rw [e]; rfl) rfl rfl fun hX => ?_
  have f0 : bits W 24 19 = 0 := by unfold bits; omega
  have f1 : bits W 18 13 = 0 := by unfold bits; omega
  have f4 : bits W 12 7 = 2 := by unfold bits; omega
  have f6 : bits W 6 0 = 4 := by unfold bits; omega
  refine ⟨by omega, ?_⟩
  rw [major_30 W (by omega)]
  unfold decodeMO30
  simp only [f0, f1, f4, f6]
  exact used_ok _ hX

theorem tlbinvPage (ra rb : Nat) : Statement (.tlbinvPage ra rb) := by
  obtain ⟨W, e⟩ : ∃ W, W = 0x60000005 + ra * 2 ^ 13 + rb * 2 ^ 7 := ⟨_, rfl⟩
  refine word _ W (by rw [e]; rfl) rfl rfl fun hX => ?_
  have hY : (ra < 64 && rb < 64) = true := hX
  simp only [Bool.and_eq_true, decide_eq_true_eq] at hY
  have f0 : bits W 24 19 = 0 := by unfold bits; omega
  have f1 : bits W 18 13 = ra := by unfold bits; omega
  have f4 : bits W 12 7 = rb := by unfold bits; omega
  have f6 : bits W 6 0 = 5 := by unfold bits; omega
  refine ⟨by omega, ?_⟩
  rw [major_30 W (by omega)]
  unfold decodeMO30
  simp only [f0, f1, f4, f6]
  exact used_ok _ hX

theorem tlbinvAsid (ra rb : Nat) : Statement (.tlbinvAsid ra rb) := by
  by_cases h : ra < 64
  · obtain ⟨W, e⟩ : ∃ W, W = 0x60080005 + ra * 2 ^ 13 + rb * 2 ^ 7 := ⟨_, rfl⟩
    refine word _ W (by rw [e]; exact congrArg (fun w => some (wordBytes w)) (if_pos h)) rfl rfl fun hX => ?_
    have hY : (ra < 128 && rb < 64 && (ra ≠ 64 || rb ≠ 0)) = true := hX
    simp only [Bool.and_eq_true, Bool.or_eq_true, decide_eq_true_eq] at hY
    have f0 : bits W 24 19 = 1 := by unfold bits; omega
    have f1 : bits W 18 13 = ra := by unfold bits; omega
    have f4 : bits W 12 7 = rb := by unfold bits; omega
    have f6 : bits W 6 0 = 5 := by unfold bits; omega
    refine ⟨by omega, ?_⟩
    rw [major_30 W (by omega)]
    unfold decodeMO30
    simp only [f0, f1, f4, f6]
    exact used_ok _ hX
  · obtain ⟨W, e⟩ : ∃ W, W = 0x60100005 + (ra - 64) * 2 ^ 13 + rb * 2 ^ 7 := ⟨_, rfl⟩
    refine word _ W (by rw [e]; exact congrArg (fun w => some (wordBytes w)) (if_neg h)) rfl rfl fun hX => ?_
    have hY : (ra < 128 && rb < 64 && (ra ≠ 64 || rb ≠ 0)) = true := hX
    simp only [Bool.and_eq_true, Bool.or_eq_true, decide_eq_true_eq] at hY
    have f0 : bits W 24 19 = 2 := by unfold bits; omega
    have f1 : bits W 18 13 = (ra - 64) := by unfold bits; omega
    have f4 : bits W 12 7 = rb := by unfold bits; omega
    have f6 : bits W 6 0 = 5 := by unfold bits; omega
    refine ⟨by omega, ?_⟩
    rw [major_30 W (by omega)]
    unfold decodeMO30
    simp only [f0, f1, f4, f6]
    have n : (2 == 2 && ra - 64 == 0 && rb == 0) = false := by
      simp only [Bool.and_eq_false_iff, beq_eq_false_iff_ne]; omega
    have r : ra - 64 + 64 = ra := by omega
    simp only [n, r]
    exact used_ok _ hX

theorem tlbinvAll : Statement .tlbinvAll := by
  obtain ⟨W, e⟩ : ∃ W, W = 0x60100005 := ⟨_, rfl⟩
  refine word _ W (by rw [e]; rfl) rfl rfl fun hX => ?_
  have f0 : bits W 24 19 = 2 := by unfold bits; omega
  have f1 : bits W 18 13 = 0 := by unfold bits; omega
  have f4 : bits W 12 7 = 0 := by unfold bits; omega
  have f6 : bits W 6 0 = 5 := by unfold bits; omega
  refine ⟨by omega, ?_⟩
  rw [major_30 W (by omega)]
  unfold decodeMO30
  simp only [f0, f1, f4, f6]
  exact used_ok _ hX

theorem tnoise (rd : Nat) : Statement (.tnoise rd) := by
  obtain ⟨W, e⟩ : ∃ W, W = 0x60000006 + rd * 2 ^ 19 := ⟨_, rfl⟩
  refine word _ W (by rw [e]; rfl) rfl rfl fun hX => ?_
  have hY : (decide (rd < 64)) = true := hX
  simp only [decide_eq_true_eq] at hY
  have f0 : bits W 24 19 = rd := by unfold bits; omega
  have f1 : bits W 18 13 = 0 := by unfold bits; omega
  have f4 : bits W 12 7 = 0 := by unfold bits; omega
  have f6 : bits W 6 0 = 6 := by unfold bits; omega
  refine ⟨by omega, ?_⟩
  rw [major_30 W (by omega)]
  unfold decodeMO30
  simp only [f0, f1, f4, f6]
  exact used_ok _ hX

theorem bind (ra rb : Nat) : Statement (.bind ra rb) := by
  obtain ⟨W, e⟩ : ∃ W, W = 0x60000007 + ra * 2 ^ 13 + rb * 2 ^ 7 := ⟨_, rfl⟩
  refine word _ W (by rw [e]; rfl) rfl rfl fun hX => ?_
  have hY : (ra < 64 && rb < 64) = true := hX
  simp only [Bool.and_eq_true, decide_eq_true_eq] at hY
  have f0 : bits W 24 19 = 0 := by unfold bits; omega
  have f1 : bits W 18 13 = ra := by unfold bits; omega
  have f4 : bits W 12 7 = rb := by unfold bits; omega
  have f6 : bits W 6 0 = 7 := by unfold bits; omega
  refine ⟨by omega, ?_⟩
  rw [major_30 W (by omega)]
  unfold decodeMO30
  simp only [f0, f1, f4, f6]
  exact used_ok _ hX

theorem wfe (ra : Nat) : Statement (.wfe ra) := by
  obtain ⟨W, e⟩ : ∃ W, W = 0x60000008 + ra * 2 ^ 13 := ⟨_, rfl⟩
  refine word _ W (by rw [e]; rfl) rfl rfl fun hX => ?_
  have hY : (decide (ra < 64)) = true := hX
  simp only [decide_eq_true_eq] at hY
  have f0 : bits W 24 19 = 0 := by unfold bits; omega
  have f1 : bits W 18 13 = ra := by unfold bits; omega
  have f4 : bits W 12 7 = 0 := by unfold bits; omega
  have f6 : bits W 6 0 = 8 := by unfold bits; omega
  refine ⟨by omega, ?_⟩
  rw [major_30 W (by omega)]
  unfold decodeMO30
  simp only [f0, f1, f4, f6]
  exact used_ok _ hX

theorem chkq (ra rb : Nat) : Statement (.chkq ra rb) := by
  obtain ⟨W, e⟩ : ∃ W, W = 0x62000001 + ra * 2 ^ 13 + rb * 2 ^ 7 := ⟨_, rfl⟩
  refine word _ W (by rw [e]; rfl) rfl rfl fun hX => ?_
  have hY : (ra < 64 && rb < 64) = true := hX
  simp only [Bool.and_eq_true, decide_eq_true_eq] at hY
  have f0 : bits W 24 19 = 0 := by unfold bits; omega
  have f1 : bits W 18 13 = ra := by unfold bits; omega
  have f3 : bits W 12 7 = rb := by unfold bits; omega
  have f5 : bits W 6 0 = 1 := by unfold bits; omega
  refine ⟨by omega, ?_⟩
  rw [major_31 W (by omega)]
  unfold decodeMO31
  simp only [f0, f1, f3, f5]
  exact used_ok _ hX

theorem chkqQ (qa qb : Nat) : Statement (.chkqQ qa qb) := by
  obtain ⟨W, e⟩ : ∃ W, W = 0x62000002 + qa * 2 ^ 13 + qb * 2 ^ 7 := ⟨_, rfl⟩
  refine word _ W (by rw [e]; rfl) rfl rfl fun hX => ?_
  have hY : (qa < 8 && qb < 8) = true := hX
  simp only [Bool.and_eq_true, decide_eq_true_eq] at hY
  have f0 : bits W 24 19 = 0 := by unfold bits; omega
  have f1 : bits W 18 13 = qa := by unfold bits; omega
  have f3 : bits W 12 7 = qb := by unfold bits; omega
  have f5 : bits W 6 0 = 2 := by unfold bits; omega
  refine ⟨by omega, ?_⟩
  rw [major_31 W (by omega)]
  unfold decodeMO31
  simp only [f0, f1, f3, f5]
  exact used_ok _ hX

theorem quarq (rd ra sl : Nat) : Statement (.quarq rd ra sl) := by
  obtain ⟨W, e⟩ : ∃ W, W = 0x62000003 + rd * 2 ^ 19 + ra * 2 ^ 13 + sl * 2 ^ 7 := ⟨_, rfl⟩
  refine word _ W (by rw [e]; rfl) rfl rfl fun hX => ?_
  have hY : (rd < 64 && ra < 64 && sl < 6) = true := hX
  simp only [Bool.and_eq_true, decide_eq_true_eq] at hY
  have f0 : bits W 24 19 = rd := by unfold bits; omega
  have f1 : bits W 18 13 = ra := by unfold bits; omega
  have f2 : bits W 12 10 = 0 := by unfold bits; omega
  have f3 : bits W 12 7 = sl := by unfold bits; omega
  have f4 : bits W 9 7 = sl := by unfold bits; omega
  have f5 : bits W 6 0 = 3 := by unfold bits; omega
  refine ⟨by omega, ?_⟩
  rw [major_31 W (by omega)]
  unfold decodeMO31
  simp only [f0, f1, f2, f3, f4, f5]
  have n1 : (sl == 6) = false := by simp; omega
  have n2 : (sl == 7) = false := by simp; omega
  simp only [n1, n2]
  exact used_ok _ hX

theorem quarqQuarantine (rd ra : Nat) : Statement (.quarqQuarantine rd ra) := by
  obtain ⟨W, e⟩ : ∃ W, W = 0x62000303 + rd * 2 ^ 19 + ra * 2 ^ 13 := ⟨_, rfl⟩
  refine word _ W (by rw [e]; rfl) rfl rfl fun hX => ?_
  have hY : (rd < 64 && ra < 64) = true := hX
  simp only [Bool.and_eq_true, decide_eq_true_eq] at hY
  have f0 : bits W 24 19 = rd := by unfold bits; omega
  have f1 : bits W 18 13 = ra := by unfold bits; omega
  have f2 : bits W 12 10 = 0 := by unfold bits; omega
  have f3 : bits W 12 7 = 6 := by unfold bits; omega
  have f4 : bits W 9 7 = 6 := by unfold bits; omega
  have f5 : bits W 6 0 = 3 := by unfold bits; omega
  refine ⟨by omega, ?_⟩
  rw [major_31 W (by omega)]
  unfold decodeMO31
  simp only [f0, f1, f2, f3, f4, f5]
  exact used_ok _ hX

theorem quarqClear (rd ra : Nat) : Statement (.quarqClear rd ra) := by
  obtain ⟨W, e⟩ : ∃ W, W = 0x62000383 + rd * 2 ^ 19 + ra * 2 ^ 13 := ⟨_, rfl⟩
  refine word _ W (by rw [e]; rfl) rfl rfl fun hX => ?_
  have hY : (rd < 64 && ra < 64) = true := hX
  simp only [Bool.and_eq_true, decide_eq_true_eq] at hY
  have f0 : bits W 24 19 = rd := by unfold bits; omega
  have f1 : bits W 18 13 = ra := by unfold bits; omega
  have f2 : bits W 12 10 = 0 := by unfold bits; omega
  have f3 : bits W 12 7 = 7 := by unfold bits; omega
  have f4 : bits W 9 7 = 7 := by unfold bits; omega
  have f5 : bits W 6 0 = 3 := by unfold bits; omega
  refine ⟨by omega, ?_⟩
  rw [major_31 W (by omega)]
  unfold decodeMO31
  simp only [f0, f1, f2, f3, f4, f5]
  exact used_ok _ hX

/-! ## Slot fields -/

/-- A field of a word made of a higher part, the field and a lower part. -/
theorem bits_mid (h v r hi lo : Nat) (hv : v < 2 ^ (hi + 1 - lo)) (hr : r < 2 ^ lo) (hl : lo ≤ hi) :
    bits (h * 2 ^ (hi + 1) + v * 2 ^ lo + r) hi lo = v := by
  unfold bits
  have e : 2 ^ (hi + 1) = 2 ^ (hi + 1 - lo) * 2 ^ lo := by rw [← Nat.pow_add]; congr 1; omega
  have e2 : h * 2 ^ (hi + 1) + v * 2 ^ lo + r = (h * 2 ^ (hi + 1 - lo) + v) * 2 ^ lo + r := by
    rw [e, ← Nat.mul_assoc, ← Nat.add_mul]
  rw [e2, Nat.mul_comm _ (2 ^ lo), Nat.mul_add_div (Nat.two_pow_pos lo), Nat.div_eq_of_lt hr, Nat.add_zero, Nat.mul_comm h,
    Nat.mul_add_mod, Nat.mod_eq_of_lt hv]

theorem toNat_lt (b : Bool) : b.toNat < 2 := by cases b <;> decide
theorem toNat_one (b : Bool) : (b.toNat == 1) = b := by cases b <;> rfl

/-- An operation of a V slot. -/
theorem slotV (g op : Nat) (f : VF) (hop : op < 256) (h : wfV g op f = true) : decodeV g (encodeV (.op op f)) = .ok (.op op f) := by
  have hr : f.inRange = true := by
    unfold wfV at h
    split at h
    · exact absurd h (by simp)
    · simp only [Bool.and_eq_true] at h
      exact h.1.1.1.1.1.1.1.1.1.1.1
  unfold VF.inRange at hr
  simp only [Bool.and_eq_true, decide_eq_true_eq] at hr
  obtain ⟨⟨⟨⟨⟨⟨⟨⟨⟨⟨h1, h2⟩, h3⟩, h4⟩, h5⟩, h6⟩, h7⟩, h8⟩, h9⟩, h10⟩, h11⟩ := hr
  have z := toNat_lt f.zero
  have y := toNat_lt f.sat
  obtain ⟨W, e⟩ : ∃ W, W = f.zero.toNat * 2 ^ 58 + f.sat.toNat * 2 ^ 57 + f.form * 2 ^ 55 + f.rnd * 2 ^ 53 + f.imm * 2 ^ 36 +
    f.vc * 2 ^ 31 + f.vb * 2 ^ 26 + f.va * 2 ^ 21 + f.vd * 2 ^ 16 + f.pred * 2 ^ 13 + f.ty * 2 ^ 10 + f.width * 2 ^ 8 + op := ⟨_, rfl⟩
  have f0 : bits W 52 52 = 0 := by unfold bits; omega
  have f1 : bits W 9 8 = f.width := by unfold bits; omega
  have f2 : bits W 63 59 = 0 := by unfold bits; omega
  have f3 : bits W 58 58 = f.zero.toNat := by unfold bits; omega
  have f4 : bits W 57 57 = f.sat.toNat := by unfold bits; omega
  have f5 : bits W 56 55 = f.form := by unfold bits; omega
  have f6 : bits W 54 53 = f.rnd := by unfold bits; omega
  have f7 : bits W 51 36 = f.imm := by unfold bits; omega
  have f8 : bits W 35 31 = f.vc := by unfold bits; omega
  have f9 : bits W 30 26 = f.vb := by unfold bits; omega
  have f10 : bits W 25 21 = f.va := by unfold bits; omega
  have f11 : bits W 20 16 = f.vd := by unfold bits; omega
  have f12 : bits W 15 13 = f.pred := by unfold bits; omega
  have f13 : bits W 12 10 = f.ty := by unfold bits; omega
  have f14 : bits W 7 0 = op := by unfold bits; omega
  have hw0 : (f.width == 0) = false := by simp; omega
  have hrow : ∃ r, VRow.of op = some r := by
    unfold wfV at h
    split at h
    · exact absurd h (by simp)
    · next r hr => exact ⟨r, hr⟩
  obtain ⟨r, hr⟩ := hrow
  show decodeV g (f.zero.toNat * 2 ^ 58 + f.sat.toNat * 2 ^ 57 + f.form * 2 ^ 55 + f.rnd * 2 ^ 53 + f.imm * 2 ^ 36 +
    f.vc * 2 ^ 31 + f.vb * 2 ^ 26 + f.va * 2 ^ 21 + f.vd * 2 ^ 16 + f.pred * 2 ^ 13 + f.ty * 2 ^ 10 + f.width * 2 ^ 8 + op) = _
  rw [← e]
  unfold decodeV
  simp only [f0, f1, f2, f3, f4, f5, f6, f7, f8, f9, f10, f11, f12, f13, f14, hw0, hr, toNat_one, h]
  rfl

/-- An operation of the L slot. -/
theorem slotL (op : Nat) (f : LF) (hop : 0 < op ∧ op < 12) (h : wfL op f = true) :
    decodeL (encodeL (some (op, f))) = .ok (some (op, f)) := by
  have hr : f.inRange = true := by
    unfold wfL at h
    rw [Bool.and_eq_true] at h
    exact h.1
  unfold LF.inRange at hr
  simp only [Bool.and_eq_true, decide_eq_true_eq] at hr
  obtain ⟨⟨⟨⟨⟨⟨⟨h1, h2⟩, h3⟩, h4⟩, h5⟩, h6⟩, h7⟩, h8⟩ := hr
  obtain ⟨W, e⟩ : ∃ W, W = f.hole * 2 ^ 40 + f.pred * 2 ^ 37 + f.off * 2 ^ 21 + f.mode * 2 ^ 18 + f.areg * 2 ^ 14 + f.vreg * 2 ^ 9 +
    f.file * 2 ^ 8 + f.width * 2 ^ 6 + op := ⟨_, rfl⟩
  have f0 : bits W 5 0 = op := by unfold bits; omega
  have f1 : bits W 47 44 = 0 := by unfold bits; omega
  have f2 : bits W 43 40 = f.hole := by unfold bits; omega
  have f3 : bits W 39 37 = f.pred := by unfold bits; omega
  have f4 : bits W 36 21 = f.off := by unfold bits; omega
  have f5 : bits W 20 18 = f.mode := by unfold bits; omega
  have f6 : bits W 17 14 = f.areg := by unfold bits; omega
  have f7 : bits W 13 9 = f.vreg := by unfold bits; omega
  have f8 : bits W 8 8 = f.file := by unfold bits; omega
  have f9 : bits W 7 6 = f.width := by unfold bits; omega
  have n0 : (op == 0) = false := by simp; omega
  have n1 : ¬(op > 11) := by omega
  show decodeL (f.hole * 2 ^ 40 + f.pred * 2 ^ 37 + f.off * 2 ^ 21 + f.mode * 2 ^ 18 + f.areg * 2 ^ 14 + f.vreg * 2 ^ 9 +
    f.file * 2 ^ 8 + f.width * 2 ^ 6 + op) = _
  rw [← e]
  unfold decodeL
  simp only [f0, f1, f2, f3, f4, f5, f6, f7, f8, f9, n0, n1, h, if_true, if_false]
  rfl

theorem opV (i : Instr) (op v : Nat) (f : VF) (x : BCtx) (hop : op < 256) (hb : encodeBytes i = Option.none)
    (hv : i.vParts = some (op, v, f, x)) (hl : i.lParts = Option.none) (ho : Instr.ofV op v f x = some i) : Statement i := by
  refine ⟨fun _ bs hbs => ?_, fun g op' v' f' x' e hw => ?_, fun _ _ _ e => ?_⟩
  · rw [hb] at hbs; exact absurd hbs (by simp)
  · rw [hv] at e; cases e; exact ⟨slotV g op f hop hw, ho⟩
  · rw [hl] at e; exact absurd e (by simp)

theorem opL (i : Instr) (op : Nat) (f : LF) (x : BCtx) (hop : 0 < op ∧ op < 12) (hb : encodeBytes i = Option.none)
    (hv : i.vParts = Option.none) (hl : i.lParts = some (op, f, x)) (ho : Instr.ofL op f x = some i) : Statement i := by
  refine ⟨fun _ bs hbs => ?_, fun _ _ _ _ _ e => ?_, fun op' f' x' e hw => ?_⟩
  · rw [hb] at hbs; exact absurd hbs (by simp)
  · rw [hv] at e; exact absurd e (by simp)
  · rw [hl] at e; cases e; exact ⟨slotL op f hop hw, ho⟩

theorem vadd (v : Nat) (f : VF) (x : BCtx) : Statement (.vadd v f x) := opV _ 0x00 v f x (by decide) rfl rfl rfl rfl
theorem vsub (v : Nat) (f : VF) (x : BCtx) : Statement (.vsub v f x) := opV _ 0x01 v f x (by decide) rfl rfl rfl rfl
theorem vmul (v : Nat) (f : VF) (x : BCtx) : Statement (.vmul v f x) := opV _ 0x02 v f x (by decide) rfl rfl rfl rfl
theorem vmulh (v : Nat) (f : VF) (x : BCtx) : Statement (.vmulh v f x) := opV _ 0x03 v f x (by decide) rfl rfl rfl rfl
theorem vmad (v : Nat) (f : VF) (x : BCtx) : Statement (.vmad v f x) := opV _ 0x04 v f x (by decide) rfl rfl rfl rfl
theorem vmin (v : Nat) (f : VF) (x : BCtx) : Statement (.vmin v f x) := opV _ 0x05 v f x (by decide) rfl rfl rfl rfl
theorem vmax (v : Nat) (f : VF) (x : BCtx) : Statement (.vmax v f x) := opV _ 0x06 v f x (by decide) rfl rfl rfl rfl
theorem vabs (v : Nat) (f : VF) (x : BCtx) : Statement (.vabs v f x) := opV _ 0x07 v f x (by decide) rfl rfl rfl rfl
theorem vneg (v : Nat) (f : VF) (x : BCtx) : Statement (.vneg v f x) := opV _ 0x08 v f x (by decide) rfl rfl rfl rfl
theorem vand (v : Nat) (f : VF) (x : BCtx) : Statement (.vand v f x) := opV _ 0x09 v f x (by decide) rfl rfl rfl rfl
theorem vor (v : Nat) (f : VF) (x : BCtx) : Statement (.vor v f x) := opV _ 0x0A v f x (by decide) rfl rfl rfl rfl
theorem vxor (v : Nat) (f : VF) (x : BCtx) : Statement (.vxor v f x) := opV _ 0x0B v f x (by decide) rfl rfl rfl rfl
theorem vnot (v : Nat) (f : VF) (x : BCtx) : Statement (.vnot v f x) := opV _ 0x0C v f x (by decide) rfl rfl rfl rfl
theorem vshl (v : Nat) (f : VF) (x : BCtx) : Statement (.vshl v f x) := opV _ 0x0D v f x (by decide) rfl rfl rfl rfl
theorem vshr (v : Nat) (f : VF) (x : BCtx) : Statement (.vshr v f x) := opV _ 0x0E v f x (by decide) rfl rfl rfl rfl
theorem vsar (v : Nat) (f : VF) (x : BCtx) : Statement (.vsar v f x) := opV _ 0x0F v f x (by decide) rfl rfl rfl rfl
theorem vcmp (v : Nat) (f : VF) (x : BCtx) : Statement (.vcmp v f x) := opV _ 0x10 v f x (by decide) rfl rfl rfl rfl
theorem vsel (v : Nat) (f : VF) (x : BCtx) : Statement (.vsel v f x) := opV _ 0x11 v f x (by decide) rfl rfl rfl rfl
theorem vli (v : Nat) (f : VF) (x : BCtx) : Statement (.vli v f x) := opV _ 0x12 v f x (by decide) rfl rfl rfl rfl
theorem vmov (v : Nat) (f : VF) (x : BCtx) : Statement (.vmov v f x) := opV _ 0x13 v f x (by decide) rfl rfl rfl rfl
theorem vfadd (v : Nat) (f : VF) (x : BCtx) : Statement (.vfadd v f x) := opV _ 0x20 v f x (by decide) rfl rfl rfl rfl
theorem vfsub (v : Nat) (f : VF) (x : BCtx) : Statement (.vfsub v f x) := opV _ 0x21 v f x (by decide) rfl rfl rfl rfl
theorem vfmul (v : Nat) (f : VF) (x : BCtx) : Statement (.vfmul v f x) := opV _ 0x22 v f x (by decide) rfl rfl rfl rfl
theorem vfma (v : Nat) (f : VF) (x : BCtx) : Statement (.vfma v f x) := opV _ 0x23 v f x (by decide) rfl rfl rfl rfl
theorem vfms (v : Nat) (f : VF) (x : BCtx) : Statement (.vfms v f x) := opV _ 0x24 v f x (by decide) rfl rfl rfl rfl
theorem vfnma (v : Nat) (f : VF) (x : BCtx) : Statement (.vfnma v f x) := opV _ 0x25 v f x (by decide) rfl rfl rfl rfl
theorem vfmin (v : Nat) (f : VF) (x : BCtx) : Statement (.vfmin v f x) := opV _ 0x26 v f x (by decide) rfl rfl rfl rfl
theorem vfmax (v : Nat) (f : VF) (x : BCtx) : Statement (.vfmax v f x) := opV _ 0x27 v f x (by decide) rfl rfl rfl rfl
theorem vfabs (v : Nat) (f : VF) (x : BCtx) : Statement (.vfabs v f x) := opV _ 0x28 v f x (by decide) rfl rfl rfl rfl
theorem vfneg (v : Nat) (f : VF) (x : BCtx) : Statement (.vfneg v f x) := opV _ 0x29 v f x (by decide) rfl rfl rfl rfl
theorem vfdiv (v : Nat) (f : VF) (x : BCtx) : Statement (.vfdiv v f x) := opV _ 0x2A v f x (by decide) rfl rfl rfl rfl
theorem vfsqrt (v : Nat) (f : VF) (x : BCtx) : Statement (.vfsqrt v f x) := opV _ 0x2B v f x (by decide) rfl rfl rfl rfl
theorem vfrcp (v : Nat) (f : VF) (x : BCtx) : Statement (.vfrcp v f x) := opV _ 0x2C v f x (by decide) rfl rfl rfl rfl
theorem vfrsq (v : Nat) (f : VF) (x : BCtx) : Statement (.vfrsq v f x) := opV _ 0x2D v f x (by decide) rfl rfl rfl rfl
theorem vfexp2 (v : Nat) (f : VF) (x : BCtx) : Statement (.vfexp2 v f x) := opV _ 0x2E v f x (by decide) rfl rfl rfl rfl
theorem vflog2 (v : Nat) (f : VF) (x : BCtx) : Statement (.vflog2 v f x) := opV _ 0x2F v f x (by decide) rfl rfl rfl rfl
theorem vfcmp (v : Nat) (f : VF) (x : BCtx) : Statement (.vfcmp v f x) := opV _ 0x30 v f x (by decide) rfl rfl rfl rfl
theorem vfcvt (v : Nat) (f : VF) (x : BCtx) : Statement (.vfcvt v f x) := opV _ 0x31 v f x (by decide) rfl rfl rfl rfl
theorem vicvt (v : Nat) (f : VF) (x : BCtx) : Statement (.vicvt v f x) := opV _ 0x32 v f x (by decide) rfl rfl rfl rfl
theorem vnarrow (v : Nat) (f : VF) (x : BCtx) : Statement (.vnarrow v f x) := opV _ 0x33 v f x (by decide) rfl rfl rfl rfl
theorem vwiden (v : Nat) (f : VF) (x : BCtx) : Statement (.vwiden v f x) := opV _ 0x34 v f x (by decide) rfl rfl rfl rfl
theorem vacc (v : Nat) (f : VF) (x : BCtx) : Statement (.vacc v f x) := opV _ 0x90 v f x (by decide) rfl rfl rfl rfl
theorem vnorm (v : Nat) (f : VF) (x : BCtx) : Statement (.vnorm v f x) := opV _ 0x91 v f x (by decide) rfl rfl rfl rfl
theorem vperm (v : Nat) (f : VF) (x : BCtx) : Statement (.vperm v f x) := opV _ 0x50 v f x (by decide) rfl rfl rfl rfl
theorem vbcast (v : Nat) (f : VF) (x : BCtx) : Statement (.vbcast v f x) := opV _ 0x51 v f x (by decide) rfl rfl rfl rfl
theorem vslide (v : Nat) (f : VF) (x : BCtx) : Statement (.vslide v f x) := opV _ 0x52 v f x (by decide) rfl rfl rfl rfl
theorem vzip (v : Nat) (f : VF) (x : BCtx) : Statement (.vzip v f x) := opV _ 0x53 v f x (by decide) rfl rfl rfl rfl
theorem vunzip (v : Nat) (f : VF) (x : BCtx) : Statement (.vunzip v f x) := opV _ 0x54 v f x (by decide) rfl rfl rfl rfl
theorem vins (v : Nat) (f : VF) (x : BCtx) : Statement (.vins v f x) := opV _ 0x55 v f x (by decide) rfl rfl rfl rfl
theorem vext (v : Nat) (f : VF) (x : BCtx) : Statement (.vext v f x) := opV _ 0x56 v f x (by decide) rfl rfl rfl rfl
theorem vcompress (v : Nat) (f : VF) (x : BCtx) : Statement (.vcompress v f x) := opV _ 0x57 v f x (by decide) rfl rfl rfl rfl
theorem vredaddI (v : Nat) (f : VF) (x : BCtx) : Statement (.vredaddI v f x) := opV _ 0x58 v f x (by decide) rfl rfl rfl rfl
theorem vredmaxI (v : Nat) (f : VF) (x : BCtx) : Statement (.vredmaxI v f x) := opV _ 0x59 v f x (by decide) rfl rfl rfl rfl
theorem vredminI (v : Nat) (f : VF) (x : BCtx) : Statement (.vredminI v f x) := opV _ 0x5A v f x (by decide) rfl rfl rfl rfl
theorem vargmaxI (v : Nat) (f : VF) (x : BCtx) : Statement (.vargmaxI v f x) := opV _ 0x5B v f x (by decide) rfl rfl rfl rfl
theorem vscanI (v : Nat) (f : VF) (x : BCtx) : Statement (.vscanI v f x) := opV _ 0x5C v f x (by decide) rfl rfl rfl rfl
theorem vredaddF (v : Nat) (f : VF) (x : BCtx) : Statement (.vredaddF v f x) := opV _ 0x60 v f x (by decide) rfl rfl rfl rfl
theorem vredmaxF (v : Nat) (f : VF) (x : BCtx) : Statement (.vredmaxF v f x) := opV _ 0x61 v f x (by decide) rfl rfl rfl rfl
theorem vredminF (v : Nat) (f : VF) (x : BCtx) : Statement (.vredminF v f x) := opV _ 0x62 v f x (by decide) rfl rfl rfl rfl
theorem vargmaxF (v : Nat) (f : VF) (x : BCtx) : Statement (.vargmaxF v f x) := opV _ 0x63 v f x (by decide) rfl rfl rfl rfl
theorem vscanF (v : Nat) (f : VF) (x : BCtx) : Statement (.vscanF v f x) := opV _ 0x64 v f x (by decide) rfl rfl rfl rfl
theorem pand (v : Nat) (f : VF) (x : BCtx) : Statement (.pand v f x) := opV _ 0x70 v f x (by decide) rfl rfl rfl rfl
theorem por (v : Nat) (f : VF) (x : BCtx) : Statement (.por v f x) := opV _ 0x71 v f x (by decide) rfl rfl rfl rfl
theorem pxor (v : Nat) (f : VF) (x : BCtx) : Statement (.pxor v f x) := opV _ 0x72 v f x (by decide) rfl rfl rfl rfl
theorem pnot (v : Nat) (f : VF) (x : BCtx) : Statement (.pnot v f x) := opV _ 0x73 v f x (by decide) rfl rfl rfl rfl
theorem pfirst (v : Nat) (f : VF) (x : BCtx) : Statement (.pfirst v f x) := opV _ 0x74 v f x (by decide) rfl rfl rfl rfl
theorem ppop (v : Nat) (f : VF) (x : BCtx) : Statement (.ppop v f x) := opV _ 0x75 v f x (by decide) rfl rfl rfl rfl
theorem pcnt (v : Nat) (f : VF) (x : BCtx) : Statement (.pcnt v f x) := opV _ 0x76 v f x (by decide) rfl rfl rfl rfl
theorem vrand (v : Nat) (f : VF) (x : BCtx) : Statement (.vrand v f x) := opV _ 0x80 v f x (by decide) rfl rfl rfl rfl
theorem vrkey (v : Nat) (f : VF) (x : BCtx) : Statement (.vrkey v f x) := opV _ 0x81 v f x (by decide) rfl rfl rfl rfl
theorem vrskip (v : Nat) (f : VF) (x : BCtx) : Statement (.vrskip v f x) := opV _ 0x82 v f x (by decide) rfl rfl rfl rfl
theorem vrsave (v : Nat) (f : VF) (x : BCtx) : Statement (.vrsave v f x) := opV _ 0x83 v f x (by decide) rfl rfl rfl rfl
theorem vchk (v : Nat) (f : VF) (x : BCtx) : Statement (.vchk v f x) := opV _ 0x88 v f x (by decide) rfl rfl rfl rfl
theorem vld (f : LF) (x : BCtx) : Statement (.vld f x) := opL _ 0x01 f x (by decide) rfl rfl rfl rfl
theorem vst (f : LF) (x : BCtx) : Statement (.vst f x) := opL _ 0x02 f x (by decide) rfl rfl rfl rfl
theorem vldff (f : LF) (x : BCtx) : Statement (.vldff f x) := opL _ 0x03 f x (by decide) rfl rfl rfl rfl
theorem vldx (f : LF) (x : BCtx) : Statement (.vldx f x) := opL _ 0x04 f x (by decide) rfl rfl rfl rfl
theorem vstx (f : LF) (x : BCtx) : Statement (.vstx f x) := opL _ 0x05 f x (by decide) rfl rfl rfl rfl
theorem vldw (f : LF) (x : BCtx) : Statement (.vldw f x) := opL _ 0x06 f x (by decide) rfl rfl rfl rfl
theorem vstw (f : LF) (x : BCtx) : Statement (.vstw f x) := opL _ 0x07 f x (by decide) rfl rfl rfl rfl
theorem phpop (f : LF) (x : BCtx) : Statement (.phpop f x) := opL _ 0x08 f x (by decide) rfl rfl rfl rfl
theorem phpush (f : LF) (x : BCtx) : Statement (.phpush f x) := opL _ 0x09 f x (by decide) rfl rfl rfl rfl
theorem ainc (f : LF) (x : BCtx) : Statement (.ainc f x) := opL _ 0x0A f x (by decide) rfl rfl rfl rfl
theorem aset (f : LF) (x : BCtx) : Statement (.aset f x) := opL _ 0x0B f x (by decide) rfl rfl rfl rfl
theorem sync : Statement .sync := none _ rfl rfl rfl
theorem seg : Statement .seg := none _ rfl rfl rfl
theorem rdv : Statement .rdv := none _ rfl rfl rfl
theorem fmtw : Statement .fmtw := none _ rfl rfl rfl
theorem pha : Statement .pha := none _ rfl rfl rfl
theorem chk : Statement .chk := none _ rfl rfl rfl
theorem trc : Statement .trc := none _ rfl rfl rfl
theorem mnop : Statement .mnop := none _ rfl rfl rfl
theorem mwl : Statement .mwl := none _ rfl rfl rfl
theorem mpush : Statement .mpush := none _ rfl rfl rfl
theorem mswap : Statement .mswap := none _ rfl rfl rfl
theorem mdrain : Statement .mdrain := none _ rfl rfl rfl
theorem mclr : Statement .mclr := none _ rfl rfl rfl
theorem mchk : Statement .mchk := none _ rfl rfl rfl
theorem mnorm : Statement .mnorm := none _ rfl rfl rfl
theorem xmv : Statement .xmv := none _ rfl rfl rfl
theorem xts : Statement .xts := none _ rfl rfl rfl
theorem xfs : Statement .xfs := none _ rfl rfl rfl
theorem xta : Statement .xta := none _ rfl rfl rfl
theorem xfa : Statement .xfa := none _ rfl rfl rfl
theorem xpc : Statement .xpc := none _ rfl rfl rfl
theorem trapEntry : Statement .trapEntry := none _ rfl rfl rfl
theorem timerExpiry : Statement .timerExpiry := none _ rfl rfl rfl
theorem specAbort : Statement .specAbort := none _ rfl rfl rfl
theorem rewind : Statement .rewind := none _ rfl rfl rfl
theorem scoreDecay : Statement .scoreDecay := none _ rfl rfl rfl
theorem scrub : Statement .scrub := none _ rfl rfl rfl
theorem l1Eviction : Statement .l1Eviction := none _ rfl rfl rfl
theorem epochTick : Statement .epochTick := none _ rfl rfl rfl
theorem tagPatrol : Statement .tagPatrol := none _ rfl rfl rfl
theorem windowBeat : Statement .windowBeat := none _ rfl rfl rfl
theorem jobStart : Statement .jobStart := none _ rfl rfl rfl
theorem jobEnd : Statement .jobEnd := none _ rfl rfl rfl
theorem armputFire : Statement .armputFire := none _ rfl rfl rfl
theorem putArrival : Statement .putArrival := none _ rfl rfl rfl
theorem putaddArrival : Statement .putaddArrival := none _ rfl rfl rfl
theorem getRequestArrival : Statement .getRequestArrival := none _ rfl rfl rfl
theorem dataResponseArrival : Statement .dataResponseArrival := none _ rfl rfl rfl
theorem acknowledgementArrival : Statement .acknowledgementArrival := none _ rfl rfl rfl
theorem movedResponse : Statement .movedResponse := none _ rfl rfl rfl
theorem refusalResponse : Statement .refusalResponse := none _ rfl rfl rfl
theorem domainNotice : Statement .domainNotice := none _ rfl rfl rfl
theorem weightBroadcastArrival : Statement .weightBroadcastArrival := none _ rfl rfl rfl
theorem ocsQuiesce : Statement .ocsQuiesce := none _ rfl rfl rfl
theorem ocsConfirmation : Statement .ocsConfirmation := none _ rfl rfl rfl
theorem fecWindowEnd : Statement .fecWindowEnd := none _ rfl rfl rfl
theorem uncorrectableFlit : Statement .uncorrectableFlit := none _ rfl rfl rfl
theorem portUp : Statement .portUp := none _ rfl rfl rfl
theorem coreDispatch : Statement .coreDispatch := none _ rfl rfl rfl
theorem agingPromotion : Statement .agingPromotion := none _ rfl rfl rfl
theorem affinityHoldLapse : Statement .affinityHoldLapse := none _ rfl rfl rfl
theorem quantumExpiry : Statement .quantumExpiry := none _ rfl rfl rfl
theorem forcedFreeze : Statement .forcedFreeze := none _ rfl rfl rfl
theorem budgetPeriod : Statement .budgetPeriod := none _ rfl rfl rfl
theorem letterboxDoorbell : Statement .letterboxDoorbell := none _ rfl rfl rfl
theorem hostAccess : Statement .hostAccess := none _ rfl rfl rfl
theorem entropyHealthFailure : Statement .entropyHealthFailure := none _ rfl rfl rfl
theorem coldReset : Statement .coldReset := none _ rfl rfl rfl
theorem warmReset : Statement .warmReset := none _ rfl rfl rfl
theorem bootTimeout : Statement .bootTimeout := none _ rfl rfl rfl
theorem mailboxImage : Statement .mailboxImage := none _ rfl rfl rfl
theorem mailboxAttestation : Statement .mailboxAttestation := none _ rfl rfl rfl
theorem mailboxReset : Statement .mailboxReset := none _ rfl rfl rfl
theorem l2Eviction : Statement .l2Eviction := none _ rfl rfl rfl
theorem hostSnoop : Statement .hostSnoop := none _ rfl rfl rfl
theorem wfeTimeout : Statement .wfeTimeout := none _ rfl rfl rfl
theorem noiseSourceRestart : Statement .noiseSourceRestart := none _ rfl rfl rfl
theorem switchStaleAnswer : Statement .switchStaleAnswer := none _ rfl rfl rfl
theorem targetAnswerArrival : Statement .targetAnswerArrival := none _ rfl rfl rfl
theorem barrierNotice : Statement .barrierNotice := none _ rfl rfl rfl
theorem throttling : Statement .throttling := none _ rfl rfl rfl
end Sys2Proof.Laws.Encoding
end

