-- ==== Sys2Proof/Safety.lean ====
section
/-! DEFINITION. What the statements are made of: the canonical form of memory, what a word or an operation may change beside its
result, and the bytes that it may write. -/

namespace Sys2Proof.Machine

/-! ## Memory -/

/-- The bytes of memory, and the bytes that the L2 holds over it, are listed once each in rising order, and none of them is what
an unlisted byte reads as. -/
def State.memWf (s : State) : Prop := Memory.wf s.pkg.mem = true ∧ twf none s.pkg.dirty = true

/-- Every byte of memory reads the same at its order point (R246, R248). -/
def SameBytes (s t : State) : Prop := ∀ a, peek t a = peek s a

/-- Every byte of every core's scratchpad reads the same (R242). -/
def SameSpm (s t : State) : Prop := ∀ core a, tget 0 (coreCtx t core).c.spm a = tget 0 (coreCtx s core).c.spm a

/-- The byte at physical address `a` that the L1 of the core in focus holds written and not yet written back (R253). -/
def ownDirty (s : State) (a : Nat) : Option Byte :=
  match l1Get s (a / 128) with
  | some l => if l.isDirty (a % 128) then some (l.byte (a % 128)) else none
  | none => none

/-- What the core in focus reads at physical address `a`: its L1's copy where it holds the line (R253, R260). -/
def seenByte (s : State) (a : Nat) : Byte :=
  match l1Get s (a / 128) with
  | some l => l.byte (a % 128)
  | none => peek s a

/-- What an access at the order point finds at physical address `a`, once the core's own L1 has written back what it held written
there (R254, R260); a page that a published version has sealed since is not written back (R359). -/
def pointByte (s : State) (a : Nat) : Byte :=
  if sealedPage s (128 * (a / 128)) then peek s a else (ownDirty s a).getD (peek s a)

/-- What a plain load with a hint finds at physical address `a` of a page: the L1's copy where the page may use the L1, and the byte
at the order point otherwise (R253, R259). -/
def loadByte (s : State) (pg : PageInfo) (hint a : Nat) : Byte :=
  if usesL1 pg (effHint pg hint) then seenByte s a else pointByte s a

/-- No armed job of any core watches writes (R324, R368): a write then sets nothing else in motion. -/
def State.unwatched (s : State) : Prop :=
  ∀ n, ∀ e ∈ (coreCtx s n).c.jobs, e.2.live = true → e.2.armed = true → e.2.eng ≠ 3 ∧ e.2.eng ≠ 5

/-- Outside the physical bytes of `A`, memory reads the same, but for bytes that the core's own L1 held written and has written
back (R253, R254). -/
def OnlyBytes (A : Nat → Prop) (s t : State) : Prop :=
  s.unwatched → ∀ a, ¬A a → peek t a = peek s a ∨ ownDirty s a = some (peek t a)

/-- An access has set nothing else in motion: scratchpads, jobs, counters, tasks and the release epoch are as they were. -/
structure Still (s u : State) : Prop where
  spm_eq : ∀ n, (coreCtx u n).c.spm = (coreCtx s n).c.spm ∧ (coreCtx u n).c.spmPoison = (coreCtx s n).c.spmPoison
  jobs_eq : ∀ n, (coreCtx u n).c.jobs = (coreCtx s n).c.jobs
  pkg_eq : u.pkg.counters = s.pkg.counters ∧ u.pkg.scoperec = s.pkg.scoperec ∧ u.pkg.tasks = s.pkg.tasks ∧
    u.pkg.atOnce = s.pkg.atOnce ∧ u.pkg.epoch = s.pkg.epoch
  queues_eq : ∀ d, (getDie u d).queues = (getDie s d).queues

/-- No byte. -/
def NoByte (_ : Nat) : Prop := False

/-- The physical bytes of a translated range of `n` bytes. -/
def BytesOf (ps : List Piece) (n a : Nat) : Prop := ∃ k, k < n ∧ a = pieceAt ps k

/-- The bytes of the lines that a translated range of `n` bytes meets. -/
def LinesOf (ps : List Piece) (n a : Nat) : Prop := ∃ k, k < n ∧ a / 128 = pieceAt ps k / 128

/-! ## Completion -/

/-- `exec` answers a next state, and what holds of it. -/
def Runs (i : Instr) (s : State) (P : State → Prop) : Prop := ∃ t, exec i s = .next t ∧ P t

/-- A stream word raises a fault: it takes the exception (R456), or in trap mode ends as a double fault (R459), at bundle index 0 and
source 0 (R457). -/
def Traps (i : Instr) (s : State) (t : Trap) : Prop := exec i s = .next (raiseAt s t 0 0)

/-! ## Frames -/

/-- What an access to memory leaves as it was: the registers, modes and accumulators of the task and its core, the system
registers of the package and the dies, the turns. Of these `s` and `u` differ only in what a memory system holds: bytes, caches,
tags, records, budgets, translations held, and what a watched write moves on: jobs and their results, counters, tasks, the release
epoch. -/
structure AccessFrame (s u : State) : Prop where
  cur_eq : u.cur = s.cur
  turns_eq : u.turns = s.turns
  arg_eq : u.arg = s.arg
  upsets_eq : u.upsets = s.upsets
  c_eq : u.c = { s.c with l1 := u.c.l1, l1Poison := u.c.l1Poison, jobs := u.c.jobs, tlb := u.c.tlb, spm := u.c.spm, spmPoison := u.c.spmPoison }
  t_eq : u.t = { s.t with
        spec := { s.t.spec with pending := u.t.spec.pending, commit := u.t.spec.commit }, seen := u.t.seen, hbmBytes := u.t.hbmBytes }
  pkg_eq : u.pkg = { s.pkg with
        mem := u.pkg.mem, dirty := u.pkg.dirty, l2 := u.pkg.l2, poison := u.pkg.poison, tags := u.pkg.tags, sidecar := u.pkg.sidecar,
        tagPoison := u.pkg.tagPoison, sync := u.pkg.sync, syncMem := u.pkg.syncMem, counters := u.pkg.counters, scoperec := u.pkg.scoperec, tasks := u.pkg.tasks,
        atOnce := u.pkg.atOnce, epoch := u.pkg.epoch, tickWanted := u.pkg.tickWanted }
  core_eq : ∀ n, coreCtx u n = {
        c := { (coreCtx s n).c with
          l1 := (coreCtx u n).c.l1, l1Poison := (coreCtx u n).c.l1Poison, jobs := (coreCtx u n).c.jobs, tlb := (coreCtx u n).c.tlb, spm := (coreCtx u n).c.spm,
          spmPoison := (coreCtx u n).c.spmPoison },
        t := { (coreCtx s n).t with
          spec := { (coreCtx s n).t.spec with
            pending := (coreCtx u n).t.spec.pending, commit := (coreCtx u n).t.spec.commit },
          seen := (coreCtx u n).t.seen, hbmBytes := (coreCtx u n).t.hbmBytes } }
  die_eq : ∀ d, getDie u d = { getDie s d with
        spend := (getDie u d).spend, tlb := (getDie u d).tlb, queues := (getDie u d).queues }

/-- What an access that writes no byte outside `A` may change. -/
structure Access (A : Nat → Prop) (s u : State) : Prop where
  frame : AccessFrame s u
  bytes : OnlyBytes A s u
  still : s.unwatched → Still s u

/-- What a change of the package's own tables leaves as it was: everything that an access leaves, while the domains, the tags given
out, the versions, the broadcasts, the packets that wait for a port and the device's copies of saved contexts may change too. -/
def DeviceFrame (s u : State) : Prop :=
  AccessFrame s { u with pkg := { u.pkg with
    domains := s.pkg.domains, lastTag := s.pkg.lastTag, versions := s.pkg.versions, publishes := s.pkg.publishes,
    parked := s.pkg.parked, held := s.pkg.held } }

/-- The core in focus runs no task and holds none (R413, R417). -/
def Idle (t : State) : Prop := t.t = {} ∧ t.c.busy = false ∧ t.c.trap = false

/-- The task in focus at rest, as it is saved: its segment is closed, nothing of it is begun and its window beats have landed (R413). -/
def atRest (s : State) : State :=
  { s with t := { s.t with
      seg := none, rewound := none, tick := none, begun := 0, undo := s.t.undo.map fun u => { u with seg := none, rewound := none },
      slots := { s.t.slots with beats := [] } } }

/-- The record of the task in focus after it has left its core in this way (R381, R412, R413): it is READY or SUSPENDED as the suspension
says, or READY where what it awaited has come meanwhile, and a READY task stands in its queue. -/
structure Recorded (s : State) (l : Leave) (r : TaskRec) (t : State) : Prop where
  kept : getTask t s.t.me.tag = some r
  same : r = { s.t.me with
    pc := l.pc, susp := l.susp, exit := 0, age := 0, last := s.cur, lcv := true, ran := true, st := r.st, intens := r.intens,
    die := r.die, held := r.held, result := r.result, acquire := r.acquire, awaits := r.awaits }
  state : r.st = l.st ∨ (r.st = 1 ∧ r.result ≠ none ∧ (l.susp = 2 ∨ l.susp = 3))
  queued : r.st = 1 → r.tag ∈ tget [] (getDie t r.die).queues (queueKey r.tint r.cls (effPrio r))

/-- A fault record of the task `r` stands in the next slot of its die's ring and is counted, and no other byte has changed since `e`
(R461): the envelope, the cause, the PC, the details, and the cause of the fault before. -/
def FaultRecorded (s e t : State) (r : TaskRec) (x : Word × Word × List Nat × Word) : Prop :=
  let d := getDie s (dieOf s.cur)
  let slot := (getCnt s d.faultcnt).toNat % (16 * 2 ^ (d.faultring.toNat / 2 ^ 8 % 16))
  let base := d.faultring.toNat / 2 ^ 12 % 2 ^ 40 * 2 ^ 12 + 64 * slot
  let words := [r.env + r.asid * 2 ^ 56, x.1.toNat, x.2.1.toNat] ++ x.2.2.1 ++ [x.2.2.2.toNat]
  getCnt t d.faultcnt = getCnt s d.faultcnt + 1 ∧
    ∀ a, peek t a = if base ≤ a ∧ a < base + 8 * words.length then BitVec.ofNat 8 (words.getD ((a - base) / 8) 0 / 2 ^ (8 * ((a - base) % 8)))
      else peek e a

/-- What a suspension of the task in focus leaves (R381, R413, R414, R416, R461), where no write has decided the end of a region: the core is
idle; where the save area cannot be written, the task is gone (R414); otherwise the area holds the task at rest, then the envelope's
fields are written and the record kept, and a suspension that reports a fault has left its record in the die's ring. -/
structure SuspendedAs (s t : State) (l : Leave) : Prop where
  idle : Idle t
  task : s.t.spec.commit = false → s.t.spec.pending = none → ∃ v, AccessFrame (atRest s) v ∧
    ((∃ f, writeSave v l.kind l.pc = .error f) → getTask t s.t.me.tag = none) ∧
    ∀ w, writeSave v l.kind l.pc = .ok w → ∃ r, Recorded s l r t ∧
      let e := envStatus wrPlain (envFields wrPlain (tickEpoch w) r s.t.regs.vhold) r
      (l.record = none → SameBytes e t) ∧
      (∀ x, l.record = some x → s.unwatched → (∀ y ∈ taskList s, y.st ≠ 4) → (getDie s (dieOf s.cur)).faultring.toNat % 2 = 1 →
        FaultRecorded s e t r x)

/-- A table of `n` registers: in canonical form, and with no entry beyond them. -/
def Fits {w : Nat} (n : Nat) (m : Tbl (BitVec w)) : Prop := twf 0 m = true ∧ ∀ e ∈ m, e.1 < n

/-- The registers of a task lie within their files, and what the save area holds of them in its fields (R22, R414). -/
structure FitsRegs (t : Task) : Prop where
  width : t.g = 1 ∨ t.g = 2 ∨ t.g = 4
  seq : Fits 64 t.s ∧ Fits 8 t.b ∧ Fits 4 t.lc ∧ Fits 16 t.a ∧ Fits 16 t.mat.sh ∧ Fits 16 t.hole ∧ Fits 256 t.eng
  vec : Fits 64 t.v ∧ Fits (32 * t.g) t.ctr ∧ twf 0 t.rsd = true ∧ ∀ e ∈ t.rsd, e.1 < 256 ∧ e.1 % 128 < 32 * t.g
  sys : Fits 4 t.regs.vpins ∧ Fits 8 t.regs.rdvcnt
  cwt : twf none t.cwt = true ∧ ∀ e ∈ t.cwt, e.1 < 512
  loops : (t.loops.map (·.lc)).Nodup ∧ ∀ l ∈ t.loops, l.lc < 4 ∧ l.e.toNat % 2 = 0
  stub : t.stub = false ∧ t.stubrec.length ≤ 64
  slots : t.slots.fmt < 2 ^ 16 ∧ t.slots.next < 2 ^ 64

/-- A task that awaits the end of a task or of a phase, before it is suspended for it (R391, R394). -/
def awaiting (s : State) (a : Nat) : State :=
  let me := { s.t.me with awaits := some a }
  { s with
    t := { s.t with me, seg := none, rewound := none }, pkg := { s.pkg with tasks := tset none s.pkg.tasks me.tag (some me) } }

/-- Granule `k` of the registers is marked poisoned as before, and where it is one of s60 to s63 the marks are exchanged with the bank's
(R456, R483). -/
def granuleSwapped (s t : State) (k : Nat) : Prop :=
  if 60 ≤ k ∧ k < 64 then (k ∈ t.t.poison ↔ k ∈ s.c.bankPoison) ∧ (k ∈ t.c.bankPoison ↔ k ∈ s.t.poison)
  else (∀ g ∈ s.c.bankPoison, 60 ≤ g ∧ g < 64) → (k ∈ t.t.poison ↔ k ∈ s.t.poison)

/-- `t` is `s` after taking an exception with this cause, these details and this resume point (R456, R457): the task's s60 to s63 are
exchanged with the bank, the core runs at the trap vector in trap mode and supervisor privilege, a bundle that the C slot is in goes back
to its boundary (R37; `undoC`, log entry 86), and beside this only the die's black box has a record more. -/
structure Took (s t : State) (cause : Word) (info : List Nat) (resume : Word) : Prop where
  cause_eq : t.c.cause = cause
  resume_eq : t.c.trappc = resume
  info_eq : ∀ k, k < 4 → tget 0 t.c.info k = BitVec.ofNat 64 (info.getD k 0)
  mode_eq : t.c.trap = true ∧ t.c.priv = true ∧ t.c.prior = s.c.priv
  pc_eq : t.t.pc = (getDie s (dieOf s.cur)).trapvec
  low_eq : ∀ k, k < 60 → getS t k = getS s k
  bank_eq : ∀ k, 60 ≤ k → k < 64 → getS t k = tget 0 s.c.bank k ∧ tget 0 t.c.bank k = getS s k
  die_eq : ∀ d, getDie t d = { getDie s d with
    box := (getDie t d).box, written := (getDie t d).written, lost := (getDie t d).lost }
  marks_eq : ∀ k, granuleSwapped s t k
  rest : t = { undoC s with
    c := { s.c with
      cause := t.c.cause, trappc := t.c.trappc, info := t.c.info, bank := t.c.bank, bankPoison := t.c.bankPoison,
      prior := t.c.prior, priv := true, trap := true },
    t := { (undoC s).t with
      pc := t.t.pc, s := t.t.s, poison := t.t.poison, tick := none, begun := 0, spec := { s.t.spec with full := false } },
    dies := t.dies, free := t.free }

/-- `t` is `s` after leaving trap mode (R465): the bank is exchanged back, the privilege is the prior one and the PC is TRAPPC. -/
structure Returned (s t : State) : Prop where
  mode_eq : t.c.trap = false ∧ t.c.priv = s.c.prior
  pc_eq : t.t.pc = s.c.trappc
  low_eq : ∀ k, k < 60 → getS t k = getS s k
  bank_eq : ∀ k, 60 ≤ k → k < 64 → getS t k = tget 0 s.c.bank k ∧ tget 0 t.c.bank k = getS s k
  marks_eq : ∀ k, granuleSwapped s t k
  rest : t = { s with
    c := { s.c with bank := t.c.bank, bankPoison := t.c.bankPoison, priv := s.c.prior, trap := false },
    t := { s.t with pc := t.t.pc, s := t.t.s, poison := t.t.poison } }

/-- `t` is `s` after an abort of its open region with this cause (R426): the checkpoint is restored, the PC is SALT, the stores and
whatever the slots held are discarded; memory, the mapped-away accumulators and everything else of the machine are as they were. -/
structure Aborted (s t : State) (cause : Nat) : Prop where
  pc_eq : t.t.pc = s.t.spec.alt
  scalar_eq : t.t.s = s.t.spec.save.s ∧ t.t.b = s.t.spec.save.b ∧ t.t.q = s.t.spec.save.q
  loop_eq : t.t.lc = s.t.spec.save.lc ∧ t.t.loops = s.t.spec.save.loops
  vector_eq : t.t.v = s.t.spec.save.v ∧ t.t.p = s.t.spec.save.p ∧ t.t.a = s.t.spec.save.a
  shape_eq : t.t.mat.sh = s.t.spec.save.sh ∧ t.t.slots.fmt = s.t.spec.save.fmt ∧ t.t.slots.fmtw = []
  acc_eq : ∀ k, k < 512 → tget {} t.t.mat.acc k = tget {} s.t.mat.acc k
  slots_eq : t.t.slots.queue = [] ∧ t.t.slots.latches = [] ∧ t.t.slots.cfg = [] ∧ t.t.slots.next = s.t.slots.next
  spec_eq : t.t.spec.isOpen = false ∧ t.t.spec.last = cause ∧ t.t.spec.store = [] ∧ t.t.spec.pending = none ∧
    t.t.spec.commit = false
  rest : t = { s with t := { s.t with
    pc := t.t.pc, s := t.t.s, b := t.t.b, q := t.t.q, lc := t.t.lc, loops := t.t.loops, v := t.t.v, p := t.t.p, a := t.t.a,
    hole := t.t.hole, slots := t.t.slots, mat := { s.t.mat with sh := t.t.mat.sh, acc := t.t.mat.acc, win := t.t.mat.win },
    spec := t.t.spec, poison := s.t.poison.filter (192 ≤ ·), tick := none, begun := 0, undo := none } }

/-- The register that a stream word writes, if any, with the value it gets. -/
inductive Dst where
  | none
  | s (n : Nat) (v : Word)
  | q (n : Nat) (v : Bool)
  | b (n : Nat) (v : Word)
deriving DecidableEq, Repr

/-- Scalar register `n` after the write of a destination; s0 discards it (R22). -/
def Dst.getS (d : Dst) (n : Nat) (old : Word) : Word := match d with | .s k v => if n = k ∧ k ≠ 0 then v else old | _ => old
/-- Predicate `n` after the write of a destination; q0 discards it (R22). -/
def Dst.getQ (d : Dst) (n : Nat) (old : Bool) : Bool := match d with | .q k v => if n = k ∧ k ≠ 0 then v else old | _ => old
/-- Branch register `n` after the write of a destination. -/
def Dst.getB (d : Dst) (n : Nat) (old : Word) : Word := match d with | .b k v => if n = k then v else old | _ => old

/-- The PC, the loop records and the loop counters after an item of `n` bytes that does not branch (R78, R87). -/
structure Past (n : Nat) (s t : State) : Prop where
  pc : t.t.pc = (pastItem s n).t.pc
  loops : t.t.loops = (pastItem s n).t.loops
  lc : t.t.lc = (pastItem s n).t.lc

/-- Everything but the sequencer's own registers: `t` is `s` with other values of these alone. Memory, special registers,
accumulators, exception registers and the slots are as they were. -/
def SameRest (s t : State) : Prop :=
  t = { s with t := { s.t with
    pc := t.t.pc, loops := t.t.loops, lc := t.t.lc, s := t.t.s, q := t.t.q, b := t.t.b, sts := t.t.sts, poison := t.t.poison }, pkg := { s.pkg with regPoison := t.pkg.regPoison } }

/-- A stream word of four bytes has written `d` and set the sticky flags `fl`, and done nothing else. -/
structure Completes (s t : State) (d : Dst) (fl : Word) : Prop where
  s_eq : ∀ n, getS t n = d.getS n (getS s n)
  q_eq : ∀ n, getQ t n = d.getQ n (getQ s n)
  b_eq : ∀ n, getB t n = d.getB n (getB s n)
  sts_eq : t.t.sts = s.t.sts ||| fl
  past : Past 4 s t
  bytes : SameBytes s t
  marks : (∀ g ∈ t.t.poison, g ∈ s.t.poison) ∧ ∀ g ∈ t.pkg.regPoison, g ∈ s.pkg.regPoison
  rest : SameRest s t

/-- The sticky flags that a result sets in STS: the flag masks of Arith are the bits of STS (R25, R125). -/
def flagBits (fl : Nat) : Word := BitVec.ofNat 64 (fl % 2 ^ 8)

/-- A stream word completes with `v` in scalar register `rd`, sets no flag, and does nothing else. -/
def GivesS (i : Instr) (s : State) (rd : Nat) (v : Word) : Prop := Runs i s fun t => Completes s t (.s rd v) 0

/-- A stream word completes with `v` in scalar register `rd` and sets the sticky flags of `fl`. -/
def GivesSF (i : Instr) (s : State) (rd : Nat) (v : Word) (fl : Nat) : Prop := Runs i s fun t => Completes s t (.s rd v) (flagBits fl)

/-- A stream word completes with a value that has the property `P` in scalar register `rd`, sets no flag, and does nothing else. -/
def WritesS (i : Instr) (s : State) (rd : Nat) (P : Word → Prop) : Prop := ∃ v, GivesS i s rd v ∧ P v

/-- A stream word completes with `v` in predicate `qd`, sets no flag, and does nothing else. -/
def GivesQ (i : Instr) (s : State) (qd : Nat) (v : Bool) : Prop := Runs i s fun t => Completes s t (.q qd v) 0

/-- A word that suspended its task completes with what it awaited: the result is taken from the task and its record, and where it is to
acquire, the task acquires (R391, R393, R394). -/
def GivesAwaited (i : Instr) (s : State) (rd : Nat) (w : Word) : Prop :=
  let me := { s.t.me with result := none, acquire := none, awaits := none }
  let u := { s with
    t := { s.t with me }, pkg := { s.pkg with tasks := tset none s.pkg.tasks me.tag (some me) } }
  Runs i s fun t => Completes (closeSeg (if s.t.me.acquire.isSome then acquire u else u)) t (.s rd w) 0

/-- A floating-point word completes: the exact result `x`, rounded once to format `f`, is in scalar register `rd`, zero-extended, and
the flags of the operation and of the rounding are set (R149, R150). -/
def GivesRounded (i : Instr) (s : State) (rd : Nat) (f : Fmt) (mode : Nat) (x : FV × Nat) : Prop :=
  GivesSF i s rd (BitVec.ofNat 64 (storeScalar f mode x.1).1) (x.2 ||| (storeScalar f mode x.1).2)

/-- The rounding of a scalar word does not depend on an FMTW that the C slot has still to perform (R29, R149). -/
def RoundingKnown (s : State) (rm : Nat) : Prop := rm ≠ 0 ∨ s.c.trap = true ∨ fmtPending s s.t.slots.next = false

/-- A stream word that accessed memory on its way, and then wrote `d` and the flags `fl`. -/
def CompletesAfter (A : Nat → Prop) (s t : State) (d : Dst) (fl : Word) : Prop := ∃ u, Access A s u ∧ Completes u t d fl

/-- What the slots do beside an operation's own effect when a bundle is passed (R30, R35, R38): results are delivered to their
registers and queued writes of shape records and handles are applied. Everything else is as it was. -/
def SlotFrame (s t : State) : Prop :=
  t = { s with t := { s.t with
    slots := t.t.slots, v := t.t.v, p := t.t.p, a := t.t.a, key := t.t.key, stride := t.t.stride, ctr := t.t.ctr,
    sts := t.t.sts, hole := t.t.hole, mat := { s.t.mat with sh := t.t.mat.sh }, undo := t.t.undo } }

/-! ## Slot operations -/

/-- An operation at the head of slot `k` completes: its own effect makes `u` of `s`, and then the operation leaves the head of its
queue and the slots move on (SlotFrame). -/
def RunsSlot (i : Instr) (s : State) (k : Nat) (P : State → Prop) : Prop := ∃ u, exec i s = .next (slotDone u k) ∧ P u

/-- A slot operation takes a fault (R37, R457): of its slot, at its bundle's index. -/
def SlotTraps (i : Instr) (s : State) (k : Nat) (t : Trap) : Prop := exec i s = .next (raiseAt s t (k + 1) (headOf s k).idx)

/-- The bits that one exposed result writes of a register: positions of `bits` bits each, of which `new` gives the values of those that
are written. A result that writes nothing, or writes xp0 or yp0, leaves no trace. -/
def Puts (s u : State) (d : Dest) (cls idx lat bits : Nat) (new : Nat → Option Nat) : Prop :=
  ∃ mask val : VReg,
    u = (if mask = 0 ∨ d = .pred 0 0 ∨ d = .pred 1 0 then s
         else addLatch s { dest := d, mask, tgt := idx + lat, cls, iss := idx, val }) ∧
    ∀ i, i < 4096 →
      mask.getLsbD i = (new (i / bits)).isSome ∧
      ∀ y, new (i / bits) = some y → val.getLsbD i = y.testBit (i % bits)

/-- No hardware error makes a duplicated V operation differ from its duplicate (R489). -/
def NoVote (s : State) (v : Nat) : Prop := (headOf s (2 + v)).dup = false ∨ (takeDup s.upsets).1 = []

/-- The flags of a list of elements together. -/
def orFlags (ks : List Nat) (fl : Nat → Nat) : Nat := ks.foldr (fun k m => fl k ||| m) 0

/-- The state with a V operation counted (R404) and sticky flags set (R25). -/
def flagged (s : State) (fl : Nat) : State := { s with t := { s.t with sts := s.t.sts ||| flagBits fl } }
def counted (s : State) : State := { s with t := { s.t with vops := s.t.vops + 1 } }

/-- A V operation completes with one exposed result and its sticky flags; beside these, `b` is what it makes of the state. -/
def GivesV (i : Instr) (s b : State) (v : Nat) (d : Dest) (idx lat bits : Nat) (new : Nat → Option Nat) (fl : Nat) : Prop :=
  ∃ u, Puts (flagged b fl) u d 1 idx lat bits new ∧ exec i s = .next (slotDone (counted u) (2 + v))

/-- What an element of a result is made of: bits and flags as they are, or an exact value with its flags, to be rounded to a format
at a residue lane; the finite result of a special case (`direct`) leaves the residue alone (R168). -/
inductive Made where
  | bits (b fl : Nat)
  | round (f : Fmt) (y : FV × Nat) (lane : Nat) (direct : Bool)

/-- The element stored, its flags, and the residues after it (R128, R168): mode 4 is NS. -/
def Made.store (mode : Nat) (sat ftz : Bool) (r : Tbl (BitVec 32)) : Made → Nat × Nat × Tbl (BitVec 32)
  | .bits b fl => (b, fl, r)
  | .round f y lane direct =>
    if mode = 4 && !direct then
      let z := nsRound f sat ftz y.1 (tget 0 r lane).toNat
      (z.1, z.2.1 ||| y.2, tset 0 r lane (BitVec.ofNat 32 z.2.2))
    else
      let z := storeVec f (mode % 4) sat ftz y.1
      (z.1, z.2 ||| y.2, r)

/-- The residues before element `k` of an operation, which takes its active elements in ascending order (R129). -/
def residues (act : Nat → Bool) (mode : Nat) (sat ftz : Bool) (mk : Nat → Made) (r : Tbl (BitVec 32)) (k : Nat) : Tbl (BitVec 32) :=
  match k with
  | 0 => r
  | k + 1 =>
    let r := residues act mode sat ftz mk r k
    if act k then ((mk k).store mode sat ftz r).2.2 else r

/-- A V operation with `n` elements of `e` bytes completes: its active elements are made as `mk` says, its inactive ones are zero under
zeroing and otherwise not written, and positions from `n` to `m` are zero. -/
def GivesElems (i : Instr) (s : State) (v : Nat) (f : VF) (x : BCtx) (lat e n m : Nat) (mk : Nat → Made) (r : Tbl (BitVec 32)) : Prop :=
  let act := activeAt (psrc s v f.pred x) e
  let mode := vmode s f x
  let sat := f.sat || fmtSat s x
  let ftz := fmtFtz s x
  let before := residues act mode sat ftz mk r
  let made := fun k => (mk k).store mode sat ftz (before k)
  GivesV i s { s with t := { s.t with rsd := before n } } v (.vec v f.vd) x.idx lat (8 * e)
    (fun k =>
      if k < n then (if act k then some (made k).1 else if f.zero then some 0 else none) else if k < m then some 0 else none)
    (orFlags ((List.range n).filter act) fun k => (made k).2.1)

/-- A V operation that writes a predicate completes: `n` elements of `e` bits, each with the truth and the flags that `el` gives. -/
def GivesPreds (i : Instr) (s : State) (v : Nat) (f : VF) (x : BCtx) (lat e n : Nat) (el : Nat → Bool × Nat) : Prop :=
  let act := activeAt (psrc s v f.pred x) e
  GivesV i s s v (.pred v f.vd) x.idx lat e
    (fun k =>
      if k < n then (if act k then some (if (el k).1 then 2 ^ e - 1 else 0) else if f.zero then some 0 else none) else none)
    (orFlags ((List.range n).filter act) fun k => (el k).2)

/-- A running total over the active elements below `k`, with the flags of its additions. -/
def running {α : Type} (act : Nat → Bool) (add : α → Nat → α × Nat) (start : α) (k : Nat) : α × Nat :=
  match k with
  | 0 => (start, 0)
  | k + 1 =>
    let y := running act add start k
    if act k then ((add y.1 k).1, y.2 ||| (add y.1 k).2) else y

/-- What a write of the scratchpads leaves as it was: everything but their bytes and the marks on their poisoned granules. -/
structure SpmFrame (s u : State) : Prop where
  rest : u = { s with c := { s.c with spm := u.c.spm, spmPoison := u.c.spmPoison }, others := u.others }
  core_eq : ∀ n, coreCtx u n = { (coreCtx s n) with
    c := { (coreCtx s n).c with spm := (coreCtx u n).c.spm, spmPoison := (coreCtx u n).c.spmPoison } }

/-- What a change of pigeonhole handles leaves as it was: everything but the handles. -/
structure HoleFrame (s u : State) : Prop where
  rest : u = { s with t := { s.t with hole := u.t.hole }, others := u.others }
  core_eq : ∀ n, coreCtx u n = { (coreCtx s n) with t := { (coreCtx s n).t with hole := (coreCtx u n).t.hole } }

/-- What a request to a core, a change of its tint or a change of its halves leaves as it was: every task, and of the cores and dies
everything but the request, the tint, the note that a half goes, the scratchpad with its marks, the two maps and the black box. -/
structure CoreFrame (s u : State) : Prop where
  rest : u = { s with
    c := { s.c with req := u.c.req, tint := u.c.tint, unbind := u.c.unbind, spm := u.c.spm, spmPoison := u.c.spmPoison }, others := u.others, dies := u.dies,
    pkg := { s.pkg with quarantined := u.pkg.quarantined }, free := u.free }
  core_eq : ∀ n, coreCtx u n = { (coreCtx s n) with
    c := { (coreCtx s n).c with
      req := (coreCtx u n).c.req, tint := (coreCtx u n).c.tint, unbind := (coreCtx u n).c.unbind, spm := (coreCtx u n).c.spm,
      spmPoison := (coreCtx u n).c.spmPoison } }
  die_eq : ∀ d, getDie u d = { getDie s d with
    tintmap := (getDie u d).tintmap, bindmap := (getDie u d).bindmap, box := (getDie u d).box, written := (getDie u d).written,
    lost := (getDie u d).lost }

/-! ## Events -/

/-- What an event of a job leaves as it was: every register, mode, program counter and accumulator of every core, the turns and the
hardware errors to come. It may change jobs, memory, scratchpads, handles, counters and what waits on them, and may send. -/
structure JobFrame (s t : State) : Prop where
  cur_eq : t.cur = s.cur
  turns_eq : t.turns = s.turns
  arg_eq : t.arg = s.arg
  upsets_eq : t.upsets = s.upsets
  core_eq : ∀ n, coreCtx t n = {
    c := { (coreCtx s n).c with
      l1 := (coreCtx t n).c.l1, l1Poison := (coreCtx t n).c.l1Poison, jobs := (coreCtx t n).c.jobs, tlb := (coreCtx t n).c.tlb, spm := (coreCtx t n).c.spm,
      spmPoison := (coreCtx t n).c.spmPoison },
    t := { (coreCtx s n).t with
      spec := { (coreCtx s n).t.spec with
        pending := (coreCtx t n).t.spec.pending, commit := (coreCtx t n).t.spec.commit },
      seen := (coreCtx t n).t.seen, hole := (coreCtx t n).t.hole, hbmBytes := (coreCtx t n).t.hbmBytes } }

/-- The outbox has one message more, with this property, after whatever else was sent. -/
def Sends (s t : State) (P : Out → Prop) : Prop := ∃ os o, t.outbox = s.outbox ++ os ++ [o] ∧ P o

/-- The task in focus goes on as it was but for its system registers, and everything else is as it was. -/
def OnlyRegs (s t : State) (regs : TaskRegs) : Prop := t = { s with t := { s.t with regs } }

end Sys2Proof.Machine
end

