-- ==== Sys2Proof/Certificates/Slice0/Obligations.lean ====
section
/-! DEFINITION. The statements for the provers: what the rules of the spec say an instruction, an event or the machine does. Each
statement about an instruction has a completion as its conclusion, with the frame of what it leaves unchanged. -/

open Sys2Proof Sys2Proof.Machine

/-- A step runs the instruction that decodes (R43, R45, R30): on a turn of a core's stream, the bytes at the PC decode to an
instruction and the step is its `exec` in the state after the fetch; a fetch that the budget withholds (log entry 78), a fetch that
faults, an illegal item, a register in flight (not in trap mode, log entry 24) and a poisoned register come first. On a turn of a
slot the step is the operation at the head of its queue, or the fault of the poisoned record or handle it uses (R483), and on a turn
of an event the event with its input. With no turn given, the model's own order (log entry 4) serves the core in focus when nothing
else is due: a rewind first, then what is due at a bundle boundary, the ready operation of the lowest index, and the stream. What is
taken at a bundle boundary stops all but a word that comes first, and what the device does at once comes before any turn. Around
each answer, `arbitrate` puts the fault of the item first in program order (R455): it changes no answer that enters no handler, and
otherwise answers with a trap before which, in program order, no operation that a slot is ready to perform faults, a fault coming
before an event. The turns and `focus`, which exchanges the core in focus, are the model's own (log entry 3). One step for a turn,
the place of the fetch, what consumes poison, and when the C slot is within a bundle are the model's own as well (log entries 5, 8,
57, 60, 86). -/
def Obligations.StepRunsDecoded : Prop :=
  ∀ s : State, s.pkg.atOnce = [] → firstWork s = none →
    let ready := fun f : State => f.c.busy = true ∧ f.c.leaving = none ∧ (stopDue f = false ∨ wordFirst f = true) ∧ f.t.begun ≠ 1
    let regs := fun i : Instr => (sregs i).1 ++ (sregs i).2
    let runs := fun (f : State) (i : Instr) => step s = arbitrate s (exec i (afterFetch f))
    let faults := fun (f : State) (t : Trap) => step s = arbitrate s (.next (raiseAt f t 0 0))
    let read := fun (f : State) (i : Instr) => ∃ bs rest, fetchBytes f = .ok bs ∧ decodeBytes bs = .ok (i, rest) ∧ straddles f bs.length = false
    let item := fun (f : State) (i : Instr) => read f i ∧ itemIllegal f i = none
    let free := fun (f : State) (i : Instr) => (f.c.trap = true ∨ scalarDue f (regs i) = false) ∧ poisonedReg f (itemReads f i) = none
    (∀ n turns, s.turns = .stream n :: turns → n < 256 →
      let f := focus { s with turns, arg := .none } n
      ready f →
      (fetchWithheld f = true → step s = arbitrate s (.next f)) ∧
      (fetchWithheld f = false →
        (∀ i, item f i → free f i → runs f i) ∧
        (∀ i, item f i → f.c.trap = false → scalarDue f (regs i) = true → step s = arbitrate s (.next f)) ∧
        (∀ i t, item f i → (f.c.trap = true ∨ scalarDue f (regs i) = false) → poisonedReg f (itemReads f i) = some t → faults f t) ∧
        (∀ i t, read f i → itemIllegal f i = some t → faults f t) ∧
        (∀ t, fetchBytes f = .error t → faults f t) ∧
        (∀ bs, fetchBytes f = .ok bs → ((∃ e, decodeBytes bs = .error e) ∨ straddles f bs.length = true) → faults f { code := cIllegal }))) ∧
    (∀ n k turns j i, s.turns = .slot n k :: turns → n < 256 → k < 6 →
      let f := focus { s with turns, arg := .none } n
      f.c.busy = true → f.c.trap = false → f.c.leaving = none → slotHeld f k = false → slotReady f k = some (j, i) →
      (slotPoison f k i = none → step s = arbitrate s (exec i f)) ∧
      (∀ t, slotPoison f k i = some t → step s = arbitrate s (slotFault f k t))) ∧
    (∀ n i a turns, s.turns = .event n i a :: turns → n < 256 → isEvent i = true →
      step s = arbitrate s (exec i { focus { s with turns, arg := .none } n with arg := a })) ∧
    (s.turns = [] → s.cur < 256 → s.pkg.tickWanted = false → dueJob s (liveJobs s) = none → portWork s = none → s.t.slots.beats = [] →
      let f := { s with arg := .none }
      f.c.busy = true → f.c.leaving = none → f.t.begun = 0 →
      (f.c.trap = false → f.c.rewind.isSome → step s = arbitrate s (exec .rewind f)) ∧
      (f.c.trap = true ∨ (f.c.rewind = none ∧ midBundle f = false) →
        (f.c.trap = false →
          (f.t.spec.pending.isSome → step s = arbitrate s (exec .specAbort f)) ∧
          (f.t.spec.pending = none → f.c.frozenDue = true → step s = arbitrate s (exec .forcedFreeze f)) ∧
          (f.t.spec.pending = none → f.c.frozenDue = false → eventPending f = true → step s = arbitrate s (exec .trapEntry f)) ∧
          (stopDue f = false → ∀ k j i, firstReady f = some (k, j, i) → slotPoison f k i = none → step s = arbitrate s (exec i f))) ∧
        (f.c.trap = true ∨ (stopDue f = false ∧ firstReady f = none) → fetchWithheld f = false → ∀ i, item f i → free f i → runs f i))) ∧
    (∀ u, tookTrap s u = false → arbitrate s (.next u) = .next u) ∧
    (∀ u, tookTrap s u = true →
      let f := beforeTrap s u
      ∃ place v, arbitrate s (.next u) = .next v ∧
        ((place = faultPlace u ∧ v = u) ∨
          (∃ k j i, place = some (j, k) ∧ placedBefore j k (faultPlace u) = true ∧ k < 6 ∧ slotReady f k = some (j, i) ∧
            slotStep f k i = .next v ∧ tookFault f v = true)) ∧
        ∀ k j i w, k < 6 → slotReady f k = some (j, i) → placedBefore j k place = true → slotStep f k i = .next w → tookFault f w = false)

/-- R44 to R61, on words written out from the encoding tables: each decodes to the instruction it stands for, and words with a used
reserved field or an unassigned code are refused. -/
def Obligations.DecodeSanityWords : Prop :=
  let reads := fun (w : Nat) (i : Instr) =>
    decodeBytes [BitVec.ofNat 8 (w / 2 ^ 16), BitVec.ofNat 8 (w / 2 ^ 24), BitVec.ofNat 8 w, BitVec.ofNat 8 (w / 2 ^ 8)] = .ok (i, [])
  let refuses := fun w : Nat => decodeTableWord 32 w = none
  reads 0x1A000001 .nop ∧ reads 0x1A102083 (.br 2 1 1) ∧ reads 0x18BFFFFA (.pbr 2 0x3FFFFA) ∧ reads 0x1C08A005 (.loop 1 5 5) ∧
  reads 0x02390484 (.div 7 8 9) ∧ reads 0x142091A3 (.lui 4 0x091A3) ∧ decodeTableWord 16 0x8052 = some (.issueParcel 1 1 2) ∧
  decodeV 1 0x000000001CC57600 = .ok (.op 0x00 { vd := 5, va := 6, vb := 7, pred := 3, ty := 5, width := 2 }) ∧
  refuses 0x1A000081 ∧ refuses 0x1A00007F ∧ refuses 0x7E000001 ∧ decodeX 0x0007 = .error .unassigned

/-- What a cold reset leaves, seen from any core (R335, R354, R398, R405, R452, R470, R491, R493): memory is canonical, no task
runs, and the registers whose reset value the spec gives hold it. BINDMAP's bytes and the first step, which finds no work, are the
model's choices (log entries 4 and 18). -/
def Obligations.ResetState : Prop :=
  State.reset.memWf ∧ step State.reset = .next State.reset ∧
  ∀ core, core < 256 →
    let s := focus State.reset core
    s.c.busy = false ∧ s.c.trap = false ∧ s.t = {} ∧
    (∀ k, k < 8 → sysReg s (0x100 + k) = 0x0303030303030303 ∧ sysReg s (0x118 + k) = 0x0303030303030303) ∧
    sysReg s 0x108 = 0x0001000100010001 ∧ sysReg s 0x109 = 500 ∧
    sysReg s 0x10A = 2000 ∧ sysReg s 0x10B = 200 ∧ sysReg s 0x10C = 5000 ∧ sysReg s 0x10D = 50 ∧
    (∀ k, k < 3 → sysReg s (0x110 + k) = 2 ^ 64 - 1) ∧ sysReg s 0x122 = 0 ∧
    (∀ k, k < 5 → sysReg s (0x202 + k) = 0) ∧ sysReg s 0x210 = 0x80000008000 ∧ sysReg s 0x211 = 0x140 ∧
    (∀ h, tget 0 s.pkg.score h = 0) ∧ (∀ d, getDom s d = none) ∧ (∀ h i, (getVE s h i).st = 0)

/-- R43 to R59: decoding the encoding of a well-formed instruction of the stream, of a V slot or of an L slot gives it back, with
every operand. -/
def Obligations.EncodingRoundTrip : Prop := ∀ i : Instr, Sys2Proof.Laws.Encoding.Statement i

/-- R43 to R63: no bit of an encoding is dropped and no two encodings mean the same. Bytes that decode to an instruction are that
instruction's encoding and what follows it, and a CWT entry that decodes to a bundle is that bundle's encoding. -/
def Obligations.DecodingDropsNoBit : Prop :=
  (∀ bs i rest, decodeBytes bs = .ok (i, rest) → ∃ pre, encodeBytes i = some pre ∧ bs = pre ++ rest) ∧
  (∀ g w b, w < 2 ^ 256 → decodeEntry g w = .ok b → encodeEntry b = w)

/-- Memory stays canonical: whatever a step does, the list of bytes and the bytes the L2 holds over it keep rising order and list no
byte that reads as an unlisted one. The canonical form is the model's own representation of memory (log entry 2). -/
def Obligations.MemoryStaysCanonical : Prop := ∀ s t : State, s.memWf → step s = .next t → t.memWf

/-- R141, with R22's s0: every operation of major opcodes 0x00 and 0x01 but division, on every register and every value. COMPLETE:
add, sub, mul, mulh, mulhn, and, or, andn, xor, shl, shr, sar, rol, min, max, minn, maxn. -/
def Obligations.IntegerThreeOperand : Prop :=
  ∀ (s : State) (rd ra rb : Nat),
    let a := getS s ra
    let b := getS s rb
    GivesS (.add rd ra rb) s rd (a + b) ∧ GivesS (.sub rd ra rb) s rd (a - b) ∧ GivesS (.and rd ra rb) s rd (a &&& b) ∧
    GivesS (.or rd ra rb) s rd (a ||| b) ∧ GivesS (.xor rd ra rb) s rd (a ^^^ b) ∧ GivesS (.andn rd ra rb) s rd (a &&& ~~~b) ∧
    GivesS (.shl rd ra rb) s rd (a <<< (b &&& 63)) ∧ GivesS (.shr rd ra rb) s rd (a >>> (b &&& 63)) ∧
    GivesS (.sar rd ra rb) s rd (a.sshiftRight (b &&& 63).toNat) ∧ GivesS (.rol rd ra rb) s rd (a.rotateLeft (b &&& 63).toNat) ∧
    GivesS (.mul rd ra rb) s rd (a * b) ∧
    GivesS (.mulh rd ra rb) s rd ((a.signExtend 128 * b.signExtend 128).extractLsb' 64 64) ∧
    GivesS (.mulhn rd ra rb) s rd ((a.setWidth 128 * b.setWidth 128).extractLsb' 64 64) ∧
    GivesS (.min rd ra rb) s rd (if a.toInt ≤ b.toInt then a else b) ∧
    GivesS (.max rd ra rb) s rd (if a.toInt ≤ b.toInt then b else a) ∧
    GivesS (.minn rd ra rb) s rd (if a.toNat ≤ b.toNat then a else b) ∧
    GivesS (.maxn rd ra rb) s rd (if a.toNat ≤ b.toNat then b else a)

/-- R142: quotients truncate toward zero, the remainder takes the sign of the dividend, and division by zero and signed overflow
give the values of the rule's table; no division traps. COMPLETE: div, divn, rem, remn. -/
def Obligations.DivisionAndRemainder : Prop :=
  ∀ (s : State) (rd ra rb : Nat),
    let a := getS s ra
    let b := getS s rb
    let overflow : Prop := a.toInt = -(2 ^ 63) ∧ b.toInt = -1
    (b = 0 →
      GivesS (.div rd ra rb) s rd 0xFFFFFFFFFFFFFFFF ∧ GivesS (.rem rd ra rb) s rd a ∧
      GivesS (.divn rd ra rb) s rd 0xFFFFFFFFFFFFFFFF ∧ GivesS (.remn rd ra rb) s rd a) ∧
    (overflow → GivesS (.div rd ra rb) s rd 0x8000000000000000 ∧ GivesS (.rem rd ra rb) s rd 0) ∧
    (b ≠ 0 → ¬overflow →
      WritesS (.div rd ra rb) s rd (fun q => q.toInt = a.toInt.tdiv b.toInt) ∧
      WritesS (.rem rd ra rb) s rd (fun r => r.toInt = a.toInt - a.toInt.tdiv b.toInt * b.toInt)) ∧
    (b ≠ 0 →
      WritesS (.divn rd ra rb) s rd (fun q => q.toNat = a.toNat / b.toNat) ∧
      WritesS (.remn rd ra rb) s rd (fun r => r.toNat = a.toNat - a.toNat / b.toNat * b.toNat))

/-- R144, bit by bit: leading and trailing zeros, the population count and the reversal of the bytes. COMPLETE: clz, ctz, popc,
bswap. R145, bit by bit: the field of the descriptor is read zero-extended by BEXT and replaced by BINS; its bits above 63 read 0
and are dropped. COMPLETE: bext, bins. R148: the running average never passes the sample, its bucket is its top four bits, and with
k = 0 it is the sample. COMPLETE: sewma. -/
def Obligations.CountsFieldsAndAverages : Prop :=
  (∀ (s : State) (rd ra : Nat),
     let a := getS s ra
     WritesS (.clz rd ra) s rd (fun r =>
       r.toNat ≤ 64 ∧ (∀ i, i < 64 → 64 - r.toNat ≤ i → a.getLsbD i = false) ∧ (r.toNat < 64 → a.getLsbD (63 - r.toNat) = true)) ∧
     WritesS (.ctz rd ra) s rd (fun r =>
       r.toNat ≤ 64 ∧ (∀ i, i < r.toNat → a.getLsbD i = false) ∧ (r.toNat < 64 → a.getLsbD r.toNat = true)) ∧
     WritesS (.popc rd ra) s rd (fun r => r.toNat = ((List.range 64).filter fun i => a.getLsbD i).length) ∧
     WritesS (.bswap rd ra) s rd (fun r => ∀ k, k < 8 → r.extractLsb' (8 * k) 8 = a.extractLsb' (8 * (7 - k)) 8)) ∧
  (∀ (s : State) (rd ra rb : Nat),
     let a := getS s ra
     let d := getS s rd
     let pos := (getS s rb).toNat % 64
     let len := (getS s rb).toNat / 256 % 64 + 1
     WritesS (.bext rd ra rb) s rd (fun r => ∀ i, i < 64 → r.getLsbD i = (decide (i < len) && a.getLsbD (pos + i))) ∧
     WritesS (.bins rd ra rb) s rd (fun r =>
       ∀ i, i < 64 → r.getLsbD i = if pos ≤ i ∧ i < pos + len then a.getLsbD (i - pos) else d.getLsbD i)) ∧
  (∀ (s : State) (rd ra rb : Nat),
     let e : Int := ((getS s rd).toNat % 2 ^ 16 : Nat)
     let x : Int := ((getS s ra).toNat % 2 ^ 16 : Nat)
     let k := (getS s rb).toNat % 16
     WritesS (.sewma rd ra rb) s rd (fun r =>
       let e' : Int := (r.toNat % 2 ^ 16 : Nat)
       e' = e + (x - e) / ((2 ^ k : Nat) : Int) ∧ 0 ≤ e' ∧ e' ≤ 0xFFFF ∧
       r.toNat = r.toNat % 2 ^ 16 / 2 ^ 12 * 2 ^ 16 + r.toNat % 2 ^ 16 ∧ (k = 0 → e' = x)))

/-- R146 and R89: SEL, the eight conditions of CMP and CMPQ, and the eight functions of QOP; a write of q0 is discarded. COMPLETE:
sel, cmp, cmpq, qop. R147: the immediates are sign-extended, the shift counts are taken as they are, LUI and ADDPC place 19 bits
above 13, and CMPQI compares with a signed 10-bit immediate under the conditions of R146. COMPLETE: addi, andi, ori, xori, shli,
shri, sari, lui, addpc, cmpqi. -/
def Obligations.CompareSelectAndImmediates : Prop :=
  (∀ (s : State) (rd qd ra rb n c qa qb f : Nat),
     let a := getS s ra
     let b := getS s rb
     let holds : Bool :=
       if c = 0 then a == b else if c = 1 then a != b
       else if c = 2 then decide (a.toInt < b.toInt) else if c = 3 then decide (b.toInt ≤ a.toInt)
       else if c = 4 then decide (a.toNat < b.toNat) else if c = 5 then decide (b.toNat ≤ a.toNat)
       else if c = 6 then (a &&& b) != 0 else (a &&& b) == 0
     let x := getQ s qa
     let y := getQ s qb
     let fn : Bool :=
       if f = 0 then x && y else if f = 1 then x || y else if f = 2 then xor x y else if f = 3 then x && !y
       else if f = 4 then x || !y else if f = 5 then !(x && y) else if f = 6 then !(x || y) else !(xor x y)
     GivesS (.sel n rd ra rb) s rd (if getQ s n then a else b) ∧
     (c < 8 → GivesS (.cmp c rd ra rb) s rd (if holds then 1 else 0) ∧ GivesQ (.cmpq c qd ra rb) s qd holds) ∧
     (f < 8 → GivesQ (.qop f qd qa qb) s qd fn)) ∧
  (∀ (s : State) (rd ra qd c n imm : Nat),
     let a := getS s ra
     let imm13 := (BitVec.ofNat 13 imm).signExtend 64
     let imm19 := (BitVec.ofNat 19 imm).signExtend 64
     let b := (BitVec.ofNat 10 imm).signExtend 64
     let holds : Bool :=
       if c = 0 then a == b else if c = 1 then a != b
       else if c = 2 then decide (a.toInt < b.toInt) else if c = 3 then decide (b.toInt ≤ a.toInt)
       else if c = 4 then decide (a.toNat < b.toNat) else if c = 5 then decide (b.toNat ≤ a.toNat)
       else if c = 6 then (a &&& b) != 0 else (a &&& b) == 0
     GivesS (.addi rd ra imm) s rd (a + imm13) ∧ GivesS (.andi rd ra imm) s rd (a &&& imm13) ∧
     GivesS (.ori rd ra imm) s rd (a ||| imm13) ∧ GivesS (.xori rd ra imm) s rd (a ^^^ imm13) ∧
     GivesS (.lui rd imm) s rd (imm19 <<< 13) ∧ GivesS (.addpc rd imm) s rd (s.t.pc + (imm19 <<< 13)) ∧
     (n < 64 → GivesS (.shli rd ra n) s rd (a <<< n) ∧ GivesS (.shri rd ra n) s rd (a >>> n) ∧
       GivesS (.sari rd ra n) s rd (a.sshiftRight n)) ∧
     (c < 8 → GivesQ (.cmpqi c qd ra imm) s qd holds))

/-- R149, R150 and R29: the six arithmetic operations, in both precisions, with one rounding in the mode that RM names: the mode of
FMT as the word reads it, RNE or RTZ. FRCP is FDIV with dividend 1. COMPLETE: fadd, fsub, fmul, ffma, fdiv, frcp, fsqrt. R150's
special values in single precision, on encodings: FFMA of a zero and an infinity sets NV and gives the canonical NaN whatever the
addend, also a quiet NaN; a finite nonzero value divided by a zero gives the infinity of the product of the signs and sets DZ; the
root of -0 is -0, and the root of a value below zero is the canonical NaN and sets NV. -/
def Obligations.FloatArithmetic : Prop :=
  (∀ (s : State) (rm p rd ra rb : Nat), RoundingKnown s rm →
     let f := if p = 0 then f32 else f64
     let mode := if rm = 0 then fmtSeen s s.t.slots.next / 2 ^ 11 % 4 else if rm = 1 then 0 else 1
     let v := fun n => decodeF f ((getS s n).toNat % 2 ^ f.bits)
     let one := FV.val false 1 0
     GivesRounded (.fadd rm p rd ra rb) s rd f mode (fvAdd (mode = 2) (v ra) (v rb)) ∧
     GivesRounded (.fsub rm p rd ra rb) s rd f mode (fvAdd (mode = 2) (v ra) (v rb).flip) ∧
     GivesRounded (.fmul rm p rd ra rb) s rd f mode (fvMul (v ra) (v rb)) ∧
     GivesRounded (.ffma rm p rd ra rb) s rd f mode (fvFma (mode = 2) (v ra) (v rb) (v rd)) ∧
     GivesRounded (.fdiv rm p rd ra rb) s rd f mode (fvDiv (v ra) (v rb)) ∧
     GivesRounded (.fsqrt rm p rd ra) s rd f mode (fvSqrt (v ra)) ∧
     GivesRounded (.frcp rm p rd ra) s rd f mode (fvDiv one (v ra))) ∧
  (∀ (s : State) (rm rd ra rb : Nat), RoundingKnown s rm → rm < 3 →
     let a := (getS s ra).toNat % 2 ^ 32
     let b := (getS s rb).toNat % 2 ^ 32
     let isZero := fun x : Nat => x % 2 ^ 31 = 0
     let isInf := fun x : Nat => x % 2 ^ 31 = 0x7F800000
     let isNumber := fun x : Nat => 0 < x % 2 ^ 31 ∧ x % 2 ^ 31 < 0x7F800000
     (isZero a → isInf b → GivesSF (.ffma rm 0 rd ra rb) s rd 0x7FC00000 fNV) ∧
     (isInf a → isZero b → GivesSF (.ffma rm 0 rd ra rb) s rd 0x7FC00000 fNV) ∧
     (isNumber a → isZero b →
       GivesSF (.fdiv rm 0 rd ra rb) s rd (if a / 2 ^ 31 = b / 2 ^ 31 then 0x7F800000 else 0xFF800000) fDZ) ∧
     (isZero a → GivesSF (.frcp rm 0 rd ra) s rd (if a / 2 ^ 31 = 0 then 0x7F800000 else 0xFF800000) fDZ) ∧
     (a = 2 ^ 31 → GivesSF (.fsqrt rm 0 rd ra) s rd 0x80000000 0) ∧
     (isNumber a → a / 2 ^ 31 = 1 → GivesSF (.fsqrt rm 0 rd ra) s rd 0x7FC00000 fNV))

/-- R151 and R152: FMIN and FMAX choose one of the two encodings, with -0 below +0, a number over a NaN, and the canonical NaN for
two NaNs; FCMPQ's four conditions. NV is set for a signalling operand, and by lt and le for any NaN. COMPLETE: fmin, fmax, fcmpq.
R154, from the fields of the encoding: FCLASS writes exactly one bit, by the class of the operand, and sets no flag. COMPLETE:
fclass. R153: the ten conversions. To a floating format the value is rounded by RM; to an integer range it is rounded and clamped,
NaN gives 0, and what is out of range sets NV. COMPLETE: fcvt. That a clamped conversion of a value with a fraction sets NX as well
is the model's reading (log entry 62). -/
def Obligations.FloatComparesClassesConversions : Prop :=
  (∀ (s : State) (p rd qd ra rb : Nat),
     let f := if p = 0 then f32 else f64
     let x := (getS s ra).toNat % 2 ^ f.bits
     let y := (getS s rb).toNat % 2 ^ f.bits
     let a := decodeF f x
     let b := decodeF f y
     let below := fun u w : FV => decide (fvCmp u w < 0) || (u.isZero && w.isZero && u.neg && !w.neg)
     let pick := fun least : Nat =>
       BitVec.ofNat 64 (if a.isNan && b.isNan then f.nan else if a.isNan then y else if b.isNan then x else least)
     let signalling := if a.isSig || b.isSig then fNV else 0
     let unordered := a.isNan || b.isNan
     let anyNan := if unordered then fNV else 0
     let q := fun v fl => fun cc => Runs (.fcmpq cc p qd ra rb) s fun t => Completes s t (.q qd v) (flagBits fl)
     GivesSF (.fmin p rd ra rb) s rd (pick (if below b a then y else x)) signalling ∧
     GivesSF (.fmax p rd ra rb) s rd (pick (if below a b then y else x)) signalling ∧
     q (!unordered && fvCmp a b == 0) signalling 0 ∧ q (!unordered && decide (fvCmp a b < 0)) anyNan 1 ∧
     q (!unordered && decide (fvCmp a b ≤ 0)) anyNan 2 ∧ q unordered signalling 3) ∧
  (∀ (s : State) (p rd ra : Nat),
     let width := if p = 0 then 32 else 64
     let frac := if p = 0 then 23 else 52
     let x := (getS s ra).toNat % 2 ^ width
     let neg := x / 2 ^ (width - 1) = 1
     let top := 2 ^ (width - 1 - frac) - 1
     let e := x / 2 ^ frac % 2 ^ (width - 1 - frac)
     let m := x % 2 ^ frac
     let bit : Nat :=
       if e = top then (if m = 0 then (if neg then 0 else 7) else if 2 ^ (frac - 1) ≤ m then 9 else 8)
       else if e = 0 then (if m = 0 then (if neg then 3 else 4) else (if neg then 2 else 5))
       else (if neg then 1 else 6)
     GivesS (.fclass p rd ra) s rd (1 <<< bit)) ∧
  (∀ (s : State) (rm rd ra : Nat), RoundingKnown s rm →
     let mode := if rm = 0 then fmtSeen s s.t.slots.next / 2 ^ 11 % 4 else if rm = 1 then 0 else 1
     let w := getS s ra
     let single := decodeF f32 (w.toNat % 2 ^ 32)
     let double := decodeF f64 (w.toNat % 2 ^ 64)
     let toI := fun code (lo hi : Int) v =>
       GivesSF (.fcvt rm code rd ra) s rd (BitVec.ofInt 64 (toInt mode false lo hi v).1) (toInt mode false lo hi v).2
     let exact := fun n : Int => (fvOf false { m := n, e := 0 }, 0)
     GivesRounded (.fcvt rm 0 rd ra) s rd f64 mode (single, sigFlag [single]) ∧
     GivesRounded (.fcvt rm 1 rd ra) s rd f32 mode (double, sigFlag [double]) ∧
     toI 2 (-(2 ^ 63)) (2 ^ 63 - 1) single ∧ toI 3 (-(2 ^ 63)) (2 ^ 63 - 1) double ∧
     toI 4 0 (2 ^ 64 - 1) single ∧ toI 5 0 (2 ^ 64 - 1) double ∧
     GivesRounded (.fcvt rm 6 rd ra) s rd f32 mode (exact w.toInt) ∧ GivesRounded (.fcvt rm 7 rd ra) s rd f64 mode (exact w.toInt) ∧
     GivesRounded (.fcvt rm 8 rd ra) s rd f32 mode (exact w.toNat) ∧ GivesRounded (.fcvt rm 9 rd ra) s rd f64 mode (exact w.toNat))

/-- R82: PBR writes its b register from its own address, PBRX from a scalar register, which must be even and below 2^56, and PBRX's
read form reads a b register. Nothing else changes. COMPLETE: pbr, pbrxLoad, pbrxRead. R83: BR, CALL and RET on both outcomes of
their condition. A taken BR or RET leaves the active loops whose body does not hold its target, in trap mode as outside it; CALL
leaves none, and overwriting b7 clears its poison (log entry 60). COMPLETE: br, call, ret. The granule of the q file that a call
leaves poisoned is the model's reading (log entry 60). -/
def Obligations.BranchWords : Prop :=
  (∀ (s : State) (b rd ra off : Nat),
     let w := getS s ra
     Runs (.pbr b off) s (fun t => Completes s t (.b b (s.t.pc + 2 * (BitVec.ofNat 22 off).signExtend 64)) 0) ∧
     (w.toNat % 2 = 1 → Traps (.pbrxLoad b ra) s { code := cMisaligned }) ∧
     (w.toNat % 2 = 0 → 2 ^ 56 ≤ w.toNat → Traps (.pbrxLoad b ra) s { code := cOperand }) ∧
     (w.toNat % 2 = 0 → w.toNat < 2 ^ 56 → Runs (.pbrxLoad b ra) s fun t => Completes s t (.b b w) 0) ∧
     GivesS (.pbrxRead rd b) s rd (getB s b)) ∧
  (∀ (s : State) (b q neg : Nat), neg < 2 →
     let c := getQ s q != (neg == 1)
     let left := fun target : Word => s.t.loops.filter fun l => decide (l.s.toNat ≤ target.toNat ∧ target.toNat < l.e.toNat)
     (c = false → Runs (.br b q neg) s (fun t => Completes s t .none 0) ∧ Runs (.call b q neg) s (fun t => Completes s t .none 0) ∧
       Runs (.ret q neg) s (fun t => Completes s t .none 0)) ∧
     (c = true →
       exec (.br b q neg) s = .next { s with t := { s.t with pc := getB s b, loops := left (getB s b) } } ∧
       exec (.call b q neg) s = .next { s with t := { s.t with pc := getB s b, b := tset 0 s.t.b 7 (s.t.pc + 4), poison := s.t.poison.filter (· ≠ 71) } } ∧
       exec (.ret q neg) s = .next { s with t := { s.t with pc := getB s 7, loops := left (getB s 7) } }))

/-- R86 and R88, with R85's body: LOOP's two checks in their order, the trip count 0, and the entry of a body; LOOPX leaves the loop
and every loop entered after it. COMPLETE: loop, loopx. That LOOPX, leaving a loop, counts for no loop that it leaves active is the
model's reading (log entry 96). -/
def Obligations.LoopEntryAndExit : Prop :=
  ∀ (s : State) (lc ra imm q neg : Nat), s.c.trap = false → neg < 2 →
    let stop := s.t.pc + BitVec.ofNat 64 (2 * imm)
    let n := (getS s ra).setWidth 32
    let isActive := ∃ l ∈ s.t.loops, l.lc = lc
    let beyond := ∃ l rest, s.t.loops = l :: rest ∧ l.e.toNat < stop.toNat
    let c := getQ s q != (neg == 1)
    (isActive ∨ beyond → Traps (.loop lc ra imm) s { code := cLoopNest }) ∧
    (¬isActive → ¬beyond → n = 0 →
      exec (.loop lc ra imm) s = .next { s with t := { s.t with pc := stop, lc := tset 0 s.t.lc lc 0 } }) ∧
    (¬isActive → ¬beyond → n ≠ 0 →
      exec (.loop lc ra imm) s = .next { s with t := { s.t with
        pc := s.t.pc + 4, lc := tset 0 s.t.lc lc n, loops := { lc, s := s.t.pc + 4, e := stop } :: s.t.loops } }) ∧
    (¬isActive → Traps (.loopx lc q neg) s { code := cLoopNest }) ∧
    (isActive → c = false → Runs (.loopx lc q neg) s fun t => Completes s t .none 0) ∧
    (∀ pre l rest, s.t.loops = pre ++ l :: rest → l.lc = lc → (∀ x ∈ pre, x.lc ≠ lc) → c = true →
      exec (.loopx lc q neg) s = .next { s with t := { s.t with pc := l.e, loops := rest } })

/-- R87 and R90, on NOP, whose only effect is the PC's: with no loop ending at its successor the PC goes there; at the end of the
most recently entered such loop the counter drops by one, and either the body runs again or the loop ends and the rule goes on with
the loops that are left. In trap mode no loop ends (R458). COMPLETE: nop. -/
def Obligations.LoopEndRule : Prop :=
  ∀ s : State,
    let next := s.t.pc + 4
    (s.c.trap = true ∨ (∀ l ∈ s.t.loops, l.e ≠ next) → exec .nop s = .next { s with t := { s.t with pc := next } }) ∧
    (s.c.trap = false → ∀ pre l rest, s.t.loops = pre ++ l :: rest → (∀ x ∈ pre, x.e ≠ next) → l.e = next →
      let n := tget 0 s.t.lc l.lc - 1
      (n ≠ 0 → exec .nop s = .next { s with t := { s.t with pc := l.s, lc := tset 0 s.t.lc l.lc n } }) ∧
      (n = 0 → exec .nop s = exec .nop { s with t := { s.t with loops := pre ++ rest, lc := tset 0 s.t.lc l.lc 0 } }))

/-- R91, R410: END in trap mode is illegal (R458); outside, it waits while a slot has an operation to perform or a window beat is in
flight, and then the task retires: the core no longer runs it and holds nothing of it. An open region is aborted instead of waiting.
COMPLETE: endTask. Waiting as a step that changes nothing is the model's choice (log entry 5). END inside a region, as one step with
its abort, and the cause of an excluded word are its readings (log entries 23, 27). -/
def Obligations.EndOfTask : Prop :=
  ∀ s : State,
    let waits := (∃ k, k < 6 ∧ ∃ e ∈ queueOf s k, e.ops ≠ []) ∨ s.t.slots.beats ≠ []
    (s.c.trap = true → Traps .endTask s { code := cIllegal }) ∧
    (s.c.trap = false → s.t.stub = false → s.t.spec.isOpen = false → waits → exec .endTask s = .next s) ∧
    (s.c.trap = false → s.t.stub = false → (s.t.spec.isOpen = true ∨ ¬waits) →
      Runs .endTask s fun t => t.t = {} ∧ t.c.busy = false ∧ t.c.trap = false ∧ t.arg = s.arg ∧ t.turns = s.turns ∧ t.upsets = s.upsets)

/-- R92 to R94: CWTCLR and CWTLD check the range, then (CWTLD) the alignment, then the header's bound; CWTCLR unloads the entries of
its range, CWTLD loads from the image the entries of its range once their contents pass the checks of R63, and no other entry
changes. The segment closes (R484). COMPLETE: cwtld, cwtclr. R78 to R80 and R64: an issue parcel in trap mode is illegal, names a
loaded entry or raises IllegalBundle, waits while a queue is full, and otherwise takes the next bundle index, moves the PC by 2
under the loop end rule, and puts one entry in each of the six queues, behind what is there. Under a false bundle predicate the
entries are skipped: they have no operation (R79, R30). Otherwise they are the captured contents of the CWT entry (R65): the C
slot's fields in their order, the operations of the other slots with the register fields that name registers of the slot's own file
moved by the bias (R62) and with the scalar operands as they are now (R35). Beside the slots' own deliveries (SlotFrame) it changes
nothing. COMPLETE: issueParcel. Waiting as a step that changes nothing is the model's choice (log entry 5). When a segment closes is
the model's reading (log entry 25). The issue of an altered entry is its choice (log entry 74). The cause of an issue parcel in trap
mode is its reading (log entry 23). -/
def Obligations.TableWordsAndIssue : Prop :=
  (∀ (s : State) (ra rb : Nat), s.c.trap = false → s.t.spec.isOpen = false →
     let w := getS s rb
     let first := w.toNat % 2 ^ 9
     let count := w.toNat / 2 ^ 16 % 2 ^ 10
     let shaped := w &&& 0xFFFFFFFEFC00FE00 = 0 ∧ count ≠ 0 ∧ first + count ≤ 512
     let space := w.getLsbD 32
     let table := fun (t : State) (new : Nat → Option (BitVec 256)) =>
       ∀ k, tget none t.t.cwt k = if first ≤ k ∧ k < first + count then new (k - first) else tget none s.t.cwt k
     let only := fun u t : State =>
       ∃ cwt, Completes { u with t := { u.t with cwt, seg := none, rewound := none } } t .none 0
     (¬shaped → Traps (.cwtclr rb) s { code := cOperand } ∧ Traps (.cwtld ra rb) s { code := cOperand }) ∧
     (shaped → space = true → Traps (.cwtclr rb) s { code := cOperand }) ∧
     (shaped → space = false → s.t.hdr.cwt < first + count → Traps (.cwtclr rb) s { code := cResource }) ∧
     (shaped → (getS s ra).toNat % 32 ≠ 0 → Traps (.cwtld ra rb) s { code := cMisaligned }) ∧
     (shaped → (getS s ra).toNat % 32 = 0 → s.t.hdr.cwt < first + count → Traps (.cwtld ra rb) s { code := cResource }) ∧
     (shaped → space = false → first + count ≤ s.t.hdr.cwt →
       Runs (.cwtclr rb) s fun t => only s t ∧ table t fun _ => none) ∧
     (shaped → (getS s ra).toNat % 32 = 0 → first + count ≤ s.t.hdr.cwt → ∀ ea bs u, eaOf s ra 0 = .ok ea →
       (space = true ∧ lmBusy s = false ∧ spmRead s ea (32 * count) = .ok bs ∧ u = s) ∨
         (space = false ∧ withheld s ea (32 * count) .read = false ∧ plainRead s ea (32 * count) 1 = .ok (bs, u)) →
       badEntry s.t.g bs count 0 = none →
       Access NoByte s u ∧ Runs (.cwtld ra rb) s fun t =>
         only u t ∧ table t fun k => some (BitVec.ofNat 256 (leNat ((bs.drop (32 * k)).take 32))))) ∧
  (∀ (s : State) (entry bp bias : Nat),
     let i := Instr.issueParcel entry bp bias
     (s.c.trap = true → Traps i s { code := cIllegal }) ∧
     (s.c.trap = false → tget none s.t.cwt entry = none → Traps i s { code := cBundle }) ∧
     (s.c.trap = false → ∀ w b, tget none s.t.cwt entry = some w → decodeEntry s.t.g w.toNat = .ok b →
       (queueFull s = true → exec i s = .next s) ∧
       (queueFull s = false → s.t.poison = [] → scalarDue s (captures b) = false →
         Runs i s fun t => t.t.slots.next = s.t.slots.next + 1 ∧ Past 2 s t ∧
           (∃ u, SlotFrame s u ∧ t = { u with t := { u.t with pc := t.t.pc, loops := t.t.loops, lc := t.t.lc } }) ∧
           ∃ es : Nat → QEntry,
             (∀ k, k < 6 → (es k).idx = s.t.slots.next ∧ pending t k = pending s k ++ (if (es k).ops = [] then [] else [es k])) ∧
             (getQ s bp = false → ∀ k, k < 6 → (es k).ops = []) ∧
             (getQ s bp = true →
               let x : BCtx := { idx := s.t.slots.next, pc := s.t.pc, entry }
               let moved := fun (names : Bool) (n : Nat) => if names then (n + bias) % 32 else n
               let range := fun (n lo hi : Nat) => decide (lo ≤ n ∧ n ≤ hi)
               (es 0).ops = (if b.c.sync then [.sync] else []) ++ (if b.c.rdv ≠ none then [.rdv] else []) ++
                 (if b.c.seg then [.seg] else []) ++ (if b.c.fmtw ≠ none then [.fmtw] else []) ++
                 (if b.c.pha ≠ none then [.pha] else []) ++ (if b.c.chk then [.chk] else []) ++ (if b.c.trc then [.trc] else []) ∧
               (∀ w, b.c.fmtw = some w → (es 0).fmtw = w) ∧ (∀ p, b.c.pha = some p → ((es 0).cf.side, (es 0).cf.hole) = p) ∧
               (es 0).cf.rdv = b.c.rdv ∧
               (b.l = none → (es 1).ops = []) ∧
               (∀ code f, b.l = some (code, f) →
                 let f' := { f with vreg := (f.vreg + bias) % 32, areg := (f.areg + bias) % 16 }
                 (es 1).code = code ∧ (es 1).lf = f' ∧ (es 1).ops = (Instr.ofL code f' x).toList) ∧
               (∀ v, v < 2 →
                 let slot := if v = 0 then b.v0 else b.v1
                 let e := es (2 + v)
                 ((slot = .idle ∨ slot = .dup) → e.ops = []) ∧
                 (∀ code f, slot = .op code f →
                   let in_ := range code
                   let vdName := in_ 0 0x0F || in_ 0x11 0x13 || in_ 0x20 0x2F || in_ 0x31 0x34 || in_ 0x50 0x5C || in_ 0x60 0x64 || code == 0x80 || code == 0x83
                   let vaName := in_ 0 0x11 || (code == 0x13 && f.form != 2) || in_ 0x20 0x34 || in_ 0x50 0x5C || in_ 0x60 0x64 ||
                     code == 0x81 || (code == 0x82 && f.form == 0) || code == 0x88 || code == 0x90 || code == 0x91
                   let vbName := f.form == 0 && (in_ 0 0x06 || in_ 0x09 0x0B || in_ 0x0D 0x11 || in_ 0x20 0x27 ||
                     [0x2A, 0x30, 0x33, 0x50, 0x53, 0x54, 0x88].contains code)
                   let vcName := code == 0x04 || in_ 0x23 0x25 || code == 0x52
                   let f' := { f with vd := moved vdName f.vd, va := moved vaName f.va, vb := moved vbName f.vb, vc := moved vcName f.vc }
                   let x' := { x with scal := if f.form = 2 then getS s (f.imm % 64) else 0 }
                   e.code = code ∧ e.vf = f' ∧ e.ctx = x' ∧ e.ops = (Instr.ofV code v f' x').toList)) ∧
               (b.m = none → (es 4).ops = []) ∧
               (∀ code f, b.m = some (code, f) → (es 4).code = code ∧ (es 4).mf = f ∧ (es 4).ops = (Instr.ofM code).toList) ∧
               (b.x = none → (es 5).ops = []) ∧
               (∀ code f, b.x = some (code, f) → (es 5).code = code ∧ (es 5).xf = f ∧ (es 5).ops = (Instr.ofX code).toList ∧
                 (code = 3 → (es 5).ctx.scal = getS s f.b))))))

/-- R257 to R260: a load's checks in their order, and a load of global memory outside a region, or of the scratchpad: it
zero-extends what it reads into its register. COMPLETE: ld. R253, R254, R259 and R260: an aligned plain read of the task gives, byte
for byte, the L1's copy where the page may use the L1 and otherwise the byte at the order point; a scratchpad read gives the
scratchpad's bytes. What a byte that nothing has written reads is the model's choice (log entry 2). -/
def Obligations.Loads : Prop :=
  (∀ (s : State) (rd ra sz sp hint off : Nat), sz < 4 → sp < 2 →
     let i := Instr.ld rd ra sz sp hint off
     let z := 2 ^ sz
     let w := getS s ra
     let ea : Int := ((w.toNat % 2 ^ 56 : Nat) : Int) + (BitVec.ofNat 8 off).toInt * ((z : Nat) : Int)
     let legal := w.toNat < 2 ^ 59 ∧ 0 ≤ ea ∧ ea < 2 ^ 56
     let a := ea.toNat
     (¬legal → Traps i s { code := cAddress }) ∧
     (legal → sp = 1 → spmSize s < a + z → Traps i s { code := cAddress }) ∧
     (legal → sp = 1 → a + z ≤ spmSize s → a % z ≠ 0 → Traps i s { code := cMisaligned }) ∧
     (legal → sp = 0 → a % z ≠ 0 → Traps i s { code := cMisaligned, va := a }) ∧
     (legal → a % z = 0 → sp = 1 → a + z ≤ spmSize s → lmBusy s = false → ∀ bs, spmRead s a z = .ok bs →
       GivesS i s rd (BitVec.ofNat 64 (leNat bs))) ∧
     (legal → a % z = 0 → sp = 0 → inSpec s = false → kindAt s a z .read ≠ some 3 → withheld s a z .read hint = false →
       (∀ t, plainRead s a z hint = .error t → Traps i s t) ∧
       (∀ bs u, plainRead s a z hint = .ok (bs, u) →
         Runs i s fun t => Access NoByte s u ∧ Completes u t (.s rd (BitVec.ofNat 64 (leNat bs))) 0))) ∧
  (∀ (s : State) (va sz hint : Nat), sz < 4 → va % 2 ^ sz = 0 →
     (∀ ps p bs u, s.unwatched → accCheck s va (2 ^ sz) .read = .ok ps → ps.head? = some p →
       plainRead s va (2 ^ sz) hint = .ok (bs, u) →
       bs.length = 2 ^ sz ∧ ∀ k, k < 2 ^ sz → bs.getD k 0 = loadByte s p.pg hint (pieceAt ps k)) ∧
     (∀ bs, spmRead s va (2 ^ sz) = .ok bs →
       bs.length = 2 ^ sz ∧ ∀ k, k < 2 ^ sz → bs.getD k 0 = tget 0 (coreCtx s (s.cur + va / 2 ^ 23)).c.spm (va % 2 ^ 23 + k)))

/-- R257 to R260 and R423: a store's checks in their order; outside a region it writes the low bytes of its register to the bytes it
addresses and to no others, in a region it is queued and writes none. COMPLETE: st. R253, R259 and R260: after an aligned plain
write of the task, the core reads the written bytes there, through its L1 where the page uses it and at the order point otherwise; a
scratchpad write changes the bytes it names and no other byte of any scratchpad. -/
def Obligations.Stores : Prop :=
  (∀ (s : State) (rd ra sz sp hint off : Nat), sz < 4 → sp < 2 →
     let i := Instr.st rd ra sz sp hint off
     let z := 2 ^ sz
     let w := getS s ra
     let v := getS s rd
     let ea : Int := ((w.toNat % 2 ^ 56 : Nat) : Int) + (BitVec.ofNat 8 off).toInt * ((z : Nat) : Int)
     let legal := w.toNat < 2 ^ 59 ∧ 0 ≤ ea ∧ ea < 2 ^ 56
     let a := ea.toNat
     (¬legal → Traps i s { code := cAddress }) ∧
     (legal → sp = 1 → spmSize s < a + z → Traps i s { code := cAddress }) ∧
     (legal → sp = 1 → a + z ≤ spmSize s → a % z ≠ 0 → Traps i s { code := cMisaligned }) ∧
     (legal → sp = 0 → a % z ≠ 0 → Traps i s { code := cMisaligned, va := a }) ∧
     (legal → a % z = 0 → sp = 1 → a + z ≤ spmSize s → lmBusy s = false → ∀ u, spmWrite s a (leBytes z v.toNat) = .ok u →
       Runs i s fun t => Completes u t .none 0 ∧ SameBytes s t) ∧
     (legal → a % z = 0 → sp = 0 → inSpec s = false → ∀ t, accCheck s a z .write (2 ≤ sz) = .error t → Traps i s t) ∧
     (legal → a % z = 0 → sp = 0 → inSpec s = false → ∀ ps, accCheck s a z .write (2 ≤ sz) = .ok ps →
       kindAt s a z .write ≠ some 3 → withheld s a z .write hint = false →
       (∀ t, plainWrite s a (leBytes z v.toNat) hint = .error t → Traps i s t) ∧
       (∀ u, plainWrite s a (leBytes z v.toNat) hint = .ok u →
         Runs i s fun t => Access (BytesOf ps z) s u ∧ Completes u t .none 0)) ∧
     (legal → a % z = 0 → sp = 0 → inSpec s = true → s.t.spec.full = false → s.t.spec.store.length < 64 → ∀ ps,
       accCheck s a z .write (2 ≤ sz) = .ok ps → (∀ p ∈ ps, p.pg.kind ≠ 3 ∧ p.pg.checked = false) →
       Runs i s fun t => ∃ u, Access NoByte s u ∧
         Completes { u with t := { u.t with spec := { u.t.spec with
           store := s.t.spec.store ++ [{ va := a, sz, data := v }] } } } t .none 0)) ∧
  (∀ (s : State) (va sz hint : Nat) (v : Word), sz < 4 → va % 2 ^ sz = 0 →
     (∀ ps p u, s.unwatched → accCheck s va (2 ^ sz) .write = .ok ps → ps.head? = some p →
       plainWrite s va (leBytes (2 ^ sz) v.toNat) hint = .ok u →
       ∀ k, k < 2 ^ sz →
         seenByte u (pieceAt ps k) = v.extractLsb' (8 * k) 8 ∧
         (usesL1 p.pg (effHint p.pg hint) = false → peek u (pieceAt ps k) = v.extractLsb' (8 * k) 8)) ∧
     (∀ u, spmWrite s va (leBytes (2 ^ sz) v.toNat) = .ok u →
       SameBytes s u ∧ ∀ core a,
         tget 0 (coreCtx u core).c.spm a =
           if core = s.cur + va / 2 ^ 23 ∧ va % 2 ^ 23 ≤ a ∧ a < va % 2 ^ 23 + 2 ^ sz then v.extractLsb' (8 * (a - va % 2 ^ 23)) 8
           else tget 0 (coreCtx s core).c.spm a))

/-- R256, R257, R260, R261, R289 to R291 and R298: LDLAST, LDA and STL check their base register, their scope and their alignment,
and act at the order point. COMPLETE: ldlast, lda, stl. On an access that its translation, its footprints, its race check, its
poison and its budget let through LDLAST reads, writes its register and then discards what the L2 holds over its lines of HBM, so
that memory alone is left there; LDA reads, acquires and writes its register; STL waits for the L and M slots and for a tick, then
writes and leaves its sync record on the word. That a release waits for a tick of the package's write order is the model's reading
(log entry 28). -/
def Obligations.OrderPointWords : Prop :=
  ∀ (s : State) (rd ra sz off : Nat), sz < 4 → inSpec s = false →
    let z := 2 ^ sz
    let w := getS s ra
    let scope := w.toNat / 2 ^ 56 % 8
    let ea : Int := ((w.toNat % 2 ^ 56 : Nat) : Int) + (BitVec.ofNat 8 off).toInt * ((z : Nat) : Int)
    let legal := w.toNat < 2 ^ 59 ∧ 0 ≤ ea ∧ ea < 2 ^ 56
    let a := ea.toNat
    let value := fun ps => (List.range z).foldr (fun k n => (pointByte s (pieceAt ps k)).toNat + 256 * n) 0
    (¬legal → ∀ i ∈ [Instr.ldlast rd ra sz off, .lda rd ra sz off, .stl rd ra sz off], Traps i s { code := cAddress }) ∧
    (legal → 4 < scope → ∀ i ∈ [Instr.lda rd ra sz off, .stl rd ra sz off], Traps i s { code := cOperand }) ∧
    (legal → scope ≤ 4 → a % z ≠ 0 →
      ∀ i ∈ [Instr.ldlast rd ra sz off, .lda rd ra sz off, .stl rd ra sz off], Traps i s { code := cMisaligned, va := a }) ∧
    (legal → a % z = 0 → withheld s a z .read 1 true = false →
      ∀ ps, accCheck s a z .read = .ok ps → raceCheck s (meAgent s) false a ps = none → softCheck s a ps = none →
      Runs (.ldlast rd ra sz off) s fun t => ∃ u v, Access (LinesOf ps z) s u ∧ Completes u t (.s rd v) 0 ∧
        (s.unwatched → v.toNat = value ps) ∧
        ∀ p ∈ ps, p.pg.kind = 0 → ∀ l ∈ linesOf p.pg.pa p.len,
          tget none t.pkg.l2 l = none ∧ ∀ k, k < 128 →
            tget none t.pkg.dirty (128 * l + k) = none ∧ peek t (128 * l + k) = tget 0 t.pkg.mem (128 * l + k)) ∧
    (legal → scope ≤ 4 → a % z = 0 → withheld s a z .read 1 true = false →
      ∀ ps, accCheck s a z .read = .ok ps → softCheck s a ps = none →
      Runs (.lda rd ra sz off) s fun t => ∃ u v, Access NoByte s u ∧
        Completes (acquireAt u (syncAt u (pieceAt ps 0)) scope) t (.s rd v) 0 ∧ (s.unwatched → v.toNat = value ps)) ∧
    (legal → scope ≤ 4 → a % z = 0 → withheld s a z .write 1 true = false → lmBusy s = false → s.t.slots.beats = [] →
      ∀ ps, accCheck s a z .write = .ok ps →
      (s.t.tick = none ∨ s.t.tick = some s.pkg.epoch → ∃ u, exec (.stl rd ra sz off) s = .next u ∧ u.t.pc = s.t.pc ∧
        u.t.tick = some s.pkg.epoch ∧ u.pkg.tickWanted = true ∧ SameBytes s u) ∧
      (∀ e, s.t.tick = some e → e ≠ s.pkg.epoch →
        Runs (.stl rd ra sz off) s fun t => ∃ u, Access (BytesOf ps z) { s with t := { s.t with tick := none } } u ∧
          Completes u t .none 0 ∧
          (s.unwatched → syncAt u (pieceAt ps 0) = some (myRec s scope) ∧
            ∀ k, k < z → peek u (pieceAt ps k) = (getS s rd).extractLsb' (8 * k) 8)))

/-- R262 to R265, R289 to R291. COMPLETE: aadd, amin, amax, aminn, amaxn, aand, aor, axor, aswap, acas. An atomic with a legal,
aligned base register and scope, that its translation, footprints, poison and budgets let through, reads the old value at the order
point into its register, and writes the value of its table row to the same bytes; a compare-and-swap that does not match writes
none. An acquiring form acquires between the read and the write, a releasing form runs once its tick has passed; the segment closes
(R484). R131 and R262 to R264. COMPLETE: afadd. Under the conditions of the other atomics AFADD adds at the order point, in single
precision with one rounding to nearest, or in bf16 with NS and the residue of the adder's lane, which alone of the adder's residues
changes; the old value goes to its register. That a release waits for a tick of the package's write order is the model's reading
(log entry 28). -/
def Obligations.Atomics : Prop :=
  (∀ (s : State) (w ord rd ra rb : Nat), w < 2 → ord < 4 → inSpec s = false →
     let z := if w = 1 then 8 else 4
     let n := 8 * z
     let scope := (getS s ra).toNat / 2 ^ 56 % 8
     let ea := (getS s ra).toNat % 2 ^ 56
     let b := (getS s rb).toNat % 2 ^ n
     let e := (getS s rd).toNat % 2 ^ n
     let s1 := if 2 ≤ ord then { s with t := { s.t with tick := none } } else s
     let forms : List (Instr × (Nat → Option Nat)) := [
       (.aadd w ord rd ra rb, fun v => some ((v + b) % 2 ^ n)),
       (.amin w ord rd ra rb, fun v => some (if (BitVec.ofNat n b).toInt < (BitVec.ofNat n v).toInt then b else v)),
       (.amax w ord rd ra rb, fun v => some (if (BitVec.ofNat n v).toInt < (BitVec.ofNat n b).toInt then b else v)),
       (.aminn w ord rd ra rb, fun v => some (Nat.min v b)), (.amaxn w ord rd ra rb, fun v => some (Nat.max v b)),
       (.aand w ord rd ra rb, fun v => some (v &&& b)), (.aor w ord rd ra rb, fun v => some (v ||| b)),
       (.axor w ord rd ra rb, fun v => some (v ^^^ b)), (.aswap w ord rd ra rb, fun _ => some b),
       (.acas w ord rd ra rb, fun v => if v = e then some b else none)]
     ∀ f ∈ forms, (getS s ra).toNat < 2 ^ 59 → scope ≤ 4 → ea % z = 0 → withheld s ea z .atomic 1 true = false →
       ∀ ps, accCheck s ea z .atomic = .ok ps →
       overBudget s (paDie (pieceAt ps 0)) 2 s.t.me.tint = false → softCheck s ea ps = none →
       (2 ≤ ord → lmBusy s = false ∧ s.t.slots.beats = [] ∧ ∃ k, s.t.tick = some k ∧ k ≠ s.pkg.epoch) →
       Runs f.1 s fun t => ∃ u u' old,
         Access NoByte s1 u ∧
         Access (if (f.2 old.toNat).isSome then BytesOf ps z else NoByte)
           (if ord = 1 ∨ ord = 3 then acquireAt u (syncAt u (pieceAt ps 0)) scope else u) u' ∧
         Completes (closeSeg u') t (.s rd old) 0 ∧
         (s.unwatched → old.toNat = (List.range z).foldr (fun k n => (pointByte s (pieceAt ps k)).toNat + 256 * n) 0 ∧
           ∀ x, f.2 old.toNat = some x → ∀ k, k < z → peek u' (pieceAt ps k) = BitVec.ofNat 8 (x / 2 ^ (8 * k)))) ∧
  (∀ (s : State) (w ord rd ra rb : Nat), w < 2 → ord < 4 → inSpec s = false →
     let z := if w = 1 then 2 else 4
     let scope := (getS s ra).toNat / 2 ^ 56 % 8
     let ea := (getS s ra).toNat % 2 ^ 56
     let b := (getS s rb).toNat % 2 ^ (8 * z)
     let s1 := if 2 ≤ ord then { s with t := { s.t with tick := none } } else s
     (getS s ra).toNat < 2 ^ 59 → scope ≤ 4 → ea % z = 0 → withheld s ea z .atomic 1 true = false →
       ∀ ps, accCheck s ea z .atomic = .ok ps →
       overBudget s (paDie (pieceAt ps 0)) 2 s.t.me.tint = false → softCheck s ea ps = none →
       (2 ≤ ord → lmBusy s = false ∧ s.t.slots.beats = [] ∧ ∃ k, s.t.tick = some k ∧ k ≠ s.pkg.epoch) →
       let pa := pieceAt ps 0
       let lane := 32 * adderUnit pa + pa % 128 / 4
       let residue := (tget 0 s.pkg.adder lane).toNat
       Runs (.afadd w ord rd ra rb) s fun t => ∃ u u' old adder,
         let f := if w = 1 then bf16 else f32
         let x := (fvAdd false (decodeF f old.toNat) (decodeF f b)).1
         let ns := nsRound bf16 false false x residue
         Access NoByte s1 u ∧
         Access (BytesOf ps z)
           (let v := { u with pkg := { u.pkg with adder } }
            if ord = 1 ∨ ord = 3 then acquireAt v (syncAt u pa) scope else v) u' ∧
         Completes (closeSeg u') t (.s rd old) 0 ∧
         (∀ k, tget 0 adder k = if w = 1 ∧ k = lane then BitVec.ofNat 32 ns.2.2 else tget 0 s.pkg.adder k) ∧
         (s.unwatched → old.toNat = (List.range z).foldr (fun k n => (pointByte s (pieceAt ps k)).toNat + 256 * n) 0 ∧
           ∀ k, k < z → peek u' (pieceAt ps k) =
             BitVec.ofNat 8 ((if w = 1 then ns.1 else (storeVec f32 0 false false x).1) / 2 ^ (8 * k))))

/-- R267, R268, R289, R290 and R298. COMPLETE: fenceFull, fenceRel, fenceAcq, clean, cleanAll, inval, invalAll. FENCE waits for the
slots, which trap mode holds (log entry 24), and the window beats, its releasing forms for a tick; its acquire synchronises with
what reads before it met and is in scope, and SCOPEMISS shows what was not. CLEAN waits where a budget withholds a write-back;
otherwise the lines it names stay in the L1 with their data and no byte of them is held unwritten, and what the L1 held written
there reads at the order point. INVAL drops its lines. No register changes, and memory changes only by what the L1 held written. A
base register or a length out of range traps. Waiting as a step that changes nothing is the model's choice (log entry 5). That a
release waits for a tick of the package's write order is the model's reading (log entry 28). What a FENCE acquires and the length 0
are its readings (log entries 69, 70). -/
def Obligations.FencesAndCacheWords : Prop :=
  ∀ (s : State) (scope ra rb : Nat), inSpec s = false →
    let waits := (s.c.trap = false ∧ ∃ k, k < 6 ∧ pending s k ≠ []) ∨ s.t.slots.beats ≠ []
    let ticked := ∃ k, s.t.tick = some k ∧ k ≠ s.pkg.epoch
    let missed := ∃ r ∈ s.t.seen, mutually s r scope = false
    let met := s.t.seen = [] ∨ ∃ r ∈ s.t.seen, mutually s r scope = true
    let acquires := fun (fenced : Option Nat) (tick : Option Nat) (t : State) => ∃ sts acqepoch,
      Completes { s with t := { s.t with sts, fenced, tick, regs := { s.t.regs with acqepoch } } } t .none 0 ∧
      (missed → sts = s.t.sts ||| 0x200) ∧ (¬missed → sts = s.t.sts) ∧
      (met → acqepoch = s.pkg.epoch) ∧ (¬met → acqepoch = s.t.regs.acqepoch)
    let base := getS s ra
    let n := (getS s rb).toNat
    let ea := base.toNat % 2 ^ 56
    let lines := if n = 0 then [] else regionLines s [(ea, n)]
    let cleaned := fun (ls : List Nat) (u : State) => s.unwatched →
      (∀ l, l ∉ ls → l1Get u l = l1Get s l) ∧
      ∀ l ∈ ls, ∀ x, l1Get s l = some x →
        (∃ y, l1Get u l = some y ∧ y.data = x.data ∧ y.dirty = 0) ∧
        ∀ k, k < 128 → peek u (128 * l + k) = pointByte s (128 * l + k)
    (waits → exec (.fenceFull scope) s = .next s ∧ exec (.fenceRel scope) s = .next s ∧ exec (.fenceAcq scope) s = .next s) ∧
    (¬waits → Runs (.fenceAcq scope) s (acquires s.t.fenced s.t.tick)) ∧
    (¬waits → ticked →
      Runs (.fenceRel scope) s (fun t => Completes { s with t := { s.t with tick := none, fenced := some scope } } t .none 0) ∧
      Runs (.fenceFull scope) s (acquires (some scope) none)) ∧
    (2 ^ 59 ≤ base.toNat → Traps (.clean ra rb) s { code := cAddress } ∧ Traps (.inval ra rb) s { code := cAddress }) ∧
    (base.toNat < 2 ^ 59 → 2 ^ 40 < n → Traps (.clean ra rb) s { code := cOperand } ∧ Traps (.inval ra rb) s { code := cOperand }) ∧
    (base.toNat < 2 ^ 59 → n = 0 ∨ n ≤ 2 ^ 40 ∧ ea + n ≤ 2 ^ 55 →
      (cleanWithheld s lines = true → exec (.clean ra rb) s = .next s) ∧
      (cleanWithheld s lines = false → Runs (.clean ra rb) s (fun t => ∃ u, Access NoByte s u ∧ Completes u t .none 0 ∧ cleaned lines u)) ∧
      Runs (.inval ra rb) s fun t => ∃ l1 l1Poison, Completes { s with c := { s.c with l1, l1Poison } } t .none 0 ∧
        (∀ l, tget none l1 l = if l ∈ lines then none else l1Get s l) ∧
        ∀ g, g ∈ l1Poison ↔ g ∈ s.c.l1Poison ∧ g / 16 ∉ lines) ∧
    (cleanWithheld s (s.c.l1.map (·.1)) = true → exec .cleanAll s = .next s) ∧
    (cleanWithheld s (s.c.l1.map (·.1)) = false → Runs .cleanAll s (fun t => ∃ u, Access NoByte s u ∧ Completes u t .none 0 ∧
      cleaned (s.c.l1.map (·.1)) u)) ∧
    Runs .invalAll s (fun t => Completes { s with c := { s.c with l1 := [], l1Poison := [] } } t .none 0)

/-- R269 to R273, R35. COMPLETE: phcfg, phqry. PHCFG reads an image, checks it, and sets the handle for the operations after it;
PHQRY reads a word of a handle after every write before it, and of a window-out handle the peer's counts. Waiting as a step that
changes nothing is the model's choice (log entry 5). Which check of PHCFG comes first is its reading (log entry 49). -/
def Obligations.HandleWords : Prop :=
  ∀ (s : State) (h ra spm rd f : Nat), s.c.trap = false → f < 4 →
    let w := holeNow s h
    let idle := pending s 0 = [] ∧ pending s 1 = []
    (∀ a bs u, (spm = 1 ∨ s.t.spec.isOpen = false) → holeAddr s ra spm = .ok a →
      (spm = 1 ∧ lmBusy s = false ∧ spmRead s a 32 = .ok bs ∧ u = s) ∨
        (spm ≠ 1 ∧ withheld s a 32 .read = false ∧ plainRead s a 32 1 = .ok (bs, u)) →
      let image := BitVec.ofNat 256 (leNat bs)
      let ring := phCount image * phSlot image * 128
      let fits := h < s.t.hdr.holes ∧ (ring = 0 ∨ phBase image + ring ≤ s.t.hdr.spm)
      (holeBad (spmSize s) image = true → Traps (.phcfg h ra spm) s { code := cOperand }) ∧
      (holeBad (spmSize s) image = false → ¬fits → Traps (.phcfg h ra spm) s { code := cResource }) ∧
      (holeBad (spmSize s) image = false → fits → holeInUse s h = true → exec (.phcfg h ra spm) s = .next s) ∧
      (holeBad (spmSize s) image = false → fits → holeInUse s h = false → (∀ c ∈ s.t.slots.cfg, c.bound ≤ s.t.slots.next) →
        Runs (.phcfg h ra spm) s fun t => ∃ v, Access NoByte s u ∧ SlotFrame u v ∧ Completes v t .none 0 ∧ holeNow t h = image)) ∧
    (¬idle → exec (.phqry rd h f) s = .next s) ∧
    (idle → phKind w ≠ 3 ∨ f ≠ 1 → GivesS (.phqry rd h f) s rd (w.extractLsb' (64 * f) 64)) ∧
    (idle → phKind w = 3 → f = 1 → ∀ core p, holeRef (setHole s s.cur h w) h true = .ok (core, p) →
      GivesS (.phqry rd h f) s rd ((holeOf s core p).extractLsb' 64 64))

/-- R305. COMPLETE: eset. ESET writes two neighbouring parameters of the engine's shadow set and nothing else. R304, R308, R309,
R316, R317 and R424. COMPLETE: egoCopy, egoGather, egoScatter, egoTrack, egoTraj, egoSink, egoNmred, egoPort. Each form of EGO is
illegal in trap mode, forbidden in a region, raises the first fault of its checks, waits while no entry is free, and otherwise, once
its tick has passed, puts the captured parameters in the first free entry as a QUEUED job under the next SEQ and returns its handle.
No other entry changes, the job that left the entry last stays known beside the new one, and the segment closes. R308 and R318 to
R321. COMPLETE: estat, ewait, ecancel. A handle names the job that holds its entry or, while that one lives, the one that left it
last. One with a nonzero reserved bit raises OperandRange; one that names no job of the task gives status 8; ESTAT of any job and
EWAIT of an ended one report its status, acquire where it is DONE, and raise the fault of an unacknowledged failure; EWAIT of an
unfinished job waits; ECANCEL of an ended job acknowledges a failure, reports, and closes the segment. ECANCEL stops an unfinished
job, CANCELLED with reason 2 where it had not stopped before, and waits while a packet of it is unanswered; then the job ends in
that state, every unfinished job of the task that depends on it ends CANCELLED where it is not DONE (R312), and ECANCEL reports.
Waiting as a step that changes nothing is the model's choice (log entry 5). That a release waits for a tick of the package's write
order is the model's reading (log entry 28). The lowest free entry, the states shown and the cause in trap mode are its readings
(log entries 23, 34, 61). -/
def Obligations.EngineJobs : Prop :=
  (∀ (s : State) (eng k ra rb : Nat), s.c.trap = false →
     Runs (.eset eng k ra rb) s fun t => ∃ e, Completes { s with t := { s.t with eng := e } } t .none 0 ∧
       ∀ n, tget 0 e n =
         if n = 32 * eng + 2 * k + 1 then getS s rb else if n = 32 * eng + 2 * k then getS s ra else tget 0 s.t.eng n) ∧
  (∀ (s : State) (rd : Nat),
     let common := fun eng : Nat =>
       let j := captured s eng
       egoFault s j false (kindBad j) ((addrPars eng).any fun k => isFabricPar (jpar j k))
     let port := captured s 7
     let forms : List (Instr × Nat × Option Trap) := [
       (.egoCopy rd, 0, common 0), (.egoGather rd, 1, common 1), (.egoScatter rd, 2, common 2), (.egoTrack rd, 3, common 3),
       (.egoTraj rd, 4, common 4), (.egoSink rd, 5, common 5), (.egoNmred rd, 6, common 6),
       (.egoPort rd, 7, (egoFault s port (portOver s port) (portBad s port) false).orElse fun _ => portStale s port)]
     ∀ f ∈ forms,
       (s.c.trap = true → Traps f.1 s { code := cIllegal }) ∧
       (s.c.trap = false → s.t.spec.isOpen = true → Traps f.1 s { code := cSpecForbidden }) ∧
       (s.c.trap = false → s.t.spec.isOpen = false →
         (∀ t, f.2.2 = some t → Traps f.1 s t) ∧
         (f.2.2 = none → (∀ e, e < 32 → (getJob s s.cur e).live = true) → exec f.1 s = .next s) ∧
         (f.2.2 = none → ∀ e k, e < 32 → (getJob s s.cur e).live = false → (∀ x, x < e → (getJob s s.cur x).live = true) →
           lmBusy s = false → s.t.slots.beats = [] → s.t.tick = some k → k ≠ s.pkg.epoch →
           let seq := s.t.seq % 2 ^ 32
           Runs f.1 s fun t => ∃ jobs,
             Completes { s with c := { s.c with jobs }, t := { s.t with tick := none, seq := seq + 1, seg := none, rewound := none } } t
               (.s rd (BitVec.ofNat 64 (seq * 2 ^ 13 + s.cur * 2 ^ 5 + e))) 0 ∧
             (∀ x, x ≠ e → x ≠ 32 + e → tget {} jobs x = tget {} s.c.jobs x) ∧
             tget {} jobs (32 + e) = (if (tget {} s.c.jobs e).used = true then tget {} s.c.jobs e else tget {} s.c.jobs (32 + e)) ∧
             let j := tget {} jobs e
             j.live = true ∧ j.st = 0 ∧ j.eng = f.2.1 ∧ j.seq = seq ∧ j.tag = s.t.me.tag ∧ j.dom = s.t.me.dom ∧ j.asid = s.t.me.asid ∧
             j.armed = false ∧ j.units = 0 ∧ ∀ n, n < 32 → tget 0 j.par n = tget 0 s.t.eng (32 * f.2.1 + n)))) ∧
  (∀ (s : State) (rd rb : Nat), s.c.trap = false →
     let w := getS s rb
     let core := fld w 12 5
     let entry := fld w 4 0
     let names := fun x : Job => x.used = true ∧ x.seq = fld w 44 13 ∧ x.tag = s.t.me.tag
     let earlier := (getJob s core entry).live = true ∧ ¬names (getJob s core entry) ∧ names (getJob s core (32 + entry))
     let known := names (getJob s core entry) ∨ earlier
     ∀ e, (names (getJob s core entry) ∧ e = entry ∨ ¬names (getJob s core entry) ∧ e = 32 + entry) →
     let j := getJob s core e
     let st := shownState s core j
     let v := statusValue j st
     let closed := { s with t := { s.t with seg := none, rewound := none } }
     let reports := fun i =>
       (j.ack = false → st = 5 ∨ st = 7 → Traps i s { code := cEngine, i2 := w.toNat, i3 := v }) ∧
       (j.ack = false → st = 6 → Traps i s { code := cRaceDetected, i2 := w.toNat, i3 := v }) ∧
       (j.ack = true ∨ (st ≠ 5 ∧ st ≠ 6 ∧ st ≠ 7) → Runs i s fun t =>
         Completes (if st = 3 then { s with t := { s.t with regs := { s.t.regs with acqepoch := s.pkg.epoch } } } else s) t
           (.s rd (BitVec.ofNat 64 v)) 0)
     (2 ^ 45 ≤ w.toNat → Traps (.estat rd rb) s { code := cOperand } ∧ Traps (.ewait rd rb) s { code := cOperand }) ∧
     (w.toNat < 2 ^ 45 → ¬known → GivesS (.estat rd rb) s rd 8 ∧ GivesS (.ewait rd rb) s rd 8) ∧
     (w.toNat < 2 ^ 45 → known → reports (.estat rd rb) ∧
       (j.live = true → exec (.ewait rd rb) s = .next s) ∧ (j.live = false → reports (.ewait rd rb))) ∧
     (s.t.spec.isOpen = true → Traps (.ecancel rd rb) s { code := cSpecForbidden }) ∧
     (s.t.spec.isOpen = false →
       (2 ^ 45 ≤ w.toNat → Traps (.ecancel rd rb) s { code := cOperand }) ∧
       (w.toNat < 2 ^ 45 → ¬known → Runs (.ecancel rd rb) s fun t => Completes closed t (.s rd 8) 0) ∧
       (w.toNat < 2 ^ 45 → known → j.live = false →
         let acked := { j with ack := j.ack || decide (st = 5 ∨ st = 6 ∨ st = 7) }
         Runs (.ecancel rd rb) s fun t => ∃ u, Completes u t (.s rd (BitVec.ofNat 64 (statusValue acked st))) 0 ∧
           (u = closed ∨ u = setJob closed core e acked) ∧ getJob t core e = acked) ∧
       (w.toNat < 2 ^ 45 → known → j.live = true →
         let stopped := if j.stopping = none then { j with stopping := some 4, reason := 2 } else j
         (j.flight ≠ [] → exec (.ecancel rd rb) s = .next (setJob s core e stopped)) ∧
         (j.flight = [] → ∀ last, stopped.stopping = some last → 3 ≤ last → Runs (.ecancel rd rb) s fun t => ∃ u,
           let j' := getJob u core e
           JobFrame s u ∧ Completes { u with t := { u.t with seg := none, rewound := none } } t (.s rd (BitVec.ofNat 64 (statusValue j' (shownState u core j')))) 0 ∧
           (s.unwatched → j'.live = false ∧ j'.st = last ∧ j'.reason = stopped.reason ∧ j'.seq = j.seq ∧ j'.units = j.units ∧
             (last ≠ 3 → ∀ c k, (c, k) ≠ (core, e) →
               let x := getJob s c k
               x.live = true → x.tag = j.tag → (core, e, j.seq) ∈ x.deps → (getJob u c k).st = 4))))))

/-- R230 to R232 and R35. COMPLETE: mshapeLoad, mshapeWord, mshq, mgeo. MSHAPE writes a shape record, or one word of it, as the
operations after it see it; MSHQ reads a word of a record after every write and every bundle before it; MGEO gives the array shape
of a format class. R236. COMPLETE: mstat, mstatReset. The selectors of MSTAT, read once no earlier operation may write what they
show: RNMCOUNT, PSEL and the classes, a row's exponent and headroom, an accumulator's window, RNMCOUNT with its reset, and a half
scale, whose number must be below the halves of the gang. Waiting as a step that changes nothing is the model's choice (log entry
5). Which check of MSHAPE comes first, and the offset of its scratchpad form, are its readings (log entries 49, 66), and MSHQ of
reserved bits its choice (log entry 94). -/
def Obligations.ShapeAndMatrixState : Prop :=
  (∀ (s : State) (sh ra spm f rd c : Nat), s.c.trap = false → f < 4 → c < 4 →
     let inOrder := s.t.slots.cfg.Pairwise (fun x y => x.bound ≤ y.bound) ∧ ∀ x ∈ s.t.slots.cfg, x.bound ≤ s.t.slots.next
     let geometry := fun k n per : Nat => BitVec.ofNat 64 (per * 2 ^ 40 + 2 * s.t.g * 2 ^ 32 + n * s.t.g * 2 ^ 16 + k)
     let code := scalarFmt s % 8
     (∀ a bs u, (spm = 1 ∨ s.t.spec.isOpen = false) → matrixAddr s ra spm 32 32 = .ok a →
       (spm = 1 ∧ lmBusy s = false ∧ spmRead s a 32 = .ok bs ∧ u = s) ∨
         (spm ≠ 1 ∧ withheld s a 32 .read = false ∧ plainRead s a 32 1 = .ok (bs, u)) → inOrder →
       Runs (.mshapeLoad sh ra spm) s fun t => ∃ v, Access NoByte s u ∧ SlotFrame u v ∧ Completes v t .none 0 ∧
         shNow t sh = BitVec.ofNat 256 (leNat bs)) ∧
     (inOrder → Runs (.mshapeWord sh ra f) s fun t => ∃ v, SlotFrame s v ∧ Completes v t .none 0 ∧
       ∀ k, k < 4 → (shNow t sh).extractLsb' (64 * k) 64 = if k = f then getS s ra else (shNow s sh).extractLsb' (64 * k) 64) ∧
     (pending s 4 ≠ [] → exec (.mshq rd sh f) s = .next s) ∧
     (pending s 4 = [] → GivesS (.mshq rd sh f) s rd ((shNow s sh).extractLsb' (64 * f) 64)) ∧
     (c < 2 → GivesS (.mgeo rd c) s rd (geometry 128 256 128)) ∧
     (c = 2 → GivesS (.mgeo rd c) s rd (geometry 64 128 64)) ∧
     (c = 3 → fmtPending s s.t.slots.next = false → GivesS (.mgeo rd c) s rd
       (if code = 0 ∨ code = 1 ∨ code = 4 ∨ code = 5 then geometry 128 256 128
        else if code = 2 ∨ code = 3 then geometry 64 128 64 else 0))) ∧
  (∀ (s : State) (rd ra : Nat), s.c.trap = false →
     let w := getS s ra
     let m := s.t.mat
     let acc := accRead s (w.toNat % 4)
     let row := getRow s acc (w.toNat / 2 ^ 8 % 128)
     let half := w.toNat / 2 % 8
     let window : Nat := match tget none m.win acc with | none => 0 | some x => x.beats.length + 2 ^ 8 + x.plane * 2 ^ 9
     (accBusy s = true → exec (.mstat rd ra 0) s = .next s ∧ exec (.mstatReset rd) s = .next s) ∧
     (accBusy s = false →
       GivesS (.mstat rd ra 0) s rd (BitVec.ofNat 64 m.rnm) ∧
       GivesS (.mstat rd ra 1) s rd (BitVec.ofNat 64 ((if m.psel then 1 else 0) + 2 * tget 0 m.cls 0 + 8 * tget 0 m.cls 1)) ∧
       GivesS (.mstat rd ra 2) s rd (BitVec.ofInt 64 row.e) ∧
       GivesS (.mstat rd ra 3) s rd (BitVec.ofInt 64 (headroom row)) ∧
       GivesS (.mstat rd ra 4) s rd (BitVec.ofNat 64 window) ∧
       (2 * s.t.g ≤ half → Traps (.mstat rd ra 6) s { code := cOperand }) ∧
       (half < 2 * s.t.g → GivesS (.mstat rd ra 6) s rd (BitVec.ofNat 64 (tget 0x3F800000 m.half (16 * (w.toNat % 2) + half)))) ∧
       Runs (.mstatReset rd) s fun t =>
         Completes { s with t := { s.t with mat := { m with rnm := 0 } } } t (.s rd (BitVec.ofNat 64 m.rnm)) 0))

/-- R233 to R235. COMPLETE: maccsave, maccload, from and to the scratchpad and global memory. MACCSAVE writes the image of every row
of an accumulator whose window checks, MACCLOAD replaces every row and discards the window; an image that breaks R235 raises
OperandRange. Outside the bytes of the image, and outside the accumulator, nothing changes. Which of the faults of MACCLOAD in a
region comes first is the model's reading (log entry 97). -/
def Obligations.AccumulatorImages : Prop :=
  ∀ (s : State) (acc ra spm : Nat), s.c.trap = false → accBusy s = false → s.t.spec.isOpen = false →
    ∀ a, matrixAddr s ra spm (128 * (64 + 1536 * s.t.g)) 64 = .ok a →
    let len := 128 * (64 + 1536 * s.t.g)
    let image := (List.range 128).flatMap fun r => rowImage s.t.g (getRow s acc r)
    (tget none s.t.mat.win acc = none → spm = 1 → lmBusy s = false → ∀ u, spmWrite s a image = .ok u →
      Runs (.maccsave acc ra spm) s fun t => Completes u t .none 0) ∧
    (tget none s.t.mat.win acc = none → spm ≠ 1 → withheld s a len .write = false → ∀ u ps,
      accCheck s a len .write = .ok ps → plainWrite s a image 1 = .ok u →
      Runs (.maccsave acc ra spm) s fun t => Access (BytesOf ps len) s u ∧ Completes u t .none 0) ∧
    (∀ bs u, (spm = 1 ∧ lmBusy s = false ∧ spmRead s a len = .ok bs ∧ u = s) ∨
        (spm ≠ 1 ∧ withheld s a len .read = false ∧ plainRead s a len 1 = .ok (bs, u)) →
      let rows := rowImages s.t.g bs
      (rows.all (imageOk s.t.g) = false → Traps (.maccload acc ra spm) s { code := cOperand }) ∧
      (rows.all (imageOk s.t.g) = true → Runs (.maccload acc ra spm) s fun t => ∃ m,
        Access NoByte s u ∧ Completes { u with t := { u.t with mat := m } } t .none 0 ∧
        (∀ k r, r < 128 → tget {} m.acc (128 * k + r) =
          if k = acc then imageRow s.t.g (rows.getD r []) else tget {} s.t.mat.acc (128 * k + r)) ∧
        (∀ k, tget none m.win k = if k = acc then none else tget none s.t.mat.win k) ∧
        m = { s.t.mat with acc := m.acc, win := m.win }))

/-- R326 to R329. COMPLETE: cntrd, cntwait, cntinc, cntset. A counter number above 4095 raises OperandRange and one beyond the
header ResourceBound; CNTRD reads, CNTWAIT waits until the counter has reached its threshold and acquires, CNTINC adds and CNTSET
sets, both closing the segment. R328 and R385: adding to a counter changes no other counter where no job is armed, and the counter
wraps at 2^32; setting one sets it. Waiting as a step that changes nothing is the model's choice (log entry 5). That a release waits
for a tick of the package's write order is the model's reading (log entry 28). -/
def Obligations.Counters : Prop :=
  (∀ (s : State) (rd ra rb : Nat), s.c.trap = false → s.t.spec.isOpen = false →
     let n := (getS s ra).toNat
     let k := (s.t.regs.cntbase + n) % 4096
     let c := tget 0 s.pkg.counters k
     let x := (getS s rb).setWidth 32
     let met := (c - x).toNat < 2 ^ 31
     let all := fun p : Instr → Prop => p (.cntinc rd ra rb) ∧ p (.cntwait rd ra rb) ∧ p (.cntrd rd ra) ∧ p (.cntset ra rb)
     (2 ^ 12 ≤ n → all fun i => Traps i s { code := cOperand }) ∧
     (n < 2 ^ 12 → s.t.hdr.counters ≤ n → all fun i => Traps i s { code := cResource }) ∧
     (n < 2 ^ 12 → n < s.t.hdr.counters →
       GivesS (.cntrd rd ra) s rd (c.setWidth 64) ∧
       (¬met → exec (.cntwait rd ra rb) s = .next s) ∧
       (met → Runs (.cntwait rd ra rb) s fun t => Completes (counterAcquire s k) t (.s rd (c.setWidth 64)) 0) ∧
       (∀ e, lmBusy s = false → s.t.slots.beats = [] → s.t.tick = some e → e ≠ s.pkg.epoch →
         Runs (.cntinc rd ra rb) s fun t => ∃ u, AccessFrame { s with t := { s.t with tick := none } } u ∧
           Completes (closeSeg u) t (.s rd ((c + x).setWidth 64)) 0 ∧
           (s.unwatched → ∀ i, getCnt u i = if i = k then c + x else getCnt s i)) ∧
       Runs (.cntset ra rb) s fun t => ∃ u, AccessFrame s u ∧ Completes (closeSeg u) t .none 0 ∧
         (s.unwatched → ∀ i, getCnt u i = if i = k then x else getCnt s i))) ∧
  (∀ (s : State) (n amount scope tag core k : Nat), s.unwatched →
     getCnt (cntAdd s n amount scope tag core) k = if k = n then getCnt s n + BitVec.ofNat 32 amount else getCnt s k)

/-- R348 to R352. COMPLETE: ocset (once the switch has answered), topoq, fwset, fwq. OCSET and FWSET need TOPOEN; OCSET sends its
descriptor once, which closes the segment (R484), and completes with the switch's answer; FWSET writes one entry under the next FG;
TOPOQ and FWQ read. The low bits of TOPOQ on a fibre without a circuit are a free value (log entry 15); what a refusal of OCSET
leaves is the model's reading (log entry 40). -/
def Obligations.TopologyWords : Prop :=
  ∀ (s : State) (rd ra rb : Nat), s.c.trap = false → s.t.spec.isOpen = false →
    let e := getS s ra
    let w := getS s rb
    let n := e.toNat
    let may := s.t.regs.topoen % 2 = 1
    (¬may → Traps (.ocset rd ra rb) s { code := cTopoDenied } ∧ Traps (.fwset ra rb) s { code := cTopoDenied }) ∧
    (may → s.pkg.ocset = none → ∀ ea b1 u1 b2 u2, eaOf s ra 0 = .ok ea → ea % 8 = 0 →
      withheld s ea 8 .read = false → plainRead s ea 8 1 = .ok (b1, u1) → 1 ≤ leNat b1 → leNat b1 ≤ 256 →
      withheld u1 (ea + 8) (8 * leNat b1) .read = false → plainRead u1 (ea + 8) (8 * leNat b1) 1 = .ok (b2, u2) →
      let entries := (List.range (leNat b1)).map fun k => leNat ((b2.drop (8 * k)).take 8)
      entries.any ocsEntryBad = false →
      exec (.ocset rd ra rb) s = .next { u2 with
        t := { u2.t with begun := 1, seg := none, rewound := none }, pkg := { u2.pkg with ocset := some { core := u2.cur, rd, tg := w.toNat % 2 ^ 32 } },
        outbox := u2.outbox ++ [.descriptor (w.toNat % 2 ^ 32) entries] }) ∧
    (may → ∀ tg v, s.pkg.ocset = some { core := s.cur, rd, tg, answer := some (false, v) } → s.t.begun = 1 →
      Runs (.ocset rd ra rb) s fun t => Completes
        { s with pkg := { s.pkg with ocset := none }, t := { s.t with begun := 0, seg := none, rewound := none } } t
        (.s rd (BitVec.ofNat 64 v)) 0) ∧
    (may → fwEntryBad e = false → fld w 31 12 = 0 →
      (fld w 63 32 ≠ (s.pkg.fg + 1) % 2 ^ 32 → Traps (.fwset ra rb) s { code := cStale, i2 := s.pkg.fg, i3 := fld w 63 32 }) ∧
      (fld w 63 32 = (s.pkg.fg + 1) % 2 ^ 32 → Runs (.fwset ra rb) s fun t => Completes
        { s with
          pkg := { s.pkg with fwd := tset 0 s.pkg.fwd (fld w 11 0) e, fg := fld w 63 32 },
          t := { s.t with seg := none, rewound := none } } t .none 0)) ∧
    GivesS (.topoq rd ra 0) s rd (BitVec.ofNat 64 s.pkg.tg) ∧
    (32 ≤ n → Traps (.topoq rd ra 1) s { code := cOperand } ∧ Traps (.topoq rd ra 2) s { code := cOperand }) ∧
    (n < 32 → GivesS (.topoq rd ra 1) s rd (BitVec.ofNat 64 (tget 0 s.pkg.fibgen n)) ∧
      Runs (.topoq rd ra 2) s fun t => Completes { s with free := s.free + 1 } t (.s rd (circuitWord s n)) 0) ∧
    GivesS (.fwq rd ra 0) s rd (BitVec.ofNat 64 s.pkg.fg) ∧ GivesS (.fwq rd ra 2) s rd (BitVec.ofNat 64 s.pkg.nodeid) ∧
    (2 ^ 12 ≤ n → Traps (.fwq rd ra 1) s { code := cOperand }) ∧ (n < 2 ^ 12 → GivesS (.fwq rd ra 1) s rd (tget 0 s.pkg.fwd n))

/-- R354 and R357: every word of a handle but VQRY and VUNPIN raises OperandRange for a number above 63 and VersionDenied for a
handle of another ASID. R355, R358 and R359: VPUB.stage puts a checked descriptor in the lowest EMPTY entry; VPUB seals the pages of
the STAGING entry, makes it CURRENT and retires or frees the old CURRENT entry; VPUB.f does so, pins the entry, and opens the record
of its publication, by which the ports send it to every node of the list and which counts their answers (R360). No other entry
changes and the segment closes. COMPLETE: vpubStage, vpub, vpubF. That a release waits for a tick of the package's write order is
the model's reading (log entry 28). When a segment closes is the model's reading (log entry 25). -/
def Obligations.VersionAccessAndPublish : Prop :=
  (∀ (s : State) (rd ra rb : Nat), s.c.trap = false → s.t.spec.isOpen = false →
     let h := (getS s ra).toNat
     ∀ i ∈ [Instr.vpubStage ra rb, .vpub rd ra, .vpubF rd ra rb, .vadoptSeq rd ra, .vadoptStep rd ra, .vpin rd ra rb],
       (64 ≤ h → Traps i s { code := cOperand }) ∧
       (h < 64 → tget 0 s.pkg.vowner h ≠ s.t.me.asid → Traps i s { code := cVDenied })) ∧
  (∀ (s : State) (rd ra rb : Nat), s.c.trap = false → s.t.spec.isOpen = false →
     let h := (getS s ra).toNat
     h < 64 → tget 0 s.pkg.vowner h = s.t.me.asid →
     let becomes := fun (q : State) (i pins : Nat) (pages : List Nat) (vs : Tbl VEntry) => ∀ k, tget {} vs k =
       if k = 16 * h + i then { getVE q h i with st := 2, pages, pins := (getVE q h i).pins + pins }
       else match entryIn q h 2 with
         | some c => if k = 16 * h + c then (if (getVE q h c).pins = 0 then {} else { getVE q h c with st := 3 }) else tget {} q.pkg.versions k
         | none => tget {} q.pkg.versions k
     let released := lmBusy s = false ∧ s.t.slots.beats = [] ∧ ∃ e, s.t.tick = some e ∧ e ≠ s.pkg.epoch
     (∀ ea bs u e i ps, eaOf s rb 0 = .ok ea → ea % 32 = 0 → withheld s ea 32 .read = false → plainRead s ea 32 1 = .ok (bs, u) →
       stageEntry bs = some e → entryPages s s.t.me.asid e = .ok ps → entryIn s h 0 = some i →
       (stageRefused s h e.version = true → Traps (.vpubStage ra rb) s { code := cVState }) ∧
       (stageRefused s h e.version = false → Runs (.vpubStage ra rb) s fun t => Access NoByte s u ∧
         Completes { u with
           pkg := { u.pkg with versions := tset {} u.pkg.versions (16 * h + i) e },
           t := { u.t with seg := none, rewound := none } } t .none 0)) ∧
     (entryIn s h 1 = none → Traps (.vpub rd ra) s { code := cVState }) ∧
     (∀ i ws ss, entryIn s h 1 = some i → entryPages s s.t.me.asid (getVE s h i) = .ok (ws, ss) → released →
       Runs (.vpub rd ra) s fun t => ∃ vs, becomes s i 0 (ws ++ ss) vs ∧
         Completes { s with
           pkg := { s.pkg with versions := vs }, t := { s.t with tick := none, seg := none, rewound := none } } t
           (.s rd (BitVec.ofNat 64 (getVE s h i).version)) 0) ∧
     (∀ ea b1 u1 b2 u2 i ps, eaOf s rb 0 = .ok ea → ea % 8 = 0 → withheld s ea 8 .read = false → plainRead s ea 8 1 = .ok (b1, u1) →
       let w := leNat b1
       let n := w % 2 ^ 12
       let nodes := (List.range n).map fun k => leNat ((b2.drop (2 * k)).take 2)
       listBad w = false → (w / 2 ^ 24 % 2 = 1 → w / 2 ^ 12 % 2 ^ 12 < s.t.hdr.counters) →
       withheld u1 (ea + 16) (2 * n) .read = false → plainRead u1 (ea + 16) (2 * n) 1 = .ok (b2, u2) →
       (∀ x ∈ nodes, x < 2 ^ 12) → entryIn u2 h 1 = some i → entryPages u2 s.t.me.asid (getVE u2 h i) = .ok ps →
       lmBusy u2 = false → u2.t.slots.beats = [] → (∃ e, u2.t.tick = some e ∧ e ≠ u2.pkg.epoch) →
       AccessFrame s u2 ∧ Runs (.vpubF rd ra rb) s fun t => ∃ vs, becomes u2 i 1 (ps.1 ++ ps.2) vs ∧
         Completes { u2 with
           t := { u2.t with tick := none, seg := none, rewound := none },
           pkg := { u2.pkg with versions := vs, publishes := u2.pkg.publishes ++ [{
             handle := h, index := i, version := (getVE u2 h i).version, list := ea, asid := s.t.me.asid, priv := s.t.me.sup,
             cen := decide (w / 2 ^ 24 % 2 = 1), cnt := (s.t.regs.cntbase + w / 2 ^ 12 % 2 ^ 12) % 4096, core := s.cur, tag := s.t.me.tag,
             tint := s.t.me.tint, tg := s.pkg.tg, waiting := nodes,
             left := nodes.map fun x => (x, 16 * (ps.1.length + ps.2.length)) }] } } t
           (.s rd (BitVec.ofNat 64 (getVE u2 h i).version)) 0))

/-- R356 and R361 to R364: VADOPT moves the hold where its form and the policy say so: the new entry gains a pin, the entry of a
hold that was valid loses its own, with R355's end of a RETIRED one, the L1 drops the lines of the new entry's pages, and the task
acquires, as it does where the hold is the CURRENT entry already; VPIN takes a pin in the lowest free pin register; VUNPIN clears a
register's valid bit and releases its pin; VQRY reads. COMPLETE: vadoptSeq, vadoptStep, vpin, vunpin, vqry. When a segment closes is
the model's reading (log entry 25). What VADOPT acquires is its reading (log entry 38). -/
def Obligations.VersionHolds : Prop :=
  ∀ (s : State) (rd ra rb : Nat), s.c.trap = false →
    let h := (getS s ra).toNat
    let w := s.t.regs.vhold
    let mine := holdValid w = true ∧ holdH w = h
    let closed := fun u : State => { u with t := { u.t with seg := none, rewound := none } }
    let owned := s.t.spec.isOpen = false ∧ h < 64 ∧ tget 0 s.pkg.vowner h = s.t.me.asid
    let forms : List (Instr × Bool) := [
      (.vadoptSeq rd ra, decide (s.t.regs.adoptpol = 0 ∨ s.t.regs.adoptpol = 1)), (.vadoptStep rd ra, decide (s.t.regs.adoptpol = 1))]
    (owned → ∀ f ∈ forms,
      let adopt := ¬mine ∨ f.2 = true
      (entryIn s h 2 = none → adopt → Traps f.1 s { code := cVState }) ∧
      (entryIn s h 2 = none → ¬adopt → Runs f.1 s fun t => Completes (closed s) t (.s rd (adoptWord w false)) 0) ∧
      (∀ c, entryIn s h 2 = some c → ¬(mine ∧ holdI w = c) → ¬adopt →
        Runs f.1 s fun t => Completes (closed s) t (.s rd (adoptWord w false)) 0) ∧
      (∀ c, entryIn s h 2 = some c → mine → holdI w = c → Runs f.1 s fun t =>
        Completes (closed { s with t := { s.t with regs := { s.t.regs with acqepoch := s.pkg.epoch } } }) t (.s rd (adoptWord w false)) 0) ∧
      (∀ c, entryIn s h 2 = some c → ¬(mine ∧ holdI w = c) → adopt →
        let e := getVE s h c
        let new := holdWord h c e.version
        (65535 ≤ e.pins → Traps f.1 s { code := cVState }) ∧
        let drops := fun l : Nat => e.pages.contains (l / 512) = true
        (e.pins < 65535 → Runs f.1 s fun t => ∃ versions l1 l1Poison,
          Completes (closed { s with
            pkg := { s.pkg with versions }, c := { s.c with l1, l1Poison },
            t := { s.t with regs := { s.t.regs with vhold := new, acqepoch := s.pkg.epoch } } }) t (.s rd (adoptWord new true)) 0 ∧
          (∀ k, tget {} versions k =
            if k = 16 * h + c then { e with pins := e.pins + 1 }
            else if holdValid w = true ∧ k = 16 * holdH w + holdI w then
              (let old := getVE s (holdH w) (holdI w)
               if old.st = 3 ∧ old.pins ≤ 1 then {} else { old with pins := old.pins - 1 })
            else tget {} s.pkg.versions k) ∧
          (∀ l, tget none l1 l = if drops l then none else l1Get s l) ∧
          ∀ g, g ∈ l1Poison ↔ g ∈ s.c.l1Poison ∧ ¬(drops (g / 16) ∧ g / 16 ∈ s.c.l1.map (·.1))))) ∧
    (owned → ∀ i k, ((List.range 16).find? fun i => 2 ≤ (getVE s h i).st && (getVE s h i).version = (getS s rb).toNat % 2 ^ 32) = some i →
      ((List.range 4).find? fun k => !holdValid (tget 0 s.t.regs.vpins k)) = some k →
      let e := getVE s h i
      (65535 ≤ e.pins → Traps (.vpin rd ra rb) s { code := cVState }) ∧
      (e.pins < 65535 → Runs (.vpin rd ra rb) s fun t => Completes (closed { s with
        pkg := { s.pkg with versions := tset {} s.pkg.versions (16 * h + i) { e with pins := e.pins + 1 } },
        t := { s.t with regs := { s.t.regs with
          vpins := tset 0 s.t.regs.vpins k (holdWord h i ((getS s rb).toNat % 2 ^ 32)) } } }) t (.s rd (BitVec.ofNat 64 (k + 16 * i))) 0)) ∧
    (s.t.spec.isOpen = false →
      let p := if h = 4 then w else tget 0 s.t.regs.vpins h
      (4 < h → Traps (.vunpin ra) s { code := cOperand }) ∧
      (h ≤ 4 → holdValid p = false → Traps (.vunpin ra) s { code := cVState }) ∧
      (h ≤ 4 → holdValid p = true → Runs (.vunpin ra) s fun t => ∃ versions,
        let cleared := p &&& 0xFFFFFFFFFFFFEFFF
        Completes (closed { s with
          pkg := { s.pkg with versions },
          t := { s.t with regs := if h = 4 then { s.t.regs with vhold := cleared }
            else { s.t.regs with vpins := tset 0 s.t.regs.vpins h cleared } } }) t .none 0 ∧
        ∀ k, tget {} versions k =
          if k = 16 * holdH p + holdI p then
            (let e := getVE s (holdH p) (holdI p)
             if e.st = 3 ∧ e.pins ≤ 1 then {} else { e with pins := e.pins - 1 })
          else tget {} s.pkg.versions k)) ∧
    (let a := getS s ra
     let n := fld a 5 0
     (a &&& 0xFFFFFFFFFFFFF0C0 ≠ 0 → Traps (.vqry rd ra 0) s { code := cOperand }) ∧
     (a &&& 0xFFFFFFFFFFFFF0C0 = 0 → tget 0 s.pkg.vowner n ≠ s.t.me.asid → Traps (.vqry rd ra 0) s { code := cVDenied }) ∧
     (a &&& 0xFFFFFFFFFFFFF0C0 = 0 → tget 0 s.pkg.vowner n = s.t.me.asid →
       let e := getVE s n (fld a 11 8)
       GivesS (.vqry rd ra 0) s rd (BitVec.ofNat 64
         (match entryIn s n 2 with | some c => 2 ^ 36 + c * 2 ^ 32 + (getVE s n c).version | none => 0)) ∧
       GivesS (.vqry rd ra 1) s rd (BitVec.ofNat 64 (e.version * 2 ^ 32 + e.pins * 2 ^ 16 + e.st)) ∧
       GivesS (.vqry rd ra 2) s rd (BitVec.ofNat 64 e.wbase) ∧ GivesS (.vqry rd ra 3) s rd (BitVec.ofNat 64 e.sbase) ∧
       GivesS (.vqry rd ra 4) s rd (BitVec.ofNat 64 (e.slen * 2 ^ 32 + e.wlen)) ∧ GivesS (.vqry rd ra 5) s rd w))

/-- R378, R379, R389 to R391, R396: TSPAWN launches the task of a checked envelope under the next tag (its checks in the order of
log entry 56); TWAIT gives the status of an ended task or suspends; YIELD and TKILL of the task itself leave the core. TKILL of an
ended task does nothing. Of a live one, kill ends it, wherever it is, and halt leaves it off its core with SUSP 7: one that is READY
shows it, one that waits stays as it is (log entry 76), and one that runs on another core is stopped there, its region aborted and
trap mode left (R426, R465), and suspended; the killer's own registers stay. TSELF reads. COMPLETE: tself, tspawn, twait, tkillKill,
tkillHalt, yield. R406, R408 to R410: YIELDPT without a request, with one of a class above its own, in a region or in stub mode only
closes the segment; a request it honours enters the stub that covers its address, or suspends the task; a load of the stub table
that faults or is withheld does so first. COMPLETE: yieldpt. That a release waits for a tick of the package's write order is the
model's reading (log entry 28). How a word that suspended its task completes, the target of TKILL, the counters of an edge block and
a halt of a task that does not run are its readings (log entries 35, 36, 75, 76). -/
def Obligations.TaskAndYieldWords : Prop :=
  (∀ (s : State) (rd ra : Nat), s.c.trap = false →
     let me := s.t.me
     GivesS (.tself rd 0) s rd (BitVec.ofNat 64 me.tag) ∧ GivesS (.tself rd 1) s rd (BitVec.ofNat 64 me.env) ∧
     GivesS (.tself rd 2) s rd (BitVec.ofNat 64 me.dom) ∧ GivesS (.tself rd 3) s rd (BitVec.ofNat 64 me.parent) ∧
     (s.t.spec.isOpen = false →
       (∀ ea bs ps u, envWithheld s ra = false → envRead s ra = .ok (ea, bs, ps, u) →
         let r := spawned s bs ea
         let state := envN bs 48 4 % 16
         let target := taskAtPa s (pieceAt ps 0)
         let released := fun u : State => lmBusy u = false ∧ u.t.slots.beats = [] ∧ ∃ e, u.t.tick = some e ∧ e ≠ u.pkg.epoch
         let go := { u with t := { u.t with tick := none } }
         let mine := fun v : State =>
           v.cur = s.cur ∧
           v.c = { u.c with
             l1 := v.c.l1, l1Poison := v.c.l1Poison, jobs := v.c.jobs, tlb := v.c.tlb, spm := v.c.spm, spmPoison := v.c.spmPoison,
             lead := v.c.lead, tint := v.c.tint, unbind := v.c.unbind } ∧
           v.t = { go.t with
             seen := v.t.seen, hbmBytes := v.t.hbmBytes, spec := { u.t.spec with pending := v.t.spec.pending, commit := v.t.spec.commit } }
         AccessFrame s u ∧
         (edgeWithheld s r = false → envNotNew bs = true → Traps (.tspawn rd ra) s { code := cTaskState }) ∧
         (edgeWithheld s r = false → envNotNew bs = false → envBad bs = true → Traps (.tspawn rd ra) s { code := cOperand }) ∧
         (∀ t, edgeWithheld s r = false → spawnCheck u ea bs ps r = .error t → Traps (.tspawn rd ra) s t) ∧
         (∀ es q, edgeWithheld s r = false → spawnCheck u ea bs ps r = .ok (es, q) → released q →
           let tag := nextTag q
           AccessFrame u q ∧ Runs (.tspawn rd ra) s fun t => ∃ v x, DeviceFrame { q with t := { q.t with tick := none } } v ∧
             Completes (closeSeg v) t (.s rd (BitVec.ofNat 64 tag)) 0 ∧ getTask t tag = some x ∧ x.env = ea ∧ x.parent = me.tag ∧
             (x.st = 1 ∨ x.st = 4)) ∧
         (me.result = none → target = none → state = 0 → Traps (.twait rd ra) s { code := cTaskState }) ∧
         (me.result = none → target = none → state = 5 ∨ state = 6 →
           Runs (.twait rd ra) s fun t => Completes (closeSeg (acquire u)) t (.s rd (BitVec.ofNat 64 (envN bs 48 8))) 0) ∧
         (∀ a, me.result = none → (∃ x, target = some x ∧ a = 1024 + x.tag) ∨
             (target = none ∧ state ≠ 0 ∧ state ≠ 5 ∧ state ≠ 6 ∧ a = 1024 + envN bs 52 4 % 2 ^ 20) → jobsOnSpm u = false →
           Runs (.twait rd ra) s fun t => SuspendedAs (awaiting u a) t { kind := 3, susp := 2, st := 3, pc := s.t.pc }) ∧
         (∀ i ∈ [Instr.tkillKill ra, .tkillHalt ra],
           (target = none → state = 0 → Traps i s { code := cTaskState }) ∧
           (target = none → state ≠ 0 → Runs i s fun t => Completes (closeSeg u) t .none 0) ∧
           (∀ x, target = some x → s.c.priv = false → x.asid ≠ me.asid → Traps i s { code := cPrivilege })) ∧
         (∀ x, target = some x → s.c.priv = true ∨ x.asid = me.asid → released u →
           (x.tag = me.tag → Runs (.tkillKill ra) s fun t => Idle t ∧ getTask t x.tag = none) ∧
           (x.tag = me.tag → jobsOnSpm u = false →
             let p := advance (closeSeg go)
             Runs (.tkillHalt ra) s fun t => SuspendedAs p t { kind := 3, susp := 7, st := 1, pc := p.t.pc }) ∧
           (x.tag ≠ me.tag → runningOn u x.tag = none →
             Runs (.tkillKill ra) s (fun t => ∃ v, mine v ∧ Completes (closeSeg v) t .none 0 ∧ getTask t x.tag = none) ∧
             Runs (.tkillHalt ra) s fun t => ∃ v, mine v ∧ Completes (closeSeg v) t .none 0 ∧
               (getTask u x.tag = some x → s.unwatched →
                 ∃ pc, getTask t x.tag = some (if x.st = 1 then { x with pc, susp := 7 } else { x with pc }))) ∧
           (∀ c, x.tag ≠ me.tag → runningOn u x.tag = some c → (coreCtx u c).t.begun ≠ 1 →
             let y := stopped (focus go c)
             Runs (.tkillKill ra) s (fun t => ∃ w, Idle w ∧ w.cur = c ∧ getTask w x.tag = none ∧ mine (focus w u.cur) ∧
               Completes (closeSeg (focus w u.cur)) t .none 0) ∧
             ((coreCtx u c).c.leaving = none → jobsOnSpm (focus go c) = false → jobsOnSpm y = false →
               Runs (.tkillHalt ra) s fun t => ∃ w, SuspendedAs y w { kind := 3, susp := 7, st := 1, pc := y.t.pc } ∧ w.cur = c ∧
                 mine (focus w u.cur) ∧ Completes (closeSeg (focus w u.cur)) t .none 0)))) ∧
       (∀ w, me.result = some w → GivesAwaited (.twait rd ra) s rd w) ∧
       (s.t.stub = false → jobsOnSpm s = false →
         let p := advance (closeSeg s)
         Runs .yield s fun t => SuspendedAs p t { kind := 3, susp := 1, st := 1, pc := p.t.pc }))) ∧
  (∀ (s : State) (k : Nat), s.c.trap = false →
     let closed := { s with t := { s.t with seg := none, rewound := none } }
     (s.c.req = none ∨ (∃ cls, s.c.req = some cls ∧ (k < cls ∨ s.t.spec.isOpen = true ∨ s.t.stub = true)) →
       Runs (.yieldpt k) s fun t => Completes closed t .none 0) ∧
     (∀ cls, s.c.req = some cls → cls ≤ k → s.t.spec.isOpen = false → s.t.stub = false →
       (∀ r, stubLookup s s.t.pc.toNat cls = .error r → exec (.yieldpt k) s = r) ∧
       (∀ bs u, stubLookup s s.t.pc.toNat cls = .ok (some bs, u) →
         let y := advance { u with c := { u.c with req := none }, t := { u.t with seg := none, rewound := none } }
         exec (.yieldpt k) s = .next { y with
           c := { y.c with grace := true },
           t := { y.t with stub := true, resume := y.t.pc, pc := BitVec.ofNat 64 (leNat ((bs.drop 16).take 8)), stubrec := bs } }) ∧
       (∀ u, stubLookup s s.t.pc.toNat cls = .ok (none, u) → jobsOnSpm u = false →
         let y := advance { u with c := { u.c with req := none }, t := { u.t with seg := none, rewound := none } }
         Runs (.yieldpt k) s fun t => SuspendedAs y t { kind := 2, susp := 4, st := 1, pc := y.t.pc })))

/-- R386 to R388, R392, R393 and R441: DJOIN adds a member under the lowest free index and the next GEN, DJOIN.new makes a domain in
the lowest free entry, DLEAVE and DEVICT withdraw a member; each fault of the rules comes first, in order. Where another package
holds the entry the word asks it in a packet on VC4, waits, and completes with its answer (log entry 39). COMPLETE: djoin, djoinNew,
dleave, devict. R387, R388, R394, R395 and R451: DBAR of the last member to arrive completes the phase, acquires and gives the
phase's result; of another member, or where another package holds the domain's entry, it arrives and leaves the core until the phase
completes. DPHASE reads. COMPLETE: dbar, dphase. That a release waits for a tick of the package's write order is the model's reading
(log entry 28). How a word that suspended its task completes, and domain 0, are its readings (log entries 35, 39). -/
def Obligations.DomainsAndBarriers : Prop :=
  (∀ (s : State) (rd ra rb : Nat), s.c.trap = false → s.t.spec.isOpen = false →
     let d := (getS s ra).toNat
     let w := getS s rb
     let tag := s.t.me.tag
     let out := w.toNat % 2 ^ 20
     let full := fun x : Domain => (if x.list.isSome then 4096 else 64) ≤ x.members.length
     let many := s.t.hdr.domains ≤ (membershipsOf s tag).length
     let unasked := fun x : Domain => ∀ a ∈ x.asks, a.1 ≠ tag
     let packet := fun (home : Nat) (bs : List Byte) => ({
       kind := 8, vc := 4, srcPkg := s.pkg.number, tgtPkg := home, fg := s.pkg.fg, tg := s.pkg.tg, dom := d, len := bs.length, payload := bs } : Packet)
     let asking := fun (i : Instr) (x : Domain) (home : Nat) (words : List Nat) =>
       exec i s = .next { s with pkg := { s.pkg with
         domains := tset none s.pkg.domains d (some { x with asks := (tag, none) :: x.asks }),
         held := s.pkg.held ++ [packet home (BitVec.ofNat 8 (words.headD 0) :: (words.drop 1).flatMap (leBytes 4))] } }
     let answered := fun (i : Instr) (x : Domain) (v : Nat → Word) => ∀ pre a rest, x.asks = pre ++ (tag, a) :: rest → (∀ b ∈ pre, b.1 ≠ tag) →
       let u := keepDom s d { x with asks := x.asks.filter (·.1 ≠ tag) }
       (a = none → exec i s = .next s) ∧ (a = some none → exec i s = .next (raiseAt u { code := cDomain } 0 0)) ∧
       ∀ gen, a = some (some gen) → Runs i s fun t => Completes (closeSeg u) t (.s rd (v gen)) 0
     (1024 ≤ d → ∀ i ∈ [Instr.djoin rd ra, .djoinNew rd ra rb, .dleave rd ra], Traps i s { code := cOperand }) ∧
     (d < 1024 → myDom s d = none → Traps (.djoin rd ra) s { code := cDomain } ∧ Traps (.dleave rd ra) s { code := cDomain }) ∧
     (d < 1024 → ∀ x, myDom s d = some x →
       answered (.djoin rd ra) x (fun gen => BitVec.ofNat 64 (gen * 2 ^ 32 + x.idxOf tag * 2 ^ 16 + d)) ∧
       answered (.dleave rd ra) x (fun gen => BitVec.ofNat 64 gen) ∧
       (unasked x →
         (x.has tag = true ∨ full x → Traps (.djoin rd ra) s { code := cDomain }) ∧
         (x.has tag = false → ¬full x → anchorAdmits x s.cur = false → Traps (.djoin rd ra) s { code := cOperand }) ∧
         (x.has tag = false → ¬full x → anchorAdmits x s.cur = true → many → Traps (.djoin rd ra) s { code := cResource }) ∧
         (x.has tag = false → ¬full x → anchorAdmits x s.cur = true → ¬many →
           (∀ home, x.home = some home → asking (.djoin rd ra) x home [2, tag]) ∧
           (x.home = none → Runs (.djoin rd ra) s fun t => ∃ u y, DeviceFrame s u ∧
             Completes (closeSeg u) t (.s rd (BitVec.ofNat 64 ((x.gen + 1) % 2 ^ 16 * 2 ^ 32 + freeIdx x * 2 ^ 16 + d))) 0 ∧
             getDom t d = some y ∧ y.members = x.members ++ [(freeIdx x, tag, false)] ∧ y.gen = (x.gen + 1) % 2 ^ 16)) ∧
         (x.has tag = false → Traps (.dleave rd ra) s { code := cDomain }) ∧
         (x.has tag = true →
           (∀ home, x.home = some home → asking (.dleave rd ra) x home [3, tag, tag]) ∧
           (x.home = none → Runs (.dleave rd ra) s fun t => ∃ u, DeviceFrame s u ∧
             Completes (closeSeg u) t (.s rd (BitVec.ofNat 64 ((x.gen + 1) % 2 ^ 16))) 0 ∧
             ∀ y, getDom t d = some y → y.members = x.members.filter fun m => m.2.1 ≠ tag)))) ∧
     (d < 1024 → newDomBad w = true → Traps (.djoinNew rd ra rb) s { code := cOperand }) ∧
     (d = 0 → newDomBad w = false → ¬many → ∀ n, n ≠ 0 → n < 1024 → getDom s n = none → (∀ k, k ≠ 0 → k < n → getDom s k ≠ none) →
       Runs (.djoinNew rd ra rb) s fun t => ∃ u y, DeviceFrame s u ∧ Completes (closeSeg u) t (.s rd (BitVec.ofNat 64 n)) 0 ∧
         getDom t n = some y ∧ y.level = w.toNat % 8 ∧ y.parent = 0 ∧ y.asid = s.t.me.asid ∧ y.phase = 0 ∧ y.gen = 0 ∧
         y.members = [(0, tag, false)]) ∧
     (s.c.priv = false → Traps (.devict rd ra rb) s { code := cPrivilege }) ∧
     (s.c.priv = true → d < 1024 → ∀ x, liveDom s d = some x →
       answered (.devict rd ra rb) x (fun gen => BitVec.ofNat 64 gen) ∧
       (unasked x →
         (x.has out = false → Traps (.devict rd ra rb) s { code := cDomain }) ∧
         (x.has out = true →
           (∀ home, x.home = some home → asking (.devict rd ra rb) x home [3, out, tag]) ∧
           (x.home = none → Runs (.devict rd ra rb) s fun t => ∃ u, DeviceFrame s u ∧
             Completes (closeSeg u) t (.s rd (BitVec.ofNat 64 ((x.gen + 1) % 2 ^ 16))) 0 ∧
             ∀ y, getDom t d = some y → y.members = x.members.filter fun m => m.2.1 ≠ out))))) ∧
  (∀ (s : State) (rd ra : Nat), s.c.trap = false →
     let d := (getS s ra).toNat
     let tag := s.t.me.tag
     (1024 ≤ d → Traps (.dphase rd ra 0) s { code := cOperand }) ∧
     (d = 0 → ∀ sl, GivesS (.dphase rd ra sl) s rd 0) ∧
     (0 < d → d < 1024 → myDom s d = none → Traps (.dphase rd ra 0) s { code := cDomain }) ∧
     (0 < d → d < 1024 → ∀ x, myDom s d = some x →
       GivesS (.dphase rd ra 0) s rd (x.phase.setWidth 64) ∧ GivesS (.dphase rd ra 1) s rd (BitVec.ofNat 64 x.gen) ∧
       GivesS (.dphase rd ra 2) s rd (BitVec.ofNat 64 x.mask) ∧
       (s.t.spec.isOpen = false → s.t.me.result = none →
         (x.has tag = false → Traps (.dbar rd ra) s { code := cDomain }) ∧
         (x.has tag = true → (x.counted tag = false → barrierCount s tag < s.t.hdr.barriers) →
           lmBusy s = false → s.t.slots.beats = [] → (∃ e, s.t.tick = some e ∧ e ≠ s.pkg.epoch) →
           let others := ∀ m ∈ x.members, m.2.1 = tag ∨ x.arrived.contains m.2.1 = true
           (others → x.home = none → Runs (.dbar rd ra) s fun t => ∃ u, DeviceFrame { s with t := { s.t with tick := none } } u ∧
             Completes (closeSeg (acquire u)) t (.s rd (dbarWord false x.members.length x.gen x.phase.toNat)) 0 ∧
             ∃ y, getDom t d = some y ∧ y.phase = x.phase + 1 ∧ y.arrived = []) ∧
           (¬others ∨ x.home ≠ none → jobsOnSpm s = false → Runs (.dbar rd ra) s fun t => ∃ u y,
             DeviceFrame { s with t := { s.t with tick := none } } u ∧ getDom u d = some y ∧ y.phase = x.phase ∧ y.arrived.contains tag = true ∧
             SuspendedAs (awaiting u d) t { kind := 3, susp := 3, st := 3, pc := s.t.pc })))) ∧
     (s.t.spec.isOpen = false → ∀ w, s.t.me.result = some w → GivesAwaited (.dbar rd ra) s rd w))

/-- R420: SPEC in an open region raises SpecState, and on a page that is neither HBM nor package scratch OperandRange; once the
slots are empty it takes the checkpoint, reads the condition word at its order point and opens the region, or aborts it at once with
cause 2 where the word differs. COMPLETE: spec. R426 to R429: SCOMMIT without a region gives 0; with one it reads the condition word
as an acquire and either commits and gives 1, or aborts with cause 4; a commit drains the queued stores in order, each as a plain
store or dropped and counted, and takes the shadows' rows. Of a region whose end a write has not decided already, SABORT aborts with
cause 1. SSTAT reads. COMPLETE: scommit, sabort, sstat. Waiting as a step that changes nothing is the model's choice (log entry 5).
When an abort is taken, and the hint of a drained store, are its readings (log entries 26, 59). -/
def Obligations.SpeculationRegions : Prop :=
  (∀ (s : State) (b ra rb : Nat), s.c.trap = false →
     (s.t.spec.isOpen = true → Traps (.spec b ra rb) s { code := cSpecState }) ∧
     (s.t.spec.isOpen = false → ∀ w ps, eaOf s ra 0 = .ok w → fld (getS s ra) 58 56 ≤ 4 →
       (w % 8 ≠ 0 → Traps (.spec b ra rb) s { code := cMisaligned, va := w }) ∧
       (w % 8 = 0 → accCheck s w 8 .read true = .ok ps → (∃ p ∈ ps, 2 ≤ p.pg.kind) → Traps (.spec b ra rb) s { code := cOperand }) ∧
       (w % 8 = 0 → accCheck s w 8 .read true = .ok ps → (∀ p ∈ ps, p.pg.kind < 2) → slotsBusy s = false →
         withheld s w 8 .read 1 true = false → softCheck s w ps = none →
         let u := toPoint s w ps false
         let word := peekN u (pieceAt ps 0) 8
         let exp := getS s rb
         Access NoByte s u ∧
         (word = exp.toNat → Runs (.spec b ra rb) s fun t => ∃ v, SlotFrame (closeSeg u) v ∧
           Completes { v with t := { v.t with seen := t.t.seen, spec := t.t.spec } } t .none 0 ∧
           t.t.slots.latches = [] ∧ t.t.spec.isOpen = true ∧ t.t.spec.first = t.t.slots.next ∧ t.t.spec.cond = getS s ra ∧
           t.t.spec.exp = exp ∧ t.t.spec.alt = getB s b ∧ t.t.spec.pa = pieceAt ps 0 ∧ t.t.spec.store = [] ∧ t.t.spec.drops = 0 ∧
           t.t.spec.save = { s := s.t.s, b := s.t.b, q := s.t.q, lc := s.t.lc, loops := s.t.loops, fmt := t.t.slots.fmt, a := t.t.a,
                             sh := t.t.mat.sh, v := t.t.v, p := t.t.p }) ∧
         (word ≠ exp.toNat → Runs (.spec b ra rb) s fun t =>
           t.t.pc = getB s b ∧ t.t.spec.isOpen = false ∧ t.t.spec.last = 2 ∧ t.t.s = s.t.s ∧ t.t.b = s.t.b ∧ t.t.q = s.t.q ∧
           t.t.lc = s.t.lc ∧ t.t.loops = s.t.loops ∧ t.t.slots.queue = [] ∧ ∀ a, peek t a = peek u a)))) ∧
  (∀ (s : State) (rd : Nat), s.c.trap = false →
     let p := s.t.spec
     let closed := { s with t := { s.t with seg := none, rewound := none } }
     (p.isOpen = false →
       Runs (.scommit rd) s (fun t => Completes closed t (.s rd 0) 0) ∧ Runs .sabort s (fun t => Completes closed t .none 0)) ∧
     (p.isOpen = true → p.pending = none → Runs .sabort s fun t => Aborted closed t 1) ∧
     (p.isOpen = true → slotsBusy s = true ∨ commitWithheld s = true → exec (.scommit rd) s = .next s) ∧
     (p.isOpen = true → slotsBusy s = false → commitWithheld s = false → poisoned s p.pa 8 = none → ∃ x, Access NoByte s x ∧
       let y := closeSeg (acquireAt x (syncAt x p.pa) (fld p.cond 58 56))
       (peekN x p.pa 8 ≠ p.exp.toNat → p.pending = none → Runs (.scommit rd) s fun t => Aborted y t 4) ∧
       (peekN x p.pa 8 = p.exp.toNat →
         let z := p.store.foldl drainStore y
         Runs (.scommit rd) s fun t => ∃ m spec, Completes { z with t := { z.t with mat := m, spec } } t (.s rd 1) 0 ∧
           spec.isOpen = false ∧ spec.store = [] ∧ spec.map0 = none ∧ spec.map1 = none ∧ spec.drops = z.t.spec.drops ∧
           m = { s.t.mat with acc := m.acc, win := m.win } ∧
           (twf {} s.t.mat.acc = true → (∀ a, p.map0 = some a ∨ p.map1 = some a → a < 4) → p.map0 ≠ p.map1 ∨ p.map0 = none →
             ∀ k r, k < 4 → r < 128 → tget {} m.acc (128 * k + r) =
             tget {} s.t.mat.acc (128 * (if p.map0 = some k then 4 else if p.map1 = some k then 5 else k) + r)))) ∧
     (∀ e : SpecStore, let ps := accCheck s e.va (2 ^ e.sz) .write
       match ps, plainWrite s e.va (leBytes (2 ^ e.sz) e.data.toNat) 1 with
       | .ok ps, .ok u => drainStore s e = u ∧ Access (BytesOf ps (2 ^ e.sz)) s u
       | _, .error _ => drainStore s e = { s with t := { s.t with spec := { p with drops := Nat.min 0xFFFF (p.drops + 1) } } }
       | .error _, .ok _ => False) ∧
     Runs (.sstat rd 0) s (fun t => Completes closed t (.s rd (BitVec.ofNat 64 (sstat0 p))) 0) ∧
     Runs (.sstat rd 1) s (fun t => Completes closed t (.s rd p.cond) 0) ∧
     Runs (.sstat rd 2) s (fun t => Completes closed t (.s rd p.exp) 0) ∧
     Runs (.sstat rd 3) s (fun t => Completes closed t (.s rd p.alt) 0))

/-- R101, R486, R499 and R500: CHKQ waits for the checks before it; a pending mismatch or a difference asks for a rewind where a
segment is open and has been rewound less than twice, and raises SegmentLost otherwise; equal operands change nothing. COMPLETE:
chkq, chkqQ. R491, R492, R494 and R501: QUARQ reports a half, a lane or a die's black box; its two actions need supervisor
privilege, quarantine a half or clear its score, and then report it. An operand that names nothing raises OperandRange. COMPLETE:
quarq, quarqQuarantine, quarqClear. Waiting as a step that changes nothing is the model's choice (log entry 5). When a rewind is
taken is its reading (log entry 26). -/
def Obligations.ChecksAndQuarantine : Prop :=
  (∀ (s : State) (ra rb qa qb : Nat), s.c.trap = false →
     ∀ f ∈ [(Instr.chkq ra rb, decide (getS s ra ≠ getS s rb)), (.chkqQ qa qb, decide (getQ s qa ≠ getQ s qb))],
       (checksPending s = true → exec f.1 s = .next s) ∧
       (checksPending s = false → s.t.mismatch = false → f.2 = false → Runs f.1 s fun t => Completes s t .none 0) ∧
       (checksPending s = false → s.t.mismatch = true ∨ f.2 = true →
         let x := { s with t := { s.t with mismatch := false } }
         let code := if s.t.mismatch then cDup else cCheck
         ((∃ g, s.t.seg = some g ∧ g.rewinds < 2) ∨ (s.t.seg = none ∧ s.t.begun = 1) →
           exec f.1 s = .next { x with c := { x.c with rewind := some code } }) ∧
         (∀ g, s.t.seg = some g → 2 ≤ g.rewinds →
           exec f.1 s = .next (raiseAt x { code := cSegmentLost, i2 := code, i3 := g.rewinds } 0 0)) ∧
         (s.t.seg = none → s.t.begun ≠ 1 → exec f.1 s = .next (raiseAt x { code := cSegmentLost, i2 := code } 0 0)))) ∧
  (∀ (s : State) (rd ra : Nat), s.c.trap = false →
     let w := getS s ra
     let n := w.toNat
     let h := n / 2 ^ 8 % 4 * 144 + n / 2 ^ 5 % 8 * 18 + 2 * (n / 2 % 16) + n % 2
     let names := n < 2 ^ 10 ∧ n / 2 % 16 ≤ 8
     (¬names → Traps (.quarq rd ra 0) s { code := cOperand }) ∧
     (names → GivesS (.quarq rd ra 0) s rd (BitVec.ofNat 64 (halfWord s h))) ∧
     (n < 2 ^ 8 →
       GivesS (.quarq rd ra 1) s rd (BitVec.ofNat 64 (laneWord s 1 n)) ∧
       GivesS (.quarq rd ra 2) s rd (BitVec.ofNat 64 (tget {} s.pkg.lanes n).corr) ∧
       GivesS (.quarq rd ra 3) s rd (BitVec.ofNat 64 (tget {} s.pkg.lanes n).uncorr) ∧
       GivesS (.quarq rd ra 4) s rd (BitVec.ofNat 64 (tget {} s.pkg.lanes n).preber)) ∧
     (n < 4 → GivesS (.quarq rd ra 5) s rd (BitVec.ofNat 64 (getDie s n).written)) ∧
     (s.c.priv = false →
       Traps (.quarqQuarantine rd ra) s { code := cPrivilege } ∧ Traps (.quarqClear rd ra) s { code := cPrivilege }) ∧
     (s.c.priv = true → ¬names →
       Traps (.quarqQuarantine rd ra) s { code := cOperand } ∧ Traps (.quarqClear rd ra) s { code := cOperand }) ∧
     (s.c.priv = true → names →
       (Runs (.quarqQuarantine rd ra) s fun t => ∃ u, CoreFrame s u ∧ u.pkg.quarantined.contains h = true ∧
         (∀ k, k ≠ h → u.pkg.quarantined.contains k = s.pkg.quarantined.contains k) ∧
         Completes u t (.s rd (BitVec.ofNat 64 (halfWord u h))) 0) ∧
       (Runs (.quarqClear rd ra) s fun t => ∃ score,
         let u := { s with pkg := { s.pkg with score } }
         (∀ k, tget 0 score k = if k = h then 0 else tget 0 s.pkg.score k) ∧
         Completes u t (.s rd (BitVec.ofNat 64 (halfWord u h))) 0)))

/-- R463, R470: which numbers MFSR reads and MTSR writes, the privilege each needs, and the order of the checks; STS and RNMCOUNT
wait for the slots. MFSR gives the register; MTSR writes it, or raises OperandRange where the register's own rule refuses the value.
A number that may not be written raises IllegalInstruction before a region's SpecForbidden (R67). COMPLETE: mfsr, mtsr. R4, R25 and
R470: a register that MTSR has written reads back with its reserved bits zero, every other register reads as before, and neither
memory nor a scalar, branch or predicate register changes. (Of TRAPEN the pending bits follow the enable; R472.) Waiting as a step
that changes nothing is the model's choice (log entry 5). The widths of some registers, and the cause in trap mode, are its readings
(log entries 23, 46). -/
def Obligations.SystemRegisters : Prop :=
  (∀ (s : State) (r num : Nat),
     let rd := srRead num
     let wr := srWrite num
     (0xF00 ≤ num → Traps (.mfsr r num) s { code := cPrivilege }) ∧
     (num < 0xF00 → rd = none → Traps (.mfsr r num) s { code := cIllegal }) ∧
     (num < 0xF00 → rd = some true → s.c.priv = false → Traps (.mfsr r num) s { code := cPrivilege }) ∧
     (num < 0xF00 → (rd = some false ∨ (rd = some true ∧ s.c.priv = true)) →
       (srBusy s num = true → exec (.mfsr r num) s = .next s) ∧
       (srBusy s num = false → GivesS (.mfsr r num) s r (BitVec.ofNat 64 (sysReg s num)))) ∧
     (num < 0xF00 → wr = none → Traps (.mtsr r num) s { code := cIllegal }) ∧
     (inSpec s = true → 0xF00 ≤ num ∨ wr ≠ none → Traps (.mtsr r num) s { code := cSpecForbidden }) ∧
     (inSpec s = false → 0xF00 ≤ num → Traps (.mtsr r num) s { code := cPrivilege }) ∧
     (inSpec s = false → num < 0xF00 → wr = some true → s.c.priv = false → Traps (.mtsr r num) s { code := cPrivilege }) ∧
     (inSpec s = false → num < 0xF00 → (wr = some false ∨ (wr = some true ∧ s.c.priv = true)) → srBusy s num = false →
       (writeReg s num (getS s r).toNat = none → Traps (.mtsr r num) s { code := cOperand }) ∧
       (∀ u, writeReg s num (getS s r).toNat = some u → Runs (.mtsr r num) s fun t => Completes (closeSeg u) t .none 0))) ∧
  (∀ (s u : State) (num v n : Nat), v < 2 ^ 64 → (srWrite num).isSome → (srRead n).isSome →
     num ∉ [0x001, 0x023, 0x024, 0x081, 0x10E, 0x207, 0x213, 0x214] → ¬(0x100 ≤ num ∧ num ≤ 0x107) →
     writeReg s num v = some u →
     let bits :=
       if num = 0x000 then v &&& 0x7DF
       else if num = 0x003 ∨ (0x018 ≤ num ∧ num ≤ 0x01F) ∨ num = 0x121 then v % 2 ^ 32
       else if num = 0x016 then v % 2 ^ 10 else if num = 0x020 ∨ num = 0x123 ∨ num = 0x206 then v % 2 ^ 12
       else if num = 0x021 then v % 2 else if num = 0x022 ∨ num = 0x205 then v % 2 ^ 8
       else if 0x109 ≤ num ∧ num ≤ 0x10C then v % 2 ^ 16 else if num = 0x122 then v &&& 0xFFFFFFFFFFF01
       else if num = 0x202 then v % 2 ^ 13 else v
     sysReg u num = bits ∧ (n ≠ num → sysReg u n = sysReg s n) ∧ SameBytes s u ∧ u.t.s = s.t.s ∧ u.t.b = s.t.b ∧ u.t.q = s.t.q ∧
     u.c = s.c ∧ u.t.pc = s.t.pc ∧ u.t.v = s.t.v ∧ u.t.slots = s.t.slots)

/-- R29, R133, R398, R405, R406, R417, R461, R463, R470 to R472, R478: the registers with a word of their own. MTSR of FMT is seen
from the next bundle on; TIMER is set, both at any privilege; TRAPPC is written in trap mode only; TINTMAP, PREEMPT, VSEALDROP,
BOOTOK and RESUMETASK act as their rules say, and need supervisor privilege. COMPLETE: mtsrFmt, mtsrTimer, mtsrTrappc, repartition,
preempt, vsealdropClear, bootok, resumetask. That a release waits for a tick of the package's write order is the model's reading
(log entry 28). The reserved bits of these registers are its readings (log entry 46). -/
def Obligations.SystemRegisterActions : Prop :=
  ∀ (s : State) (rs k : Nat), inSpec s = false →
    let v := (getS s rs).toNat
    (s.c.priv = false → k < 8 →
      ∀ i ∈ [Instr.mtsrTrappc rs, .repartition rs k, .preempt rs, .vsealdropClear rs, .bootok rs, .resumetask rs], Traps i s { code := cPrivilege }) ∧
    (fmtOk (v % 2 ^ 16) = false → Traps (.mtsrFmt rs) s { code := cOperand }) ∧
    (fmtOk (v % 2 ^ 16) = true → (∀ w ∈ s.t.slots.fmtw, w.eff ≤ s.t.slots.next ∧ w.iss ≤ 2 * s.t.slots.next) →
      Runs (.mtsrFmt rs) s fun t => ∃ u, SlotFrame s u ∧ Completes (closeSeg u) t .none 0 ∧ fmtAt t t.t.slots.next = v % 2 ^ 16) ∧
    Runs (.mtsrTimer rs) s (fun t =>
      Completes (closeSeg { s with t := { s.t with regs := { s.t.regs with timer := v % 2 ^ 32 } } }) t .none 0) ∧
    (s.c.priv = true →
    (s.c.trap = false → Traps (.mtsrTrappc rs) s { code := cPrivilege }) ∧
    (s.c.trap = true → v % 2 = 1 → Traps (.mtsrTrappc rs) s { code := cOperand }) ∧
    (s.c.trap = true → v % 2 = 0 →
      Runs (.mtsrTrappc rs) s fun t => Completes { s with c := { s.c with trappc := getS s rs } } t .none 0) ∧
    (k < 8 → tintBad v = true → Traps (.repartition rs k) s { code := cOperand }) ∧
    (k < 8 → tintBad v = false → Runs (.repartition rs k) s fun t => ∃ u, CoreFrame s u ∧ Completes (closeSeg u) t .none 0 ∧
      u.pkg = s.pkg ∧ ∀ d, (getDie u d).bindmap = (getDie s d).bindmap ∧ ∀ i, tget 3 (getDie u d).tintmap i =
        if d = dieOf s.cur ∧ i / 8 = k then v / 2 ^ (8 * (i % 8)) % 2 ^ 4 else tget 3 (getDie s d).tintmap i) ∧
    (Runs (.preempt rs) s fun t => ∃ u, CoreFrame s u ∧ Completes (closeSeg u) t .none 0 ∧ u.pkg = s.pkg ∧
      u.dies = s.dies ∧ let core := leadOf s (64 * dieOf s.cur + v / 8 % 64)
      ∀ n, (coreCtx u n).c.req = if n = core ∧ (coreCtx s core).c.busy = true then
        some (match (coreCtx s core).c.req with | none => v % 4 | some x => Nat.min x (v % 4)) else (coreCtx s n).c.req) ∧
    Runs (.vsealdropClear rs) s (fun t => Completes (closeSeg { s with pkg := { s.pkg with vsealdrop := 0 } }) t .none 0) ∧
    (Runs (.bootok rs) s fun t => ∃ outbox, Completes
      (closeSeg { s with pkg := { s.pkg with booted := true, bootWatch := false, bootCount := 0 }, outbox }) t .none 0) ∧
    (∀ x, taskAt s (v % 2 ^ 56) (v / 2 ^ 56) = some x →
      (¬(x.st = 3 ∧ x.susp = 6) → Traps (.resumetask rs) s { code := cOperand }) ∧
      (x.st = 3 → x.susp = 6 → lmBusy s = false → s.t.slots.beats = [] → (∃ e, s.t.tick = some e ∧ e ≠ s.pkg.epoch) →
        Runs (.resumetask rs) s fun t => ∃ u y, DeviceFrame { s with t := { s.t with tick := none } } u ∧
          Completes (closeSeg u) t .none 0 ∧ getTask t x.tag = some y ∧ y.st = 1)))

/-- R456 and R457: a fault outside trap mode is taken: the cause with its source, the four details and the resume point are saved,
s60 to s63 are exchanged with the trap bank, the prior privilege is kept, and the core runs at the trap vector in trap mode and
supervisor privilege. R459 and R461: a fault in trap mode, whichever instruction raises it, sets TRAPCAUSE with bit 9 and TRAPINFO,
restores the bank and the privilege and suspends the task by fault at TRAPPC, with a fault record that holds the first cause too.
The save of a suspension as one step is the model's choice (log entries 16, 17). -/
def Obligations.ExceptionEntry : Prop :=
  (∀ (s : State) (t : Trap) (src idx : Nat), s.c.trap = false →
     Took s (raiseAt s t src idx) (BitVec.ofNat 64 (t.code + src * 1024)) [idx, t.va, t.i2, t.i3] s.t.pc) ∧
  (∀ (s : State) (t : Trap) (src idx : Nat), s.c.trap = true → jobsOnSpm s = false →
     let cause := BitVec.ofNat 64 (t.code + 512 + src * 1024)
     ∃ info, (∀ k, k < 4 → tget 0 info k = BitVec.ofNat 64 ([idx, t.va, t.i2, t.i3].getD k 0)) ∧
       SuspendedAs (leaveTrap { s with c := { s.c with cause, info } }) (raiseAt s t src idx) {
         kind := 3, susp := 6, st := 3, pc := s.c.trappc, record := some (cause, s.c.trappc, [idx, t.va, t.i2, t.i3], s.c.cause) })

/-- R458: the words that trap mode excludes raise IllegalInstruction there, and so do issue parcels. R424: the words that an open
region forbids raise SpecForbidden, outside trap mode, where the rule does not apply (R456); so do YIELD outside stub mode, an ST to
a page that is MMIO or checked, and every MTSR of a number that may be written. The cause of a word that trap mode excludes is the
model's reading (log entry 23). -/
def Obligations.ForbiddenWords : Prop :=
  (∀ (s : State) (a b c d : Nat), s.c.trap = true →
     ∀ i ∈ ([.loop a b c, .loopx a b c, .endTask, .cwtld a b, .cwtclr a, .issueParcel a b c, .phcfg a b c, .phqry a b c, .eset a b c d,
         .egoCopy a, .egoGather a, .egoScatter a, .egoTrack a, .egoTraj a, .egoSink a, .egoNmred a, .egoPort a, .estat a b, .ewait a b,
         .ecancel a b, .mshapeLoad a b c, .mshapeWord a b c, .mshq a b c, .mgeo a b, .maccsave a b c, .maccload a b c, .mstat a b c,
         .mstatReset a, .cntinc a b c, .cntwait a b c, .cntrd a b, .cntset a b, .ocset a b c, .topoq a b c, .fwset a b, .fwq a b c,
         .vpubStage a b, .vpub a b, .vpubF a b c, .vadoptSeq a b, .vadoptStep a b, .vpin a b c, .vunpin a, .vqry a b c, .tspawn a b,
         .twait a b, .yield, .tkillKill a, .tkillHalt a, .tself a b, .dbar a b, .djoin a b, .djoinNew a b c, .dleave a b,
         .devict a b c, .dphase a b c, .spec a b c, .scommit a, .sabort, .sstat a b, .yieldpt a, .chkq a b, .chkqQ a b, .quarq a b c,
         .quarqQuarantine a b, .quarqClear a b] : List Instr),
       Traps i s { code := cIllegal }) ∧
  (∀ (s : State) (a b c d : Nat), s.c.trap = false → s.t.spec.isOpen = true →
     ∀ i ∈ ([.ldlast a b c d, .lda a b c d, .stl a b c d, .aadd a b c d a, .amin a b c d a, .amax a b c d a, .aminn a b c d a,
         .amaxn a b c d a, .aand a b c d a, .aor a b c d a, .axor a b c d a, .aswap a b c d a, .acas a b c d a, .afadd a b c d a,
         .fenceFull a, .fenceRel a, .fenceAcq a, .clean a b, .inval a b, .cleanAll, .invalAll, .egoCopy a, .egoGather a, .egoScatter a,
         .egoTrack a, .egoTraj a, .egoSink a, .egoNmred a, .egoPort a, .ecancel a b, .cntinc a b c, .cntwait a b c, .cntset a b,
         .ocset a b c, .fwset a b, .vpubStage a b, .vpub a b, .vpubF a b c, .vadoptSeq a b, .vadoptStep a b, .vpin a b c, .vunpin a,
         .tspawn a b, .twait a b, .tkillKill a, .tkillHalt a, .dbar a b, .djoin a b, .djoinNew a b c, .dleave a b, .devict a b c,
         .mtsrFmt a, .mtsrTimer a, .mtsrTrappc a, .preempt a, .vsealdropClear a, .bootok a, .resumetask a,
         .trap a, .sysretResume, .sysretSuspend, .sysretKill, .tlbinvPage a b, .tlbinvAsid a b, .tlbinvAll, .tnoise a, .bind a b, .wfe a,
         .cwtld a b, .cwtclr a, .phcfg a b 0, .mshapeLoad a b 0, .maccsave a b 0, .maccload a b 0] : List Instr),
       Traps i s { code := cSpecForbidden } ∧ (srWrite b ≠ none → Traps (.mtsr a b) s { code := cSpecForbidden }) ∧
       (b < 8 → Traps (.repartition a b) s { code := cSpecForbidden }) ∧
       (s.t.stub = false → Traps .yield s { code := cSpecForbidden }) ∧
       ∀ sz sp off ea ps, sp ≠ 1 → eaOf s b (dispOf sz off) = .ok ea → ea % 2 ^ sz = 0 → accCheck s ea (2 ^ sz) .write (decide (2 ≤ sz)) = .ok ps →
         (∃ p ∈ ps, p.pg.kind = 3 ∨ p.pg.checked = true) → Traps (.st a b sz sp c off) s { code := cSpecForbidden })

/-- R464, R465 and R460: TRAP is taken with its literal and resumes after the word; SYSRET outside trap mode is a privilege fault;
in trap mode it leaves trap mode and resumes at TRAPPC, unless a freeze is due, which suspends the task there, or an event is
pending, which is taken at once with TRAPPC unchanged; its other modes suspend the task by fault, with its record, and kill it.
COMPLETE: trap, sysretResume, sysretSuspend, sysretKill. What follows SYSRET is the model's reading (log entry 48). -/
def Obligations.TrapWords : Prop :=
  ∀ (s : State) (code : Nat),
    (s.c.trap = false → s.t.spec.isOpen = false → Runs (.trap code) s fun t =>
      Took { s with t := { s.t with seg := none, rewound := none } } t (BitVec.ofNat 64 cSoftware) [0, 0, code, 0] (s.t.pc + 4)) ∧
    (s.c.trap = true → Traps (.trap code) s { code := cSoftware, i2 := code }) ∧
    (s.c.trap = false → s.t.spec.isOpen = false → ∀ i ∈ [Instr.sysretResume, .sysretSuspend, .sysretKill], Traps i s { code := cPrivilege }) ∧
    (s.c.trap = true → s.c.frozenDue = false → eventPending s = false → Runs .sysretResume s fun t => Returned s t) ∧
    (s.c.trap = true → s.c.frozenDue = false → eventPending s = true → Runs .sysretResume s fun t =>
      t.c.trap = true ∧ t.c.trappc = s.c.trappc ∧ t.c.prior = s.c.prior ∧ t.t.pc = (getDie s (dieOf s.cur)).trapvec ∧
      (∀ k, k < 60 → getS t k = getS s k) ∧ (∀ k, 60 ≤ k → k < 64 → getS t k = getS s k)) ∧
    (s.c.trap = true → jobsOnSpm s = false →
      (s.c.frozenDue = true → Runs .sysretResume s fun t => ∃ y, Returned s y ∧
        SuspendedAs y t { kind := 3, susp := 5, st := 1, pc := s.c.trappc }) ∧
      Runs .sysretSuspend s fun t => ∃ y, Returned s y ∧ SuspendedAs y t {
        kind := 3, susp := 6, st := 3, pc := s.c.trappc,
        record := some (s.c.cause, s.c.trappc, (List.range 4).map fun k => (tget 0 s.c.info k).toNat, 0) }) ∧
    (s.c.trap = true → Runs .sysretKill s fun t => Idle t ∧ getTask t s.t.me.tag = none)

/-- R466: TLBINV needs supervisor privilege, refuses a bad operand, waits for the accesses before it, and then drops the
translations it covers on every core and every die, and those only. The form for everything whose word names registers stands as the
ASID form with 64 added. COMPLETE: tlbinvPage, tlbinvAsid, tlbinvAll. R467 to R469: TNOISE gives the next noise output, or raises
EntropyFault while the source has failed; BIND needs supervisor privilege and binds halves that may be bound; WFE completes at once
in trap mode, with something pending or once it has been woken, and otherwise waits. COMPLETE: tnoise, bind, wfe. Waiting as a step
that changes nothing is the model's choice (log entry 5). TNOISE gives a free value (log entry 6); what a TLBINV word of k = 2 that
names registers does is its reading (log entry 47). -/
def Obligations.TranslationsNoiseBinding : Prop :=
  (∀ (s : State) (ra rb : Nat), inSpec s = false →
     let va := (getS s ra).toNat % 2 ^ 56
     let asid := (getS s rb).toNat
     let waits := lmBusy s = true ∨ s.t.slots.beats ≠ []
     let drops := fun (i : Instr) (covers : Nat × Nat × Nat × Nat → Bool) => Runs i s fun t => ∃ u,
       u = { s with c := { s.c with tlb := u.c.tlb }, others := u.others, dies := u.dies } ∧ Completes (closeSeg u) t .none 0 ∧
       (∀ n, coreCtx u n = { coreCtx s n with
         c := { (coreCtx s n).c with tlb := (coreCtx s n).c.tlb.filter fun e => !covers e } }) ∧
       ∀ d, getDie u d = if d < 4 then { getDie s d with tlb := (getDie s d).tlb.filter fun e => !covers e } else getDie s d
     (s.c.priv = false → ∀ i ∈ [Instr.tlbinvPage ra rb, .tlbinvAsid ra rb, .tlbinvAsid (ra + 64) rb, .tlbinvAll], Traps i s { code := cPrivilege }) ∧
     (s.c.priv = true → 2 ^ 55 ≤ va ∨ 256 ≤ asid → Traps (.tlbinvPage ra rb) s { code := cOperand }) ∧
     (s.c.priv = true → ra < 64 → getS s ra ≠ 0 ∨ 256 ≤ asid → Traps (.tlbinvAsid ra rb) s { code := cOperand }) ∧
     (s.c.priv = true → getS s ra ≠ 0 ∨ getS s rb ≠ 0 → Traps (.tlbinvAsid (ra + 64) rb) s { code := cOperand }) ∧
     (s.c.priv = true → waits → exec .tlbinvAll s = .next s) ∧
     (s.c.priv = true → ¬waits →
       drops .tlbinvAll (fun _ => true) ∧
       (getS s ra = 0 → getS s rb = 0 → drops (.tlbinvAsid (ra + 64) rb) fun _ => true) ∧
       (va < 2 ^ 55 → asid < 256 →
         drops (.tlbinvPage ra rb) fun e => e.1 = asid && e.2.1 ≤ va && va < e.2.1 + (if e.2.2.1 = 2 then 2 ^ 26 else 2 ^ 16)) ∧
       (ra < 64 → getS s ra = 0 → asid < 256 → drops (.tlbinvAsid ra rb) fun e => e.1 = asid))) ∧
  (∀ (s : State) (rd ra rb : Nat), inSpec s = false →
     let core := (getS s ra).toNat
     let mask := (getS s rb).toNat
     (s.pkg.noiseBad = true → Traps (.tnoise rd) s { code := cEntropy }) ∧
     (s.pkg.noiseBad = false → Runs (.tnoise rd) s fun t =>
       Completes (closeSeg { s with pkg := { s.pkg with noiseN := s.pkg.noiseN + 1 } }) t (.s rd (Config.noise s.pkg.noiseN)) 0) ∧
     (s.c.priv = false → Traps (.bind ra rb) s { code := cPrivilege }) ∧
     (s.c.priv = true → bindBad s core mask = true → Traps (.bind ra rb) s { code := cOperand }) ∧
     (s.c.priv = true → bindBad s core mask = false → Runs (.bind ra rb) s fun t => ∃ u, CoreFrame s u ∧ Completes (closeSeg u) t .none 0 ∧
       bindByte t core = mask ∧ ∀ k, k < 256 → k ≠ core → bindByte t k = bindByte s k) ∧
     (s.c.trap = true → Runs (.wfe ra) s fun t => Completes s t .none 0) ∧
     (s.c.trap = false → eventPending s = true ∨ s.c.req.isSome ∨ (2 ≤ s.t.begun ∧ s.c.woken = true) → Runs (.wfe ra) s fun t =>
       Completes (closeSeg { s with t := { s.t with begun := 0 }, c := { s.c with woken := false } }) t .none 0) ∧
     (s.c.trap = false → eventPending s = false → s.c.req = none → s.t.begun < 2 →
       exec (.wfe ra) s = .next { s with
         t := { s.t with begun := if getS s ra = 0 then 3 else 2 }, c := { s.c with woken := false } }))

/-- R162 to R166: every integer operation of the V slots, on every type, form and predicate. The arithmetic ones have an exact
result, which is reduced to the width or, under saturation, clamped with SATV; the others give bits. Beside the register, the flags
and the count of V operations, nothing changes but what the slots deliver. COMPLETE: vadd, vsub, vmul, vmulh, vmad, vmin, vmax,
vabs, vneg, vshl, vand, vor, vxor, vnot, vshr, vsar, vsel, vli, vmov. -/
def Obligations.VectorIntegerElements : Prop :=
  ∀ (s : State) (v : Nat) (f : VF) (x : BCtx), v < 2 → NoVote s v →
    let e := esizeI f.ty
    let w := 8 * e
    let n := vlen s f / e
    let ra := fun k => elemAt (vsrc s v f.va x) e k
    let rb := fun k => second s v f x e (immInt f.ty f.imm) k
    let rc := fun k => elemAt (vsrc s v f.vc x) e k
    let val := fun raw : Nat => if f.ty < 4 then (BitVec.ofNat w raw).toInt else (raw : Int)
    let a := fun k => val (ra k)
    let b := fun k => val (rb k)
    let c := fun k => val (rc k)
    let lo : Int := if f.ty < 4 then -((2 : Int) ^ (w - 1)) else 0
    let hi : Int := if f.ty < 4 then (2 : Int) ^ (w - 1) - 1 else (2 : Int) ^ w - 1
    let wrap := fun y : Int => (y % (2 : Int) ^ w).toNat
    let made := fun y : Int =>
      if lo ≤ y ∧ y ≤ hi then Made.bits (wrap y) 0
      else if f.sat then Made.bits (wrap (if y < 0 then lo else hi)) fSATV else Made.bits (wrap y) 0
    let count := fun k => Nat.min (rb k) w
    let exact : List (Instr × Nat × (Nat → Int)) := [
      (.vadd v f x, 1, fun k => a k + b k), (.vsub v f x, 1, fun k => a k - b k), (.vmul v f x, 3, fun k => a k * b k),
      (.vmulh v f x, 3, fun k => a k * b k / (2 : Int) ^ w), (.vmad v f x, 3, fun k => a k * b k + c k),
      (.vmin v f x, 1, fun k => if a k ≤ b k then a k else b k), (.vmax v f x, 1, fun k => if a k ≤ b k then b k else a k),
      (.vabs v f x, 1, fun k => if a k < 0 then -a k else a k), (.vneg v f x, 1, fun k => -a k),
      (.vshl v f x, 1, fun k => a k * (2 : Int) ^ count k)]
    let raw : List (Instr × (Nat → Nat)) := [
      (.vand v f x, fun k => ra k &&& rb k), (.vor v f x, fun k => ra k ||| rb k), (.vxor v f x, fun k => ra k ^^^ rb k),
      (.vnot v f x, fun k => 2 ^ w - 1 - ra k), (.vshr v f x, fun k => ra k / 2 ^ count k),
      (.vsar v f x, fun k => wrap ((BitVec.ofNat w (ra k)).toInt / (2 : Int) ^ count k)),
      (.vsel v f x, fun k => if (psrc s v (f.vc % 8) x).getLsbD (k * e) then ra k else rb k), (.vli v f x, fun _ => immInt f.ty f.imm),
      (.vmov v f x, fun k => if f.form = 2 then x.scal.toNat % 2 ^ w else ra k)]
    (∀ op ∈ exact, GivesElems op.1 s v f x op.2.1 e n n (fun k => made (op.2.2 k)) s.t.rsd) ∧
    (∀ op ∈ raw, GivesElems op.1 s v f x 1 e n n (fun k => .bits (op.2 k) 0) s.t.rsd)

/-- R165, R171 and R190: VCMP, VFCMP and the seven predicate operations write the predicate of their file, one truth for each active
element; xp0 and yp0 discard. COMPLETE: vcmp, vfcmp, pand, por, pxor, pnot, pfirst, ppop, pcnt. -/
def Obligations.VectorPredicates : Prop :=
  ∀ (s : State) (v : Nat) (f : VF) (x : BCtx), v < 2 → NoVote s v →
    let e := esizeI f.ty
    let n := vlen s f / e
    let ra := fun k => elemAt (vsrc s v f.va x) e k
    let rb := fun k => second s v f x e (immInt f.ty f.imm) k
    let val := fun raw : Nat => if f.ty < 4 then (BitVec.ofNat (8 * e) raw).toInt else (raw : Int)
    let a := fun k => val (ra k)
    let b := fun k => val (rb k)
    let icond := fun k => match f.vc % 8 with
      | 0 => decide (a k = b k) | 1 => decide (a k ≠ b k) | 2 => decide (a k < b k) | 3 => decide (b k ≤ a k)
      | 4 => decide (a k ≤ b k) | 5 => decide (b k < a k) | 6 => decide (ra k &&& rb k ≠ 0) | _ => decide (ra k &&& rb k = 0)
    let ef := esizeF f.ty
    let nf := vlen s f / ef
    let value := fun raw => dazF (fmtDaz s x) (fmtOf f.ty) (decodeF (fmtOf f.ty) raw)
    let y := fun k => value (elemAt (vsrc s v f.va x) ef k)
    let z := fun k => value (second s v f x ef (immFloat f.ty f.imm) k)
    let unordered := fun k => (y k).isNan || (z k).isNan
    let signalling := fun k => if (y k).isSig || (z k).isSig then fNV else 0
    let anyNan := fun k => if unordered k then fNV else 0
    let fcond := fun k => match f.vc % 8 with
      | 0 => (!unordered k && fvCmp (y k) (z k) == 0, signalling k) | 1 => (unordered k || fvCmp (y k) (z k) != 0, signalling k)
      | 2 => (!unordered k && decide (fvCmp (y k) (z k) < 0), anyNan k) | 3 => (!unordered k && decide (fvCmp (y k) (z k) ≤ 0), anyNan k)
      | 4 => (!unordered k && decide (0 < fvCmp (y k) (z k)), anyNan k) | 5 => (!unordered k && decide (0 ≤ fvCmp (y k) (z k)), anyNan k)
      | 6 => (unordered k, signalling k) | _ => (!unordered k, signalling k)
    let active := fun k => (psrc s v f.pred x).getLsbD (k * e)
    let pa := fun k => (psrc s v (f.va % 8) x).getLsbD (k * e)
    let pb := fun k => (psrc s v (f.vb % 8) x).getLsbD (k * e)
    let isFirst := fun k => active k && pa k && (List.range k).all fun j => !(active j && pa j)
    let limit := if f.form = 2 then x.scal.toNat else f.imm
    let preds : List (Instr × (Nat → Bool)) := [
      (.pand v f x, fun k => pa k && pb k), (.por v f x, fun k => pa k || pb k), (.pxor v f x, fun k => xor (pa k) (pb k)),
      (.pnot v f x, fun k => !pa k), (.pfirst v f x, isFirst), (.ppop v f x, fun k => pa k && !isFirst k),
      (.pcnt v f x, fun k => decide (k < limit))]
    GivesPreds (.vcmp v f x) s v f x 1 e n (fun k => (icond k, 0)) ∧
    GivesPreds (.vfcmp v f x) s v f x 4 ef nf fcond ∧
    (∀ op ∈ preds, GivesPreds op.1 s v f x 1 e n fun k => (op.2 k, 0))

/-- R167 to R170: the floating operations of the V slots. Each has an exact result, rounded once under the operation's mode (NS with
the residue of its lane, which the finite result of a special case leaves alone; log entry 64), or chooses one of its sources
unrounded. COMPLETE: vfadd, vfsub, vfmul, vfma, vfms, vfnma, vfdiv, vfsqrt, vfrcp, vfrsq, vfexp2, vflog2, vfmin, vfmax, vfabs,
vfneg. The fine grid of exp2, log2 and the roots is the model's own (log entry 51). -/
def Obligations.VectorFloatElements : Prop :=
  ∀ (s : State) (v : Nat) (f : VF) (x : BCtx), v < 2 → NoVote s v →
    let e := esizeF f.ty
    let n := vlen s f / e
    let format := fmtOf f.ty
    let value := fun raw => dazF (fmtDaz s x) format (decodeF format raw)
    let a := fun k => value (elemAt (vsrc s v f.va x) e k)
    let b := fun k => value (second s v f x e (immFloat f.ty f.imm) k)
    let c := fun k => value (elemAt (vsrc s v f.vc x) e k)
    let rdn : Bool := vmode s f x = 2
    let signalling := fun k => if (a k).isSig then fNV else 0
    let none' := fun _ : Nat => false
    let edge := fun k => (a k).isZero || (a k).isInf
    let rounded : List (Instr × Nat × (Nat → Bool) × (Nat → FV × Nat)) := [
      (.vfadd v f x, 4, none', fun k => fvAdd rdn (a k) (b k)), (.vfsub v f x, 4, none', fun k => fvAdd rdn (a k) (b k).flip),
      (.vfmul v f x, 4, none', fun k => fvMul (a k) (b k)), (.vfma v f x, 4, none', fun k => fvFma rdn (a k) (b k) (c k)),
      (.vfms v f x, 4, none', fun k => fvFma rdn (a k) (b k) (c k).flip),
      (.vfnma v f x, 4, none', fun k => fvFma rdn (a k).flip (b k) (c k)),
      (.vfdiv v f x, 14, fun k => (b k).isInf, fun k => fvDiv (a k) (b k)), (.vfsqrt v f x, 14, edge, fun k => fvSqrt (a k)),
      (.vfrcp v f x, 6, edge, fun k => fvRcp (a k)), (.vfrsq v f x, 6, edge, fun k => fvRsq (a k)),
      (.vfexp2 v f x, 6, edge, fun k => fvExp2 (a k)), (.vflog2 v f x, 6, fun k => logSpecial (a k) (b k), fun k => fvLog2 (a k))]
    let picked : List (Instr × (Nat → FV × Nat)) := [
      (.vfmin v f x, fun k => fvPick false (a k) (b k)), (.vfmax v f x, fun k => fvPick true (a k) (b k)),
      (.vfabs v f x, fun k => (if (a k).neg then (a k).flip else a k, signalling k)), (.vfneg v f x, fun k => ((a k).flip, signalling k))]
    (∀ op ∈ rounded,
      GivesElems op.1 s v f x op.2.1 e n n (fun k =>
        let y := op.2.2.2 k
        .round format y (128 * v + e * k / 4) (op.2.2.1 k && !y.1.isNan && !y.1.isInf)) s.t.rsd) ∧
    (∀ op ∈ picked,
      GivesElems op.1 s v f x 4 e n n (fun k => .bits (storeVec format 0 false false (op.2 k).1).1 (op.2 k).2) s.t.rsd)

/-- R172 to R175: the conversions. A widening is exact, a narrowing and an integer source are rounded under the operation's mode, a
value outside an integer range is clamped or set to the range's end as toInt and storeInt say, with NX beside NV (log entry 62); the
wider side fills its register and the narrower one is packed into the low end, with zeros above it. VFCVT may clear the slot's
residues first. COMPLETE: vfcvt, vicvt, vnarrow, vwiden. -/
def Obligations.VectorConversions : Prop :=
  ∀ (s : State) (v : Nat) (f : VF) (x : BCtx), v < 2 → NoVote s v →
    let src := f.imm % 8
    let len := vlen s f
    let fsize := esizeF f.ty
    let ssize := esizeF src
    let value := fun ty raw => dazF (fmtDaz s x) (fmtOf ty) (decodeF (fmtOf ty) raw)
    let signalling := fun y : FV => if y.isSig then fNV else 0
    let float := fun (place raw : Nat) =>
      let y := value src raw
      if ssize < fsize then Made.bits (storeVec (fmtOf f.ty) 0 false false y).1 (signalling y)
      else .round (fmtOf f.ty) (y, signalling y) (128 * v + place / 4) false
    let low := fun e k => elemAt (vsrc s v f.va x) e k
    let sides := fun a b : Nat => len / Nat.max a b
    let tail := fun (a b : Nat) => if a < b then len / a else sides a b
    let cleared : Tbl (BitVec 32) := if f.imm / 8 % 2 = 1 then tclear s.t.rsd (128 * v) (len / 4) else s.t.rsd
    let isize := esizeI f.ty
    let other := esizeI src
    let range := toInt (vmode s f x) (f.sat || fmtSat s x) (intLo f.ty) (intHi f.ty)
    GivesElems (.vfcvt v f x) s v f x 4 fsize (sides fsize ssize) (tail fsize ssize)
      (fun k => float (fsize * k) (low ssize k)) cleared ∧
    (f.imm / 8 % 4 = 0 → GivesElems (.vicvt v f x) s v f x 4 isize (sides isize ssize) (tail isize ssize)
      (fun k => .bits (wrapN (8 * isize) (range (value src (low ssize k))).1) (range (value src (low ssize k))).2) s.t.rsd) ∧
    (f.imm / 8 % 4 = 1 → GivesElems (.vicvt v f x) s v f x 4 ssize (sides ssize isize) (tail ssize isize)
      (fun k => .round (fmtOf src) (fvOf false { m := intVal f.ty (low isize k), e := 0 }, 0) (128 * v + ssize * k / 4) false) s.t.rsd) ∧
    (2 ≤ f.imm / 8 % 4 → GivesElems (.vicvt v f x) s v f x 4 isize (sides isize other) (tail isize other)
      (fun k =>
        let y := intVal src (low other k)
        if other < isize then .bits (wrapN (8 * isize) y) 0 else .bits (storeInt f.ty f.sat y).1 (storeInt f.ty f.sat y).2) s.t.rsd) ∧
    (let m := len / ssize
     GivesElems (.vnarrow v f x) s v f x 4 fsize (2 * m) (2 * m)
      (fun k => float (fsize * k) (if k < m then low ssize k else elemAt (vsrc s v f.vb x) ssize (k - m))) s.t.rsd) ∧
    (let n := len / fsize
     GivesElems (.vwiden v f x) s v f x 4 fsize n n (fun k => float (fsize * k) (low ssize (k + f.imm / 16 % 2 * n))) s.t.rsd)

/-- R185: the permutes. A source index beyond the elements reads 0; VINS beyond them writes nothing; VCOMPRESS packs the active
elements into the low ones, and under zeroing clears the rest. COMPLETE: vperm, vbcast, vslide, vzip, vunzip, vext, vins, vcompress.
VINS beyond the elements is the model's reading (log entry 50). -/
def Obligations.VectorPermutes : Prop :=
  ∀ (s : State) (v : Nat) (f : VF) (x : BCtx), v < 2 → NoVote s v →
    let e := esizeI f.ty
    let n := vlen s f / e
    let at' := fun reg (j : Int) => if 0 ≤ j ∧ j < n then elemAt (vsrc s v reg x) e j.toNat else 0
    let index := if f.form = 2 then x.scal.toNat else f.imm
    let shift : Int := if f.form = 2 then x.scal.toInt else (BitVec.ofNat 16 f.imm).toInt
    let run := fun j : Int => if 0 ≤ j ∧ j < n then at' f.va j else if j < 0 then at' f.vc (j + n) else at' f.vc (j - n)
    let upper := f.imm % 2
    let forms : List (Instr × (Nat → Nat)) := [
      (.vperm v f x, fun k => at' f.va (elemAt (vsrc s v f.vb x) e k : Nat)), (.vbcast v f x, fun _ => at' f.va index),
      (.vslide v f x, fun k => run (k + shift)),
      (.vzip v f x, fun k => at' (if k % 2 = 0 then f.va else f.vb) ((k / 2 + upper * (n / 2) : Nat) : Int)),
      (.vunzip v f x, fun k =>
        let j : Int := ((2 * k + upper : Nat) : Int)
        if j < n then at' f.va j else at' f.vb (j - n)),
      (.vext v f x, fun k => if k = 0 then at' f.va index else 0)]
    let act := activeAt (psrc s v f.pred x) e
    let actives := (List.range n).filter act
    (∀ op ∈ forms, GivesElems op.1 s v f x 2 e n n (fun k => .bits (op.2 k) 0) s.t.rsd) ∧
    (n ≤ index → exec (.vins v f x) s = .next (slotDone (counted s) (2 + v))) ∧
    (index < n → GivesElems (.vins v f x) s v f x 2 e n n
      (fun k => .bits (if k = index then at' f.va 0 else at' f.vd k) 0) s.t.rsd) ∧
    GivesV (.vcompress v f x) s s v (.vec v f.vd) x.idx 2 (8 * e)
      (fun k =>
        if k < actives.length then some (elemAt (vsrc s v f.va x) e (actives.getD k 0))
        else if f.zero ∧ k < n then some 0 else none) 0

/-- R136, R186 to R188: reductions leave their result in element 0 and zeros above: an unsaturated integer sum is the sum modulo the
width, the extremes are extremes of the active elements, and saturated sums and all floating reductions go up the fixed tree, each
node stored in the element type. VARGMAX gives the first greatest active element and its index; a scan gives the running sums.
COMPLETE: vredaddI, vredmaxI, vredminI, vredaddF, vredmaxF, vredminF, vargmaxI, vargmaxF, vscanI, vscanF. -/
def Obligations.VectorReductions : Prop :=
  ∀ (s : State) (v : Nat) (f : VF) (x : BCtx), v < 2 → NoVote s v →
    let ei := esizeI f.ty
    let ef := esizeF f.ty
    let len := vlen s f
    let w := 8 * ei
    let active := fun e => (List.range (len / e)).filter (activeAt (psrc s v f.pred x) e)
    let raw := fun e k => elemAt (vsrc s v f.va x) e k
    let int := fun k => intVal f.ty (raw ei k)
    let value := fun k => dazF (fmtDaz s x) (fmtOf f.ty) (decodeF (fmtOf f.ty) (raw ef k))
    let enc := fun y : FV => (storeVec (fmtOf f.ty) 0 false false y).1
    let wrap := fun y : Int => (y % (2 : Int) ^ w).toNat
    let signalling := if (active ef).any fun k => (decodeF (fmtOf f.ty) (raw ef k)).isSig then fNV else 0
    let gives := fun i e bits fl =>
      GivesV i s s v (.vec v f.vd) x.idx 6 (8 * e) (fun k => if k = 0 then some bits else if k < len / e then some 0 else none) fl
    let index := fun i bits k fl =>
      GivesV i s s v (.vec v f.vd) x.idx 6 32 (fun j => if j = 0 then some bits else if j = 1 then some k else if j < len / 4 then some 0
        else none) fl
    let extreme := fun (i : Instr) (empty : Int) (less : Int → Int → Prop) =>
      ∃ y, gives i ei (wrap y) 0 ∧ ((active ei = [] ∧ y = empty) ∨ ((∃ k ∈ active ei, y = int k) ∧ ∀ k ∈ active ei, ¬less y (int k)))
    let scan := fun {α : Type} (i : Instr) (e : Nat) (add : α → Nat → α × Nat) (start : α) (out : α → Nat) (fl : Nat) =>
      let act := activeAt (psrc s v f.pred x) e
      let total := running act add start
      GivesV i s s v (.vec v f.vd) x.idx 6 (8 * e)
        (fun k =>
          if k < len / e then
            (if act k then some (out (total (if f.imm % 2 = 1 then k else k + 1)).1) else if f.zero then some 0 else none)
          else none) (fl ||| (total (len / e)).2)
    (f.sat = false → gives (.vredaddI v f x) ei (wrap ((active ei).map int).sum) 0) ∧
    (f.sat = true →
      let y := reduceTree (addI f.ty true) (len / ei) (leaves s v f x ei (intVal f.ty))
      gives (.vredaddI v f x) ei (wrap (y.1.getD 0)) y.2) ∧
    extreme (.vredmaxI v f x) (intLo f.ty) (fun a b => a < b) ∧ extreme (.vredminI v f x) (intHi f.ty) (fun a b => b < a) ∧
    (let tree := fun i empty op =>
       let y := reduceTree op (len / ef) (leaves s v f x ef fun r => dazF (fmtDaz s x) (fmtOf f.ty) (decodeF (fmtOf f.ty) r))
       gives i ef (enc (y.1.getD empty)) (y.2 ||| signalling)
     let node := fun y : FV × Nat =>
       let z := storeVec (fmtOf f.ty) (vmode s f x) (f.sat || fmtSat s x) (fmtFtz s x) y.1
       (decodeF (fmtOf f.ty) z.1, y.2 ||| z.2)
     tree (.vredaddF v f x) (.val false 0 0) (fun p q => node (fvAdd (vmode s f x = 2) p q)) ∧
     tree (.vredmaxF v f x) (.inf true) (fun p q => node (fvPick true p q)) ∧
     tree (.vredminF v f x) (.inf false) (fun p q => node (fvPick false p q))) ∧
    (active ei = [] → index (.vargmaxI v f x) (wrap (intLo f.ty)) 0xFFFFFFFF 0) ∧
    (∀ k ∈ active ei, (∀ j ∈ active ei, int j ≤ int k ∧ (j < k → int j < int k)) → index (.vargmaxI v f x) (raw ei k) k 0) ∧
    (active ef = [] → index (.vargmaxF v f x) (enc (.inf true)) 0xFFFFFFFF signalling) ∧
    (∀ k ∈ active ef, (∀ j ∈ active ef, argLess (value k) (value j) = false ∧ (j < k → argLess (value j) (value k) = true)) →
      index (.vargmaxF v f x) (enc (value k)) k signalling) ∧
    scan (.vscanI v f x) ei (fun acc k => addI f.ty f.sat acc (int k)) (0 : Int) wrap 0 ∧
    scan (.vscanF v f x) ef (fun acc k => addF s f x acc (value k)) (FV.val false 0 0) enc signalling

/-- R176 to R178, R191 and R193 to R196: VACC and VNORM add their active elements, or the squares of them, into a row of an
accumulator, and trap on a NaN or an infinity; VCHK completes where its active elements agree and asks for a rewind otherwise; the
lane generators give the low 32 bits of the mixed counters, and write keys, strides and counters three indices on. COMPLETE: vacc,
vnorm, vchk, vrand, vrkey, vrskip, vrsave. -/
def Obligations.VectorAccumulateCheckGenerate : Prop :=
  ∀ (s : State) (v : Nat) (f : VF) (x : BCtx), v < 2 →
    let ef := esizeF f.ty
    let nf := vlen s f / ef
    let p := psrc s v f.pred x
    let actives := (List.range nf).filter (activeAt p ef)
    let value := fun k => dazF (fmtDaz s x) (fmtOf f.ty) (decodeF (fmtOf f.ty) (elemAt (vsrc s v f.va x) ef k))
    let signed := fun d : Dy => if f.imm / 2 ^ 12 % 2 = 1 then dyNeg d else d
    let rows : List (Instr × (Dy → Dy)) := [(.vacc v f x, id), (.vnorm v f x, fun d => dyMul d d)]
    let ei := esizeI f.ty
    let differ := ∃ k < vlen s f / ei,
      activeAt p ei k = true ∧ elemAt (vsrc s v f.va x) ei k ≠ elemAt (vsrc s v f.vb x) ei k
    let n := vlen s f / 4
    let lanes := (List.range n).filter (activeAt p 4)
    let key := (readAt s .key x.idx).setWidth 128
    let stride := (readAt s .stride x.idx).setWidth 128
    let ctr := fun l => (readAt s (.ctr l) x.idx).setWidth 128
    let put := fun (u : State) (d : Dest) mask val => addLatch u { dest := d, mask, tgt := x.idx + 3, cls := 1 + v, iss := x.idx, val }
    let whole : VReg := BitVec.ofNat 4096 (2 ^ 128 - 1)
    let advance := fun (u : State) (d : BitVec 128) =>
      lanes.foldl (fun u l => put u (.ctr l) whole ((ctr l + d).setWidth 4096)) u
    let word := fun (c : BitVec 128) => c.toNat / 2 ^ (32 * f.imm) % 2 ^ 32
    let va := vsrc s v f.va x
    (∀ op ∈ rows,
      ((∃ k ∈ actives, (value k).isNan = true ∨ (value k).isInf = true) → SlotTraps op.1 s (2 + v) { code := cAccOperand }) ∧
      ((∀ k ∈ actives, (value k).isNan = false ∧ (value k).isInf = false) →
        let adds := actives.map fun k => (f.imm / 2 ^ 7 % 32 * nf + k, signed (op.2 (value k).dy))
        let write := namedWrite s (f.vd % 4) (f.imm % 128) adds (f.imm / 2 ^ 13 % 2 = 1)
        (∀ t, write = .error t → SlotTraps op.1 s (2 + v) t) ∧
        (∀ u, write = .ok u → exec op.1 s = .next (slotDone (counted u) (2 + v))))) ∧
    (¬differ → exec (.vchk v f x) s = .next (slotDone (counted s) (2 + v))) ∧
    (differ → exec (.vchk v f x) s = .next (rewindCause s cCheck (3 + v) x.idx)) ∧
    (NoVote s v →
      let drawn := fun k =>
        if k < n then
          (if activeAt p 4 k then
            some ((lmix key (ctr k + BitVec.ofNat 128 (f.imm % 4) * stride)).setWidth 32).toNat
           else if f.zero then some 0 else none)
        else none
      ∃ u, Puts s u (.vec v f.vd) 1 x.idx 3 32 drawn ∧
        exec (.vrand v f x) s = .next (slotDone (counted
          (if f.imm / 4 % 4 = 0 then u else advance (closeSeg u) (BitVec.ofNat 128 (f.imm / 4 % 4) * stride))) (2 + v))) ∧
    (let u := closeSeg s
     exec (.vrkey v f x) s = .next (slotDone (counted
      (if f.imm = 4 then put (put u .key whole (va &&& whole)) .stride whole ((va >>> 128) &&& whole)
       else lanes.foldl (fun u l => put u (.ctr l) (maskAt 32 [f.imm]) (packAt 32 [(f.imm, elemAt va 4 l)])) u)) (2 + v))) ∧
    exec (.vrskip v f x) s = .next (slotDone (counted (advance (closeSeg s)
      (if f.form = 0 then va.setWidth 128 else if f.form = 1 then BitVec.ofNat 128 f.imm else x.scal.setWidth 128))) (2 + v)) ∧
    (NoVote s v → f.imm = 4 → GivesV (.vrsave v f x) s s v (.vec v f.vd) x.idx 3 32
      (fun k => if k < n then some (((key.toNat + stride.toNat * 2 ^ 128) / 2 ^ (32 * k)) % 2 ^ 32) else none) 0) ∧
    (NoVote s v → f.imm ≠ 4 → GivesElems (.vrsave v f x) s v f x 3 4 n n (fun k => .bits (word (ctr k)) 0) s.t.rsd)

/-- R95, R97, R98, R101, R102: the operations of the C slot that touch no handle. SYNC does no more than its bundle's hold; FMTW is
in effect four indices on; TRC writes a record to the die's black box; SEG begins a segment at its bundle with the registers as they
are read there; RDV counts once and completes when every live partner has counted as far; CHK asks for a rewind where a difference
is recorded. COMPLETE: sync, fmtw, trc, seg, rdv, chk. R61 and R103: the moves of the X slot. A vector register or an address
register is written two indices on, whole; a scalar register at once, s0 discarding it. COMPLETE: xmv, xfs, xfa, xts, xpc, xta. The
order of the C slot's handle beside the L slot's, and the layout of a trace record, are the model's (log entries 59, 71). -/
def Obligations.ControlAndMoveSlots : Prop :=
  (∀ s : State,
     let e := headOf s 0
     let keeps := fun u w : State => w = { u with t := { u.t with undo := w.t.undo } }
     let n := e.cf.rdv.getD 0
     let counts := if rdvCounted s then s.t.regs.rdvcnt else tset 0 s.t.regs.rdvcnt n (tget 0 s.t.regs.rdvcnt n + 1)
     let count := tget 0 counts n
     let rung : State := { s with t := { s.t with regs := { s.t.regs with rdvcnt := counts } } }
     let told := fun w : State => w = { rung with t := { rung.t with undo := w.t.undo }, pkg := { rung.pkg with held := w.pkg.held } } ∧ rdvCounted w = true
     let found := s.t.mismatch = true ∨ ∃ w ∈ s.t.slots.votes, w.1 = e.idx
     RunsSlot .sync s 0 (keeps s) ∧
     RunsSlot .fmtw s 0 (keeps { s with t := { s.t with slots := { s.t.slots with
       fmtw := s.t.slots.fmtw ++ [{ eff := e.idx + 4, iss := 2 * e.idx + 1, val := e.fmtw }] } } }) ∧
     (∃ undo, let u : State := { s with t := { s.t with undo } }
       exec .trc s = .next (slotDone (bbRecord u (dieOf s.cur) 2 s.cur s.t.me.tag
         (leBytes 8 e.ctx.pc.toNat ++ leBytes 4 e.idx ++ leBytes 4 e.ctx.entry)) 0)) ∧
     RunsSlot .seg s 0 (fun u => ∃ undo g,
       u = { s with t := { s.t with seg := some g, rewound := none, undo } } ∧
       g.pc = e.ctx.pc ∧ g.idx = e.idx ∧ g.loops = e.loops ∧ g.fmt = fmtAt s e.idx ∧ g.rdv = rdvBefore s ∧
       (∀ k, k < 64 → tget 0 g.v k = readAt s (.vec (k / 32) (k % 32)) e.idx) ∧
       (∀ k, k < 16 → k % 8 ≠ 0 → tget 0 g.p k = (readAt s (.pred (k / 8) (k % 8)) e.idx).setWidth 512) ∧
       (∀ k, k < 16 → tget 0 g.a k = (readAt s (.addr k) e.idx).setWidth 64) ∧
       g.rewinds = (match s.t.rewound with | some (i, n) => if i = e.idx then n else 0 | none => 0)) ∧
     (rdvMet rung n count = true → ∃ w, told w ∧ exec .rdv s = .next (slotDone w 0)) ∧
     (rdvMet rung n count = false → ∃ w, told w ∧ exec .rdv s = .next w) ∧
     (¬found → RunsSlot .chk s 0 (keeps s)) ∧
     (let u : State := { s with t := { s.t with
       mismatch := false, slots := { s.t.slots with votes := s.t.slots.votes.filter (·.1 ≠ e.idx) } } }
      (∀ g, found → s.t.seg = some g → g.rewinds < 2 → exec .chk s = .next { u with c := { u.c with rewind := some cDup } }) ∧
      (∀ g, found → s.t.seg = some g → 2 ≤ g.rewinds →
        exec .chk s = .next (raiseAt u { code := cSegmentLost, i2 := cDup, i3 := g.rewinds } 1 e.idx)) ∧
      (found → s.t.seg = none → exec .chk s = .next (raiseAt u { code := cSegmentLost, i2 := cDup } 1 e.idx)))) ∧
  (∀ s : State,
     let f := (headOf s 5).xf
     let i := (headOf s 5).idx
     let x := fun n => readAt s (.vec (n / 32) (n % 32)) i
     let whole := fun (op : Instr) (bit : Nat → Bool) =>
       RunsSlot op s 5 fun u => Puts s u (.vec (f.a / 32) (f.a % 32)) 2 i 2 1 fun k =>
         if k < 1024 * s.t.g then some (if bit k then 1 else 0) else none
     let scalar := fun (op : Instr) (v : Word) => RunsSlot op s 5 fun u =>
       (∀ n, getS u n = (Dst.s f.a v).getS n (getS s n)) ∧ u = { s with t := { s.t with s := u.t.s, poison := u.t.poison } }
     whole .xmv (fun k => (x f.b).getLsbD k) ∧
     whole .xfs (fun k => (headOf s 5).ctx.scal.getLsbD (k % 64)) ∧
     whole .xfa (fun k => (readAt s (.addr f.b) i).getLsbD (k % 64)) ∧
     scalar .xts ((x f.b).setWidth 64) ∧
     scalar .xpc (BitVec.ofNat 64 ((List.range (128 * s.t.g)).filter fun k => (readAt s (.pred (f.b / 32) (f.b % 32)) i).getLsbD k).length) ∧
     RunsSlot .xta s 5 fun u => Puts s u (.addr f.a) 2 i 2 64 fun k => if k = 0 then some ((x f.b).setWidth 64).toNat else none)

/-- R32 to R34: an exposed result is read from its index on and not before; it takes its bits over every result that comes before it
in the order of index, class and issue, and leaves every other register alone. R30, R36 and R38: moving the slots on changes only
the slots, the registers that results are delivered to, and the records and handles whose queued writes are applied. The order of
results of one index, and the collision of predicate writes, are the model's readings of R34 (log entries 29, 67). -/
def Obligations.ResultsBecomeVisible : Prop :=
  (∀ (s : State) (l : Latch) (d : Dest) (j : Nat),
     s.t.slots.latches.Pairwise (fun a b => a.before b = true) →
     (∀ x ∈ s.t.slots.latches, x.dest = l.dest → x.tgt ≤ j → x.before l = true) →
     readAt (addLatch s l) d j =
       if d = l.dest ∧ l.tgt ≤ j then (readAt s d j &&& ~~~l.mask) ||| (l.val &&& l.mask) else readAt s d j) ∧
  (∀ (s : State) (k : Nat), SlotFrame s (slotDone s k))

/-- R274, R276 to R278 and R281: vector loads and stores of the task's own scratchpad. A load exposes the bytes it reads six indices
on, a store writes the active bytes of its register and no other byte of any scratchpad; VLDFF stops at the first word out of range
and clears its predicate from there; the indexed forms take an address per lane; post-increment, AINC and ASET expose the address
register one index on. A fault of R283's order comes first. COMPLETE: vld, vst, vldff, vldx, vstx, ainc, aset. -/
def Obligations.ScratchpadVectors : Prop :=
  ∀ (s : State) (f : LF) (x : BCtx),
    let base := (readAt s (.addr f.areg) x.idx).setWidth 64
    let off := (BitVec.ofNat 16 f.off).signExtend 64 * 32
    let ea := (if f.mode = 1 then base else base + off).toNat
    let p := readAt s (.pred f.file f.pred) x.idx
    let reg := fun n => readAt s (.vec f.file n) x.idx
    let n := vbytes s.t.g f.width
    let bytes := ((List.range n).filter fun k => p.getLsbD k).map fun k =>
      (k, if f.mode = 2 then ea + 2048 * (k / 32) + k % 32 else ea + k)
    let lanes := fun ireg => ((List.range (n / 4)).filter fun l => p.getLsbD (4 * l)).flatMap fun l =>
      (List.range 4).map fun b => (4 * l + b, ea + 4 * elemAt (reg ireg) 4 l + b)
    let reads := fun (u : State) (bs : List (Nat × Nat)) =>
      Puts s u (.vec f.file f.vreg) 0 x.idx 6 8 fun k => (bs.lookup k).map fun a => (spmByte s a).toNat
    let address := fun (u w : State) (v : Nat) => Puts u w (.addr f.areg) 0 x.idx 1 64 fun k => if k = 0 then some v else none
    let bumps := fun u w => if f.mode = 1 then address u w (base + off).toNat else w = u
    let writes := fun (u : State) (bs : List (Nat × Nat)) => SpmFrame s u ∧ ∀ core a,
      tget 0 (coreCtx u core).c.spm a =
        match bs.reverse.find? fun b => decide (s.cur + b.2 / 2 ^ 23 = core ∧ b.2 % 2 ^ 23 = a) with
        | some b => (reg f.vreg).extractLsb' (8 * b.1) 8
        | none => tget 0 (coreCtx s core).c.spm a
    let top := fun k : Nat => ea + 32 * (k / 32) + 32
    let beyond := fun b : Nat × Nat => decide (spmSize s < top b.1 ∨ s.t.hdr.spm < top b.1)
    let done := fun i w => exec i s = .next (slotDone w 1)
    let faults := fun i bs isRead => ∀ t, lFault s ea bs isRead = some t → SlotTraps i s 1 t
    faults (.vld f x) bytes true ∧ faults (.vst f x) bytes false ∧ faults (.vldx f x) (lanes f.vreg) true ∧
    faults (.vstx f x) (lanes ((f.vreg + 1) % 32)) false ∧
    (lFault s ea bytes true = none → ∃ u w, reads u bytes ∧ bumps u w ∧ done (.vld f x) w) ∧
    (lFault s ea bytes false = none → ∃ u w, writes u bytes ∧ bumps u w ∧ done (.vst f x) w) ∧
    (lFault s ea (lanes f.vreg) true = none → ∃ u, reads u (lanes f.vreg) ∧ done (.vldx f x) u) ∧
    (lFault s ea (lanes ((f.vreg + 1) % 32)) false = none →
      ∃ u, writes u (lanes ((f.vreg + 1) % 32)) ∧ done (.vstx f x) u) ∧
    (bytes.any beyond = false → faults (.vldff f x) bytes true ∧
      (lFault s ea bytes true = none → ∃ u w, reads u bytes ∧ bumps u w ∧ done (.vldff f x) w)) ∧
    (∀ b, bytes.find? beyond = some b →
      (bytes.head? = some b → SlotTraps (.vldff f x) s 1
        { code := if spmSize s < top b.1 then cAddress else if ea % 32 ≠ 0 then cMisaligned else cResource }) ∧
      (bytes.head? ≠ some b →
        let lower := bytes.filter fun y => y.1 < b.1
        faults (.vldff f x) lower true ∧
        (lFault s ea lower true = none → ∃ u v w, reads u lower ∧
          Puts u v (.pred f.file f.pred) 0 x.idx 6 1 (fun k => if b.1 ≤ k ∧ k < n then some 0 else none) ∧ bumps v w ∧
          done (.vldff f x) w))) ∧
    (∃ u, address s u (base + off).toNat ∧ done (.ainc f x) u) ∧ (∃ u, address s u (f.off * 32) ∧ done (.aset f x) u)

/-- R100, R244, R245, R269 to R271, R279 and R280: the cluster window and the pigeonholes. VLDW exposes the bytes of another core of
the cluster 24 indices on, each as a beat of it has read it or as it is now, and a use that faults forgets its beats; VSTW leaves
its bytes as beats on their way. PHPOP and PHPUSH reach a slot of the ring of the handle they name, wait where it blocks, and with
the advance move its count; PHA moves a count of a handle, unless the CHK of its bundle faults (R37). Nothing else changes.
COMPLETE: vldw, vstw, phpop, phpush, pha. Waiting as a step that changes nothing is the model's choice (log entry 5). The bound of a
window access, when its beats land, a PEER within a gang, and the own scratchpad are its readings (log entries 54, 58, 81, 82). -/
def Obligations.WindowsAndPigeonholes : Prop :=
  ∀ (s : State) (f : LF) (x : BCtx),
    let ea := lEA s f x
    let bytes := lBytes s f x
    let n := vbytes s.t.g f.width
    let p := readAt s (.pred f.file f.pred) x.idx
    let reg := readAt s (.vec f.file f.vreg) x.idx
    let merges := f.off / 2 ^ 15 % 2 = 1
    let place := f.off % 2 ^ 15 * 32
    let slotAt := fun w count => phBase w + (count + f.areg) % phMod w % phCount w * phSlot w * 128 + place
    let withBeats := fun (u : State) bs => { u with t := { u.t with slots := { u.t.slots with beats := u.t.slots.beats ++ bs } } }
    let unread : State := { s with t := { s.t with slots := { s.t.slots with early := [] } } }
    (∀ t, windowFault s ea bytes true = some t → exec (.vldw f x) s = .next (raiseAt unread t 2 (headOf s 1).idx)) ∧
    (∀ t, windowFault s ea bytes false = some t → SlotTraps (.vstw f x) s 1 t) ∧
    (windowFault s ea bytes true = none → RunsSlot (.vldw f x) s 1 fun u =>
      Puts unread u (.vec f.file f.vreg) 0 x.idx 24 8 fun k =>
        (bytes.lookup k).map fun a =>
          match tget none s.t.slots.early (a / 32) with
          | some w => w.toNat / 2 ^ (8 * (a % 32)) % 2 ^ 8
          | none => (tget 0 (coreCtx s (s.cur / 8 * 8 + a / 2 ^ 23)).c.spm (a % 2 ^ 23)).toNat) ∧
    (windowFault s ea bytes false = none → RunsSlot (.vstw f x) s 1 fun u => u = withBeats s (windowBeats s reg bytes (n / 32))) ∧
    (∀ t, holeRef s f.hole false = .error t → SlotTraps (.phpop f x) s 1 t) ∧
    (∀ t, holeRef s f.hole true = .error t → SlotTraps (.phpush f x) s 1 t) ∧
    (∀ core h, holeRef s f.hole false = .ok (core, h) →
      let w := holeOf s core h
      let a := slotAt w (phFree w)
      (holeBlocks s f.hole false (f.areg + 1) = true → exec (.phpop f x) s = .next s) ∧
      (holeBlocks s f.hole false (f.areg + 1) = false →
        (phSlot w * 128 < place + n → SlotTraps (.phpop f x) s 1 { code := cPigeon }) ∧
        (place + n ≤ phSlot w * 128 → spmPoisoned s a n = none → ∃ u,
          Puts s u (.vec f.file f.vreg) 0 x.idx 6 8
            (fun k => if k < n then (if p.getLsbD k then some (spmByte s (a + k)).toNat else if merges then none else some 0)
              else none) ∧
          exec (.phpop f x) s = .next (slotDone (if f.mode = 1 then advHole (closeSeg u) core h true else u) 1)))) ∧
    (∀ core h, holeRef s f.hole true = .ok (core, h) →
      let w := holeOf s core h
      let a := slotAt w (phFill w)
      let byte := fun k => if p.getLsbD k || merges then reg.extractLsb' (8 * k) 8 else 0
      let kind := phKind (holeOf s s.cur f.hole)
      (holeBlocks s f.hole true (f.areg + 1) = true → exec (.phpush f x) s = .next s) ∧
      (holeBlocks s f.hole true (f.areg + 1) = false →
        (phSlot w * 128 < place + n → SlotTraps (.phpush f x) s 1 { code := cPigeon }) ∧
        (place + n ≤ phSlot w * 128 → kind ≠ 3 → ∃ u, SpmFrame s u ∧
          (∀ c y, tget 0 (coreCtx u c).c.spm y =
            match (List.range n).find? fun k => decide (s.cur + (a + k) / 2 ^ 23 = c ∧ (a + k) % 2 ^ 23 = y) with
            | some k => byte k
            | none => tget 0 (coreCtx s c).c.spm y) ∧
          exec (.phpush f x) s = .next (slotDone (if f.mode = 1 then advHole (closeSeg u) core h false else u) 1)) ∧
        (place + n ≤ phSlot w * 128 → kind = 3 →
          let beats := (List.range (n / 32)).map fun j =>
            (core + (a + 32 * j) / 2 ^ 23, (a + 32 * j) % 2 ^ 23, BitVec.allOnes 32,
              BitVec.ofNat 256 (leNat ((List.range 32).map fun k => byte (32 * j + k))))
          let u := withBeats s beats
          exec (.phpush f x) s = .next (slotDone (if f.mode = 1 then advHole (closeSeg (landBeats u)) core h false else u) 1)))) ∧
    (let e := headOf s 0
     let c := e.cf
     let fill := decide (c.side = 0)
     let lost := e.ops.contains .chk = true ∧ chkFails s e.idx = true
     (∀ t, holeRef s c.hole fill = .error t → exec .pha s = .next (raiseAt s t 1 e.idx)) ∧
     (∀ core h, holeRef s c.hole fill = .ok (core, h) →
       (holeBlocks s c.hole fill 1 = true ∨ beatsBlock s c.hole fill = true → exec .pha s = .next s) ∧
       (holeBlocks s c.hole fill 1 = false → beatsBlock s c.hole fill = false →
         (lost → exec .pha s = .next (raiseAt (chkClear s e.idx) { code := cSegmentLost, i2 := cDup } 1 e.idx)) ∧
         (¬lost → ∃ undo, let u : State := { s with t := { s.t with undo } }
           exec .pha s = .next (slotDone (advHole (closeSeg (dropChk u)) core h !fill) 0))))) ∧
    (∀ core h free, HoleFrame s (advHole s core h free) ∧
      (∀ c k, ¬(c = core ∧ k = h) → holeOf (advHole s core h free) c k = holeOf s c k) ∧
      let w := holeOf s core h
      let w' := holeOf (advHole s core h free) core h
      phFree w' = (if free then (phFree w + 1) % phMod w else phFree w) ∧
      phFill w' = (if free then phFill w else (phFill w + 1) % phMod w) ∧
      w'.extractLsb' 0 64 = w.extractLsb' 0 64 ∧ w'.extractLsb' 128 128 = w.extractLsb' 128 128)

/-- R208, R210 to R212, R215, R216 and R219: MNOP does nothing; MSWAP with no window open exchanges the planes; MCHK closes a window
whose checks hold, and asks for a rewind where they cannot be corrected; MCLR and MNORM empty or normalise the rows they name, and
the value of a normalised row is kept; a write of a row changes that row alone, and without renormalisation adds each contribution
on the row's grid. COMPLETE: mnop, mswap, mchk, mclr, mnorm. Which check of a beat comes first, and the windows checked in a region,
are the model's readings (log entries 30, 65, 87). -/
def Obligations.MatrixRows : Prop :=
  ∀ s : State,
    let f := (headOf s 4).mf
    let done := fun i u => exec i s = .next (slotDone u 4)
    let rows := if f.accdis then List.range 128 else [f.row]
    let open' := tget none s.t.mat.win (accRead s f.acc)
    let only := fun u : State => u = { s with t := { s.t with mat := { s.t.mat with acc := u.t.mat.acc, win := u.t.mat.win } } }
    let each := fun (u : State) (new : AccRow → AccRow) => ∀ a r, a < 6 → r < 128 →
      getRow u a r = if a = f.acc ∧ r ∈ rows then new (getRow s a r) else getRow s a r
    done .mnop s ∧
    ((∀ acc, acc < 4 → tget none s.t.mat.win (accRead s acc) = none) →
      done .mswap { s with t := { s.t with mat := { s.t.mat with psel := !s.t.mat.psel } } }) ∧
    (open' = none → done .mchk s) ∧
    (∀ w, open' = some w →
      let columns := badColumns s.t.mat w (colsN (tget 0 s.t.mat.cls w.plane) s.t.g)
      let beats := w.beats.filter (·.bad)
      let lost := exec .mchk s = .next (rewindCause s cAbft 5 (headOf s 4).idx)
      (w.spoiled = true → lost) ∧
      (w.spoiled = false → beats = [] → columns = [] →
        ∃ win, (∀ k, tget none win k = if k = accRead s f.acc then none else tget none s.t.mat.win k) ∧
          done .mchk { s with t := { s.t with mat := { s.t.mat with win } } }) ∧
      (w.spoiled = false → ¬(beats = [] ∧ columns = []) → ¬(beats.length = 1 ∧ columns.length = 1 ∧ w.exact = true) → lost)) ∧
    (s.t.spec.isOpen = false → f.acc < 4 → (∀ r ∈ rows, r < 128) →
      (∃ u, only u ∧ each u (fun _ => {}) ∧ done .mclr u) ∧ (∃ u, only u ∧ each u normRow ∧ done .mnorm u)) ∧
    (∀ r : AccRow, r.e ≠ -512 → -512 ≤ r.e → r.m ≠ [] → ∃ k : Nat, (normRow r).e = r.e - (k : Int) ∧
      (∀ j, tget 0 (normRow r).m j = tget 0 r.m j * (2 : Int) ^ k) ∧ -511 ≤ (normRow r).e) ∧
    (∀ acc r t clears u, s.t.spec.isOpen = false → acc < 4 → r < 128 → namedWrite s acc r t clears = .ok u →
      AccessFrame s { u with
        t := { u.t with mat := s.t.mat, sts := s.t.sts, regs := s.t.regs }, dies := s.dies, free := s.free } ∧ SameBytes s u ∧
      (∀ a q, a < 6 → q < 128 → ¬(a = acc ∧ q = r) → getRow u a q = getRow s a q) ∧
      (∀ old, old = getRow s acc r → clears = false → old.e ≠ -512 → (t.map (·.1)).Nodup → (getRow u acc r).e = old.e →
        (∃ x ∈ t, x.2.m ≠ 0) → ∀ j, tget 0 (getRow u acc r).m j = tget 0 old.m j +
          match t.find? fun x => decide (x.1 = j) with | some x => alignM x.2 (old.e - 40) | none => 0))

/-- R200 to R209, R213, R214, R221 to R225: MWL loads a weight row, MPUSH adds the products of an activation vector and a plane into
a row of an accumulator, MDRAIN stores a row in the drain format; each moves its shape record's cursor on. The statement is about
uses that pass R204's checks, with finite elements and no window to check; a use that does not pass takes its fault. COMPLETE: mwl,
mpush, mdrain. Which check of a beat comes first, the sign of a drained zero, the place of a soft error and the pair at MWL are the
model's (log entries 30, 52, 63, 83, 93). -/
def Obligations.MatrixBeats : Prop :=
  ∀ s : State,
    let f := (headOf s 4).mf
    let fmt := fmtAt s (headOf s 4).idx
    let g := s.t.g
    let m := s.t.mat
    let w := tget 0 m.sh f.shape
    let row := (f.row + recCur w) % 128
    let p := if m.psel then 1 - f.plane else f.plane
    let moved := fun u : State =>
      { u with t := { u.t with mat := { u.t.mat with sh := tset 0 u.t.mat.sh f.shape (advanceCur w) } } }
    let elements := fun (code : Nat) (u : Use) => (useRead s u (eltSize code)).flatMap (eltVals code)
    (∀ code cls, code = fmt / 8 % 8 → clsOf code = some cls →
      let u := useOf w (if code = 5 then colsN cls g / 2 else colsN cls g) (eltSize code)
      let sc := scaleRange w 0 (2 * g)
      (clsOf (fmt % 8) ≠ some cls → SlotTraps .mwl s 4 { code := cFormat }) ∧
      (clsOf (fmt % 8) = some cls → cls = 2 → 64 ≤ row → SlotTraps .mwl s 4 { code := cShape }) ∧
      (∀ t, clsOf (fmt % 8) = some cls → (cls = 2 → row < 64) → useFault s w u (eltSize code) sc true = some t → SlotTraps .mwl s 4 t) ∧
      (clsOf (fmt % 8) = some cls → (cls = 2 → row < 64) → useFault s w u (eltSize code) sc true = none →
        (∃ y ∈ elements code u, y = none) → SlotTraps .mwl s 4 { code := cAccOperand }) ∧
      (clsOf (fmt % 8) = some cls → useFault s w u (eltSize code) sc true = none → (cls = 2 → row < 64) → (∀ y ∈ elements code u, y ≠ none) →
        (∀ acc x, acc < 4 → tget none m.win (accRead s acc) = some x → x.plane ≠ p) →
        ∃ m' : Mat, exec .mwl s = .next (slotDone (moved { s with t := { s.t with mat := m' } }) 4) ∧
          m' = { m with wp := m'.wp, cls := m'.cls, half := m'.half, rowFmt := m'.rowFmt } ∧
          tget 0 m'.cls p = cls ∧ (∀ q, q ≠ p → tget 0 m'.cls q = tget 0 m.cls q) ∧
          (∀ q r c, r < 128 → weight m' q r c =
            if q = p ∧ r = row then (match (elements code u).getD c none with | some y => if y.m = 0 then dyZero else y | none => dyZero)
            else if q = p ∧ tget 0 m.cls p ≠ cls then dyZero else weight m q r c) ∧
          ∀ h, h < 2 * g → h < 16 → tget 0x3F800000 m'.half (16 * p + h) = if recSC w then spmN s (sc.1 + 4 * h) 4 else 0x3F800000)) ∧
    (∀ code cls, code = fmt % 8 → clsOf code = some cls →
      let u := useOf w (if code = 5 then rowsK cls / 2 else rowsK cls) (eltSize code)
      let sc := scaleRange w (recCur w) 1
      let abft := fmt / 2 ^ 14 % 2 = 1
      (clsOf (fmt / 8 % 8) ≠ some cls ∨ tget 0 m.cls p ≠ cls → SlotTraps .mpush s 4 { code := cFormat }) ∧
      (clsOf (fmt / 8 % 8) = some cls → tget 0 m.cls p = cls →
        (∀ t, useFault s w u (eltSize code) sc true = some t → SlotTraps .mpush s 4 t) ∧
        (useFault s w u (eltSize code) sc true = none → (∃ y ∈ elements code u, y = none) → SlotTraps .mpush s 4 { code := cAccOperand }) ∧
        (useFault s w u (eltSize code) sc true = none → (∀ y ∈ elements code u, y ≠ none) →
          scaleProducts s p (useScale s w) (2 * g) = none → SlotTraps .mpush s 4 { code := cScale }) ∧
        (useFault s w u (eltSize code) sc true = none → (∀ y ∈ elements code u, y ≠ none) → (takeChunk s.upsets).1 = none →
          mustCheck s f.acc p abft = false → ∀ scales, scaleProducts s p (useScale s w) (2 * g) = some scales →
          let act := sparse ((elements code u).map (·.getD dyZero))
          let chunk := fun c => (columnChunk m p act c).1
          let adds := ((List.range (colsN cls g)).filter fun c => decide ((chunk c).m ≠ 0)).map fun c =>
            (c, dyMul (if f.neg then dyNeg (chunk c) else chunk c) (decodeF f32 (tget 0 scales (c / perHalf cls)).toNat).dy)
          (∀ t, namedWrite s f.acc row adds f.accdis = .error t → SlotTraps .mpush s 4 t) ∧
          (∀ v, namedWrite s f.acc row adds f.accdis = .ok v →
            let counts := fun v : State => { v with t := { v.t with beats := v.t.beats + 1 } }
            (¬abft → exec .mpush s = .next (slotDone (moved (counts v)) 4)) ∧
            (abft → ∃ win, exec .mpush s = .next (slotDone (moved (counts { v with t := { v.t with mat := { v.t.mat with win } } })) 4) ∧
              ∀ k, k ≠ accRead v f.acc → tget none win k = tget none v.t.mat.win k))))) ∧
    (let code := fmt / 64 % 8
     let n := drainCols fmt g
     let first := f.plane * n
     let u := useOf w n (eltSize code)
     let out := decodeF f32 (useScale s w)
     code ≠ 5 → useFault s w u (eltSize code) (scaleRange w (recCur w) 1) false = none → first < 256 * g →
     out.isNan = false → out.isInf = false → tget none m.win (accRead s f.acc) = none →
     let elt := fun k => if first + k < 256 * g then drainElt fmt (getRow s (accRead s f.acc) row) (first + k) out.dy else (0, 0)
     ∃ v, SpmFrame (flagged s (orFlags (List.range u.n) fun k => (elt k).2)) v ∧ exec .mdrain s = .next (slotDone (moved v) 4) ∧
       (∀ a, (∀ k, k < u.n → ¬((u.at k).toNat ≤ a ∧ a < (u.at k).toNat + eltSize code)) → spmByte v a = spmByte s a) ∧
       ((∀ j k, j < u.n → k < u.n → j ≠ k → (u.at j).toNat + eltSize code ≤ (u.at k).toNat ∨ (u.at k).toNat + eltSize code ≤ (u.at j).toNat) →
         ∀ k b, k < u.n → b < eltSize code → spmByte v ((u.at k).toNat + b) = BitVec.ofNat 8 ((elt k).1 / 2 ^ (8 * b))))

/-- R407, R412, R426, R456, R460, R469, R472, R486 and R487: the events of the task in focus. A pending event is taken, the timer's
first (log entry 37); the timer falls and at 0 its event is pending; an abort and a rewind restore their checkpoints, and without a
segment a rewind raises SegmentLost; WFE's time wakes it; the quantum posts a request; the freeze suspends the task, in trap mode
only later; throttling withholds L and M; a window beat writes its bytes where its core still runs a task of the ASID (log entry
58), or reads its word. COMPLETE: trapEntry, timerExpiry, specAbort, rewind, wfeTimeout, quantumExpiry, forcedFreeze, throttling,
windowBeat. The moment of each event is a turn's choice (log entries 3, 9), and when a rewind and an abort are taken the model's
reading (log entry 26). -/
def Obligations.TaskEvents : Prop :=
  ∀ s : State,
    let regs := s.t.regs
    let free := s.c.busy = true ∧ s.c.trap = false ∧ s.c.leaving = none ∧ midBundle s = false
    let event := fun code : Nat => BitVec.ofNat 64 (code + 256 + 7 * 1024)
    (free → s.t.begun = 0 → regs.timerPending = true → Runs .trapEntry s fun t =>
      Took { s with t := { s.t with regs := { regs with timerPending := false } } } t (event cTimer) [0, 0, 0, 0] s.t.pc) ∧
    (free → s.t.begun = 0 → regs.timerPending = false → regs.rnmPending = true → regs.rnme = true → Runs .trapEntry s fun t =>
      Took { s with t := { s.t with regs := { regs with rnmPending := false } } } t (event cRenorm) [0, 0, 0, 0] s.t.pc) ∧
    (s.c.busy = true → s.c.trap = false → 0 < regs.timer →
      (∀ k, s.arg = .num k → k < regs.timer → Runs .timerExpiry s fun t => OnlyRegs s t { regs with timer := regs.timer - k }) ∧
      (s.arg = .none ∨ (∃ k, s.arg = .num k ∧ regs.timer ≤ k) →
        Runs .timerExpiry s fun t => OnlyRegs s t { regs with timer := 0, timerPending := true })) ∧
    (∀ c, free → s.t.spec.pending = some c →
      (s.t.spec.isOpen = true → Runs .specAbort s fun t => Aborted s t c) ∧
      (s.t.spec.isOpen = false → exec .specAbort s = .next { s with t := { s.t with spec := { s.t.spec with pending := none } } })) ∧
    (∀ cause, s.c.busy = true → s.c.trap = false → s.c.leaving = none → s.t.begun ≠ 1 → s.c.rewind = some cause → s.t.seg = none →
      exec .rewind s = .next (raiseAt { s with c := { s.c with rewind := none } } { code := cSegmentLost, i2 := cause } 0 0)) ∧
    (∀ cause g, s.c.busy = true → s.c.trap = false → s.c.leaving = none → s.t.begun ≠ 1 → s.c.rewind = some cause → s.t.seg = some g → Runs .rewind s fun t =>
      t.c = { s.c with rewind := none } ∧ t.t.pc = g.pc ∧ t.t.v = g.v ∧ t.t.p = g.p ∧ t.t.a = g.a ∧ t.t.loops = g.loops ∧
      t.t.regs = { regs with rdvcnt := g.rdv } ∧ t.t.seg = some { g with rewinds := g.rewinds + 1 } ∧ t.t.rewound = some (g.idx, g.rewinds + 1) ∧
      t.t.slots.queue = [] ∧ t.t.slots.next = g.idx ∧ t.t.slots.latches = g.latches ∧ t.t.slots.fmt = g.fmt ∧ t.t.slots.fmtw = g.fmtw ∧
      t.t.mismatch = false ∧ t.t.s = s.t.s ∧ t.t.b = s.t.b ∧ t.t.q = s.t.q ∧ t.t.lc = s.t.lc ∧ t.t.sts = s.t.sts ∧ t.t.mat.acc = s.t.mat.acc ∧
      t.t.mat.wp = s.t.mat.wp ∧ t.t.key = s.t.key ∧ t.t.ctr = s.t.ctr ∧ t.t.spec.store = s.t.spec.store ∧
      t.t.spec.isOpen = s.t.spec.isOpen ∧ SameBytes s t ∧ SameSpm s t) ∧
    (s.t.begun = 2 → exec .wfeTimeout s = .next { s with c := { s.c with woken := true } }) ∧
    (s.c.busy = true → s.c.lead = none → (quantumOf s).isSome → workWaits s = true → exec .quantumExpiry s = .next { s with
      c := { s.c with req := some (match s.c.req with | none => 1 | some k => Nat.min k 1) } }) ∧
    (s.c.busy = true → s.c.req.isSome ∨ s.c.grace = true ∨ s.c.frozenDue = true → s.c.leaving = none → s.t.begun ≠ 1 →
      (s.c.trap = true → exec .forcedFreeze s = .next { s with c := { s.c with frozenDue := true } }) ∧
      (s.c.trap = false → midBundle s = false → s.c.rewind = none → s.t.spec.pending = none → jobsOnSpm s = false →
        Runs .forcedFreeze s fun t => SuspendedAs s t { kind := 3, susp := 5, st := 1, pc := s.t.pc })) ∧
    (∀ m, s.arg = .num m → exec .throttling s = .next { s with c := { s.c with
      throttled := (if m.testBit 1 then [1] else []) ++ (if m.testBit 4 then [4] else []) } }) ∧
    (∀ k core off mask data, s.arg = .num k → s.t.slots.beats[k]? = some (core, off, mask, data) → off + 32 ≤ 2 ^ 23 →
      let u := { s with t := { s.t with slots := { s.t.slots with beats := s.t.slots.beats.eraseIdx k } } }
      (sharesWindow s core = false → exec .windowBeat s = .next u) ∧
      (sharesWindow s core = true → Runs .windowBeat s fun t => SpmFrame u t ∧ ∀ c a, tget 0 (coreCtx t c).c.spm a =
        if c = core ∧ off ≤ a ∧ a < off + 32 ∧ mask.getLsbD (a - off) = true then data.extractLsb' (8 * (a - off)) 8
        else tget 0 (coreCtx s c).c.spm a)) ∧
    (∀ k e f x b, s.arg = .num (s.t.slots.beats.length + k) → slotReady s 1 = some (e, .vldw f x) → (lBytes s f x)[k]? = some b →
      windowFault s (lEA s f x) (lBytes s f x) true = none → tget none s.t.slots.early (b.2 / 32) = none →
      exec .windowBeat s = .next { s with t := { s.t with slots := { s.t.slots with
        early := tset none s.t.slots.early (b.2 / 32) (some (windowWord s (b.2 / 32))) } } })

/-- R27, R28, R382, R399 to R404, R415, R416, R425, R438 and R453: the sorting frame. A dispatch selects by priority, by class in
deficit round-robin, and among the first four eligible tasks; it takes the task out of its queue, gives it AGE 0 and its core, and
starts it or resumes it. A fresh task starts at its PC with its envelope and header in s1 and s2 and every other register clear. A
suspended one gets what its save area holds, with what the device kept beside it (log entry 72), as an acquire, and an open region
is checked again. A header or save area that cannot be read or breaks its rules retires the task. Aging moves a waiting task to the
queue one priority up; a lapsed hold is dropped; a new period clears what the tints have spent. COMPLETE: coreDispatch,
agingPromotion, affinityHoldLapse, budgetPeriod. R28, R38, R39, R233, R411, R413 to R416: a save area holds the task, and gives it
back. A save writes the cells of the area to the bytes of its translation; from an area that reads as the cells of a full save of a
task, whose tables lie within their registers, a restore gives the registers of that task, at the PC saved; and the images of the
accumulators and of the queues give back what they were made of. Waiting as a step that changes nothing is the model's choice (log
entry 5). The moment of each event is a turn's choice, and an odd entry PC and the reads of a dispatch its readings (log entries 9,
77, 78). -/
def Obligations.SchedulerEvents : Prop :=
  (∀ s : State,
     (let z := { s with pkg := { s.pkg with atOnce := s.pkg.atOnce.filter (· ≠ s.cur) } }
      let d := getDie s (dieOf s.cur)
      let tint := coreByte s s.cur % 4
      let weight := fun c => tget 1 d.weight c
      let last := tget none d.served tint
      (selectFor z s.cur = none → exec .coreDispatch s = .next z) ∧
      (∀ r u, selectFor z s.cur = some (r, u) →
       let die := getDie u (dieOf s.cur)
       let q := if r.age = 0 then dequeue u r
         else writeVA wrPlain (dequeue u r) r.tint r.asid r.sup (r.env + 57) [BitVec.ofNat 8 (r.intens * 4 + r.adopt)]
       let me := { r with age := 0, held := false }
       let on := { me with st := 2 }
       let gone := fun t : State => t.c.busy = false ∧ getTask t r.tag = none
       let runs := fun t : State =>
         t.c.busy = true ∧ t.c.trap = false ∧ t.c.priv = r.sup ∧ t.c.req = none ∧ t.cur = s.cur ∧ getTask t r.tag = some on ∧ t.t.me = on ∧
         (∀ n, 0 < n → n < 2 ^ r.gw → (coreCtx t (s.cur + n)).c.lead = some s.cur)
       canServe s s.cur = true ∧ eligible s s.cur r = true ∧
       (∃ p c, p < 4 ∧ c < 4 ∧ r ∈ (eligibleIn s s.cur c p).take 4 ∧
         (∀ q cls, p < q → q < 4 → cls < 4 → eligibleIn s s.cur cls q = []) ∧
         let has := fun k => eligibleIn s s.cur k p ≠ []
         let old := fun k => if has k then tget 0 d.deficit (4 * tint + k) else 0
         let next := fun (ok : Nat → Prop) => ∃ n, n < 4 ∧
           let at' := fun i => ((match last with | some l => l + 1 | none => 0) + i) % 4
           c = at' n ∧ ok c ∧ ∀ i, i < n → ¬ok (at' i)
         let after := fun v => ∀ k, k < 4 → tget 0 die.deficit (4 * tint + k) = if k = c then v else old k
         let stays := ∃ l, last = some l ∧ has l ∧ weight l ≠ 0 ∧ 1 ≤ old l
         tget none die.served tint = some c ∧
         (stays → last = some c ∧ after (old c - 1)) ∧
         (¬stays → (∃ k, k < 4 ∧ has k ∧ weight k ≠ 0) → next (fun k => has k ∧ weight k ≠ 0) ∧
           after ((if old c < 1 then old c + weight c else old c) - 1)) ∧
         (¬stays → (∀ k, k < 4 → has k → weight k = 0) → next has ∧ after (old c))) ∧
       u = { z with dies := u.dies } ∧ die = { d with deficit := die.deficit, served := die.served } ∧ AccessFrame u q ∧
       (∀ k, r.tag ∉ tget [] (getDie (dequeue u r) r.die).queues k) ∧
       (r.ran = false →
         let h := chargeRead q me me.hdr 64
         let h := { h with pkg := { h.pkg with bootWatch := h.pkg.bootWatch || (!h.pkg.booted && decide (r.lbox = some 0)) } }
         ((∃ f, readHeader h me = .error f) ∨ (∃ bs, readHeader h me = .ok bs ∧ headerOk bs me = false) → Runs .coreDispatch s gone) ∧
         ∀ bs, readHeader h me = .ok bs → headerOk bs me = true → Runs .coreDispatch s fun t => runs t ∧ t.t.pc = r.pc ∧ t.t.g = 2 ^ r.gw ∧
           (∀ n, getS t n = if n = 1 then BitVec.ofNat 64 r.env else if n = 2 then BitVec.ofNat 64 r.hdr else 0) ∧
           t.t.b = [] ∧ t.t.q = [] ∧ t.t.v = [] ∧ t.t.p = [] ∧ t.t.a = [] ∧ t.t.mat = {} ∧ t.t.cwt = [] ∧ t.t.loops = [] ∧ t.t.sts = 0 ∧
           fmtAt t 0 = leNat ((bs.drop 14).take 2) ∧ t.t.hdr = headerOf bs ∧ t.t.regs.cntbase = r.cntbase ∧ t.t.regs.topoen = r.topoen) ∧
       (r.ran = true →
         let p := (tget none s.pkg.parked r.tag).getD {}
         ((∃ f, readSave q me p = .error f) ∨ (∃ m, readSave q me p = .ok m ∧ saveOk m r.gw = false) → Runs .coreDispatch s gone) ∧
         ∀ m, readSave q me p = .ok m → saveOk m r.gw = true →
           let c := restore m p on (2 ^ r.gw)
           (q.memWf → ∃ n ps, offSpm (2 ^ r.gw) ≤ n ∧ pieces q r.asid r.sup r.save n .read = .ok ps ∧
             ∀ k, k < n → tget 0 m k = peek q (pieceAt ps k)) ∧
           Runs .coreDispatch s fun t => runs t ∧
             (∀ i a, i < 2 ^ r.gw → a < 2 ^ 23 → tget 0 (coreCtx t (s.cur + i)).c.spm a =
               if cellN m 0 4 % 16 ≠ 1 ∧ 2 ^ 23 * i + a < p.hdr.spm then tget 0 m (offSpm (2 ^ r.gw) + 2 ^ 23 * i + a) else 0) ∧
             (c.spec.isOpen = false → t.t = { c with regs := { c.regs with acqepoch := t.pkg.epoch } }) ∧
             (c.spec.isOpen = true →
               (t.t.spec.isOpen = true ∧ peekN t t.t.spec.pa 8 = c.spec.exp.toNat ∧ t.t.pc = c.pc ∧ t.t.s = c.s ∧ t.t.v = c.v) ∨
               (t.t.spec.isOpen = false ∧ t.t.spec.last = 3 ∧ t.t.pc = c.spec.alt ∧ t.t.s = c.spec.save.s ∧ t.t.v = c.spec.save.v))))) ∧
     (∀ tag r, s.arg = .num tag → getTask s tag = some r → r.tag = tag →
       (r.st = 1 → r.age < 3 → effPrio r < 3 → (getDie s r.die).ageLimit ≠ 0 → Runs .agingPromotion s fun t =>
         let new := { r with age := r.age + 1 }
         getTask t tag = some new ∧ ∃ q, tget [] (getDie t r.die).queues (queueKey r.tint r.cls (effPrio new)) = q ++ [tag]) ∧
       (r.st = 1 → r.held = true → Runs .affinityHoldLapse s fun t =>
         t = { s with pkg := { s.pkg with tasks := t.pkg.tasks } } ∧
         ∀ k, getTask t k = if k = tag then some { r with held := false } else getTask s k)) ∧
     Runs .budgetPeriod s fun t => t = { s with dies := t.dies } ∧
       ∀ d, getDie t d = if d < 4 then { getDie s d with spend := [], storm := [] } else getDie s d) ∧
  ((∀ (s w : State) (kind : Nat) (pc : Word), s.memWf → s.unwatched → writeSave s kind pc = .ok w →
     let cells := saveCells s kind pc
     let n := saveLen s kind
     AccessFrame s w ∧ ∃ ps, pieces s s.t.me.asid s.t.me.sup s.t.me.save n .write = .ok ps ∧ (∀ p ∈ ps, p.pg.kind < 2) ∧
       ((cells.map (·.1)).Nodup → (∀ i j, i < n → j < n → pieceAt ps i = pieceAt ps j → i = j) →
         ∀ k, k < n → peek w (pieceAt ps k) = tget 0 cells k)) ∧
   (∀ (s : State) (kind : Nat) (pc : Word) (m : Tbl Byte) (d : Parked) (r : TaskRec), FitsRegs s.t → kind = 2 ∨ kind = 3 → s.t.me.gw < 4 →
     (∀ k, k < offSpm s.t.g → tget 0 m k = tget 0 (saveCells s kind pc) k) →
     let t := s.t
     let u := restore m d r t.g
     let sh := fun m : Mat => m.sh
     u.pc = pc ∧ (∀ n, 0 < n → tget 0 u.s n = tget 0 t.s n) ∧ u.b = t.b ∧ u.lc = t.lc ∧ u.loops = t.loops ∧ u.sts = t.sts ∧ u.a = t.a ∧
     u.hole = t.hole ∧ u.eng = t.eng ∧ sh u.mat = sh t.mat ∧ u.key = t.key ∧ u.stride = t.stride ∧ u.ctr = t.ctr ∧ u.g = t.g ∧ u.me = r ∧
     u.mismatch = t.mismatch ∧ u.slots.fmt = t.slots.fmt ∧ u.slots.next = t.slots.next ∧
     (∀ n, n < 8 → tget false u.q n = (decide (n ≠ 0) && tget false t.q n)) ∧ (∀ n, n < 512 → tget none u.cwt n = tget none t.cwt n) ∧
     (∀ n, n < 64 → tget 0 u.v n = BitVec.ofNat 4096 ((tget 0 t.v n).toNat % 2 ^ (1024 * t.g))) ∧
     (∀ n, n < 16 → n % 8 ≠ 0 → tget 0 u.p n = BitVec.ofNat 512 ((tget 0 t.p n).toNat % 2 ^ (128 * t.g))) ∧
     (∀ n, n < 256 → tget 0 u.rsd n = tget 0 t.rsd n) ∧
     u.regs.vhold = t.regs.vhold ∧ u.regs.vpins = t.regs.vpins ∧ u.regs.rdvcnt = t.regs.rdvcnt ∧ u.regs.rnme = t.regs.rnme ∧
     u.regs.timerPending = t.regs.timerPending ∧ u.regs.rnmPending = t.regs.rnmPending ∧ u.regs.timer = t.regs.timer % 2 ^ 64) ∧
   (∀ (m : Mat) (g a r : Nat), 0 < g → a < 6 → r < 128 → (∀ k, k < 768 →
       let row := tget {} m.acc k
       twf 0 row.m = true ∧ (∀ e ∈ row.m, e.1 < 256 * g ∧ -(2 : Int) ^ 47 ≤ e.2 ∧ e.2 < (2 : Int) ^ 47) ∧ -(2 : Int) ^ 15 ≤ row.e ∧ row.e < (2 : Int) ^ 15) →
     tget {} (readAcc g 0 (fun _ => true) ((List.range 6).flatMap fun a => accCells (200 * kib * g * a) g a m)) (128 * a + r) =
       tget {} m.acc (128 * a + r)) ∧
   (∀ (q : Slots) (es : List QEntry), es.length ≤ 16 →
     (∀ e ∈ es, ∃ (f : VF) (x : BCtx) (op : Nat) (i : Instr), e = { idx := x.idx, ops := [i], ctx := x, code := op, vf := f } ∧
       Instr.ofV op 0 f x = some i ∧ op < 256 ∧ x.idx < 2 ^ 64 ∧ x.entry < 2 ^ 16 ∧ f.form < 4 ∧ f.rnd < 4 ∧ f.imm < 2 ^ 16 ∧ f.vc < 32 ∧
       f.vb < 32 ∧ f.va < 32 ∧ f.vd < 32 ∧ f.pred < 8 ∧ f.ty < 8 ∧ f.width < 4) →
     q.queue = [(2, es)] → readQueue (queueCells q none) 2 = es))

/-- R248, R249, R252, R253, R256, R298, R303, R359, R473, R482, R483 and R491: what memory does on its own or for the host. No
eviction changes a byte at its order point but what an L1 held written; a host read gives the bytes there, a host write writes them,
or is dropped and counted on a sealed page; the host sets its decoders (its operand and the kinds of its accesses are the model's
choice, log entry 84), and the mailbox reads a black box in minimal mode; a tick advances the epoch, and the patrol forgets what is
too old; a scrub marks poison; scores decay. COMPLETE: l1Eviction, l2Eviction, tagPatrol, hostSnoop, hostAccess, letterboxDoorbell,
epochTick, scrub, scoreDecay. Waiting as a step that changes nothing is the model's choice (log entry 5). The moment of each event
is a turn's choice, and where poison stands the model's reading (log entries 9, 60). -/
def Obligations.MemoryEvents : Prop :=
  ∀ s : State, s.memWf →
    (∀ line, s.arg = .num line →
      ((l1Get s line).isSome → Runs .l1Eviction s fun t => Access (fun a => a / 128 = line) s t ∧ l1Get t line = none ∧
        (s.unwatched → ∀ a, a / 128 = line → peek t a = pointByte s a)) ∧
      ((tget none s.pkg.l2 line).isSome → Runs .l2Eviction s fun t => AccessFrame s t ∧ SameBytes s t ∧ tget none t.pkg.l2 line = none ∧
        tslice t.pkg.dirty (128 * line) 128 = []) ∧
      Runs .tagPatrol s (fun t => t = { s with pkg := { s.pkg with tags := t.pkg.tags, sidecar := t.pkg.sidecar } } ∧
        ∀ l, tget {} t.pkg.tags l = (if l = line then patrolled s.pkg.epoch (tget {} s.pkg.tags l) else tget {} s.pkg.tags l) ∧
          tget {} t.pkg.sidecar l = (if l = line then patrolled s.pkg.epoch (tget {} s.pkg.sidecar l) else tget {} s.pkg.sidecar l))) ∧
    (∀ line kind, s.arg = .snoop line kind → paKind (128 * line) = some 2 → kind < 3 →
      (tget none s.pkg.l2 line = none → exec .hostSnoop s = .next s) ∧
      (∀ l, tget none s.pkg.l2 line = some l → Runs .hostSnoop s fun t => SameBytes s t ∧
        t.outbox = s.outbox ++ [.snooped line (peekBytes s (128 * line) 128)] ∧
        tget none t.pkg.l2 line = if kind = 0 then some l else none)) ∧
    (∀ pa n, s.arg = .host (.read pa n) → (∃ k, hostKind s pa n = some k ∧ k ≠ 3) → s.pkg.minimal = false → Runs .hostAccess s fun t =>
      SameBytes s t ∧ t.t = s.t ∧ t.c = s.c ∧ ∃ p, t.outbox = s.outbox ++ [.data (peekBytes s pa n) p] ∧
        (pa < hbmEnd → (∀ g ∈ s.pkg.poison, g.1 % 128 + g.2.1 ≤ 128) → p = (poisoned s pa n).isSome)) ∧
    (∀ die off, s.arg = .host (.mailbox die off) → s.pkg.minimal = true → die < 4 → off % 8 = 0 → off < 2 ^ 18 →
      exec .hostAccess s = .next { s with outbox := s.outbox ++ [.data (leBytes 8 (bbRead (getDie s die) off)) false] }) ∧
    (∀ pa bs, s.arg = .host (.write pa bs) → (∃ k, hostKind s pa bs.length = some k ∧ k ≠ 3) → s.pkg.minimal = false →
      (sealedPage s pa = true → exec .hostAccess s = .next { s with pkg := { s.pkg with vsealdrop := s.pkg.vsealdrop + 1 } }) ∧
      (sealedPage s pa = false → Runs .hostAccess s fun t => AccessFrame s t ∧ (s.unwatched → ∀ a,
        peek t a = if pa ≤ a ∧ a < pa + bs.length then bs.getD (a - pa) 0 else peek s a))) ∧
    (∀ k base len, s.arg = .host (.decoder k base len) → k < 4 → base % 2 ^ 28 = 0 → len % 2 ^ 28 = 0 → base + len ≤ hbmEnd →
      exec .hostAccess s = .next { s with pkg := { s.pkg with hdm := tset (0, 0) s.pkg.hdm k (base, len) } }) ∧
    (∀ k producer, s.arg = .doorbell k producer → k < 16 → exec .letterboxDoorbell s = .next (doorbell s k producer)) ∧
    (s.pkg.tickWanted = true →
      let e := (s.pkg.epoch + 1) % 2 ^ 28
      exec .epochTick s = .next { s with pkg := { s.pkg with
        epoch := e, tickWanted := false, tags := patrolAll e s.pkg.tags, sidecar := patrolAll e s.pkg.sidecar } }) ∧
    (s.arg = .finding .clean → exec .scrub s = .next s) ∧
    (∀ off, s.arg = .finding (.scratchpad off) → off < 2 ^ 23 → Runs .scrub s fun t =>
      t.c.spmPoison = off / 8 * 8 :: s.c.spmPoison ∧ t.t = s.t ∧ t.pkg = s.pkg) ∧
    (∀ str addr, s.arg = .finding (.uncorrectable str addr none) → str = 4 ∨ str = 5 → holdsByte s str addr = true → Runs .scrub s fun t =>
      let n := if str = 5 then 32 else 8
      t.pkg = { s.pkg with poison := (addr / n * n, n, str) :: s.pkg.poison } ∧ t.t = s.t ∧ t.c = s.c) ∧
    (∀ pa, s.arg = .finding (.l1 pa) → (l1Get s (pa / 128)).isSome → Runs .scrub s fun t =>
      t.c = { s.c with l1Poison := pa / 8 :: s.c.l1Poison } ∧ t.t = s.t ∧ t.pkg = s.pkg) ∧
    (∀ line, s.arg = .finding (.tag line) → Runs .scrub s fun t =>
      t.pkg = { s.pkg with tagPoison := line :: s.pkg.tagPoison } ∧ t.t = s.t ∧ t.c = s.c) ∧
    (∀ g, s.arg = .finding (.uncorrectable 3 g none) → 0 < g → g < 0x1100 → g ∉ s.t.poison → Runs .scrub s fun t =>
      t.t = { s.t with poison := g :: s.t.poison } ∧ t.pkg = s.pkg ∧ t.c = s.c) ∧
    (∀ str addr again, s.arg = .finding (.corrected str addr none again) → 1 ≤ str → str ≤ 5 → Runs .scrub s fun t =>
      t.pkg = s.pkg ∧ t.t = s.t ∧ t.c = s.c) ∧
    Runs .scoreDecay s fun t => t = { s with pkg := { s.pkg with score := t.pkg.score } } ∧
      ∀ h, tget 0 t.pkg.score h = tget 0 s.pkg.score h - 1

/-- R310, R312, R313, R319, R324, R333, R337 to R342, R351, R438: the events of jobs leave every register of every core alone. A job
that starts is ACTIVE, last in the order of starts, and paid for by grey where its task is parked (log entry 85); a TRACK job is
armed over its region, and the others do their accesses or send. A job that has stopped as DONE ends so. A fired ARMPUT whose path
is gone or changed fails, and otherwise sends. What is sent first is the header of the job with the bytes of its first packet, under
the next sequence number. COMPLETE: jobStart, jobEnd, armputFire. R301, R307, R311, R322, R323, R336, R366, R449: the bytes that
jobs move. A job reads the bytes as its order point holds them, once its own core's L1 has written back what it held, or those of
its gang's scratchpads, and writes them so; a unit of COPY, GATHER or SCATTER goes from its source to its destination by the
formulas of R322 and R323, an index being read once per element, zeros standing for an element out of bounds of a GATHER; TRAJ
appends record k to its ring, and publishes the index after a tick. R301, R321, R332, R333, R339, R340, R351, R495: responses. One
that comes while a flit of an earlier packet of its VC is in replay waits at the receiver (which packet a flit belongs to: log entry
92), and one that names no job is dropped. An acknowledgement counts the bytes of its packet; a refusal stops the job with its state
and reason; a GET's data is written, unless the job's accesses are over; a Moved answer sends the packet once more under the
forwarding table of now, or stops the job. Each takes its packet out of the flight, and the last one stops the job as DONE.
COMPLETE: acknowledgementArrival, refusalResponse, dataResponseArrival, movedResponse. A job's accesses as steps of its own, and the
order at a port, are the model's readings (log entries 32, 79). -/
def Obligations.JobEvents : Prop :=
  (∀ (s : State) (core e : Nat),
     let j := getJob s core e
     (s.arg = .job core e → jobReady s core e = true ∨ jobResumable s core e = true → Runs .jobStart s (JobFrame s)) ∧
     (s.arg = .job core e → jobReady s core e = true → ∃ order, (∀ x ∈ (coreCtx s core).c.jobs, x.2.order < order) ∧
       let on := { j with st := 2, order, tint := if parkedTask s j.tag then 3 else j.tint }
       let u := setJob s core e on
       (∀ ps, j.eng = 3 → jobRegion s j = .ok ps → refusedPage j ps = none → Runs .jobStart s fun t =>
         getJob t core e = { on with armed := true, ranges := ps.map fun p => (p.pg.pa, p.len) }) ∧
       (j.eng < 3 → exec .jobStart s = .next (runUnits (jobTotal j + 2) u core e)) ∧
       (j.eng = 4 → exec .jobStart s = .next (runTraj (jpar j 15 + 1) u core e)) ∧
       (j.eng = 7 → j.route = none → exec .jobStart s =
         .next (setJob u core e { on with stopping := some 11, reason := 1 })) ∧
       (j.eng = 7 → j.route.isSome → isArmput j = false → exec .jobStart s = .next (sendJob u core e))) ∧
     (s.arg = .job core e → canEnd j = true → Runs .jobEnd s (JobFrame s) ∧
       (j.stopping = some 3 → Runs .jobEnd s fun t => t = closeJob wrPlain s core e 3)) ∧
     (s.arg = .job core e → armDue j = true → Runs .armputFire s (JobFrame s) ∧
       (j.route = none → Runs .armputFire s fun t => getJob t core e = { j with stopping := some 11, reason := 1 }) ∧
       ∀ f pkg, j.route = some (f, pkg) →
         (genAfter (fibGen s f) j.tg = true → Runs .armputFire s fun t => getJob t core e = { j with stopping := some 9, reason := 2 }) ∧
         (genAfter (fibGen s f) j.tg = false → exec .armputFire s = .next (sendJob s core e))) ∧
     (∀ f pkg, j.route = some (f, pkg) → j.resend = [] → j.stopping = none → genAfter (fibGen s f) j.tg = false →
       circuitMisses s f pkg = false → fibreBlocked s core f j.tint = false → 0 < portLen j → s.unwatched →
       ∃ p rest, portPackets s j core e = p :: rest ∧ p.kind = sentKind j + 1 ∧ p.off = farOff j ∧
         p.len = Nat.min (portLen j) (4096 - farOff j % 4096) ∧ p.node = farNode j ∧ p.tgtPkg = pkg ∧ p.srcPkg = s.pkg.number ∧
         p.jobCore = core ∧ p.jobEntry = e ∧ p.jobSeq = j.seq ∧ p.first = true ∧
         let k := { j with armed := false, unsent := p :: rest }
         let u := setJob s core e k
         (portTurn u core e = true → payloadWithheld u k p = false → stalled s f p.vc = false → ∀ payload w,
           (if p.kind = 3 then payload = [] ∧ w = u else jobRead u k (parSpm (portNear j)) (parAddr (portNear j) : Nat) p.len = .ok (payload, w)) →
           (sendJob s core e).outbox[s.outbox.length]? =
             some (.packet f { p with payload, seq := tget 0 s.pkg.pktSeq (4096 * p.vc + pkg) })))) ∧
  (∀ (s : State) (core e : Nat),
     let j := getJob s core e
     let p := jpar j
     let at' := fun k : Nat => (parAddr (p k) : Int)
     let point := fun (s : State) (j : Job) (a : Nat) => pointByte (focus s j.core) a
     (∀ (s : State) (j : Job) (a n : Nat) (ps : List Piece), s.memWf → s.unwatched → coveredBy (readFp j) false 3 a n = true →
       jobCheck s j jobKinds a n .read = .ok ps → softCheck s a ps = none → ∃ u, JobFrame s u ∧
         jobRead s j false a n = .ok ((List.range n).map fun k => point s j (pieceAt ps k), u) ∧ ∀ a, peek u a = peek s a ∨ peek u a = point s j a) ∧
     (∀ (s : State) (j : Job) (a : Nat) (bs : List Byte) (ps : List Piece), s.memWf → s.unwatched → coveredBy (writeFp j) false 3 a bs.length = true →
       jobCheck s j jobKinds a bs.length .write = .ok ps → ∃ u, JobFrame s u ∧ jobWrite s j false false a bs jobKinds none = .ok u ∧
         (∀ a, ¬BytesOf ps bs.length a → peek u a = peek s a ∨ peek u a = point s j a) ∧
         ((∀ i k, i < bs.length → k < bs.length → pieceAt ps i = pieceAt ps k → i = k) →
           ∀ k, k < bs.length → peek u (pieceAt ps k) = bs.getD k 0)) ∧
     (∀ (s : State) (j : Job) (a n : Nat), coveredBy (readFp j) true 3 a n = true → jobSpmBad j a n = false → jobSpmPoison s j a n = false →
       jobRead s j true a n = .ok ((List.range n).map fun k => spmByteOf s j.core (a + k), s)) ∧
     (∀ (s : State) (j : Job) (free : Bool) (a : Nat) (bs : List Byte), (free = false → coveredBy (writeFp j) true 3 a bs.length = true ∧
       jobSpmBad j a bs.length = false) → ∃ u, JobFrame s u ∧ jobWrite s j free true a bs jobKinds none = .ok u ∧ SameBytes s u ∧
         ∀ b, spmByteOf u j.core b = if a ≤ b ∧ b < a + bs.length then bs.getD (b - a) 0 else spmByteOf s j.core b) ∧
     (ringGone s j = false → j.pos < jobTotal j → jobPaused s j = false → jobHen j = false →
       let n := p 14
       let one := fun v : Nat => if v = 0 then 1 else v
       let next := fun (u : State) (n m : Nat) (idx : Option (Nat × Nat)) =>
         let k := getJob u core e
         setJob u core e { k with pos := k.pos + n, units := k.units + m, idx }
       let toEight := fun (d : Int) (n : Nat) => Nat.min n (8 - d % 8).toNat
       (j.eng = 0 →
         let b := j.pos % p 12
         let n1 := one (p 13 % 2 ^ 32)
         let i1 : Int := (j.pos / p 12 % n1 : Nat)
         let i2 : Int := (j.pos / p 12 / n1 : Nat)
         let src := at' 0 + i2 * sext 64 (p 15) + i1 * sext 64 (p 14) + b
         let dst := at' 1 + i2 * sext 64 (p 17) + i1 * sext 64 (p 16) + b
         let m := toEight dst (p 12 - b)
         ∀ fuel bs u w, jobRead s j (parSpm (p 0)) src m = .ok (bs, u) → bs ≠ [] → jobWrite u j false (parSpm (p 1)) dst bs jobKinds none = .ok w →
           runUnits (fuel + 1) s core e = runUnits fuel (next w m bs.length none) core e) ∧
       (j.eng = 1 ∨ j.eng = 2 → ∀ i v, (match knownIndex j with
           | some k => i = k ∧ v = s
           | none => ∃ ib, jobRead s j (parSpm (p 12)) (at' 12 + (4 * (j.pos / n) : Nat)) 4 = .ok (ib, v) ∧ i = leNat ib) →
         let b := j.pos % n
         let far := i * p 15 + b
         let near := j.pos / n * n + b
         let src := at' 0 + ((if j.eng = 1 then far else near) : Nat)
         let dst := at' 1 + ((if j.eng = 1 then near else far) : Nat)
         let m := toEight dst (n - b)
         (i < p 16 → ∀ fuel bs u w, jobRead v j (parSpm (p 0)) src m = .ok (bs, u) → bs ≠ [] →
           jobWrite u j false (parSpm (p 1)) dst bs jobKinds none = .ok w →
           runUnits (fuel + 1) s core e = runUnits fuel (next w m bs.length (some (j.pos / n, i))) core e) ∧
         (p 16 ≤ i → j.eng = 1 → 0 < m → ∀ fuel w, jobWrite v j false (parSpm (p 1)) dst (List.replicate m 0) jobKinds none = .ok w →
           runUnits (fuel + 1) s core e = runUnits fuel (next w m m (some (j.pos / n, i))) core e) ∧
         (p 16 ≤ i → j.eng = 2 → ∀ fuel, runUnits (fuel + 1) s core e = runUnits fuel (next v m 0 (some (j.pos / n, i))) core e))) ∧
     (jobPaused s j = false →
       (j.pos < p 15 → ∀ fuel bs u w, jobRead s j true (at' 0 + (32 * j.pos : Nat)) 32 = .ok (bs, u) →
         jobWrite u j false false (at' 12 + ((p 16 + j.pos) % p 13 * 32 : Nat)) bs [0, 2] none = .ok w →
         runTraj (fuel + 1) s core e = runTraj fuel (setJob w core e { getJob w core e with pos := j.pos + 1, units := j.pos + 1 }) core e) ∧
       (p 15 ≤ j.pos → ∀ fuel w, jobWrite (tickEpoch s) j false (parSpm (p 14)) (at' 14) (leBytes 8 (p 16 + p 15)) jobKinds
           (some { tag := j.tag, core, pkg := s.pkg.number, scope := 3 }) = .ok w →
         runTraj (fuel + 1) s core e = setJob w core e { getJob w core e with stopping := some 3 }))) ∧
  (∀ (s : State) (p : Packet), s.arg = .packet p →
     let all : List (Nat × Instr) := [(4, .dataResponseArrival), (5, .acknowledgementArrival), (6, .movedResponse), (7, .refusalResponse)]
     (∀ x ∈ all, Runs x.2 s (JobFrame s) ∧
       (mustHold s p = true → exec x.2 s = .next { s with pkg := { s.pkg with reseq := s.pkg.reseq ++ [(x.1, p)] } }) ∧
       (s.pkg.replay = [] → s.pkg.reseq = [] → respJob s p = none → exec x.2 s = .next s)) ∧
     (s.pkg.replay = [] → s.pkg.reseq = [] → ∀ core e, respJob s p = some (core, e) →
       let j := getJob s core e
       let gone := fun k : Job => { k with flight := k.flight.filter fun x => x.pkt.off ≠ p.off }
       let last := fun k : Job => if k.unsent.isEmpty && k.resend.isEmpty && k.flight.isEmpty && k.stopping.isNone then { k with stopping := some 3 } else k
       let stopped := fun (k : Job) (st reason : Nat) => if k.stopping.isSome then k else { k with stopping := some st, reason }
       let sent := match j.flight.find? fun x => decide (x.pkt.off = p.off) with | some x => x.pkt.len | none => 0
       exec .acknowledgementArrival s = .next (setJob s core e (last (gone { j with units := j.units + sent }))) ∧
       exec .refusalResponse s = .next (setJob s core e (last (gone (stopped j p.rstate p.rreason)))) ∧
       (accessesOver j = true → exec .dataResponseArrival s = .next (setJob s core e (last (gone j)))) ∧
       (accessesOver j = false →
         let write := jobWrite s j false (parSpm (portNear j)) (parAddr (portNear j) + (p.off - farOff j) : Nat) p.payload jobKinds none
         (∀ u, write = .ok u → Runs .dataResponseArrival s fun t =>
           let k := getJob u core e
           getJob t core e = last (gone { k with units := k.units + p.payload.length }) ∧ SameBytes u t ∧ SameSpm u t) ∧
         (∀ x, write = .error x → Runs .dataResponseArrival s fun t => t = setJob s core e
           (last (gone (if j.stopping.isSome then j else { j with stopping := some x.st, reason := x.reason, fva := x.va }))))) ∧
       ∀ x, (j.flight.find? fun x => decide (x.pkt.off = p.off)) = some x →
         (x.moved = true → exec .movedResponse s = .next (setJob s core e (last (gone (stopped j 10 1))))) ∧
         (x.moved = false → j.stopping.isSome → exec .movedResponse s = .next (setJob s core e (last (gone j)))) ∧
         (x.moved = false → j.stopping = none → j.resend = [] →
           let k := { gone j with resend := [{ x with moved := true }] }
           (routeOf s x.pkt.node = none → Runs .movedResponse s fun t => getJob t core e = { k with stopping := some 11, reason := 1 }) ∧
           ∀ f pkg, routeOf s x.pkt.node = some (f, pkg) → circuitMisses s f pkg = false → fibreBlocked s core f j.tint = false →
             stalled s f x.pkt.vc = false → Runs .movedResponse s fun t => t.outbox[s.outbox.length]? = some (.packet f
               { x.pkt with tgtPkg := pkg, fg := s.pkg.fg, tg := s.pkg.tg, seq := tget 0 s.pkg.pktSeq (4096 * x.pkt.vc + pkg) }))))

/-- R298, R335, R336, R339, R340, R344, R495: what arrives from other packages. A request that comes behind a flit in replay waits
(log entry 92). One for a node the package does not serve is answered Moved, one that its window refuses is refused with the reason,
a PUT writes its payload, a GET gives the bytes, a PUTADD adds; each is answered once, on the fibre of log entry 89, and the answer
waits where its VC has no credit, its fibre takes nothing or another waits (log entry 79). The last packet of a job counts at the
target. COMPLETE: putArrival, getRequestArrival, putaddArrival. R131, R251, R264, R341, R343, R344: what a PUTADD adds. Outside a
reduction region each element is added to the bytes at its place: an f32 one rounded to nearest even, a bf16 one by ns_round with
the residue of the lane that performs it. An element that does not lie aligned is refused, as is poison of the bytes, and a packet
at a region that does not lie in the region's data; at a region the base die adds. The format is the packet's own (log entry 90).
The other packages are inputs, and the places of two fields of a header the model's choice (log entries 22, 80). -/
def Obligations.ArrivalEvents : Prop :=
  (∀ (s : State) (p : Packet), s.arg = .packet p →
     let all : List (Nat × Instr × Acc) := [(1, .putArrival, .write), (2, .putaddArrival, .write), (3, .getRequestArrival, .read)]
     let f := fibreTo s p.srcPkg
     let ready := fibreShut s f = false ∧ stalled s f 1 = false ∧ ∀ q ∈ s.pkg.held, q.tgtPkg = p.srcPkg → q.vc ≠ 1
     let answers := fun (t : State) kind rstate reason (payload : List Byte) =>
       let is := fun q : Packet => q.kind = kind ∧ q.vc = 1 ∧ q.rstate = rstate ∧ q.rreason = reason ∧ q.payload = payload ∧
         q.len = payload.length ∧ q.off = p.off ∧ q.jobCore = p.jobCore ∧ q.jobEntry = p.jobEntry ∧ q.jobSeq = p.jobSeq ∧ q.tgtPkg = p.srcPkg
       (ready → Sends s t fun o => ∃ q, o = .packet f q ∧ is q) ∧ (¬ready → ∃ q, is q ∧ t.pkg.held = s.pkg.held ++ [q])
     let calm := fun t : State => t.t = s.t ∧ t.c = s.c ∧ SameBytes s t ∧ SameSpm s t
     (∀ x ∈ all, Runs x.2.1 s (JobFrame s) ∧
       (mustHold s p = true → exec x.2.1 s = .next { s with pkg := { s.pkg with reseq := s.pkg.reseq ++ [(x.1, p)] } })) ∧
     (s.pkg.replay = [] → s.pkg.reseq = [] →
       (∀ x ∈ all,
         (servesNode s p.node = false → Runs x.2.1 s fun t => answers t 6 0 0 [] ∧ calm t) ∧
         (servesNode s p.node = true → ∀ reason, windowPieces s p x.2.2 = .error reason → Runs x.2.1 s fun t => answers t 7 12 reason [] ∧ calm t)) ∧
       (servesNode s p.node = true →
         (∀ ps, windowPieces s p .write = .ok ps → p.payload.length = p.len → Runs .putArrival s fun t => answers t 5 0 0 [] ∧
           (s.memWf → s.unwatched → (p.ren && p.last) = false → ∀ a, (¬BytesOf ps p.len a → peek t a = peek s a) ∧
             ((∀ i k, i < p.len → k < p.len → pieceAt ps i = pieceAt ps k → i = k) →
               ∀ k, k < p.len → pieceAt ps k = a → peek t a = p.payload.getD k 0)) ∧
           (s.unwatched → (p.ren && p.last) = true → p.first = true ∨ jobTag p ∉ s.pkg.spoilt →
             let n := (s.pkg.fcntbase + p.rctr) % 4096
             getCnt t n = getCnt s n + 1)) ∧
         (∀ ps, windowPieces s p .read = .ok ps →
           ((∃ q ∈ ps, (poisoned s q.pg.pa q.len).isSome) → Runs .getRequestArrival s fun t => answers t 7 12 5 [] ∧ calm t) ∧
           ((∀ q ∈ ps, poisoned s q.pg.pa q.len = none) → s.memWf → Runs .getRequestArrival s fun t => answers t 4 0 0 (peekPieces s ps) ∧
             ((p.ren && p.last) = false → calm t)))))) ∧
  (∀ (s : State) (p : Packet) (ps : List Piece), s.arg = .packet p → s.pkg.replay = [] → s.pkg.reseq = [] → servesNode s p.node = true →
     windowPieces s p .write = .ok ps →
     let z := if p.addfmt = 1 then 2 else 4
     let refused := fun (t : State) reason => SameBytes s t ∧ t.t = s.t ∧ t.c = s.c ∧ jobTag p ∈ t.pkg.spoilt ∧
       ((∃ q, q.rreason = reason ∧ q.kind = 7 ∧ q.rstate = 12 ∧ t.pkg.held = s.pkg.held ++ [q]) ∨
         Sends s t fun o => ∃ f q, o = .packet f q ∧ q.rreason = reason ∧ q.kind = 7 ∧ q.rstate = 12)
     let whole := (∀ i k, i < p.len → k < p.len → pieceAt ps i = pieceAt ps k → i = k) ∧ p.payload.length = p.len ∧ p.len % z = 0 ∧
       ∀ k, k < p.len → pieceAt ps k = pieceAt ps (k / z * z) + k % z
     let el := fun k => leNat ((p.payload.drop (z * k)).take z)
     let old := fun k => peekN s (pieceAt ps (z * k)) z
     let sum := fun k => (fvAdd false (decodeF (if p.addfmt = 1 then bf16 else f32) (old k)) (decodeF (if p.addfmt = 1 then bf16 else f32) (el k))).1
     let lane := fun k => 32 * adderUnit (pieceAt ps (z * k)) + pieceAt ps (z * k) % 128 / 4
     (regionOf s ps true = none → regionOf s ps false = none →
       ((∃ q ∈ ps, q.pg.pa % z ≠ 0) → Runs .putaddArrival s fun t => refused t 3) ∧
       ((∀ q ∈ ps, q.pg.pa % z = 0) → (∃ q ∈ ps, (poisoned s q.pg.pa q.len).isSome) → Runs .putaddArrival s fun t => refused t 5) ∧
       ((∀ q ∈ ps, q.pg.pa % z = 0 ∧ poisoned s q.pg.pa q.len = none) → whole → s.memWf → s.unwatched → (p.ren && p.last) = false →
         Runs .putaddArrival s fun t => t.t.s = s.t.s ∧ t.t.v = s.t.v ∧ (∀ a, ¬BytesOf ps p.len a → peek t a = peek s a) ∧
           (p.addfmt ≠ 1 → ∀ k, k < p.len / 4 → peekN t (pieceAt ps (4 * k)) 4 = (storeVec f32 0 false false (sum k)).1 % 2 ^ 32) ∧
           (p.addfmt = 1 → ∀ k, k < p.len / 2 → (∀ i, i < k → lane i ≠ lane k) →
             peekN t (pieceAt ps (2 * k)) 2 = (nsRound bf16 false false (sum k) (tget 0 s.pkg.adder (lane k)).toNat).1 % 2 ^ 16))) ∧
     (regionOf s ps true = none → (regionOf s ps false).isSome → Runs .putaddArrival s fun t => refused t 2) ∧
     ∀ core e, regionOf s ps true = some (core, e) → let j := getJob s core e
       (inData j p ps = false → Runs .putaddArrival s fun t => refused t 3) ∧
       (inData j p ps = true → p.dom = 0 →
         (2 < nmGet s j 0 4 → Runs .putaddArrival s fun t => refused t 2) ∧
         (nmGet s j 0 4 ≤ 2 → (∃ q ∈ ps, (poisoned s q.pg.pa q.len).isSome) → Runs .putaddArrival s fun t => refused t 5) ∧
         (nmGet s j 0 4 ≤ 2 → (∀ q ∈ ps, poisoned s q.pg.pa q.len = none) → whole → s.memWf → s.unwatched → (p.ren && p.last) = false →
           p.addfmt ≠ 1 → (∀ k, k < p.len → ∀ a, a < 128 → pieceAt ps k ≠ nmBase j + a) → Runs .putaddArrival s fun t =>
             ∀ k, k < p.len / 4 → peekN t (pieceAt ps (4 * k)) 4 = (storeVec f32 0 false false (sum k)).1 % 2 ^ 32)))

/-- R341, R345, R359, R360, R363: broadcasts and membership notices. A broadcast that matches no staged entry is answered refused;
one that matches is written to the entry's pages, made CURRENT and answered published. A target's answer counts in the publication
it belongs to, and the last one writes the two counts and drops the pin. A membership notice is kept for regions that will bind (log
entry 91), and changes the region that is bound to its domain. The layouts of these packets are log entry 80's, and the fibre of an
answer log entry 89's. COMPLETE: weightBroadcastArrival, targetAnswerArrival, domainNotice. R98, R298, R386 to R388, R393 and R394:
barrier notices between packages (that the entry's package alone decides, and their forms: log entry 39). At the entry a join adds a
member, a leave withdraws one, an arrival is recorded and asks for a tick; what cannot be done is denied. Elsewhere what the entry
tells is installed: a member joined or left, a completion, which lets those go on that have arrived, a denial. A member withdrawn
while it waits goes on with EVICTED. COMPLETE: barrierNotice. Waiting as a step that changes nothing is the model's choice (log
entry 5). The other packages are inputs (log entry 22). -/
def Obligations.NoticeEvents : Prop :=
  (∀ s : State,
     (∀ b, s.arg = .broadcast b →
       let f := fibreTo s b.srcPkg
       let ready := fibreShut s f = false ∧ stalled s f 1 = false ∧ ∀ q ∈ s.pkg.held, q.tgtPkg = b.srcPkg → q.vc ≠ 1
       let answers := fun (t : State) (ok : Bool) =>
         let is := fun q : Packet => q.kind = (if ok then 5 else 7) ∧ q.vc = 1 ∧ q.rstate = (if ok then 0 else 12) ∧ q.node = s.pkg.nodeid % 2 ^ 12 ∧
           q.dom = b.handle ∧ q.jobSeq = b.version ∧ q.jobCore = b.srcCore ∧ q.tgtPkg = b.srcPkg
         (ready → Sends s t fun o => ∃ q, o = .packet f q ∧ is q) ∧ (¬ready → ∃ q, is q ∧ t.pkg.held = s.pkg.held ++ [q])
       (matchStaged s b = none → Runs .weightBroadcastArrival s fun t => answers t false ∧ SameBytes s t ∧ t.pkg.versions = s.pkg.versions ∧
         t.t = s.t ∧ t.c = s.c) ∧
       (∀ i ws ss, matchStaged s b = some (i, ws, ss) → Runs .weightBroadcastArrival s fun t => answers t true ∧ JobFrame s t ∧
         (getVE t b.handle i).st = 2 ∧ (getVE t b.handle i).pages = ws ++ ss ∧ (getVE t b.handle i).version = b.version ∧
         (s.memWf → s.unwatched → (∀ a, a / 2 ^ 16 ∉ ws ++ ss → peek t a = peek s a) ∧
           ((ws ++ ss).Nodup → twf 0 b.wdata = true → twf 0 b.sdata = true → ∀ k x, x < 2 ^ 16 →
             (∀ g, ws[k]? = some g → peek t (2 ^ 16 * g + x) = tget 0 b.wdata (2 ^ 16 * k + x)) ∧
             ∀ g, ss[k]? = some g → peek t (2 ^ 16 * g + x) = tget 0 b.sdata (2 ^ 16 * k + x))))) ∧
     (∀ h v node ok b, s.arg = .target h v node ok →
       (s.pkg.publishes.find? fun b => decide (b.handle = h) && decide (b.version = v) && b.waiting.contains node) = some b →
       let b' := { b with
         waiting := b.waiting.erase node, left := b.left.filter (·.1 ≠ node),
         published := if ok then b.published + 1 else b.published,
         refused := if ok then b.refused else b.refused + 1 }
       let rest := s.pkg.publishes.erase b
       let old := getVE s b.handle b.index
       let free := { old with pins := old.pins - 1 }
       (b'.waiting ≠ [] → exec .targetAnswerArrival s = .next { s with pkg := { s.pkg with publishes := rest ++ [b'] } }) ∧
       (b'.waiting = [] → Runs .targetAnswerArrival s fun t =>
         DeviceFrame { s with pkg := { s.pkg with publishes := rest } } t ∧ t.pkg.publishes = rest ∧
         getVE t b.handle b.index = (if old.st = 3 ∧ old.pins ≤ 1 then {} else free) ∧
         (s.unwatched → b.cen = true → getCnt t b.cnt = getCnt s b.cnt + 1) ∧
         (s.memWf → s.unwatched → b.cen = false → ∀ ps, pieces s b.asid b.priv (b.list + 8) 8 .write = .ok ps →
           (∀ i k, i < 8 → k < 8 → pieceAt ps i = pieceAt ps k → i = k) → ∀ k, k < 8 →
             peek t (pieceAt ps k) = (leBytes 4 b'.published ++ leBytes 4 b'.refused).getD k 0))) ∧
     (∀ n, s.arg = .notice n → Runs .domainNotice s fun t => JobFrame s t ∧ tget none t.pkg.told n.dom = some (n.gen, n.live) ∧
       ∀ core e, let j := getJob s core e
         j.eng = 6 → j.armed = true → (core, e, j) ∈ liveJobs s → s.memWf → s.unwatched → nmGet s j 0 4 = 2 → nmGet s j 4 2 = n.dom →
         (∀ x ∈ liveJobs s, x.2.2.eng = 6 → (x.1 ≠ core ∨ x.2.1 ≠ e) → let k := getJob s x.1 x.2.1
           (nmGet s k 0 4 ≠ 2 ∨ nmGet s k 4 2 ≠ n.dom) ∧ (nmBase k + 128 ≤ nmBase j ∨ nmBase j + 128 ≤ nmBase k)) →
         let base := nmBase j
         let members := nmGet s j 8 8
         let share := nmGet s j 40 4
         let gone := n.leaves = true ∧ members.testBit n.member = true ∧ tget 0 j.acked n.member ≠ share
         let excused := nmGet s j 32 8 ||| (if n.leaves = true ∧ members.testBit n.member = true ∧ tget 0 j.acked n.member ≠ share then 2 ^ n.member else 0)
         peekN t (base + 6) 2 = n.gen % 2 ^ 16 ∧ peekN t (base + 32) 8 = excused ∧
         (gone → 0 < tget 0 j.acked n.member → peekN t (base + 24) 8 = nmGet s j 24 8 ||| 2 ^ n.member) ∧
         (∀ a, a < base ∨ base + 128 ≤ a → peek t a = peek s a) ∧
         ((∀ i, i < 64 → members.testBit i = true → tget 0 j.acked i = share ∨ excused.testBit i = true) →
           peekN t base 4 = 3 ∧ (getJob t core e).stopping = some 3) ∧
         ((∃ i, i < 64 ∧ members.testBit i = true ∧ tget 0 j.acked i ≠ share ∧ excused.testBit i = false) → peekN t base 4 = 2))) ∧
  (∀ (s : State) (d : Nat),
     let tells := fun (t : State) (P : Packet → Prop) => ∀ k ∈ peers s, ∃ q ∈ t.pkg.held, q.kind = 8 ∧ q.vc = 4 ∧ q.tgtPkg = k ∧ q.dom = d ∧ P q
     let waits := fun (tag : Nat) (r : TaskRec) => (∀ k x, getTask s k = some x → x.tag = k) ∧ getTask s tag = some r ∧ r.awaits = some d ∧ r.susp = 3 ∧ r.st = 3
     let goesOn := fun (t : State) (tag : Nat) (w : Word) => ∃ r, getTask t tag = some r ∧ r.st = 1 ∧ r.result = some w
     (∀ n, s.arg = .bar n → Runs .barrierNotice s (JobFrame s)) ∧
     (∀ x, fabricDom s d = some x → x.home = none →
       (∀ tag, s.arg = .bar (.join d tag) →
         (x.has tag = false → domFull x = false → Runs .barrierNotice s fun t =>
           (∃ y, getDom t d = some y ∧ y.members = x.members ++ [(freeIdx x, tag, false)] ∧ y.gen = (x.gen + 1) % 2 ^ 16) ∧
           tells t fun q => q.payload = barBytes (.joined d tag (freeIdx x) ((x.gen + 1) % 2 ^ 16))) ∧
         (x.has tag = true ∨ domFull x = true → Runs .barrierNotice s fun t => getDom t d = some x ∧
           tells t fun q => q.payload = barBytes (.denied d tag))) ∧
       (∀ tag asker, s.arg = .bar (.leave d tag asker) →
         let gen := (x.gen + 1) % 2 ^ 16
         let left := x.members.filter fun m => m.2.1 ≠ tag
         (x.has tag = true → Runs .barrierNotice s fun t =>
           (left = [] → x.asks = [] → getDom t d = none) ∧
           (left ≠ [] → ∃ y, getDom t d = some y ∧ y.members = left ∧ y.gen = gen ∧ tag ∉ y.arrived) ∧
           (∀ r, waits tag r → goesOn t tag (dbarWord true 0 gen x.phase.toNat)) ∧
           tells t fun q => q.payload = barBytes (.left d tag asker gen x.phase.toNat)) ∧
         (x.has tag = false → Runs .barrierNotice s fun t => getDom t d = some x ∧ tells t fun q => q.payload = barBytes (.denied d asker))) ∧
       (∀ tag, s.arg = .bar (.arrival d tag) → x.has tag = true → Runs .barrierNotice s fun t => (s.unwatched → t.pkg.tickWanted = true) ∧
         ∃ y, getDom t d = some y ∧
           let all := x.members.all fun m => (x.arrived ++ [tag]).contains m.2.1
           (all = false → y.phase = x.phase ∧ y.arrived.contains tag = true) ∧
           (all = true → y.phase = x.phase + 1 ∧ y.arrived = [] ∧ y.record = (x.phase.setWidth 64, x.gen, x.members.length, y.mask)))) ∧
     (∀ x home, fabricDom s d = some x → x.home = some home →
       let answered := fun (y : Domain) asker (r : Option Nat) =>
         y.asks = x.asks.map fun a => if a.1 = asker ∧ a.2 = none then (asker, some r) else a
       (∀ tag i g, s.arg = .bar (.joined d tag i g) → Runs .barrierNotice s fun t => ∃ y, getDom t d = some y ∧ y.gen = g ∧ answered y tag (some g) ∧
         y.members = if x.has tag then x.members else x.members ++ [(i, tag, false)]) ∧
       (∀ tag asker g ph, s.arg = .bar (.left d tag asker g ph) → Runs .barrierNotice s fun t =>
         let left := x.members.filter fun m => m.2.1 ≠ tag
         (left = [] → x.asks = [] → getDom t d = none) ∧
         (left ≠ [] → ∃ y, getDom t d = some y ∧ y.members = left ∧ y.gen = g ∧ tag ∉ y.arrived ∧ answered y asker (some g)) ∧
         ∀ r, waits tag r → goesOn t tag (dbarWord true 0 g ph)) ∧
       (∀ asker, s.arg = .bar (.denied d asker) → Runs .barrierNotice s fun t => ∃ y, getDom t d = some y ∧ answered y asker none ∧
         y.members = x.members) ∧
       (∀ phase gen count, s.arg = .bar (.completion d phase gen count) → x.phase.toNat = phase → Runs .barrierNotice s fun t =>
         (s.unwatched → t.pkg.tickWanted = true) ∧
         (∃ y, getDom t d = some y ∧ y.phase = BitVec.ofNat 32 (phase + 1) ∧ y.gen = gen ∧ y.arrived = [] ∧ y.members = x.members) ∧
         (∀ m ∈ x.members, x.arrived.contains m.2.1 = true → ∀ r, waits m.2.1 r →
           goesOn t m.2.1 (dbarWord false count gen phase))) ∧
       (∀ phase gen count, s.arg = .bar (.completion d phase gen count) → x.phase.toNat ≠ phase → Runs .barrierNotice s fun t =>
         getDom t d = some x)) ∧
     (∀ home asid phase gen ms, s.arg = .bar (.entry d home asid phase gen ms) → 0 < d → d < 1024 → getDom s d = none →
       Runs .barrierNotice s fun t => getDom t d = some
         { level := 4, home := some home, asid, phase := BitVec.ofNat 32 phase, gen := gen % 2 ^ 16,
           members := ms.map fun m => (m.1, m.2, false) }) ∧
     (∀ tag n c x, s.arg = .bar (.rdv d tag n c) → fabricDom s d = some x → Runs .barrierNotice s fun t =>
       getDom t d = some { x with rdv := tset 0 x.rdv (8 * tag + n % 8) (BitVec.ofNat 32 c) }) ∧
     (∀ tag, s.arg = .bar (.join d tag) → fabricDom s d = none → Runs .barrierNotice s fun t => t.pkg.domains = s.pkg.domains))

/-- R12, R348 to R350, R467, R478 to R480, R493 to R495: the switch, the lanes and the package. A quiesced fibre sends nothing more;
a confirmation moves the circuits it lists and the TG; corrected symbols count at once, and at its end a lane's window takes the
lane out or hands it back; a port comes up with four lanes; the noise source fails and restarts. A cold reset starts the package,
with memory and counters cleared (log entries 1 and 2); a warm one and the mailbox's keep the scores, the quarantine, the binding
and memory; a failed start is counted and has the effect of a warm reset (log entry 43), as has a boot that takes too long; the
third failure leaves minimal mode. The mailbox clears the count and attests. COMPLETE: ocsQuiesce, ocsConfirmation,
switchStaleAnswer, fecWindowEnd, uncorrectableFlit, portUp, entropyHealthFailure, noiseSourceRestart, coldReset, warmReset,
mailboxReset, bootTimeout, mailboxImage, mailboxAttestation. The findings of a start and of a defective half are inputs, and what
each reset keeps is the model's reading (log entries 18, 41, 43, 84). -/
def Obligations.LinkAndPackageEvents : Prop :=
  ∀ s : State,
    (∀ f, s.arg = .num f → Runs .ocsQuiesce s fun t => t.pkg.quiet.contains f = true ∧ (∀ g, g ≠ f → t.pkg.quiet.contains g = s.pkg.quiet.contains g) ∧
      t = { s with pkg := { s.pkg with quiet := t.pkg.quiet }, outbox := s.outbox ++ [.quiesced f] }) ∧
    (∀ tg cs, s.arg = .circuits tg cs → (cs.map (·.fibre)).Nodup → Runs .ocsConfirmation s fun t => JobFrame s t ∧ t.pkg.tg = tg ∧
      (∀ c ∈ cs, tget none t.pkg.circuit c.fibre = c.peer ∧ tget 0 t.pkg.fibgen c.fibre = tg ∧ t.pkg.quiet.contains c.fibre = false) ∧
      ∀ f, f ∉ cs.map (·.fibre) → tget none t.pkg.circuit f = tget none s.pkg.circuit f ∧ tget 0 t.pkg.fibgen f = tget 0 s.pkg.fibgen f) ∧
    (∀ stale v o, s.arg = .answer stale v → s.pkg.ocset = some o → o.answer = none → exec .switchStaleAnswer s = .next { s with
      pkg := { s.pkg with ocset := some { o with answer := some (stale, if stale then v else 1) }, quiet := if stale then s.pkg.quiet else [] } }) ∧
    (∀ f l n ends, s.arg = .lane f l n ends → f < 32 → l < 8 →
      let x := getLane s (8 * f + l)
      let out := s.pkg.laneLimit.toNat % 2 ^ 32
      let back := s.pkg.laneLimit.toNat / 2 ^ 32
      let m := x.win + n
      (ends = false → exec .fecWindowEnd s = .next (setLane s (8 * f + l) { x with corr := x.corr + n, win := m })) ∧
      (ends = true → Runs .fecWindowEnd s fun t =>
        let y := getLane t (8 * f + l)
        y.corr = x.corr + n ∧ y.preber = m ∧ y.win = 0 ∧ y.uncorr = x.uncorr ∧
        (x.out = false → m ≤ out → y.out = false ∧ y.removals = x.removals) ∧ (x.out = false → out < m → y.out = true ∧ y.removals = x.removals + 1) ∧
        (x.out = true → x.cut = false → m ≤ back → y.out = false) ∧ (x.out = true → x.cut = false → back < m → y.out = true) ∧
        (x.out = true → x.cut = true → y.out = true ∧ y.cut = false))) ∧
    (∀ f l flit vc, s.arg = .flit f l flit vc → f < 32 → l < 8 →
      let x := getLane s (8 * f + l)
      let n := (tget {} s.pkg.replay (32 * flit + f)).count
      Runs .uncorrectableFlit s fun t => (getLane t (8 * f + l)).uncorr = x.uncorr + 1 ∧
        (n < 8 → tget {} t.pkg.replay (32 * flit + f) = { flit, vc, count := n + 1 }) ∧ (8 ≤ n → t.pkg.portDown.contains f = true)) ∧
    (∀ f, s.arg = .num f → s.pkg.portDown.contains f = true → 4 ≤ inService s f → s.pkg.minimal = false → Runs .portUp s fun t =>
      t.pkg = { s.pkg with portDown := s.pkg.portDown.filter (· ≠ f) } ∧ t.t = s.t ∧ t.c = s.c) ∧
    exec .entropyHealthFailure s = .next { s with pkg := { s.pkg with noiseBad := true } } ∧
    exec .noiseSourceRestart s = .next { s with pkg := { s.pkg with noiseBad := false } } ∧
    (∀ b, s.arg = .boot b →
      let r := bootFault s.pkg.minSecver b
      let cold := fun t : State => (∀ a, peek t a = 0) ∧ t.pkg.score = [] ∧ t.pkg.quarantined = [] ∧
        ∀ d, d < 4 → (getDie t d).bindmap = testBind s.pkg.defective d
      let warm := fun t : State => SameBytes s t ∧ t.pkg.score = s.pkg.score ∧ t.pkg.quarantined = s.pkg.quarantined ∧ t.pkg.lanes = s.pkg.lanes ∧
        ∀ d, d < 4 → (getDie t d).bindmap = (getDie s d).bindmap
      let empty := fun t : State => t.t = {} ∧ t.c.busy = false ∧ t.pkg.counters = [] ∧ t.pkg.tasks = [] ∧ t.pkg.domains = [] ∧
        t.pkg.minSecver = s.pkg.minSecver ∧ t.pkg.noiseN = s.pkg.noiseN ∧ t.pkg.defective = s.pkg.defective
      let failed := fun (count reason : Nat) (t : State) => empty t ∧ t.pkg.bootReason = reason ∧ t.pkg.bootCount = Nat.min 3 (count + 1) ∧
        t.pkg.minimal = decide (2 ≤ count) ∧ t.pkg.hdm = []
      let started := fun t : State => empty t ∧ t.pkg.secver = b.secver ∧ t.pkg.ptbase = b.ptbase ∧ t.pkg.bootWatch = false ∧ t.pkg.minimal = false ∧
        (∀ k, k < 8 → tget 0 t.pkg.measure k = match b.digests[k]? with | some d => Sha.extend 0 d | none => 0) ∧ tget 3 (getDie t 0).tintmap 0 = 2
      (r ≠ 0 → Runs .coldReset s fun t => failed s.pkg.bootCount r t ∧ cold t) ∧
      (r = 0 → b.envelope = none → b.image = [] → Runs .coldReset s fun t => started t ∧ cold t) ∧
      (∀ i ∈ [Instr.warmReset, .mailboxReset],
        (3 ≤ s.pkg.bootCount → Runs i s fun t => empty t ∧ (s.memWf → warm t) ∧ t.pkg.minimal = true) ∧
        (s.pkg.bootCount < 3 → r ≠ 0 → Runs i s fun t => failed s.pkg.bootCount r t ∧ (s.memWf → warm t)) ∧
        (s.pkg.bootCount < 3 → r = 0 → b.envelope = none → b.image = [] → Runs i s fun t => started t ∧ (s.memWf → warm t))) ∧
      (s.pkg.bootWatch = true →
        (2 ≤ s.pkg.bootCount → Runs .bootTimeout s fun t => empty t ∧ t.pkg.minimal = true ∧ t.pkg.bootReason = 5) ∧
        (s.pkg.bootCount < 2 → r ≠ 0 → Runs .bootTimeout s fun t => failed (s.pkg.bootCount + 1) r t ∧ (s.memWf → warm t)) ∧
        (s.pkg.bootCount < 2 → r = 0 → b.envelope = none → b.image = [] → Runs .bootTimeout s fun t =>
          started t ∧ (s.memWf → warm t) ∧ t.pkg.bootReason = 5 ∧ t.pkg.bootCount = s.pkg.bootCount + 1))) ∧
    (∀ v, s.arg = .image true v → s.pkg.minimal = true → s.pkg.minSecver ≤ v → Runs .mailboxImage s fun t => ∃ outbox,
      t = { s with pkg := { s.pkg with bootCount := 0 }, outbox }) ∧
    (∀ nonce, s.arg = .num nonce → exec .mailboxAttestation s = .next { s with
      outbox := s.outbox ++ [.attestation nonce ((List.range 8).map fun k => tget 0 s.pkg.measure k) (bootstat s.pkg)] })
end

