-- ==== Sys2Proof/Laws/Table.lean ====
section
/-! SUPPORT. Laws of sparse tables: reading after writing, and the canonical form. -/

namespace Sys2Proof.Machine

variable {α : Type}

theorem tget_terase_same (d : α) (m : Tbl α) (k : Nat) : tget d (terase m k) k = d := by
  induction m with
  | nil => rfl
  | cons x rest ih =>
    obtain ⟨j, v⟩ := x
    by_cases h : j = k <;> simp [terase, tget, h, ih]

theorem tget_terase_other (d : α) (m : Tbl α) {j k : Nat} (h : j ≠ k) : tget d (terase m k) j = tget d m j := by
  induction m with
  | nil => rfl
  | cons x rest ih =>
    obtain ⟨i, v⟩ := x
    by_cases hi : i = k
    · simp [terase, tget, hi, ih, Ne.symm h]
    · simp [terase, tget, hi, ih]

theorem terase_no_key (m : Tbl α) (k : Nat) : ∀ e ∈ terase m k, e.1 ≠ k := by
  induction m with
  | nil => simp [terase]
  | cons x rest ih =>
    obtain ⟨j, v⟩ := x
    by_cases h : j = k
    · simpa [terase, h] using ih
    · simp only [terase, h, if_false, List.mem_cons, forall_eq_or_imp]
      exact ⟨h, ih⟩

theorem tget_tinsert_same (d : α) (m : Tbl α) (k : Nat) (v : α) (h : ∀ e ∈ m, e.1 ≠ k) : tget d (tinsert m k v) k = v := by
  induction m with
  | nil => simp [tinsert, tget]
  | cons x rest ih =>
    obtain ⟨j, w⟩ := x
    simp only [List.mem_cons, forall_eq_or_imp] at h
    by_cases hk : k < j
    · simp [tinsert, tget, hk]
    · simp [tinsert, tget, hk, h.1, ih h.2]

theorem tget_tinsert_other (d : α) (m : Tbl α) {j k : Nat} (v : α) (h : j ≠ k) : tget d (tinsert m k v) j = tget d m j := by
  induction m with
  | nil => simp [tinsert, tget, Ne.symm h]
  | cons x rest ih =>
    obtain ⟨i, w⟩ := x
    by_cases hk : k < i
    · simp [tinsert, tget, hk, Ne.symm h]
    · simp [tinsert, tget, hk, ih]

/-- What was written is read. -/
@[simp] theorem tget_tset_same [DecidableEq α] (d : α) (m : Tbl α) (k : Nat) (v : α) : tget d (tset d m k v) k = v := by
  unfold tset
  split
  · next h => rw [h]; exact tget_terase_same d m k
  · exact tget_tinsert_same d _ k v (terase_no_key m k)

/-- Every other entry is as before. -/
theorem tget_tset_other [DecidableEq α] (d : α) (m : Tbl α) {j k : Nat} (v : α) (h : j ≠ k) :
    tget d (tset d m k v) j = tget d m j := by
  unfold tset
  split
  · exact tget_terase_other d m h
  · rw [tget_tinsert_other d _ v h, tget_terase_other d m h]

/-- A read after a write, either way. -/
theorem tget_tset [DecidableEq α] (d : α) (m : Tbl α) (j k : Nat) (v : α) :
    tget d (tset d m k v) j = if j = k then v else tget d m j := by
  by_cases h : j = k
  · subst h; simp
  · simp [h, tget_tset_other d m v h]

/-! ## The canonical form -/

theorem twf_cons [DecidableEq α] (d : α) (k : Nat) (v : α) (rest : Tbl α) :
    twf d ((k, v) :: rest) = true ↔ v ≠ d ∧ (∀ e ∈ rest, k < e.1) ∧ twf d rest = true := by
  simp [twf, and_assoc]

theorem terase_sub (m : Tbl α) (k : Nat) : ∀ e ∈ terase m k, e ∈ m := by
  induction m with
  | nil => simp [terase]
  | cons x rest ih =>
    obtain ⟨j, v⟩ := x
    intro e he
    by_cases h : j = k
    · simp only [terase, h, if_true] at he
      exact List.mem_cons_of_mem _ (ih e he)
    · simp only [terase, h, if_false, List.mem_cons] at he
      rcases he with he | he
      · exact he ▸ List.mem_cons_self
      · exact List.mem_cons_of_mem _ (ih e he)

theorem twf_terase [DecidableEq α] (d : α) (m : Tbl α) (k : Nat) (h : twf d m = true) : twf d (terase m k) = true := by
  induction m with
  | nil => rfl
  | cons x rest ih =>
    obtain ⟨j, v⟩ := x
    rw [twf_cons] at h
    by_cases hj : j = k
    · simpa [terase, hj] using ih h.2.2
    · simp only [terase, hj, if_false]
      rw [twf_cons]
      exact ⟨h.1, fun e he => h.2.1 e (terase_sub rest k e he), ih h.2.2⟩

theorem tinsert_mem (m : Tbl α) (k : Nat) (v : α) : ∀ e ∈ tinsert m k v, e = (k, v) ∨ e ∈ m := by
  induction m with
  | nil => simp [tinsert]
  | cons x rest ih =>
    obtain ⟨j, w⟩ := x
    intro e he
    by_cases hk : k < j
    · simp only [tinsert, hk, if_true, List.mem_cons] at he
      simpa using he
    · simp only [tinsert, hk, if_false, List.mem_cons] at he
      rcases he with he | he
      · simp [he]
      · rcases ih e he with h | h
        · exact .inl h
        · exact .inr (List.mem_cons_of_mem _ h)

theorem twf_tinsert [DecidableEq α] (d : α) (m : Tbl α) (k : Nat) (v : α) (hv : v ≠ d) (hk : ∀ e ∈ m, e.1 ≠ k)
    (h : twf d m = true) : twf d (tinsert m k v) = true := by
  induction m with
  | nil => simp [tinsert, twf, hv]
  | cons x rest ih =>
    obtain ⟨j, w⟩ := x
    rw [twf_cons] at h
    simp only [List.mem_cons, forall_eq_or_imp] at hk
    by_cases hlt : k < j
    · simp only [tinsert, hlt, if_true]
      rw [twf_cons, twf_cons]
      refine ⟨hv, ?_, h⟩
      intro e he
      rcases List.mem_cons.1 he with he | he
      · simpa [he] using hlt
      · exact Nat.lt_trans hlt (h.2.1 e he)
    · simp only [tinsert, hlt, if_false]
      rw [twf_cons]
      refine ⟨h.1, ?_, ih hk.2 h.2.2⟩
      intro e he
      rcases tinsert_mem rest k v e he with he | he
      · have := hk.1; simp only [he]; omega
      · exact h.2.1 e he

/-- A write keeps the canonical form. -/
theorem twf_tset [DecidableEq α] (d : α) (m : Tbl α) (k : Nat) (v : α) (h : twf d m = true) : twf d (tset d m k v) = true := by
  unfold tset
  split
  · exact twf_terase d m k h
  · next hv => exact twf_tinsert d _ k v hv (terase_no_key m k) (twf_terase d m k h)

/-- Leaving entries out keeps the canonical form. -/
theorem twf_filter [DecidableEq α] (d : α) (m : Tbl α) (p : Nat × α → Bool) (h : twf d m = true) :
    twf d (m.filter p) = true := by
  induction m with
  | nil => rfl
  | cons x rest ih =>
    obtain ⟨k, v⟩ := x
    rw [twf_cons] at h
    by_cases hp : p (k, v)
    · rw [List.filter_cons_of_pos hp, twf_cons]
      exact ⟨h.1, fun e he => h.2.1 e (List.mem_filter.1 he).1, ih h.2.2⟩
    · rw [List.filter_cons_of_neg hp]; exact ih h.2.2

theorem twf_tclear [DecidableEq α] (d : α) (m : Tbl α) (lo n : Nat) (h : twf d m = true) : twf d (tclear m lo n) = true :=
  twf_filter d m _ h

/-- A run of writes keeps the canonical form. -/
theorem twf_tputs [DecidableEq α] (d : α) (vs : List (Nat × α)) (m : Tbl α) (h : twf d m = true) : twf d (tputs d m vs) = true := by
  unfold tputs
  induction vs generalizing m with
  | nil => exact h
  | cons x rest ih => exact ih _ (twf_tset d m _ _ h)

/-- Writes chosen by a list keep the canonical form. -/
theorem twf_foldl {β : Type} [DecidableEq α] (d : α) (f : Tbl α → β → Tbl α) (hf : ∀ m x, twf d m = true → twf d (f m x) = true)
    (xs : List β) (m : Tbl α) (h : twf d m = true) : twf d (xs.foldl f m) = true := by
  induction xs generalizing m with
  | nil => exact h
  | cons x rest ih => exact ih _ (hf m x h)

/-- Two canonical tables that read alike are the same list. -/
theorem twf_ext [DecidableEq α] (d : α) (m n : Tbl α) (hm : twf d m = true) (hn : twf d n = true)
    (h : ∀ k, tget d m k = tget d n k) : m = n := by
  have low : ∀ (x : Tbl α) (k : Nat), (∀ e ∈ x, k < e.1) → tget d x k = d := by
    intro x k
    induction x with
    | nil => simp [tget]
    | cons e rest ih =>
      obtain ⟨j, v⟩ := e
      intro hx
      simp only [List.mem_cons, forall_eq_or_imp] at hx
      have : j ≠ k := by omega
      simp [tget, this, ih hx.2]
  induction m generalizing n with
  | nil =>
    cases n with
    | nil => rfl
    | cons e rest =>
      obtain ⟨j, v⟩ := e
      rw [twf_cons] at hn
      have := h j
      simp [tget] at this
      exact absurd this.symm hn.1
  | cons e rest ih =>
    obtain ⟨j, v⟩ := e
    rw [twf_cons] at hm
    cases n with
    | nil =>
      have := h j
      simp [tget] at this
      exact absurd this hm.1
    | cons e' rest' =>
      obtain ⟨j', v'⟩ := e'
      rw [twf_cons] at hn
      rcases Nat.lt_trichotomy j j' with hlt | heq | hgt
      · have hj := h j
        have hne : j' ≠ j := by omega
        rw [show tget d ((j, v) :: rest) j = v by simp [tget]] at hj
        rw [low ((j', v') :: rest') j (by
          intro e he
          rcases List.mem_cons.1 he with he | he
          · simpa [he] using hlt
          · exact Nat.lt_trans hlt (hn.2.1 e he))] at hj
        exact absurd hj hm.1
      · subst heq
        have hj := h j
        simp [tget] at hj
        subst hj
        refine congrArg _ (ih rest' hm.2.2 hn.2.2 ?_)
        intro k
        by_cases hk : j = k
        · subst hk
          rw [low rest j hm.2.1, low rest' j hn.2.1]
        · have := h k
          simpa [tget, hk] using this
      · have hj := h j'
        rw [show tget d ((j', v') :: rest') j' = v' by simp [tget]] at hj
        rw [low ((j, v) :: rest) j' (by
          intro e he
          rcases List.mem_cons.1 he with he | he
          · simpa [he] using hgt
          · exact Nat.lt_trans hgt (hm.2.1 e he))] at hj
        exact absurd hj.symm hn.1

end Sys2Proof.Machine
end

