-- ==== Sys2Proof/Laws/State.lean ====
section
/-! SUPPORT. What each update of the state leaves in each field, one lemma per field per update, so that no proof unfolds a record
update. -/

namespace Sys2Proof.Machine


/-! `onPkg` -/
@[simp] theorem onPkg_cur (s : State) (f : Pkg → Pkg) : (onPkg s f).cur = s.cur := rfl
@[simp] theorem onPkg_t (s : State) (f : Pkg → Pkg) : (onPkg s f).t = s.t := rfl
@[simp] theorem onPkg_c (s : State) (f : Pkg → Pkg) : (onPkg s f).c = s.c := rfl
@[simp] theorem onPkg_others (s : State) (f : Pkg → Pkg) : (onPkg s f).others = s.others := rfl
@[simp] theorem onPkg_dies (s : State) (f : Pkg → Pkg) : (onPkg s f).dies = s.dies := rfl
@[simp] theorem onPkg_pkg (s : State) (f : Pkg → Pkg) : (onPkg s f).pkg = f s.pkg := rfl
@[simp] theorem onPkg_turns (s : State) (f : Pkg → Pkg) : (onPkg s f).turns = s.turns := rfl
@[simp] theorem onPkg_arg (s : State) (f : Pkg → Pkg) : (onPkg s f).arg = s.arg := rfl
@[simp] theorem onPkg_outbox (s : State) (f : Pkg → Pkg) : (onPkg s f).outbox = s.outbox := rfl
@[simp] theorem onPkg_upsets (s : State) (f : Pkg → Pkg) : (onPkg s f).upsets = s.upsets := rfl
@[simp] theorem onPkg_free (s : State) (f : Pkg → Pkg) : (onPkg s f).free = s.free := rfl

/-! `onT` -/
@[simp] theorem onT_cur (s : State) (f : Task → Task) : (onT s f).cur = s.cur := rfl
@[simp] theorem onT_t (s : State) (f : Task → Task) : (onT s f).t = f s.t := rfl
@[simp] theorem onT_c (s : State) (f : Task → Task) : (onT s f).c = s.c := rfl
@[simp] theorem onT_others (s : State) (f : Task → Task) : (onT s f).others = s.others := rfl
@[simp] theorem onT_dies (s : State) (f : Task → Task) : (onT s f).dies = s.dies := rfl
@[simp] theorem onT_pkg (s : State) (f : Task → Task) : (onT s f).pkg = s.pkg := rfl
@[simp] theorem onT_turns (s : State) (f : Task → Task) : (onT s f).turns = s.turns := rfl
@[simp] theorem onT_arg (s : State) (f : Task → Task) : (onT s f).arg = s.arg := rfl
@[simp] theorem onT_outbox (s : State) (f : Task → Task) : (onT s f).outbox = s.outbox := rfl
@[simp] theorem onT_upsets (s : State) (f : Task → Task) : (onT s f).upsets = s.upsets := rfl
@[simp] theorem onT_free (s : State) (f : Task → Task) : (onT s f).free = s.free := rfl

/-! `onC` -/
@[simp] theorem onC_cur (s : State) (f : CoreHw → CoreHw) : (onC s f).cur = s.cur := rfl
@[simp] theorem onC_t (s : State) (f : CoreHw → CoreHw) : (onC s f).t = s.t := rfl
@[simp] theorem onC_c (s : State) (f : CoreHw → CoreHw) : (onC s f).c = f s.c := rfl
@[simp] theorem onC_others (s : State) (f : CoreHw → CoreHw) : (onC s f).others = s.others := rfl
@[simp] theorem onC_dies (s : State) (f : CoreHw → CoreHw) : (onC s f).dies = s.dies := rfl
@[simp] theorem onC_pkg (s : State) (f : CoreHw → CoreHw) : (onC s f).pkg = s.pkg := rfl
@[simp] theorem onC_turns (s : State) (f : CoreHw → CoreHw) : (onC s f).turns = s.turns := rfl
@[simp] theorem onC_arg (s : State) (f : CoreHw → CoreHw) : (onC s f).arg = s.arg := rfl
@[simp] theorem onC_outbox (s : State) (f : CoreHw → CoreHw) : (onC s f).outbox = s.outbox := rfl
@[simp] theorem onC_upsets (s : State) (f : CoreHw → CoreHw) : (onC s f).upsets = s.upsets := rfl
@[simp] theorem onC_free (s : State) (f : CoreHw → CoreHw) : (onC s f).free = s.free := rfl

/-! `onSlots` -/
@[simp] theorem onSlots_cur (s : State) (f : Slots → Slots) : (onSlots s f).cur = s.cur := rfl
@[simp] theorem onSlots_t (s : State) (f : Slots → Slots) : (onSlots s f).t = { s.t with slots := f s.t.slots } := rfl
@[simp] theorem onSlots_c (s : State) (f : Slots → Slots) : (onSlots s f).c = s.c := rfl
@[simp] theorem onSlots_others (s : State) (f : Slots → Slots) : (onSlots s f).others = s.others := rfl
@[simp] theorem onSlots_dies (s : State) (f : Slots → Slots) : (onSlots s f).dies = s.dies := rfl
@[simp] theorem onSlots_pkg (s : State) (f : Slots → Slots) : (onSlots s f).pkg = s.pkg := rfl
@[simp] theorem onSlots_turns (s : State) (f : Slots → Slots) : (onSlots s f).turns = s.turns := rfl
@[simp] theorem onSlots_arg (s : State) (f : Slots → Slots) : (onSlots s f).arg = s.arg := rfl
@[simp] theorem onSlots_outbox (s : State) (f : Slots → Slots) : (onSlots s f).outbox = s.outbox := rfl
@[simp] theorem onSlots_upsets (s : State) (f : Slots → Slots) : (onSlots s f).upsets = s.upsets := rfl
@[simp] theorem onSlots_free (s : State) (f : Slots → Slots) : (onSlots s f).free = s.free := rfl

/-! `onMat` -/
@[simp] theorem onMat_cur (s : State) (f : Mat → Mat) : (onMat s f).cur = s.cur := rfl
@[simp] theorem onMat_t (s : State) (f : Mat → Mat) : (onMat s f).t = { s.t with mat := f s.t.mat } := rfl
@[simp] theorem onMat_c (s : State) (f : Mat → Mat) : (onMat s f).c = s.c := rfl
@[simp] theorem onMat_others (s : State) (f : Mat → Mat) : (onMat s f).others = s.others := rfl
@[simp] theorem onMat_dies (s : State) (f : Mat → Mat) : (onMat s f).dies = s.dies := rfl
@[simp] theorem onMat_pkg (s : State) (f : Mat → Mat) : (onMat s f).pkg = s.pkg := rfl
@[simp] theorem onMat_turns (s : State) (f : Mat → Mat) : (onMat s f).turns = s.turns := rfl
@[simp] theorem onMat_arg (s : State) (f : Mat → Mat) : (onMat s f).arg = s.arg := rfl
@[simp] theorem onMat_outbox (s : State) (f : Mat → Mat) : (onMat s f).outbox = s.outbox := rfl
@[simp] theorem onMat_upsets (s : State) (f : Mat → Mat) : (onMat s f).upsets = s.upsets := rfl
@[simp] theorem onMat_free (s : State) (f : Mat → Mat) : (onMat s f).free = s.free := rfl

/-! `onSpec` -/
@[simp] theorem onSpec_cur (s : State) (f : Spec → Spec) : (onSpec s f).cur = s.cur := rfl
@[simp] theorem onSpec_t (s : State) (f : Spec → Spec) : (onSpec s f).t = { s.t with spec := f s.t.spec } := rfl
@[simp] theorem onSpec_c (s : State) (f : Spec → Spec) : (onSpec s f).c = s.c := rfl
@[simp] theorem onSpec_others (s : State) (f : Spec → Spec) : (onSpec s f).others = s.others := rfl
@[simp] theorem onSpec_dies (s : State) (f : Spec → Spec) : (onSpec s f).dies = s.dies := rfl
@[simp] theorem onSpec_pkg (s : State) (f : Spec → Spec) : (onSpec s f).pkg = s.pkg := rfl
@[simp] theorem onSpec_turns (s : State) (f : Spec → Spec) : (onSpec s f).turns = s.turns := rfl
@[simp] theorem onSpec_arg (s : State) (f : Spec → Spec) : (onSpec s f).arg = s.arg := rfl
@[simp] theorem onSpec_outbox (s : State) (f : Spec → Spec) : (onSpec s f).outbox = s.outbox := rfl
@[simp] theorem onSpec_upsets (s : State) (f : Spec → Spec) : (onSpec s f).upsets = s.upsets := rfl
@[simp] theorem onSpec_free (s : State) (f : Spec → Spec) : (onSpec s f).free = s.free := rfl

/-! `onRegs` -/
@[simp] theorem onRegs_cur (s : State) (f : TaskRegs → TaskRegs) : (onRegs s f).cur = s.cur := rfl
@[simp] theorem onRegs_t (s : State) (f : TaskRegs → TaskRegs) : (onRegs s f).t = { s.t with regs := f s.t.regs } := rfl
@[simp] theorem onRegs_c (s : State) (f : TaskRegs → TaskRegs) : (onRegs s f).c = s.c := rfl
@[simp] theorem onRegs_others (s : State) (f : TaskRegs → TaskRegs) : (onRegs s f).others = s.others := rfl
@[simp] theorem onRegs_dies (s : State) (f : TaskRegs → TaskRegs) : (onRegs s f).dies = s.dies := rfl
@[simp] theorem onRegs_pkg (s : State) (f : TaskRegs → TaskRegs) : (onRegs s f).pkg = s.pkg := rfl
@[simp] theorem onRegs_turns (s : State) (f : TaskRegs → TaskRegs) : (onRegs s f).turns = s.turns := rfl
@[simp] theorem onRegs_arg (s : State) (f : TaskRegs → TaskRegs) : (onRegs s f).arg = s.arg := rfl
@[simp] theorem onRegs_outbox (s : State) (f : TaskRegs → TaskRegs) : (onRegs s f).outbox = s.outbox := rfl
@[simp] theorem onRegs_upsets (s : State) (f : TaskRegs → TaskRegs) : (onRegs s f).upsets = s.upsets := rfl
@[simp] theorem onRegs_free (s : State) (f : TaskRegs → TaskRegs) : (onRegs s f).free = s.free := rfl

/-! `onMe` -/
@[simp] theorem onMe_cur (s : State) (f : TaskRec → TaskRec) : (onMe s f).cur = s.cur := rfl
@[simp] theorem onMe_t (s : State) (f : TaskRec → TaskRec) : (onMe s f).t = { s.t with me := f s.t.me } := rfl
@[simp] theorem onMe_c (s : State) (f : TaskRec → TaskRec) : (onMe s f).c = s.c := rfl
@[simp] theorem onMe_others (s : State) (f : TaskRec → TaskRec) : (onMe s f).others = s.others := rfl
@[simp] theorem onMe_dies (s : State) (f : TaskRec → TaskRec) : (onMe s f).dies = s.dies := rfl
@[simp] theorem onMe_pkg (s : State) (f : TaskRec → TaskRec) : (onMe s f).pkg = s.pkg := rfl
@[simp] theorem onMe_turns (s : State) (f : TaskRec → TaskRec) : (onMe s f).turns = s.turns := rfl
@[simp] theorem onMe_arg (s : State) (f : TaskRec → TaskRec) : (onMe s f).arg = s.arg := rfl
@[simp] theorem onMe_outbox (s : State) (f : TaskRec → TaskRec) : (onMe s f).outbox = s.outbox := rfl
@[simp] theorem onMe_upsets (s : State) (f : TaskRec → TaskRec) : (onMe s f).upsets = s.upsets := rfl
@[simp] theorem onMe_free (s : State) (f : TaskRec → TaskRec) : (onMe s f).free = s.free := rfl

/-! `setDie` -/
@[simp] theorem setDie_cur (s : State) (d : Nat) (x : Die) : (setDie s d x).cur = s.cur := rfl
@[simp] theorem setDie_t (s : State) (d : Nat) (x : Die) : (setDie s d x).t = s.t := rfl
@[simp] theorem setDie_c (s : State) (d : Nat) (x : Die) : (setDie s d x).c = s.c := rfl
@[simp] theorem setDie_others (s : State) (d : Nat) (x : Die) : (setDie s d x).others = s.others := rfl
@[simp] theorem setDie_dies (s : State) (d : Nat) (x : Die) : (setDie s d x).dies = tset {} s.dies d x := rfl
@[simp] theorem setDie_pkg (s : State) (d : Nat) (x : Die) : (setDie s d x).pkg = s.pkg := rfl
@[simp] theorem setDie_turns (s : State) (d : Nat) (x : Die) : (setDie s d x).turns = s.turns := rfl
@[simp] theorem setDie_arg (s : State) (d : Nat) (x : Die) : (setDie s d x).arg = s.arg := rfl
@[simp] theorem setDie_outbox (s : State) (d : Nat) (x : Die) : (setDie s d x).outbox = s.outbox := rfl
@[simp] theorem setDie_upsets (s : State) (d : Nat) (x : Die) : (setDie s d x).upsets = s.upsets := rfl
@[simp] theorem setDie_free (s : State) (d : Nat) (x : Die) : (setDie s d x).free = s.free := rfl

/-! `onDie` -/
@[simp] theorem onDie_cur (s : State) (d : Nat) (f : Die → Die) : (onDie s d f).cur = s.cur := rfl
@[simp] theorem onDie_t (s : State) (d : Nat) (f : Die → Die) : (onDie s d f).t = s.t := rfl
@[simp] theorem onDie_c (s : State) (d : Nat) (f : Die → Die) : (onDie s d f).c = s.c := rfl
@[simp] theorem onDie_others (s : State) (d : Nat) (f : Die → Die) : (onDie s d f).others = s.others := rfl
@[simp] theorem onDie_dies (s : State) (d : Nat) (f : Die → Die) : (onDie s d f).dies = tset {} s.dies d (f (getDie s d)) := rfl
@[simp] theorem onDie_pkg (s : State) (d : Nat) (f : Die → Die) : (onDie s d f).pkg = s.pkg := rfl
@[simp] theorem onDie_turns (s : State) (d : Nat) (f : Die → Die) : (onDie s d f).turns = s.turns := rfl
@[simp] theorem onDie_arg (s : State) (d : Nat) (f : Die → Die) : (onDie s d f).arg = s.arg := rfl
@[simp] theorem onDie_outbox (s : State) (d : Nat) (f : Die → Die) : (onDie s d f).outbox = s.outbox := rfl
@[simp] theorem onDie_upsets (s : State) (d : Nat) (f : Die → Die) : (onDie s d f).upsets = s.upsets := rfl
@[simp] theorem onDie_free (s : State) (d : Nat) (f : Die → Die) : (onDie s d f).free = s.free := rfl

/-! `emit` -/
@[simp] theorem emit_cur (s : State) (o : Out) : (emit s o).cur = s.cur := rfl
@[simp] theorem emit_t (s : State) (o : Out) : (emit s o).t = s.t := rfl
@[simp] theorem emit_c (s : State) (o : Out) : (emit s o).c = s.c := rfl
@[simp] theorem emit_others (s : State) (o : Out) : (emit s o).others = s.others := rfl
@[simp] theorem emit_dies (s : State) (o : Out) : (emit s o).dies = s.dies := rfl
@[simp] theorem emit_pkg (s : State) (o : Out) : (emit s o).pkg = s.pkg := rfl
@[simp] theorem emit_turns (s : State) (o : Out) : (emit s o).turns = s.turns := rfl
@[simp] theorem emit_arg (s : State) (o : Out) : (emit s o).arg = s.arg := rfl
@[simp] theorem emit_outbox (s : State) (o : Out) : (emit s o).outbox = s.outbox ++ [o] := rfl
@[simp] theorem emit_upsets (s : State) (o : Out) : (emit s o).upsets = s.upsets := rfl
@[simp] theorem emit_free (s : State) (o : Out) : (emit s o).free = s.free := rfl

/-! `bumpFree` -/
@[simp] theorem bumpFree_cur (s : State) : (bumpFree s).cur = s.cur := rfl
@[simp] theorem bumpFree_t (s : State) : (bumpFree s).t = s.t := rfl
@[simp] theorem bumpFree_c (s : State) : (bumpFree s).c = s.c := rfl
@[simp] theorem bumpFree_others (s : State) : (bumpFree s).others = s.others := rfl
@[simp] theorem bumpFree_dies (s : State) : (bumpFree s).dies = s.dies := rfl
@[simp] theorem bumpFree_pkg (s : State) : (bumpFree s).pkg = s.pkg := rfl
@[simp] theorem bumpFree_turns (s : State) : (bumpFree s).turns = s.turns := rfl
@[simp] theorem bumpFree_arg (s : State) : (bumpFree s).arg = s.arg := rfl
@[simp] theorem bumpFree_outbox (s : State) : (bumpFree s).outbox = s.outbox := rfl
@[simp] theorem bumpFree_upsets (s : State) : (bumpFree s).upsets = s.upsets := rfl
@[simp] theorem bumpFree_free (s : State) : (bumpFree s).free = s.free + 1 := rfl

/-! `setB` -/
@[simp] theorem setB_cur (s : State) (n : Nat) (v : Word) : (setB s n v).cur = s.cur := rfl
@[simp] theorem setB_t (s : State) (n : Nat) (v : Word) : (setB s n v).t = { s.t with b := tset 0 s.t.b n v, poison := s.t.poison.filter (· ≠ 64 + n) } := rfl
@[simp] theorem setB_c (s : State) (n : Nat) (v : Word) : (setB s n v).c = s.c := rfl
@[simp] theorem setB_others (s : State) (n : Nat) (v : Word) : (setB s n v).others = s.others := rfl
@[simp] theorem setB_dies (s : State) (n : Nat) (v : Word) : (setB s n v).dies = s.dies := rfl
@[simp] theorem setB_pkg (s : State) (n : Nat) (v : Word) : (setB s n v).pkg = s.pkg := rfl
@[simp] theorem setB_turns (s : State) (n : Nat) (v : Word) : (setB s n v).turns = s.turns := rfl
@[simp] theorem setB_arg (s : State) (n : Nat) (v : Word) : (setB s n v).arg = s.arg := rfl
@[simp] theorem setB_outbox (s : State) (n : Nat) (v : Word) : (setB s n v).outbox = s.outbox := rfl
@[simp] theorem setB_upsets (s : State) (n : Nat) (v : Word) : (setB s n v).upsets = s.upsets := rfl
@[simp] theorem setB_free (s : State) (n : Nat) (v : Word) : (setB s n v).free = s.free := rfl

/-! `setLc` -/
@[simp] theorem setLc_cur (s : State) (n : Nat) (v : BitVec 32) : (setLc s n v).cur = s.cur := rfl
@[simp] theorem setLc_t (s : State) (n : Nat) (v : BitVec 32) : (setLc s n v).t = { s.t with lc := tset 0 s.t.lc n v } := rfl
@[simp] theorem setLc_c (s : State) (n : Nat) (v : BitVec 32) : (setLc s n v).c = s.c := rfl
@[simp] theorem setLc_others (s : State) (n : Nat) (v : BitVec 32) : (setLc s n v).others = s.others := rfl
@[simp] theorem setLc_dies (s : State) (n : Nat) (v : BitVec 32) : (setLc s n v).dies = s.dies := rfl
@[simp] theorem setLc_pkg (s : State) (n : Nat) (v : BitVec 32) : (setLc s n v).pkg = s.pkg := rfl
@[simp] theorem setLc_turns (s : State) (n : Nat) (v : BitVec 32) : (setLc s n v).turns = s.turns := rfl
@[simp] theorem setLc_arg (s : State) (n : Nat) (v : BitVec 32) : (setLc s n v).arg = s.arg := rfl
@[simp] theorem setLc_outbox (s : State) (n : Nat) (v : BitVec 32) : (setLc s n v).outbox = s.outbox := rfl
@[simp] theorem setLc_upsets (s : State) (n : Nat) (v : BitVec 32) : (setLc s n v).upsets = s.upsets := rfl
@[simp] theorem setLc_free (s : State) (n : Nat) (v : BitVec 32) : (setLc s n v).free = s.free := rfl

/-! `orSts` -/
@[simp] theorem orSts_cur (s : State) (m : Word) : (orSts s m).cur = s.cur := rfl
@[simp] theorem orSts_t (s : State) (m : Word) : (orSts s m).t = { s.t with sts := s.t.sts ||| m } := rfl
@[simp] theorem orSts_c (s : State) (m : Word) : (orSts s m).c = s.c := rfl
@[simp] theorem orSts_others (s : State) (m : Word) : (orSts s m).others = s.others := rfl
@[simp] theorem orSts_dies (s : State) (m : Word) : (orSts s m).dies = s.dies := rfl
@[simp] theorem orSts_pkg (s : State) (m : Word) : (orSts s m).pkg = s.pkg := rfl
@[simp] theorem orSts_turns (s : State) (m : Word) : (orSts s m).turns = s.turns := rfl
@[simp] theorem orSts_arg (s : State) (m : Word) : (orSts s m).arg = s.arg := rfl
@[simp] theorem orSts_outbox (s : State) (m : Word) : (orSts s m).outbox = s.outbox := rfl
@[simp] theorem orSts_upsets (s : State) (m : Word) : (orSts s m).upsets = s.upsets := rfl
@[simp] theorem orSts_free (s : State) (m : Word) : (orSts s m).free = s.free := rfl

/-! `setFlag` -/
@[simp] theorem setFlag_cur (s : State) (k : Nat) : (setFlag s k).cur = s.cur := rfl
@[simp] theorem setFlag_t (s : State) (k : Nat) : (setFlag s k).t = { s.t with sts := s.t.sts ||| BitVec.ofNat 64 (2 ^ k) } := rfl
@[simp] theorem setFlag_c (s : State) (k : Nat) : (setFlag s k).c = s.c := rfl
@[simp] theorem setFlag_others (s : State) (k : Nat) : (setFlag s k).others = s.others := rfl
@[simp] theorem setFlag_dies (s : State) (k : Nat) : (setFlag s k).dies = s.dies := rfl
@[simp] theorem setFlag_pkg (s : State) (k : Nat) : (setFlag s k).pkg = s.pkg := rfl
@[simp] theorem setFlag_turns (s : State) (k : Nat) : (setFlag s k).turns = s.turns := rfl
@[simp] theorem setFlag_arg (s : State) (k : Nat) : (setFlag s k).arg = s.arg := rfl
@[simp] theorem setFlag_outbox (s : State) (k : Nat) : (setFlag s k).outbox = s.outbox := rfl
@[simp] theorem setFlag_upsets (s : State) (k : Nat) : (setFlag s k).upsets = s.upsets := rfl
@[simp] theorem setFlag_free (s : State) (k : Nat) : (setFlag s k).free = s.free := rfl

/-! `setCnt` -/
@[simp] theorem setCnt_cur (s : State) (n : Nat) (v : BitVec 32) : (setCnt s n v).cur = s.cur := rfl
@[simp] theorem setCnt_t (s : State) (n : Nat) (v : BitVec 32) : (setCnt s n v).t = s.t := rfl
@[simp] theorem setCnt_c (s : State) (n : Nat) (v : BitVec 32) : (setCnt s n v).c = s.c := rfl
@[simp] theorem setCnt_others (s : State) (n : Nat) (v : BitVec 32) : (setCnt s n v).others = s.others := rfl
@[simp] theorem setCnt_dies (s : State) (n : Nat) (v : BitVec 32) : (setCnt s n v).dies = s.dies := rfl
@[simp] theorem setCnt_pkg (s : State) (n : Nat) (v : BitVec 32) : (setCnt s n v).pkg = { s.pkg with counters := tset 0 s.pkg.counters n v } := rfl
@[simp] theorem setCnt_turns (s : State) (n : Nat) (v : BitVec 32) : (setCnt s n v).turns = s.turns := rfl
@[simp] theorem setCnt_arg (s : State) (n : Nat) (v : BitVec 32) : (setCnt s n v).arg = s.arg := rfl
@[simp] theorem setCnt_outbox (s : State) (n : Nat) (v : BitVec 32) : (setCnt s n v).outbox = s.outbox := rfl
@[simp] theorem setCnt_upsets (s : State) (n : Nat) (v : BitVec 32) : (setCnt s n v).upsets = s.upsets := rfl
@[simp] theorem setCnt_free (s : State) (n : Nat) (v : BitVec 32) : (setCnt s n v).free = s.free := rfl

/-! `setTask` -/
@[simp] theorem setTask_cur (s : State) (n : Nat) (r : Option TaskRec) : (setTask s n r).cur = s.cur := rfl
@[simp] theorem setTask_t (s : State) (n : Nat) (r : Option TaskRec) : (setTask s n r).t = s.t := rfl
@[simp] theorem setTask_c (s : State) (n : Nat) (r : Option TaskRec) : (setTask s n r).c = s.c := rfl
@[simp] theorem setTask_others (s : State) (n : Nat) (r : Option TaskRec) : (setTask s n r).others = s.others := rfl
@[simp] theorem setTask_dies (s : State) (n : Nat) (r : Option TaskRec) : (setTask s n r).dies = s.dies := rfl
@[simp] theorem setTask_pkg (s : State) (n : Nat) (r : Option TaskRec) : (setTask s n r).pkg = { s.pkg with tasks := tset none s.pkg.tasks n r } := rfl
@[simp] theorem setTask_turns (s : State) (n : Nat) (r : Option TaskRec) : (setTask s n r).turns = s.turns := rfl
@[simp] theorem setTask_arg (s : State) (n : Nat) (r : Option TaskRec) : (setTask s n r).arg = s.arg := rfl
@[simp] theorem setTask_outbox (s : State) (n : Nat) (r : Option TaskRec) : (setTask s n r).outbox = s.outbox := rfl
@[simp] theorem setTask_upsets (s : State) (n : Nat) (r : Option TaskRec) : (setTask s n r).upsets = s.upsets := rfl
@[simp] theorem setTask_free (s : State) (n : Nat) (r : Option TaskRec) : (setTask s n r).free = s.free := rfl

/-! `requestTick` -/
@[simp] theorem requestTick_cur (s : State) : (requestTick s).cur = s.cur := rfl
@[simp] theorem requestTick_t (s : State) : (requestTick s).t = s.t := rfl
@[simp] theorem requestTick_c (s : State) : (requestTick s).c = s.c := rfl
@[simp] theorem requestTick_others (s : State) : (requestTick s).others = s.others := rfl
@[simp] theorem requestTick_dies (s : State) : (requestTick s).dies = s.dies := rfl
@[simp] theorem requestTick_pkg (s : State) : (requestTick s).pkg = { s.pkg with tickWanted := true } := rfl
@[simp] theorem requestTick_turns (s : State) : (requestTick s).turns = s.turns := rfl
@[simp] theorem requestTick_arg (s : State) : (requestTick s).arg = s.arg := rfl
@[simp] theorem requestTick_outbox (s : State) : (requestTick s).outbox = s.outbox := rfl
@[simp] theorem requestTick_upsets (s : State) : (requestTick s).upsets = s.upsets := rfl
@[simp] theorem requestTick_free (s : State) : (requestTick s).free = s.free := rfl

/-! `branchTo` -/
@[simp] theorem branchTo_cur (s : State) (w : Word) (l : Bool) : (branchTo s w l).cur = s.cur := rfl
@[simp] theorem branchTo_c (s : State) (w : Word) (l : Bool) : (branchTo s w l).c = s.c := rfl
@[simp] theorem branchTo_others (s : State) (w : Word) (l : Bool) : (branchTo s w l).others = s.others := rfl
@[simp] theorem branchTo_dies (s : State) (w : Word) (l : Bool) : (branchTo s w l).dies = s.dies := rfl
@[simp] theorem branchTo_pkg (s : State) (w : Word) (l : Bool) : (branchTo s w l).pkg = s.pkg := rfl
@[simp] theorem branchTo_turns (s : State) (w : Word) (l : Bool) : (branchTo s w l).turns = s.turns := rfl
@[simp] theorem branchTo_arg (s : State) (w : Word) (l : Bool) : (branchTo s w l).arg = s.arg := rfl
@[simp] theorem branchTo_outbox (s : State) (w : Word) (l : Bool) : (branchTo s w l).outbox = s.outbox := rfl
@[simp] theorem branchTo_upsets (s : State) (w : Word) (l : Bool) : (branchTo s w l).upsets = s.upsets := rfl
@[simp] theorem branchTo_free (s : State) (w : Word) (l : Bool) : (branchTo s w l).free = s.free := rfl

/-! `setS` -/
@[simp] theorem setS_cur (s : State) (n : Nat) (v : Word) : (setS s n v).cur = s.cur := by unfold setS; split <;> rfl
@[simp] theorem setS_c (s : State) (n : Nat) (v : Word) : (setS s n v).c = s.c := by unfold setS; split <;> rfl
@[simp] theorem setS_others (s : State) (n : Nat) (v : Word) : (setS s n v).others = s.others := by unfold setS; split <;> rfl
@[simp] theorem setS_dies (s : State) (n : Nat) (v : Word) : (setS s n v).dies = s.dies := by unfold setS; split <;> rfl
@[simp] theorem setS_pkg (s : State) (n : Nat) (v : Word) : (setS s n v).pkg = s.pkg := by unfold setS; split <;> rfl
@[simp] theorem setS_turns (s : State) (n : Nat) (v : Word) : (setS s n v).turns = s.turns := by unfold setS; split <;> rfl
@[simp] theorem setS_arg (s : State) (n : Nat) (v : Word) : (setS s n v).arg = s.arg := by unfold setS; split <;> rfl
@[simp] theorem setS_outbox (s : State) (n : Nat) (v : Word) : (setS s n v).outbox = s.outbox := by unfold setS; split <;> rfl
@[simp] theorem setS_upsets (s : State) (n : Nat) (v : Word) : (setS s n v).upsets = s.upsets := by unfold setS; split <;> rfl
@[simp] theorem setS_free (s : State) (n : Nat) (v : Word) : (setS s n v).free = s.free := by unfold setS; split <;> rfl
@[simp] theorem setS_t_pc (s : State) (n : Nat) (v : Word) : (setS s n v).t.pc = s.t.pc := by unfold setS; split <;> rfl
@[simp] theorem setS_t_b (s : State) (n : Nat) (v : Word) : (setS s n v).t.b = s.t.b := by unfold setS; split <;> rfl
@[simp] theorem setS_t_q (s : State) (n : Nat) (v : Word) : (setS s n v).t.q = s.t.q := by unfold setS; split <;> rfl
@[simp] theorem setS_t_lc (s : State) (n : Nat) (v : Word) : (setS s n v).t.lc = s.t.lc := by unfold setS; split <;> rfl
@[simp] theorem setS_t_loops (s : State) (n : Nat) (v : Word) : (setS s n v).t.loops = s.t.loops := by unfold setS; split <;> rfl
@[simp] theorem setS_t_cwt (s : State) (n : Nat) (v : Word) : (setS s n v).t.cwt = s.t.cwt := by unfold setS; split <;> rfl
@[simp] theorem setS_t_sts (s : State) (n : Nat) (v : Word) : (setS s n v).t.sts = s.t.sts := by unfold setS; split <;> rfl
@[simp] theorem setS_t_v (s : State) (n : Nat) (v : Word) : (setS s n v).t.v = s.t.v := by unfold setS; split <;> rfl
@[simp] theorem setS_t_p (s : State) (n : Nat) (v : Word) : (setS s n v).t.p = s.t.p := by unfold setS; split <;> rfl
@[simp] theorem setS_t_a (s : State) (n : Nat) (v : Word) : (setS s n v).t.a = s.t.a := by unfold setS; split <;> rfl
@[simp] theorem setS_t_key (s : State) (n : Nat) (v : Word) : (setS s n v).t.key = s.t.key := by unfold setS; split <;> rfl
@[simp] theorem setS_t_stride (s : State) (n : Nat) (v : Word) : (setS s n v).t.stride = s.t.stride := by unfold setS; split <;> rfl
@[simp] theorem setS_t_ctr (s : State) (n : Nat) (v : Word) : (setS s n v).t.ctr = s.t.ctr := by unfold setS; split <;> rfl
@[simp] theorem setS_t_rsd (s : State) (n : Nat) (v : Word) : (setS s n v).t.rsd = s.t.rsd := by unfold setS; split <;> rfl
@[simp] theorem setS_t_hole (s : State) (n : Nat) (v : Word) : (setS s n v).t.hole = s.t.hole := by unfold setS; split <;> rfl
@[simp] theorem setS_t_slots (s : State) (n : Nat) (v : Word) : (setS s n v).t.slots = s.t.slots := by unfold setS; split <;> rfl
@[simp] theorem setS_t_mat (s : State) (n : Nat) (v : Word) : (setS s n v).t.mat = s.t.mat := by unfold setS; split <;> rfl
@[simp] theorem setS_t_spec (s : State) (n : Nat) (v : Word) : (setS s n v).t.spec = s.t.spec := by unfold setS; split <;> rfl
@[simp] theorem setS_t_seg (s : State) (n : Nat) (v : Word) : (setS s n v).t.seg = s.t.seg := by unfold setS; split <;> rfl
@[simp] theorem setS_t_rewound (s : State) (n : Nat) (v : Word) : (setS s n v).t.rewound = s.t.rewound := by unfold setS; split <;> rfl
@[simp] theorem setS_t_mismatch (s : State) (n : Nat) (v : Word) : (setS s n v).t.mismatch = s.t.mismatch := by unfold setS; split <;> rfl
@[simp] theorem setS_t_eng (s : State) (n : Nat) (v : Word) : (setS s n v).t.eng = s.t.eng := by unfold setS; split <;> rfl
@[simp] theorem setS_t_seq (s : State) (n : Nat) (v : Word) : (setS s n v).t.seq = s.t.seq := by unfold setS; split <;> rfl
@[simp] theorem setS_t_fenced (s : State) (n : Nat) (v : Word) : (setS s n v).t.fenced = s.t.fenced := by unfold setS; split <;> rfl
@[simp] theorem setS_t_seen (s : State) (n : Nat) (v : Word) : (setS s n v).t.seen = s.t.seen := by unfold setS; split <;> rfl
@[simp] theorem setS_t_tick (s : State) (n : Nat) (v : Word) : (setS s n v).t.tick = s.t.tick := by unfold setS; split <;> rfl
@[simp] theorem setS_t_regs (s : State) (n : Nat) (v : Word) : (setS s n v).t.regs = s.t.regs := by unfold setS; split <;> rfl
@[simp] theorem setS_t_hdr (s : State) (n : Nat) (v : Word) : (setS s n v).t.hdr = s.t.hdr := by unfold setS; split <;> rfl
@[simp] theorem setS_t_me (s : State) (n : Nat) (v : Word) : (setS s n v).t.me = s.t.me := by unfold setS; split <;> rfl
@[simp] theorem setS_t_g (s : State) (n : Nat) (v : Word) : (setS s n v).t.g = s.t.g := by unfold setS; split <;> rfl
@[simp] theorem setS_t_stub (s : State) (n : Nat) (v : Word) : (setS s n v).t.stub = s.t.stub := by unfold setS; split <;> rfl
@[simp] theorem setS_t_resume (s : State) (n : Nat) (v : Word) : (setS s n v).t.resume = s.t.resume := by unfold setS; split <;> rfl
@[simp] theorem setS_t_stubrec (s : State) (n : Nat) (v : Word) : (setS s n v).t.stubrec = s.t.stubrec := by unfold setS; split <;> rfl
@[simp] theorem setS_t_begun (s : State) (n : Nat) (v : Word) : (setS s n v).t.begun = s.t.begun := by unfold setS; split <;> rfl
@[simp] theorem setS_t_hbmBytes (s : State) (n : Nat) (v : Word) : (setS s n v).t.hbmBytes = s.t.hbmBytes := by unfold setS; split <;> rfl
@[simp] theorem setS_t_beats (s : State) (n : Nat) (v : Word) : (setS s n v).t.beats = s.t.beats := by unfold setS; split <;> rfl
@[simp] theorem setS_t_vops (s : State) (n : Nat) (v : Word) : (setS s n v).t.vops = s.t.vops := by unfold setS; split <;> rfl
@[simp] theorem setS_t_ranUs (s : State) (n : Nat) (v : Word) : (setS s n v).t.ranUs = s.t.ranUs := by unfold setS; split <;> rfl

/-! `setQ` -/
@[simp] theorem setQ_cur (s : State) (n : Nat) (v : Bool) : (setQ s n v).cur = s.cur := by unfold setQ; split <;> rfl
@[simp] theorem setQ_c (s : State) (n : Nat) (v : Bool) : (setQ s n v).c = s.c := by unfold setQ; split <;> rfl
@[simp] theorem setQ_others (s : State) (n : Nat) (v : Bool) : (setQ s n v).others = s.others := by unfold setQ; split <;> rfl
@[simp] theorem setQ_dies (s : State) (n : Nat) (v : Bool) : (setQ s n v).dies = s.dies := by unfold setQ; split <;> rfl
@[simp] theorem setQ_pkg (s : State) (n : Nat) (v : Bool) : (setQ s n v).pkg = s.pkg := by unfold setQ; split <;> rfl
@[simp] theorem setQ_turns (s : State) (n : Nat) (v : Bool) : (setQ s n v).turns = s.turns := by unfold setQ; split <;> rfl
@[simp] theorem setQ_arg (s : State) (n : Nat) (v : Bool) : (setQ s n v).arg = s.arg := by unfold setQ; split <;> rfl
@[simp] theorem setQ_outbox (s : State) (n : Nat) (v : Bool) : (setQ s n v).outbox = s.outbox := by unfold setQ; split <;> rfl
@[simp] theorem setQ_upsets (s : State) (n : Nat) (v : Bool) : (setQ s n v).upsets = s.upsets := by unfold setQ; split <;> rfl
@[simp] theorem setQ_free (s : State) (n : Nat) (v : Bool) : (setQ s n v).free = s.free := by unfold setQ; split <;> rfl
@[simp] theorem setQ_t_pc (s : State) (n : Nat) (v : Bool) : (setQ s n v).t.pc = s.t.pc := by unfold setQ; split <;> rfl
@[simp] theorem setQ_t_s (s : State) (n : Nat) (v : Bool) : (setQ s n v).t.s = s.t.s := by unfold setQ; split <;> rfl
@[simp] theorem setQ_t_b (s : State) (n : Nat) (v : Bool) : (setQ s n v).t.b = s.t.b := by unfold setQ; split <;> rfl
@[simp] theorem setQ_t_lc (s : State) (n : Nat) (v : Bool) : (setQ s n v).t.lc = s.t.lc := by unfold setQ; split <;> rfl
@[simp] theorem setQ_t_loops (s : State) (n : Nat) (v : Bool) : (setQ s n v).t.loops = s.t.loops := by unfold setQ; split <;> rfl
@[simp] theorem setQ_t_cwt (s : State) (n : Nat) (v : Bool) : (setQ s n v).t.cwt = s.t.cwt := by unfold setQ; split <;> rfl
@[simp] theorem setQ_t_sts (s : State) (n : Nat) (v : Bool) : (setQ s n v).t.sts = s.t.sts := by unfold setQ; split <;> rfl
@[simp] theorem setQ_t_v (s : State) (n : Nat) (v : Bool) : (setQ s n v).t.v = s.t.v := by unfold setQ; split <;> rfl
@[simp] theorem setQ_t_p (s : State) (n : Nat) (v : Bool) : (setQ s n v).t.p = s.t.p := by unfold setQ; split <;> rfl
@[simp] theorem setQ_t_a (s : State) (n : Nat) (v : Bool) : (setQ s n v).t.a = s.t.a := by unfold setQ; split <;> rfl
@[simp] theorem setQ_t_key (s : State) (n : Nat) (v : Bool) : (setQ s n v).t.key = s.t.key := by unfold setQ; split <;> rfl
@[simp] theorem setQ_t_stride (s : State) (n : Nat) (v : Bool) : (setQ s n v).t.stride = s.t.stride := by unfold setQ; split <;> rfl
@[simp] theorem setQ_t_ctr (s : State) (n : Nat) (v : Bool) : (setQ s n v).t.ctr = s.t.ctr := by unfold setQ; split <;> rfl
@[simp] theorem setQ_t_rsd (s : State) (n : Nat) (v : Bool) : (setQ s n v).t.rsd = s.t.rsd := by unfold setQ; split <;> rfl
@[simp] theorem setQ_t_hole (s : State) (n : Nat) (v : Bool) : (setQ s n v).t.hole = s.t.hole := by unfold setQ; split <;> rfl
@[simp] theorem setQ_t_slots (s : State) (n : Nat) (v : Bool) : (setQ s n v).t.slots = s.t.slots := by unfold setQ; split <;> rfl
@[simp] theorem setQ_t_mat (s : State) (n : Nat) (v : Bool) : (setQ s n v).t.mat = s.t.mat := by unfold setQ; split <;> rfl
@[simp] theorem setQ_t_spec (s : State) (n : Nat) (v : Bool) : (setQ s n v).t.spec = s.t.spec := by unfold setQ; split <;> rfl
@[simp] theorem setQ_t_seg (s : State) (n : Nat) (v : Bool) : (setQ s n v).t.seg = s.t.seg := by unfold setQ; split <;> rfl
@[simp] theorem setQ_t_rewound (s : State) (n : Nat) (v : Bool) : (setQ s n v).t.rewound = s.t.rewound := by unfold setQ; split <;> rfl
@[simp] theorem setQ_t_mismatch (s : State) (n : Nat) (v : Bool) : (setQ s n v).t.mismatch = s.t.mismatch := by unfold setQ; split <;> rfl
@[simp] theorem setQ_t_eng (s : State) (n : Nat) (v : Bool) : (setQ s n v).t.eng = s.t.eng := by unfold setQ; split <;> rfl
@[simp] theorem setQ_t_seq (s : State) (n : Nat) (v : Bool) : (setQ s n v).t.seq = s.t.seq := by unfold setQ; split <;> rfl
@[simp] theorem setQ_t_fenced (s : State) (n : Nat) (v : Bool) : (setQ s n v).t.fenced = s.t.fenced := by unfold setQ; split <;> rfl
@[simp] theorem setQ_t_seen (s : State) (n : Nat) (v : Bool) : (setQ s n v).t.seen = s.t.seen := by unfold setQ; split <;> rfl
@[simp] theorem setQ_t_tick (s : State) (n : Nat) (v : Bool) : (setQ s n v).t.tick = s.t.tick := by unfold setQ; split <;> rfl
@[simp] theorem setQ_t_regs (s : State) (n : Nat) (v : Bool) : (setQ s n v).t.regs = s.t.regs := by unfold setQ; split <;> rfl
@[simp] theorem setQ_t_hdr (s : State) (n : Nat) (v : Bool) : (setQ s n v).t.hdr = s.t.hdr := by unfold setQ; split <;> rfl
@[simp] theorem setQ_t_me (s : State) (n : Nat) (v : Bool) : (setQ s n v).t.me = s.t.me := by unfold setQ; split <;> rfl
@[simp] theorem setQ_t_g (s : State) (n : Nat) (v : Bool) : (setQ s n v).t.g = s.t.g := by unfold setQ; split <;> rfl
@[simp] theorem setQ_t_stub (s : State) (n : Nat) (v : Bool) : (setQ s n v).t.stub = s.t.stub := by unfold setQ; split <;> rfl
@[simp] theorem setQ_t_resume (s : State) (n : Nat) (v : Bool) : (setQ s n v).t.resume = s.t.resume := by unfold setQ; split <;> rfl
@[simp] theorem setQ_t_stubrec (s : State) (n : Nat) (v : Bool) : (setQ s n v).t.stubrec = s.t.stubrec := by unfold setQ; split <;> rfl
@[simp] theorem setQ_t_poison (s : State) (n : Nat) (v : Bool) : (setQ s n v).t.poison = s.t.poison := by unfold setQ; split <;> rfl
@[simp] theorem setQ_t_begun (s : State) (n : Nat) (v : Bool) : (setQ s n v).t.begun = s.t.begun := by unfold setQ; split <;> rfl
@[simp] theorem setQ_t_hbmBytes (s : State) (n : Nat) (v : Bool) : (setQ s n v).t.hbmBytes = s.t.hbmBytes := by unfold setQ; split <;> rfl
@[simp] theorem setQ_t_beats (s : State) (n : Nat) (v : Bool) : (setQ s n v).t.beats = s.t.beats := by unfold setQ; split <;> rfl
@[simp] theorem setQ_t_vops (s : State) (n : Nat) (v : Bool) : (setQ s n v).t.vops = s.t.vops := by unfold setQ; split <;> rfl
@[simp] theorem setQ_t_ranUs (s : State) (n : Nat) (v : Bool) : (setQ s n v).t.ranUs = s.t.ranUs := by unfold setQ; split <;> rfl

/-! `pastItem` -/
@[simp] theorem pastItem_cur (s : State) (n : Nat) : (pastItem s n).cur = s.cur := by unfold pastItem; simp only []; split <;> rfl
@[simp] theorem pastItem_c (s : State) (n : Nat) : (pastItem s n).c = s.c := by unfold pastItem; simp only []; split <;> rfl
@[simp] theorem pastItem_others (s : State) (n : Nat) : (pastItem s n).others = s.others := by unfold pastItem; simp only []; split <;> rfl
@[simp] theorem pastItem_dies (s : State) (n : Nat) : (pastItem s n).dies = s.dies := by unfold pastItem; simp only []; split <;> rfl
@[simp] theorem pastItem_pkg (s : State) (n : Nat) : (pastItem s n).pkg = s.pkg := by unfold pastItem; simp only []; split <;> rfl
@[simp] theorem pastItem_turns (s : State) (n : Nat) : (pastItem s n).turns = s.turns := by unfold pastItem; simp only []; split <;> rfl
@[simp] theorem pastItem_arg (s : State) (n : Nat) : (pastItem s n).arg = s.arg := by unfold pastItem; simp only []; split <;> rfl
@[simp] theorem pastItem_outbox (s : State) (n : Nat) : (pastItem s n).outbox = s.outbox := by unfold pastItem; simp only []; split <;> rfl
@[simp] theorem pastItem_upsets (s : State) (n : Nat) : (pastItem s n).upsets = s.upsets := by unfold pastItem; simp only []; split <;> rfl
@[simp] theorem pastItem_free (s : State) (n : Nat) : (pastItem s n).free = s.free := by unfold pastItem; simp only []; split <;> rfl
@[simp] theorem pastItem_t_s (s : State) (n : Nat) : (pastItem s n).t.s = s.t.s := by unfold pastItem; simp only []; split <;> rfl
@[simp] theorem pastItem_t_b (s : State) (n : Nat) : (pastItem s n).t.b = s.t.b := by unfold pastItem; simp only []; split <;> rfl
@[simp] theorem pastItem_t_q (s : State) (n : Nat) : (pastItem s n).t.q = s.t.q := by unfold pastItem; simp only []; split <;> rfl
@[simp] theorem pastItem_t_cwt (s : State) (n : Nat) : (pastItem s n).t.cwt = s.t.cwt := by unfold pastItem; simp only []; split <;> rfl
@[simp] theorem pastItem_t_sts (s : State) (n : Nat) : (pastItem s n).t.sts = s.t.sts := by unfold pastItem; simp only []; split <;> rfl
@[simp] theorem pastItem_t_v (s : State) (n : Nat) : (pastItem s n).t.v = s.t.v := by unfold pastItem; simp only []; split <;> rfl
@[simp] theorem pastItem_t_p (s : State) (n : Nat) : (pastItem s n).t.p = s.t.p := by unfold pastItem; simp only []; split <;> rfl
@[simp] theorem pastItem_t_a (s : State) (n : Nat) : (pastItem s n).t.a = s.t.a := by unfold pastItem; simp only []; split <;> rfl
@[simp] theorem pastItem_t_key (s : State) (n : Nat) : (pastItem s n).t.key = s.t.key := by unfold pastItem; simp only []; split <;> rfl
@[simp] theorem pastItem_t_stride (s : State) (n : Nat) : (pastItem s n).t.stride = s.t.stride := by unfold pastItem; simp only []; split <;> rfl
@[simp] theorem pastItem_t_ctr (s : State) (n : Nat) : (pastItem s n).t.ctr = s.t.ctr := by unfold pastItem; simp only []; split <;> rfl
@[simp] theorem pastItem_t_rsd (s : State) (n : Nat) : (pastItem s n).t.rsd = s.t.rsd := by unfold pastItem; simp only []; split <;> rfl
@[simp] theorem pastItem_t_hole (s : State) (n : Nat) : (pastItem s n).t.hole = s.t.hole := by unfold pastItem; simp only []; split <;> rfl
@[simp] theorem pastItem_t_slots (s : State) (n : Nat) : (pastItem s n).t.slots = s.t.slots := by unfold pastItem; simp only []; split <;> rfl
@[simp] theorem pastItem_t_mat (s : State) (n : Nat) : (pastItem s n).t.mat = s.t.mat := by unfold pastItem; simp only []; split <;> rfl
@[simp] theorem pastItem_t_spec (s : State) (n : Nat) : (pastItem s n).t.spec = s.t.spec := by unfold pastItem; simp only []; split <;> rfl
@[simp] theorem pastItem_t_seg (s : State) (n : Nat) : (pastItem s n).t.seg = s.t.seg := by unfold pastItem; simp only []; split <;> rfl
@[simp] theorem pastItem_t_rewound (s : State) (n : Nat) : (pastItem s n).t.rewound = s.t.rewound := by unfold pastItem; simp only []; split <;> rfl
@[simp] theorem pastItem_t_mismatch (s : State) (n : Nat) : (pastItem s n).t.mismatch = s.t.mismatch := by unfold pastItem; simp only []; split <;> rfl
@[simp] theorem pastItem_t_eng (s : State) (n : Nat) : (pastItem s n).t.eng = s.t.eng := by unfold pastItem; simp only []; split <;> rfl
@[simp] theorem pastItem_t_seq (s : State) (n : Nat) : (pastItem s n).t.seq = s.t.seq := by unfold pastItem; simp only []; split <;> rfl
@[simp] theorem pastItem_t_fenced (s : State) (n : Nat) : (pastItem s n).t.fenced = s.t.fenced := by unfold pastItem; simp only []; split <;> rfl
@[simp] theorem pastItem_t_seen (s : State) (n : Nat) : (pastItem s n).t.seen = s.t.seen := by unfold pastItem; simp only []; split <;> rfl
@[simp] theorem pastItem_t_tick (s : State) (n : Nat) : (pastItem s n).t.tick = s.t.tick := by unfold pastItem; simp only []; split <;> rfl
@[simp] theorem pastItem_t_regs (s : State) (n : Nat) : (pastItem s n).t.regs = s.t.regs := by unfold pastItem; simp only []; split <;> rfl
@[simp] theorem pastItem_t_hdr (s : State) (n : Nat) : (pastItem s n).t.hdr = s.t.hdr := by unfold pastItem; simp only []; split <;> rfl
@[simp] theorem pastItem_t_me (s : State) (n : Nat) : (pastItem s n).t.me = s.t.me := by unfold pastItem; simp only []; split <;> rfl
@[simp] theorem pastItem_t_g (s : State) (n : Nat) : (pastItem s n).t.g = s.t.g := by unfold pastItem; simp only []; split <;> rfl
@[simp] theorem pastItem_t_stub (s : State) (n : Nat) : (pastItem s n).t.stub = s.t.stub := by unfold pastItem; simp only []; split <;> rfl
@[simp] theorem pastItem_t_resume (s : State) (n : Nat) : (pastItem s n).t.resume = s.t.resume := by unfold pastItem; simp only []; split <;> rfl
@[simp] theorem pastItem_t_stubrec (s : State) (n : Nat) : (pastItem s n).t.stubrec = s.t.stubrec := by unfold pastItem; simp only []; split <;> rfl
@[simp] theorem pastItem_t_poison (s : State) (n : Nat) : (pastItem s n).t.poison = s.t.poison := by unfold pastItem; simp only []; split <;> rfl
@[simp] theorem pastItem_t_begun (s : State) (n : Nat) : (pastItem s n).t.begun = s.t.begun := by unfold pastItem; simp only []; split <;> rfl
@[simp] theorem pastItem_t_hbmBytes (s : State) (n : Nat) : (pastItem s n).t.hbmBytes = s.t.hbmBytes := by unfold pastItem; simp only []; split <;> rfl
@[simp] theorem pastItem_t_beats (s : State) (n : Nat) : (pastItem s n).t.beats = s.t.beats := by unfold pastItem; simp only []; split <;> rfl
@[simp] theorem pastItem_t_vops (s : State) (n : Nat) : (pastItem s n).t.vops = s.t.vops := by unfold pastItem; simp only []; split <;> rfl
@[simp] theorem pastItem_t_ranUs (s : State) (n : Nat) : (pastItem s n).t.ranUs = s.t.ranUs := by unfold pastItem; simp only []; split <;> rfl

/-! `closeSeg` -/
@[simp] theorem closeSeg_cur (s : State) : (closeSeg s).cur = s.cur := by unfold closeSeg; split <;> rfl
@[simp] theorem closeSeg_c (s : State) : (closeSeg s).c = s.c := by unfold closeSeg; split <;> rfl
@[simp] theorem closeSeg_others (s : State) : (closeSeg s).others = s.others := by unfold closeSeg; split <;> rfl
@[simp] theorem closeSeg_dies (s : State) : (closeSeg s).dies = s.dies := by unfold closeSeg; split <;> rfl
@[simp] theorem closeSeg_pkg (s : State) : (closeSeg s).pkg = s.pkg := by unfold closeSeg; split <;> rfl
@[simp] theorem closeSeg_turns (s : State) : (closeSeg s).turns = s.turns := by unfold closeSeg; split <;> rfl
@[simp] theorem closeSeg_arg (s : State) : (closeSeg s).arg = s.arg := by unfold closeSeg; split <;> rfl
@[simp] theorem closeSeg_outbox (s : State) : (closeSeg s).outbox = s.outbox := by unfold closeSeg; split <;> rfl
@[simp] theorem closeSeg_upsets (s : State) : (closeSeg s).upsets = s.upsets := by unfold closeSeg; split <;> rfl
@[simp] theorem closeSeg_free (s : State) : (closeSeg s).free = s.free := by unfold closeSeg; split <;> rfl
@[simp] theorem closeSeg_t_pc (s : State) : (closeSeg s).t.pc = s.t.pc := by unfold closeSeg; split <;> rfl
@[simp] theorem closeSeg_t_s (s : State) : (closeSeg s).t.s = s.t.s := by unfold closeSeg; split <;> rfl
@[simp] theorem closeSeg_t_b (s : State) : (closeSeg s).t.b = s.t.b := by unfold closeSeg; split <;> rfl
@[simp] theorem closeSeg_t_q (s : State) : (closeSeg s).t.q = s.t.q := by unfold closeSeg; split <;> rfl
@[simp] theorem closeSeg_t_lc (s : State) : (closeSeg s).t.lc = s.t.lc := by unfold closeSeg; split <;> rfl
@[simp] theorem closeSeg_t_loops (s : State) : (closeSeg s).t.loops = s.t.loops := by unfold closeSeg; split <;> rfl
@[simp] theorem closeSeg_t_cwt (s : State) : (closeSeg s).t.cwt = s.t.cwt := by unfold closeSeg; split <;> rfl
@[simp] theorem closeSeg_t_sts (s : State) : (closeSeg s).t.sts = s.t.sts := by unfold closeSeg; split <;> rfl
@[simp] theorem closeSeg_t_v (s : State) : (closeSeg s).t.v = s.t.v := by unfold closeSeg; split <;> rfl
@[simp] theorem closeSeg_t_p (s : State) : (closeSeg s).t.p = s.t.p := by unfold closeSeg; split <;> rfl
@[simp] theorem closeSeg_t_a (s : State) : (closeSeg s).t.a = s.t.a := by unfold closeSeg; split <;> rfl
@[simp] theorem closeSeg_t_key (s : State) : (closeSeg s).t.key = s.t.key := by unfold closeSeg; split <;> rfl
@[simp] theorem closeSeg_t_stride (s : State) : (closeSeg s).t.stride = s.t.stride := by unfold closeSeg; split <;> rfl
@[simp] theorem closeSeg_t_ctr (s : State) : (closeSeg s).t.ctr = s.t.ctr := by unfold closeSeg; split <;> rfl
@[simp] theorem closeSeg_t_rsd (s : State) : (closeSeg s).t.rsd = s.t.rsd := by unfold closeSeg; split <;> rfl
@[simp] theorem closeSeg_t_hole (s : State) : (closeSeg s).t.hole = s.t.hole := by unfold closeSeg; split <;> rfl
@[simp] theorem closeSeg_t_slots (s : State) : (closeSeg s).t.slots = s.t.slots := by unfold closeSeg; split <;> rfl
@[simp] theorem closeSeg_t_mat (s : State) : (closeSeg s).t.mat = s.t.mat := by unfold closeSeg; split <;> rfl
@[simp] theorem closeSeg_t_spec (s : State) : (closeSeg s).t.spec = s.t.spec := by unfold closeSeg; split <;> rfl
@[simp] theorem closeSeg_t_mismatch (s : State) : (closeSeg s).t.mismatch = s.t.mismatch := by unfold closeSeg; split <;> rfl
@[simp] theorem closeSeg_t_eng (s : State) : (closeSeg s).t.eng = s.t.eng := by unfold closeSeg; split <;> rfl
@[simp] theorem closeSeg_t_seq (s : State) : (closeSeg s).t.seq = s.t.seq := by unfold closeSeg; split <;> rfl
@[simp] theorem closeSeg_t_fenced (s : State) : (closeSeg s).t.fenced = s.t.fenced := by unfold closeSeg; split <;> rfl
@[simp] theorem closeSeg_t_seen (s : State) : (closeSeg s).t.seen = s.t.seen := by unfold closeSeg; split <;> rfl
@[simp] theorem closeSeg_t_tick (s : State) : (closeSeg s).t.tick = s.t.tick := by unfold closeSeg; split <;> rfl
@[simp] theorem closeSeg_t_regs (s : State) : (closeSeg s).t.regs = s.t.regs := by unfold closeSeg; split <;> rfl
@[simp] theorem closeSeg_t_hdr (s : State) : (closeSeg s).t.hdr = s.t.hdr := by unfold closeSeg; split <;> rfl
@[simp] theorem closeSeg_t_me (s : State) : (closeSeg s).t.me = s.t.me := by unfold closeSeg; split <;> rfl
@[simp] theorem closeSeg_t_g (s : State) : (closeSeg s).t.g = s.t.g := by unfold closeSeg; split <;> rfl
@[simp] theorem closeSeg_t_stub (s : State) : (closeSeg s).t.stub = s.t.stub := by unfold closeSeg; split <;> rfl
@[simp] theorem closeSeg_t_resume (s : State) : (closeSeg s).t.resume = s.t.resume := by unfold closeSeg; split <;> rfl
@[simp] theorem closeSeg_t_stubrec (s : State) : (closeSeg s).t.stubrec = s.t.stubrec := by unfold closeSeg; split <;> rfl
@[simp] theorem closeSeg_t_poison (s : State) : (closeSeg s).t.poison = s.t.poison := by unfold closeSeg; split <;> rfl
@[simp] theorem closeSeg_t_begun (s : State) : (closeSeg s).t.begun = s.t.begun := by unfold closeSeg; split <;> rfl
@[simp] theorem closeSeg_t_hbmBytes (s : State) : (closeSeg s).t.hbmBytes = s.t.hbmBytes := by unfold closeSeg; split <;> rfl
@[simp] theorem closeSeg_t_beats (s : State) : (closeSeg s).t.beats = s.t.beats := by unfold closeSeg; split <;> rfl
@[simp] theorem closeSeg_t_vops (s : State) : (closeSeg s).t.vops = s.t.vops := by unfold closeSeg; split <;> rfl
@[simp] theorem closeSeg_t_ranUs (s : State) : (closeSeg s).t.ranUs = s.t.ranUs := by unfold closeSeg; split <;> rfl

/-! `bbRecord` -/
@[simp] theorem bbRecord_cur (s : State) (d k c n : Nat) (bs : List Byte) : (bbRecord s d k c n bs).cur = s.cur := by rfl
@[simp] theorem bbRecord_c (s : State) (d k c n : Nat) (bs : List Byte) : (bbRecord s d k c n bs).c = s.c := by rfl
@[simp] theorem bbRecord_others (s : State) (d k c n : Nat) (bs : List Byte) : (bbRecord s d k c n bs).others = s.others := by rfl
@[simp] theorem bbRecord_pkg (s : State) (d k c n : Nat) (bs : List Byte) : (bbRecord s d k c n bs).pkg = s.pkg := by rfl
@[simp] theorem bbRecord_turns (s : State) (d k c n : Nat) (bs : List Byte) : (bbRecord s d k c n bs).turns = s.turns := by rfl
@[simp] theorem bbRecord_arg (s : State) (d k c n : Nat) (bs : List Byte) : (bbRecord s d k c n bs).arg = s.arg := by rfl
@[simp] theorem bbRecord_outbox (s : State) (d k c n : Nat) (bs : List Byte) : (bbRecord s d k c n bs).outbox = s.outbox := by rfl
@[simp] theorem bbRecord_upsets (s : State) (d k c n : Nat) (bs : List Byte) : (bbRecord s d k c n bs).upsets = s.upsets := by rfl
@[simp] theorem bbRecord_t_pc (s : State) (d k c n : Nat) (bs : List Byte) : (bbRecord s d k c n bs).t.pc = s.t.pc := by rfl
@[simp] theorem bbRecord_t_s (s : State) (d k c n : Nat) (bs : List Byte) : (bbRecord s d k c n bs).t.s = s.t.s := by rfl
@[simp] theorem bbRecord_t_b (s : State) (d k c n : Nat) (bs : List Byte) : (bbRecord s d k c n bs).t.b = s.t.b := by rfl
@[simp] theorem bbRecord_t_q (s : State) (d k c n : Nat) (bs : List Byte) : (bbRecord s d k c n bs).t.q = s.t.q := by rfl
@[simp] theorem bbRecord_t_lc (s : State) (d k c n : Nat) (bs : List Byte) : (bbRecord s d k c n bs).t.lc = s.t.lc := by rfl
@[simp] theorem bbRecord_t_loops (s : State) (d k c n : Nat) (bs : List Byte) : (bbRecord s d k c n bs).t.loops = s.t.loops := by rfl
@[simp] theorem bbRecord_t_cwt (s : State) (d k c n : Nat) (bs : List Byte) : (bbRecord s d k c n bs).t.cwt = s.t.cwt := by rfl
@[simp] theorem bbRecord_t_sts (s : State) (d k c n : Nat) (bs : List Byte) : (bbRecord s d k c n bs).t.sts = s.t.sts := by rfl
@[simp] theorem bbRecord_t_v (s : State) (d k c n : Nat) (bs : List Byte) : (bbRecord s d k c n bs).t.v = s.t.v := by rfl
@[simp] theorem bbRecord_t_p (s : State) (d k c n : Nat) (bs : List Byte) : (bbRecord s d k c n bs).t.p = s.t.p := by rfl
@[simp] theorem bbRecord_t_a (s : State) (d k c n : Nat) (bs : List Byte) : (bbRecord s d k c n bs).t.a = s.t.a := by rfl
@[simp] theorem bbRecord_t_key (s : State) (d k c n : Nat) (bs : List Byte) : (bbRecord s d k c n bs).t.key = s.t.key := by rfl
@[simp] theorem bbRecord_t_stride (s : State) (d k c n : Nat) (bs : List Byte) : (bbRecord s d k c n bs).t.stride = s.t.stride := by rfl
@[simp] theorem bbRecord_t_ctr (s : State) (d k c n : Nat) (bs : List Byte) : (bbRecord s d k c n bs).t.ctr = s.t.ctr := by rfl
@[simp] theorem bbRecord_t_rsd (s : State) (d k c n : Nat) (bs : List Byte) : (bbRecord s d k c n bs).t.rsd = s.t.rsd := by rfl
@[simp] theorem bbRecord_t_hole (s : State) (d k c n : Nat) (bs : List Byte) : (bbRecord s d k c n bs).t.hole = s.t.hole := by rfl
@[simp] theorem bbRecord_t_slots (s : State) (d k c n : Nat) (bs : List Byte) : (bbRecord s d k c n bs).t.slots = s.t.slots := by rfl
@[simp] theorem bbRecord_t_mat (s : State) (d k c n : Nat) (bs : List Byte) : (bbRecord s d k c n bs).t.mat = s.t.mat := by rfl
@[simp] theorem bbRecord_t_spec (s : State) (d k c n : Nat) (bs : List Byte) : (bbRecord s d k c n bs).t.spec = s.t.spec := by rfl
@[simp] theorem bbRecord_t_seg (s : State) (d k c n : Nat) (bs : List Byte) : (bbRecord s d k c n bs).t.seg = s.t.seg := by rfl
@[simp] theorem bbRecord_t_rewound (s : State) (d k c n : Nat) (bs : List Byte) : (bbRecord s d k c n bs).t.rewound = s.t.rewound := by rfl
@[simp] theorem bbRecord_t_mismatch (s : State) (d k c n : Nat) (bs : List Byte) : (bbRecord s d k c n bs).t.mismatch = s.t.mismatch := by rfl
@[simp] theorem bbRecord_t_eng (s : State) (d k c n : Nat) (bs : List Byte) : (bbRecord s d k c n bs).t.eng = s.t.eng := by rfl
@[simp] theorem bbRecord_t_seq (s : State) (d k c n : Nat) (bs : List Byte) : (bbRecord s d k c n bs).t.seq = s.t.seq := by rfl
@[simp] theorem bbRecord_t_fenced (s : State) (d k c n : Nat) (bs : List Byte) : (bbRecord s d k c n bs).t.fenced = s.t.fenced := by rfl
@[simp] theorem bbRecord_t_seen (s : State) (d k c n : Nat) (bs : List Byte) : (bbRecord s d k c n bs).t.seen = s.t.seen := by rfl
@[simp] theorem bbRecord_t_tick (s : State) (d k c n : Nat) (bs : List Byte) : (bbRecord s d k c n bs).t.tick = s.t.tick := by rfl
@[simp] theorem bbRecord_t_regs (s : State) (d k c n : Nat) (bs : List Byte) : (bbRecord s d k c n bs).t.regs = s.t.regs := by rfl
@[simp] theorem bbRecord_t_hdr (s : State) (d k c n : Nat) (bs : List Byte) : (bbRecord s d k c n bs).t.hdr = s.t.hdr := by rfl
@[simp] theorem bbRecord_t_me (s : State) (d k c n : Nat) (bs : List Byte) : (bbRecord s d k c n bs).t.me = s.t.me := by rfl
@[simp] theorem bbRecord_t_g (s : State) (d k c n : Nat) (bs : List Byte) : (bbRecord s d k c n bs).t.g = s.t.g := by rfl
@[simp] theorem bbRecord_t_stub (s : State) (d k c n : Nat) (bs : List Byte) : (bbRecord s d k c n bs).t.stub = s.t.stub := by rfl
@[simp] theorem bbRecord_t_resume (s : State) (d k c n : Nat) (bs : List Byte) : (bbRecord s d k c n bs).t.resume = s.t.resume := by rfl
@[simp] theorem bbRecord_t_stubrec (s : State) (d k c n : Nat) (bs : List Byte) : (bbRecord s d k c n bs).t.stubrec = s.t.stubrec := by rfl
@[simp] theorem bbRecord_t_poison (s : State) (d k c n : Nat) (bs : List Byte) : (bbRecord s d k c n bs).t.poison = s.t.poison := by rfl
@[simp] theorem bbRecord_t_begun (s : State) (d k c n : Nat) (bs : List Byte) : (bbRecord s d k c n bs).t.begun = s.t.begun := by rfl
@[simp] theorem bbRecord_t_hbmBytes (s : State) (d k c n : Nat) (bs : List Byte) : (bbRecord s d k c n bs).t.hbmBytes = s.t.hbmBytes := by rfl
@[simp] theorem bbRecord_t_beats (s : State) (d k c n : Nat) (bs : List Byte) : (bbRecord s d k c n bs).t.beats = s.t.beats := by rfl
@[simp] theorem bbRecord_t_vops (s : State) (d k c n : Nat) (bs : List Byte) : (bbRecord s d k c n bs).t.vops = s.t.vops := by rfl
@[simp] theorem bbRecord_t_ranUs (s : State) (d k c n : Nat) (bs : List Byte) : (bbRecord s d k c n bs).t.ranUs = s.t.ranUs := by rfl

/-! ## Numbered registers -/

/-- s0 reads as zero. -/
@[simp] theorem getS_zero (s : State) : getS s 0 = 0 := rfl

/-- q0 reads as true. -/
@[simp] theorem getQ_zero (s : State) : getQ s 0 = true := rfl

/-- A read of a scalar register after a write of one: s0 still reads as zero. -/
theorem getS_setS (s : State) (k n : Nat) (v : Word) : getS (setS s n v) k = if k = n ∧ n ≠ 0 then v else getS s k := by
  by_cases hn : n = 0
  · simp [setS, hn]
  · by_cases hk : k = 0
    · simp [getS, hk, Ne.symm hn]
    · by_cases h : k = n
      · subst h; simp [getS, setS, hn]
      · simp [getS, setS, hn, hk, h, tget_tset_other]

/-- A read of a predicate after a write of one: q0 still reads as true. -/
theorem getQ_setQ (s : State) (k n : Nat) (v : Bool) : getQ (setQ s n v) k = if k = n ∧ n ≠ 0 then v else getQ s k := by
  by_cases hn : n = 0
  · simp [setQ, hn]
  · by_cases hk : k = 0
    · simp [getQ, hk, Ne.symm hn]
    · by_cases h : k = n
      · subst h; simp [getQ, setQ, hn]
      · simp [getQ, setQ, hn, hk, h, tget_tset_other]

/-- A read of a branch register after a write of one. -/
theorem getB_setB (s : State) (k n : Nat) (v : Word) : getB (setB s n v) k = if k = n then v else getB s k := by
  simp [getB, setB, tget_tset]

/-- A read of a loop counter after a write of one. -/
theorem getLc_setLc (s : State) (k n : Nat) (v : BitVec 32) : getLc (setLc s n v) k = if k = n then v else getLc s k := by
  simp [getLc, setLc, tget_tset]

/-- A read of a counter after a write of one. -/
theorem getCnt_setCnt (s : State) (k n : Nat) (v : BitVec 32) : getCnt (setCnt s n v) k = if k = n then v else getCnt s k := by
  simp [getCnt, setCnt, tget_tset]

theorem getS_of_t (s t : State) (h : t.t.s = s.t.s) (n : Nat) : getS t n = getS s n := by simp [getS, h]
theorem getQ_of_t (s t : State) (h : t.t.q = s.t.q) (n : Nat) : getQ t n = getQ s n := by simp [getQ, h]
theorem getB_of_t (s t : State) (h : t.t.b = s.t.b) (n : Nat) : getB t n = getB s n := by simp [getB, h]

@[simp] theorem getS_pastItem (s : State) (k n : Nat) : getS (pastItem s k) n = getS s n := getS_of_t _ _ (by simp) n
@[simp] theorem getS_closeSeg (s : State) (n : Nat) : getS (closeSeg s) n = getS s n := getS_of_t _ _ (by simp) n
@[simp] theorem getQ_pastItem (s : State) (k n : Nat) : getQ (pastItem s k) n = getQ s n := getQ_of_t _ _ (by simp) n
@[simp] theorem getQ_closeSeg (s : State) (n : Nat) : getQ (closeSeg s) n = getQ s n := getQ_of_t _ _ (by simp) n
@[simp] theorem getB_pastItem (s : State) (k n : Nat) : getB (pastItem s k) n = getB s n := getB_of_t _ _ (by simp) n
@[simp] theorem getB_closeSeg (s : State) (n : Nat) : getB (closeSeg s) n = getB s n := getB_of_t _ _ (by simp) n

/-! ## Reset -/

theorem reset_pkg : State.reset.pkg = {} := rfl
theorem reset_t : State.reset.t = {} := rfl
theorem reset_c : State.reset.c = {} := rfl

end Sys2Proof.Machine
end

