-- ==== Sys2Proof/Laws/Quiet.lean ====
section
/-! SUPPORT. What an access to memory may do to the machine besides its result: `Quiet s u` says that the core in focus, its task's
registers, its mode, the turns and the upsets are those of `s`, and that memory keeps its canonical form. One lemma for each
operation of the memory system, the counters and the task records. -/

namespace Sys2Proof.Machine

/-- From `s` to `u` an access has changed what AccessFrame lists, and memory has kept its canonical form. -/
structure Quiet (s u : State) : Prop where
  frame : AccessFrame s u
  mem_wf : s.memWf → u.memWf

namespace AccessFrame

theorem refl (s : State) : AccessFrame s s := ⟨rfl, rfl, rfl, rfl, rfl, rfl, rfl, fun _ => rfl, fun _ => rfl⟩

/-- Where the other cores are as they were, what holds of the core in focus is all there is to show. -/
theorem core_eq_of {s u : State} (h : u.cur = s.cur) (ho : u.others = s.others)
    (hc : u.c = { s.c with l1 := u.c.l1, l1Poison := u.c.l1Poison, jobs := u.c.jobs, tlb := u.c.tlb, spm := u.c.spm, spmPoison := u.c.spmPoison })
    (ht : u.t = { s.t with
        spec := { s.t.spec with pending := u.t.spec.pending, commit := u.t.spec.commit }, seen := u.t.seen,
        hbmBytes := u.t.hbmBytes }) (n : Nat) :
    coreCtx u n = {
        c := { (coreCtx s n).c with
          l1 := (coreCtx u n).c.l1, l1Poison := (coreCtx u n).c.l1Poison, jobs := (coreCtx u n).c.jobs, tlb := (coreCtx u n).c.tlb, spm := (coreCtx u n).c.spm,
          spmPoison := (coreCtx u n).c.spmPoison },
        t := { (coreCtx s n).t with
          spec := { (coreCtx s n).t.spec with
            pending := (coreCtx u n).t.spec.pending, commit := (coreCtx u n).t.spec.commit },
          seen := (coreCtx u n).t.seen, hbmBytes := (coreCtx u n).t.hbmBytes } } := by
  unfold coreCtx
  rw [h, ho]
  split
  · simp only []; rw [← hc, ← ht]
  · rfl

theorem trans {s t u : State} (h : AccessFrame s t) (k : AccessFrame t u) : AccessFrame s u := by
  refine ⟨k.cur_eq.trans h.cur_eq, k.turns_eq.trans h.turns_eq, k.arg_eq.trans h.arg_eq, k.upsets_eq.trans h.upsets_eq, ?_, ?_, ?_, ?_, ?_⟩
  · rw [k.c_eq, h.c_eq]
  · rw [k.t_eq, h.t_eq]
  · rw [k.pkg_eq, h.pkg_eq]
  · intro n; rw [k.core_eq n, h.core_eq n]
  · intro d; rw [k.die_eq d, h.die_eq d]

end AccessFrame

namespace Quiet

theorem refl (s : State) : Quiet s s := ⟨AccessFrame.refl s, id⟩

theorem trans {s t u : State} (h : Quiet s t) (k : Quiet t u) : Quiet s u :=
  ⟨h.frame.trans k.frame, fun x => k.mem_wf (h.mem_wf x)⟩

/-- A fold of quiet steps is quiet. -/
theorem foldl {β : Type} (f : State → β → State) (hf : ∀ s x, Quiet s (f s x)) (xs : List β) (s : State) : Quiet s (xs.foldl f s) := by
  induction xs generalizing s with
  | nil => exact refl s
  | cons x rest ih => exact (hf s x).trans (ih _)

theorem ite {s t u : State} {p : Prop} [Decidable p] (h : Quiet s t) (k : Quiet s u) : Quiet s (if p then t else u) := by
  split <;> assumption

end Quiet

/-! ## Updates -/

theorem quiet_onPkg (s : State) (f : Pkg → Pkg) (hm : (f s.pkg).mem = s.pkg.mem) (hd : (f s.pkg).dirty = s.pkg.dirty)
    (hp : f s.pkg = { s.pkg with
        mem := (f s.pkg).mem, dirty := (f s.pkg).dirty, l2 := (f s.pkg).l2, poison := (f s.pkg).poison, tags := (f s.pkg).tags,
        sidecar := (f s.pkg).sidecar, tagPoison := (f s.pkg).tagPoison, sync := (f s.pkg).sync, syncMem := (f s.pkg).syncMem, counters := (f s.pkg).counters, scoperec := (f s.pkg).scoperec,
        tasks := (f s.pkg).tasks, atOnce := (f s.pkg).atOnce, epoch := (f s.pkg).epoch, tickWanted := (f s.pkg).tickWanted }) :
    Quiet s (onPkg s f) :=
  ⟨⟨rfl, rfl, rfl, rfl, rfl, rfl, hp, AccessFrame.core_eq_of rfl rfl rfl rfl, fun _ => rfl⟩, fun h => by simpa [State.memWf, hm, hd] using h⟩

theorem quiet_setDie (s : State) (d : Nat) (x : Die)
    (h : x = { getDie s d with spend := x.spend, tlb := x.tlb, queues := x.queues }) : Quiet s (setDie s d x) := by
  refine ⟨⟨rfl, rfl, rfl, rfl, rfl, rfl, rfl, AccessFrame.core_eq_of rfl rfl rfl rfl, fun k => ?_⟩, id⟩
  unfold getDie setDie
  simp only [tget_tset]
  split
  · next hk => subst hk; exact h
  · rfl

theorem quiet_onDie (s : State) (d : Nat) (f : Die → Die)
    (h : f (getDie s d) = { getDie s d with spend := (f (getDie s d)).spend, tlb := (f (getDie s d)).tlb, queues := (f (getDie s d)).queues }) :
    Quiet s (onDie s d f) := quiet_setDie s d _ h
theorem quiet_bumpFree (s : State) : Quiet s (bumpFree s) := ⟨⟨rfl, rfl, rfl, rfl, rfl, rfl, rfl, AccessFrame.core_eq_of rfl rfl rfl rfl, fun _ => rfl⟩, id⟩
theorem quiet_emit (s : State) (o : Out) : Quiet s (emit s o) := ⟨⟨rfl, rfl, rfl, rfl, rfl, rfl, rfl, AccessFrame.core_eq_of rfl rfl rfl rfl, fun _ => rfl⟩, id⟩
theorem quiet_setCnt (s : State) (n : Nat) (v : BitVec 32) : Quiet s (setCnt s n v) := quiet_onPkg s _ rfl rfl rfl
theorem quiet_setTask (s : State) (n : Nat) (r : Option TaskRec) : Quiet s (setTask s n r) := quiet_onPkg s _ rfl rfl rfl
theorem quiet_requestTick (s : State) : Quiet s (requestTick s) := quiet_onPkg s _ rfl rfl rfl

/-- The context of a core after one is written. -/
theorem coreCtx_setCoreCtx (s : State) (k n : Nat) (x : CoreCtx) :
    coreCtx (setCoreCtx s k x) n = if n = k then x else coreCtx s n := by
  unfold coreCtx setCoreCtx
  by_cases hk : k = s.cur
  · subst hk
    by_cases hn : n = s.cur
    · simp [hn]
    · simp [hn]
  · simp only [hk, if_false]
    by_cases hn : n = s.cur
    · subst hn; simp [Ne.symm hk]
    · simp only [hn, if_false, tget_tset]

/-- A core's context written but for what AccessFrame names of it. -/
theorem quiet_setCoreCtx (s : State) (k : Nat) (x : CoreCtx)
    (h : x = {
        c := { (coreCtx s k).c with l1 := x.c.l1, l1Poison := x.c.l1Poison, jobs := x.c.jobs, tlb := x.c.tlb, spm := x.c.spm, spmPoison := x.c.spmPoison },
        t := { (coreCtx s k).t with
          spec := { (coreCtx s k).t.spec with pending := x.t.spec.pending, commit := x.t.spec.commit },
          seen := x.t.seen, hbmBytes := x.t.hbmBytes } }) : Quiet s (setCoreCtx s k x) := by
  have hcore : ∀ n, coreCtx (setCoreCtx s k x) n = _ := fun n => coreCtx_setCoreCtx s k n x
  refine ⟨⟨?_, ?_, ?_, ?_, ?_, ?_, ?_, fun n => ?_, fun d => ?_⟩, ?_⟩
  · unfold setCoreCtx; split <;> rfl
  · unfold setCoreCtx; split <;> rfl
  · unfold setCoreCtx; split <;> rfl
  · unfold setCoreCtx; split <;> rfl
  · by_cases hk : k = s.cur
    · subst hk
      simp only [coreCtx, setCoreCtx, if_true] at h ⊢
      exact congrArg CoreCtx.c h
    · simp only [setCoreCtx, hk, if_false]
  · by_cases hk : k = s.cur
    · subst hk
      simp only [coreCtx, setCoreCtx, if_true] at h ⊢
      exact congrArg CoreCtx.t h
    · simp only [setCoreCtx, hk, if_false]
  · unfold setCoreCtx; split <;> rfl
  · rw [hcore n]
    split
    · next hn => subst hn; exact h
    · rfl
  · unfold setCoreCtx; split <;> rfl
  · unfold setCoreCtx; split <;> exact id

theorem quiet_setJob (s : State) (core e : Nat) (j : Job) : Quiet s (setJob s core e j) := quiet_setCoreCtx s core _ rfl

theorem quiet_onJob (s : State) (core e : Nat) (f : Job → Job) : Quiet s (onJob s core e f) := quiet_setJob s core e _

/-- Focus moves no core's context. -/
theorem coreCtx_focus (s : State) (k n : Nat) : coreCtx (focus s k) n = coreCtx s n := by
  unfold focus
  split
  · rfl
  · next hk =>
    unfold coreCtx
    simp only [tget_tset]
    by_cases hn : n = k
    · subst hn; simp [hk]
    · by_cases hc : n = s.cur
      · subst hc; simp [Ne.symm hk]
      · simp [hn, hc]

theorem focus_same (s : State) (k : Nat) :
    (focus s k).cur = k ∧ (focus s k).pkg = s.pkg ∧ (focus s k).dies = s.dies ∧ (focus s k).turns = s.turns ∧
      (focus s k).arg = s.arg ∧ (focus s k).upsets = s.upsets := by
  unfold focus
  split
  · next h => exact ⟨h.symm, rfl, rfl, rfl, rfl, rfl⟩
  · exact ⟨rfl, rfl, rfl, rfl, rfl, rfl⟩

/-- What another core in focus does quietly is quiet once the focus is back. -/
theorem quiet_focus {s u : State} (k : Nat) (h : Quiet (focus s k) u) : Quiet s (focus u s.cur) := by
  obtain ⟨a1, a2, a3, a4, a5, a6⟩ := focus_same s k
  obtain ⟨b1, b2, b3, b4, b5, b6⟩ := focus_same u s.cur
  have hcore : ∀ n, coreCtx (focus u s.cur) n = _ := fun n => coreCtx_focus u s.cur n
  have hf := h.frame
  have hk := fun n => hf.core_eq n
  simp only [coreCtx_focus] at hk
  have hme : ∀ v : State, coreCtx v v.cur = { c := v.c, t := v.t } := fun v => by simp [coreCtx]
  have hmu : coreCtx u s.cur = { c := (focus u s.cur).c, t := (focus u s.cur).t } := by
    rw [← coreCtx_focus u s.cur, ← hme, b1]
  have h0 := hk s.cur
  rw [hmu, hme s] at h0
  refine ⟨⟨b1, ?_, ?_, ?_, congrArg CoreCtx.c h0, congrArg CoreCtx.t h0, ?_, fun n => ?_, fun d => ?_⟩, fun w => ?_⟩
  · rw [b4, hf.turns_eq, a4]
  · rw [b5, hf.arg_eq, a5]
  · rw [b6, hf.upsets_eq, a6]
  · rw [b2, ← a2]; exact hf.pkg_eq
  · rw [hcore n]; exact hk n
  · have := hf.die_eq d
    unfold getDie at this ⊢
    rw [b3, ← a3]; exact this
  · have := h.mem_wf (by simpa only [State.memWf, a2] using w)
    simpa only [State.memWf, b2] using this

theorem quiet_onCore (s : State) (k : Nat) (f : CoreCtx → CoreCtx)
    (h : f (coreCtx s k) = {
        c := { (coreCtx s k).c with
          l1 := (f (coreCtx s k)).c.l1, l1Poison := (f (coreCtx s k)).c.l1Poison, jobs := (f (coreCtx s k)).c.jobs, tlb := (f (coreCtx s k)).c.tlb,
          spm := (f (coreCtx s k)).c.spm, spmPoison := (f (coreCtx s k)).c.spmPoison },
        t := { (coreCtx s k).t with
          spec := { (coreCtx s k).t.spec with
            pending := (f (coreCtx s k)).t.spec.pending, commit := (f (coreCtx s k)).t.spec.commit },
          seen := (f (coreCtx s k)).t.seen, hbmBytes := (f (coreCtx s k)).t.hbmBytes } }) : Quiet s (onCore s k f) :=
  quiet_setCoreCtx s k _ h

/-- Bytes put in a scratchpad. -/
theorem quiet_setSpmBytesOf (s : State) (lead a : Nat) (bs : List Byte) : Quiet s (setSpmBytesOf s lead a bs) := by
  unfold setSpmBytesOf
  have h := Quiet.foldl (fun s k => setSpmByteOf s lead (a + k) (bs.getD k 0)) (fun s _ => quiet_onCore s _ _ rfl)
    (List.range bs.length) s
  exact Quiet.ite h (h.trans (quiet_onCore _ _ _ rfl))

/-! ## Physical bytes -/

theorem quiet_poke (s : State) (bypass : Bool) (pa : Nat) (b : Byte) : Quiet s (poke s bypass pa b) := by
  unfold poke
  split
  · exact ⟨⟨rfl, rfl, rfl, rfl, rfl, rfl, rfl, AccessFrame.core_eq_of rfl rfl rfl rfl, fun _ => rfl⟩, fun h => ⟨twf_tset 0 _ _ _ h.1, twf_tset none s.pkg.dirty pa none h.2⟩⟩
  · exact ⟨⟨rfl, rfl, rfl, rfl, rfl, rfl, rfl, AccessFrame.core_eq_of rfl rfl rfl rfl, fun _ => rfl⟩, fun h => ⟨h.1, twf_tset none s.pkg.dirty pa (some b) h.2⟩⟩

theorem quiet_pokeBytes (bs : List Byte) : ∀ (s : State) (bypass : Bool) (pa : Nat), Quiet s (pokeBytes s bypass pa bs) := by
  induction bs with
  | nil => intro s _ _; exact Quiet.refl s
  | cons b rest ih => intro s bypass pa; exact (quiet_poke s bypass pa b).trans (ih _ bypass (pa + 1))

theorem quiet_clearPoison (s : State) (pa n : Nat) : Quiet s (clearPoison s pa n) :=
  Quiet.ite (Quiet.refl s) (quiet_onPkg s _ rfl rfl rfl)

theorem quiet_noteLeaf (s : State) (asid va : Nat) : Quiet s (noteLeaf s asid va) := by
  unfold noteLeaf
  split
  · exact Quiet.refl s
  · simp only []
    split
    · exact Quiet.refl s
    · have h : ∀ (u : State) (f : CoreHw → Tlb), Quiet u (onC u fun c => { c with tlb := f c }) := fun u f =>
        ⟨⟨rfl, rfl, rfl, rfl, rfl, rfl, rfl, AccessFrame.core_eq_of rfl rfl rfl rfl, fun _ => rfl⟩, id⟩
      split
      · exact (quiet_bumpFree s).trans ((h _ _).trans (quiet_onDie _ _ _ rfl))
      · exact (h _ _).trans (quiet_onDie _ _ _ rfl)

theorem quiet_notePieces (s : State) (asid va : Nat) (ps : List Piece) : Quiet s (notePieces s asid va ps) :=
  Quiet.foldl _ (fun s (p : Piece) => quiet_noteLeaf s asid (va + p.off)) ps s

/-! ## Budgets and the L2 -/

theorem quiet_charge (s : State) (die r tint n : Nat) : Quiet s (charge s die r tint n) := quiet_onDie s die _ rfl

theorem quiet_chargeHbm (s : State) (pa tint n : Nat) (mine : Bool) : Quiet s (chargeHbm s pa tint n mine) := by
  unfold chargeHbm
  split
  · simp only []
    split
    · exact (quiet_charge s _ _ _ _).trans ⟨⟨rfl, rfl, rfl, rfl, rfl, rfl, rfl, AccessFrame.core_eq_of rfl rfl rfl rfl, fun _ => rfl⟩, id⟩
    · exact quiet_charge s _ _ _ _
  · exact Quiet.refl s

theorem quiet_syncThrough (s : State) (pa n : Nat) : Quiet s (syncThrough s pa n) :=
  Quiet.ite (Quiet.refl s) (quiet_onPkg s _ rfl rfl rfl)

theorem quiet_flushLine (s : State) (line : Nat) : Quiet s (flushLine s line) := (quiet_syncThrough s _ _).trans
  ⟨⟨rfl, rfl, rfl, rfl, rfl, rfl, rfl, AccessFrame.core_eq_of rfl rfl rfl rfl, fun _ => rfl⟩,
    fun hw => ⟨twf_foldl 0 _ (fun m _ hm => twf_tset 0 m _ _ hm) _ _ hw.1, twf_tclear none _ _ _ hw.2⟩⟩

theorem quiet_l2Clean (s : State) (line : Nat) : Quiet s (l2Clean s line) :=
  Quiet.ite (Quiet.refl s) ((quiet_flushLine s line).trans (quiet_chargeHbm _ _ _ _ _))

theorem quiet_l2Drop (s : State) (line : Nat) : Quiet s (l2Drop s line) := (quiet_l2Clean s line).trans (quiet_onPkg _ _ rfl rfl rfl)

theorem quiet_l2Fill (s : State) (line hint tint : Nat) : Quiet s (l2Fill s line hint tint) := by
  unfold l2Fill
  simp only []
  split
  · exact (quiet_l2Drop s _).trans (quiet_onPkg _ _ rfl rfl rfl)
  · exact quiet_onPkg s _ rfl rfl rfl

theorem quiet_l2touch (s : State) (pa n hint tint : Nat) (mine write : Bool) : Quiet s (l2touch s pa n hint tint mine write) := by
  unfold l2touch
  split
  · exact Quiet.refl s
  split
  · split
    · exact Quiet.ite (quiet_chargeHbm s _ _ _ _) (Quiet.refl s)
    · exact quiet_onPkg s _ rfl rfl rfl
  · split
    · exact quiet_chargeHbm s _ _ _ _
    · exact (quiet_l2Fill s _ _ _).trans (quiet_chargeHbm _ _ _ _ _)

theorem quiet_touchLines (s : State) (pa n hint tint : Nat) (mine write : Bool) : Quiet s (touchLines s pa n hint tint mine write) :=
  Quiet.foldl _ (fun s _ => quiet_l2touch s _ _ _ _ _ _) _ s

theorem quiet_allocLines (s : State) (pa n tint : Nat) : Quiet s (allocLines s pa n tint) := by
  refine Quiet.foldl _ (fun s l => ?_) _ s
  exact Quiet.ite (Quiet.refl s) ((quiet_l2Fill s l 1 tint).trans (quiet_chargeHbm _ _ _ _ _))

/-! ## Tags and the release epoch -/

theorem quiet_setTag (s : State) (line : Nat) (t : Tag) : Quiet s (setTag s line t) :=
  Quiet.ite (quiet_onPkg s _ rfl rfl rfl)
    (Quiet.ite (quiet_onPkg s _ rfl rfl rfl) (Quiet.ite (quiet_onPkg s _ rfl rfl rfl) (Quiet.refl s)))

theorem quiet_tagLines (s : State) (x : Agent) (write : Bool) (ls : List Nat) : Quiet s (tagLines s x write ls) :=
  Quiet.foldl _ (fun s l => quiet_setTag s l _) ls s

theorem quiet_tickEpoch (s : State) : Quiet s (tickEpoch s) := quiet_onPkg s _ rfl rfl rfl

/-! ## Task records, envelopes and counters, through any quiet writer -/

/-- A writer that is quiet. -/
def QuietWriter (wr : Writer) : Prop := ∀ how s pa bs, Quiet s (wr how s pa bs)

theorem quiet_writeVA {wr : Writer} (hw : QuietWriter wr) (s : State) (tint asid : Nat) (sup : Bool) (va : Nat) (bs : List Byte) :
    Quiet s (writeVA wr s tint asid sup va bs) := by
  unfold writeVA
  split
  · exact Quiet.foldl _ (fun s p => hw _ s _ _) _ s
  · exact Quiet.refl s

theorem quiet_envStatus {wr : Writer} (hw : QuietWriter wr) (s : State) (r : TaskRec) : Quiet s (envStatus wr s r) :=
  quiet_writeVA hw s _ _ _ _ _

theorem quiet_envFields {wr : Writer} (hw : QuietWriter wr) (s : State) (r : TaskRec) (v : Word) : Quiet s (envFields wr s r v) :=
  (((quiet_writeVA hw s _ _ _ _ _).trans (quiet_writeVA hw _ _ _ _ _ _)).trans (quiet_writeVA hw _ _ _ _ _ _)).trans
    (quiet_writeVA hw _ _ _ _ _ _)

theorem quiet_enqueue (s : State) (r : TaskRec) : Quiet s (enqueue s r) := by
  unfold enqueue
  exact ((quiet_setTask s _ _).trans (Quiet.ite (quiet_onPkg _ _ rfl rfl rfl) (Quiet.refl _))).trans (quiet_onDie _ _ _ rfl)

theorem quiet_makeReady {wr : Writer} (hw : QuietWriter wr) (s : State) (r : TaskRec) : Quiet s (makeReady wr s r) :=
  (quiet_envStatus hw s _).trans (quiet_enqueue _ _)

theorem quiet_touchPieces (s : State) (tint : Nat) (ps : List Piece) : Quiet s (touchPieces s tint ps) :=
  Quiet.foldl _ (fun s _ => quiet_touchLines s _ _ _ _ _ _) ps s

theorem quiet_touchBlock (s : State) (r : TaskRec) (va : Nat) (es : List Edge) : Quiet s (touchBlock s r va es) := by
  unfold touchBlock touchVA
  refine Quiet.ite (Quiet.refl s) ?_
  split
  · exact quiet_touchPieces s _ _
  · exact Quiet.refl s

theorem quiet_examineEdges {wr : Writer} (hw : QuietWriter wr) (s : State) (n : Nat) : Quiet s (examineEdges wr s n) := by
  refine Quiet.foldl _ (fun s e => ?_) _ s
  split
  · exact Quiet.refl s
  split
  · exact Quiet.refl s
  · exact Quiet.ite ((quiet_touchBlock s _ _ _).trans (Quiet.ite (quiet_makeReady hw _ _) (Quiet.refl _))) (Quiet.refl s)

theorem quiet_counterChanged {wr : Writer} (hw : QuietWriter wr) (s : State) (n : Nat) : Quiet s (counterChanged wr s n) :=
  (Quiet.foldl _ (fun s _ => quiet_onJob s _ _ _) _ s).trans (quiet_examineEdges hw _ n)

theorem quiet_cntInc {wr : Writer} (hw : QuietWriter wr) (s : State) (n amount scope tag core : Nat) :
    Quiet s (cntInc wr s n amount scope tag core) :=
  ((quiet_setCnt s n _).trans (quiet_onPkg _ _ rfl rfl rfl)).trans (quiet_counterChanged hw _ n)

/-! ## The L1, through any quiet writer -/

theorem quiet_l1Set (s : State) (line : Nat) (l : Option L1Line) : Quiet s (l1Set s line l) := ⟨⟨rfl, rfl, rfl, rfl, rfl, rfl, rfl, AccessFrame.core_eq_of rfl rfl rfl rfl, fun _ => rfl⟩, id⟩

theorem quiet_markPoisoned (s : State) (gs : List (Nat × Nat × Nat)) : Quiet s (markPoisoned s gs) :=
  Quiet.ite (Quiet.refl s) (quiet_onPkg s _ rfl rfl rfl)

theorem quiet_l1CleanBy {wr : Writer} (hw : QuietWriter wr) (s : State) (line : Nat) : Quiet s (l1CleanBy wr s line) := by
  unfold l1CleanBy
  split
  · exact Quiet.refl s
  split
  · exact Quiet.refl s
  · refine Quiet.trans ?_ (quiet_l1Set _ _ _)
    split
    · exact Quiet.refl s
    · exact Quiet.trans (Quiet.foldl _ (fun s r => (quiet_l2touch s _ _ _ _ _ _).trans (hw _ _ _ _)) _ s) (quiet_markPoisoned _ _)

theorem quiet_l1Inval (s : State) (line : Nat) : Quiet s (l1Inval s line) := quiet_l1Set s line none
theorem quiet_l1DropBy {wr : Writer} (hw : QuietWriter wr) (s : State) (line : Nat) : Quiet s (l1DropBy wr s line) :=
  (quiet_l1CleanBy hw s line).trans (quiet_l1Inval _ _)

theorem quiet_l1DropOn {wr : Writer} (hw : QuietWriter wr) (s : State) (core : Nat) (ls : List Nat) :
    Quiet s (l1DropOn wr s core ls) :=
  Quiet.ite (Quiet.foldl _ (quiet_l1DropBy hw) ls s) (quiet_focus core (Quiet.foldl _ (quiet_l1DropBy hw) ls (focus s core)))

/-! ## Writes at the order point and what they set off -/

theorem quiet_setSync (s : State) (pa n : Nat) (r : Option SyncRec) (through : Bool) : Quiet s (setSync s pa n r through) :=
  Quiet.ite (Quiet.refl s) (quiet_onPkg s _ rfl rfl rfl)

theorem quiet_clearTags (s : State) (pa n : Nat) : Quiet s (clearTags s pa n) := Quiet.ite (Quiet.refl s) (quiet_onPkg s _ rfl rfl rfl)

theorem quiet_reachSlice (s : State) (pa n : Nat) (how : WHow) : Quiet s (reachSlice s pa n how) := by
  unfold reachSlice
  split
  · exact quiet_touchLines s _ _ _ _ _ _
  · exact Quiet.ite (Quiet.refl s) (quiet_allocLines s _ _ _)

theorem quiet_baseWrite (s : State) (pa : Nat) (bs : List Byte) (how : WHow) : Quiet s (baseWrite s pa bs how) :=
  (((Quiet.trans
    (Quiet.ite (Quiet.foldl _ quiet_l2Drop _ s) (quiet_reachSlice s _ _ _))
    (quiet_pokeBytes bs _ _ pa)).trans (quiet_setSync _ _ _ _ _)).trans
    (Quiet.ite (quiet_clearTags _ _ _) (Quiet.refl _))).trans (quiet_clearPoison _ _ _)

/-- A write of another core's, or this core's, pending abort or commit. -/
theorem quiet_specMark (s : State) (k : Nat) (sp : Spec)
    (h : sp = { (coreCtx s k).t.spec with pending := sp.pending, commit := sp.commit }) :
    Quiet s (setCoreCtx s k { coreCtx s k with t := { (coreCtx s k).t with spec := sp } }) := by
  refine quiet_setCoreCtx s k _ ?_
  simp only []
  rw [← h]

theorem quiet_watchSpec (s : State) (pa n : Nat) : Quiet s (watchSpec s pa n) := by
  refine Quiet.foldl _ (fun s k => ?_) _ s
  simp only []
  split
  · refine quiet_specMark s k _ ?_
    split
    · rfl
    · split
      · rfl
      · split <;> rfl
  · exact Quiet.refl s

theorem quiet_sinkWord (s : State) (j : Job) (off pa : Nat) : Quiet s (sinkWord s j off pa).2 := by
  unfold sinkWord
  simp only []
  split
  · exact quiet_bumpFree s
  · exact Quiet.refl s

theorem quiet_sinkWords (n : Nat) : ∀ (s : State) (j : Job) (pa : Nat), Quiet s (sinkWords s j pa n).2 := by
  induction n with
  | zero => intro s j pa; exact Quiet.refl s
  | succ n ih =>
    intro s j pa
    unfold sinkWords
    split
    · exact Quiet.refl s
    · split
      · exact ih s j _
      · exact (quiet_sinkWord s j _ _).trans (ih _ _ _)

theorem quiet_failJob (s : State) (core e : Nat) (x : JErr) : Quiet s (failJob s core e x) := quiet_onJob s core e _

theorem quiet_writeStatus {wr : Writer} (hw : QuietWriter wr) (s : State) (j : Job) (st : Nat) : Quiet s (writeStatus wr s j st) := by
  unfold writeStatus
  simp only []
  split
  · exact Quiet.refl s
  split
  · exact Quiet.refl s
  split
  · exact Quiet.refl s
  · exact (((quiet_l1DropOn hw s _ _).trans (Quiet.foldl _ (fun s _ => quiet_touchLines s _ _ _ _ _ _) _ _)).trans
      (quiet_tagLines _ _ _ _)).trans (Quiet.foldl _ (fun s _ => hw _ s _ _) _ _)

theorem quiet_closeJob {wr : Writer} (hw : QuietWriter wr) (s : State) (core e st : Nat) : Quiet s (closeJob wr s core e st) := by
  unfold closeJob
  have h := (quiet_setJob s core e
    { getJob s core e with st, armed := false, stopping := none, unsent := [], resend := [], flight := [] }).trans
    (quiet_writeStatus hw _ (getJob s core e) st)
  refine Quiet.ite (h.trans ((quiet_tickEpoch _).trans ?_)) h
  exact Quiet.ite (quiet_cntInc hw _ _ _ _ _ _) (Quiet.refl _)

theorem quiet_writeResults {wr : Writer} (hw : QuietWriter wr) (s u : State) (j : Job) (h : writeResults wr s j = .ok u) : Quiet s u := by
  unfold writeResults at h
  simp only [] at h
  have hf : Quiet s { s with free := s.free + jpar j 17 } :=
    ⟨⟨rfl, rfl, rfl, rfl, rfl, rfl, rfl, AccessFrame.core_eq_of rfl rfl rfl rfl, fun _ => rfl⟩, id⟩
  split at h
  · split at h
    · exact absurd h (by simp)
    · simp only [Except.ok.injEq] at h
      exact h ▸ hf.trans (quiet_setSpmBytesOf _ _ _ _)
  · split at h
    · exact absurd h (by simp)
    · simp only [Except.ok.injEq] at h
      exact h ▸ hf.trans (Quiet.foldl _ (fun s _ => hw _ s _ _) _ _)

theorem quiet_watchTrack {wr : Writer} (hw : QuietWriter wr) (s : State) (core e hit : Nat) : Quiet s (watchTrack wr s core e hit) := by
  unfold watchTrack
  exact Quiet.ite ((quiet_setJob s _ _ _).trans (quiet_closeJob hw _ _ _ _)) (quiet_setJob s _ _ _)

theorem quiet_watchSink {wr : Writer} (hw : QuietWriter wr) (s : State) (core e pa n : Nat) : Quiet s (watchSink wr s core e pa n) := by
  unfold watchSink
  simp only []
  split
  · exact quiet_failJob s _ _ _
  · have h : ∀ (xs : List (Nat × Nat)) (r : Job × State), Quiet s r.2 →
        Quiet s (xs.foldl (fun r x => sinkWords r.2 r.1 x.1 (x.2 / 4)) r).2 := by
      intro xs
      induction xs with
      | nil => intro r h; exact h
      | cons x rest ih => intro r h; exact ih _ (h.trans (quiet_sinkWords _ _ _ _))
    have h := h (cutBy (getJob s core e).ranges pa n) (getJob s core e, s) (Quiet.refl s)
    revert h
    generalize List.foldl _ (getJob s core e, s) _ = r
    intro h
    split
    · split
      · exact (h.trans (quiet_setJob _ _ _ _)).trans (quiet_failJob _ _ _ _)
      · next u hu =>
        exact (h.trans (quiet_setJob _ _ _ _)).trans
          (Quiet.trans (Quiet.trans (quiet_setJob _ _ _ _) (quiet_writeResults hw _ _ _ hu)) (quiet_closeJob hw _ _ _ _))
    · exact h.trans (quiet_setJob _ _ _ _)

theorem quiet_watchJob {wr : Writer} (hw : QuietWriter wr) (s : State) (core e pa n : Nat) : Quiet s (watchJob wr s core e pa n) := by
  unfold watchJob
  exact Quiet.ite (Quiet.refl s)
    (Quiet.ite (quiet_watchTrack hw s _ _ _) (Quiet.ite (quiet_watchSink hw s _ _ _ _) (Quiet.refl s)))

theorem quiet_sinkThrough (s : State) (pa n : Nat) : Quiet s (sinkThrough s pa n) :=
  Quiet.ite (((quiet_chargeHbm s _ _ _ _).trans (quiet_pokeBytes _ _ true pa)).trans (quiet_syncThrough _ _ _)) (Quiet.refl s)

theorem quiet_afterWrite (fuel : Nat) : ∀ (s : State) (pa n : Nat), Quiet s (afterWrite fuel s pa n) := by
  induction fuel with
  | zero => intro s _ _; exact Quiet.refl s
  | succ fuel ih =>
    intro s pa n
    unfold afterWrite
    simp only []
    refine (quiet_watchSpec s pa n).trans ?_
    split
    · exact Quiet.refl _
    · refine (quiet_sinkThrough _ pa n).trans (Quiet.foldl _ (fun s x => ?_) _ _)
      exact quiet_watchJob (fun how s pa bs => (quiet_baseWrite s pa bs how).trans (ih _ pa bs.length)) s _ _ pa n

/-- A write at its order point is quiet. -/
theorem quiet_orderWrite (s : State) (pa : Nat) (bs : List Byte) (how : WHow) : Quiet s (orderWrite s pa bs how) :=
  (quiet_baseWrite s pa bs how).trans (quiet_afterWrite _ _ _ _)

theorem quiet_orderWriteRange (s : State) (tint pa n : Nat) (cells : Tbl Byte) : Quiet s (orderWriteRange s tint pa n cells) := by
  unfold orderWriteRange
  refine (quiet_chargeHbm s pa tint n false).trans ((Quiet.trans ?_ (quiet_clearPoison _ _ _)).trans (quiet_afterWrite _ _ _ _))
  exact ⟨⟨rfl, rfl, rfl, rfl, rfl, rfl, rfl, AccessFrame.core_eq_of rfl rfl rfl rfl, fun _ => rfl⟩, fun h => ⟨twf_tputs 0 _ _ (twf_tclear 0 _ _ _ h.1), twf_tclear none _ _ _ h.2⟩⟩

theorem quiet_wrPlain : QuietWriter wrPlain := fun how s pa bs => quiet_orderWrite s pa bs how

theorem quiet_cntAdd (s : State) (n amount scope tag core : Nat) : Quiet s (cntAdd s n amount scope tag core) :=
  quiet_cntInc quiet_wrPlain s n amount scope tag core

/-! ## The L1 -/

theorem quiet_l1Clean (s : State) (line : Nat) : Quiet s (l1Clean s line) := quiet_l1CleanBy quiet_wrPlain s line
theorem quiet_l1Drop (s : State) (line : Nat) : Quiet s (l1Drop s line) := quiet_l1DropBy quiet_wrPlain s line
theorem quiet_l1DropOf (s : State) (core : Nat) (ls : List Nat) : Quiet s (l1DropOf s core ls) := quiet_l1DropOn quiet_wrPlain s core ls
theorem quiet_l1DropAll (s : State) : Quiet s (l1DropAll s) := Quiet.foldl _ (fun s (e : Nat × Option L1Line) => quiet_l1Drop s e.1) s.c.l1 s
theorem quiet_l1CleanAll (s : State) : Quiet s (l1CleanAll s) := Quiet.foldl _ (fun s (e : Nat × Option L1Line) => quiet_l1Clean s e.1) s.c.l1 s

theorem quiet_l1Fill (s : State) (line hint : Nat) : Quiet s (l1Fill s line hint) := by
  unfold l1Fill
  split
  · exact Quiet.refl s
  · simp only []
    have h := quiet_l2touch s (128 * line) 128 hint (tint s) true false
    revert h
    generalize l2touch s (128 * line) 128 hint (tint s) true false = u
    intro h
    refine Quiet.trans ?_ (quiet_l1Set _ _ _)
    split
    · exact Quiet.ite (h.trans (quiet_l1Drop _ _)) h
    · exact h

theorem quiet_noteRec (s : State) (r : Option SyncRec) : Quiet s (noteRec s r) := by
  unfold noteRec
  split
  · split
    · exact Quiet.refl s
    · exact ⟨⟨rfl, rfl, rfl, rfl, rfl, rfl, rfl, AccessFrame.core_eq_of rfl rfl rfl rfl, fun _ => rfl⟩, id⟩
  · exact Quiet.refl s

theorem quiet_noteRecs (s : State) (pa n : Nat) : Quiet s (noteRecs s pa n) := by
  unfold noteRecs
  exact Quiet.ite (Quiet.refl s) (Quiet.foldl _ (fun s (e : Nat × Option SyncRec) => quiet_noteRec s e.2) _ s)

theorem quiet_noteL1 (s : State) (l : L1Line) (k n : Nat) : Quiet s (noteL1 s l k n) :=
  Quiet.foldl _ (fun s (e : Nat × Option SyncRec) => Quiet.ite (quiet_noteRec s e.2) (Quiet.refl s)) l.recs s

theorem quiet_bring (s : State) (hint : Nat) (write : Bool) (ps : List Piece) : Quiet s (bring s hint write ps) :=
  Quiet.foldl _ (fun s _ => Quiet.ite (Quiet.refl s)
    (Quiet.foldl _ (fun s _ => Quiet.ite (Quiet.refl s) (quiet_l2touch s _ _ _ _ _ _)) _ s)) ps s

/-! ## Plain accesses -/

theorem quiet_loadLine (s : State) (pg : PageInfo) (hint pa n : Nat) : Quiet s (loadLine s pg hint pa n).2 := by
  unfold loadLine
  simp only []
  split
  · have h : Quiet s (if (poisoned s (128 * (pa / 128)) 128).isSome then s else l1Fill s (pa / 128) hint) :=
      Quiet.ite (Quiet.refl s) (quiet_l1Fill s _ _)
    split
    · exact h.trans (quiet_noteL1 _ _ _ _)
    · exact (h.trans (quiet_noteRecs _ _ _)).trans (quiet_l2touch _ _ _ _ _ _ _)
  · exact ((quiet_l1Drop s _).trans (quiet_l2touch _ _ _ _ _ _ _)).trans (quiet_noteRecs _ _ _)

theorem quiet_loadLines (pg : PageInfo) (hint fuel : Nat) : ∀ (s : State) (pa n : Nat), Quiet s (loadLines s pg hint fuel pa n).2 := by
  induction fuel with
  | zero => intro s _ _; exact Quiet.refl s
  | succ fuel ih =>
    intro s pa n
    unfold loadLines
    split
    · exact Quiet.refl s
    · exact (quiet_loadLine s pg hint pa _).trans (ih _ _ _)

theorem quiet_loadPieces (hint : Nat) (ps : List Piece) : ∀ s : State, Quiet s (loadPieces s hint ps).2 := by
  induction ps with
  | nil => intro s; exact Quiet.refl s
  | cons p rest ih =>
    intro s
    unfold loadPieces
    exact (quiet_loadLines _ _ _ s _ _).trans (ih _)

/-- A plain read that succeeds is quiet. -/
theorem quiet_plainReadAs (s s' : State) (asid : Nat) (sup : Bool) (va n hint : Nat) (bs : List Byte)
    (h : plainReadAs s asid sup va n hint = .ok (bs, s')) : Quiet s s' := by
  unfold plainReadAs at h
  split at h
  · exact absurd h (by simp)
  split at h
  · exact absurd h (by simp)
  · next ps _ _ _ =>
    simp only [Except.ok.injEq] at h
    have := quiet_loadPieces hint ps (tagLines (bring (notePieces s asid va ps) hint false ps)
      (meAgent (bring (notePieces s asid va ps) hint false ps)) false (checkedLines ps))
    rw [h] at this
    exact (((quiet_notePieces s _ _ _).trans (quiet_bring _ _ _ _)).trans (quiet_tagLines _ _ _ _)).trans this

theorem quiet_plainRead (s s' : State) (va n hint : Nat) (bs : List Byte) (h : plainRead s va n hint = .ok (bs, s')) : Quiet s s' :=
  quiet_plainReadAs s s' _ _ va n hint bs h

theorem quiet_l1Mend (s : State) (pa n : Nat) : Quiet s (l1Mend s pa n) :=
  Quiet.ite (Quiet.refl s) ⟨⟨rfl, rfl, rfl, rfl, rfl, rfl, rfl, AccessFrame.core_eq_of rfl rfl rfl rfl, fun _ => rfl⟩, id⟩

theorem quiet_storeLine (s : State) (pg : PageInfo) (hint pa : Nat) (bs : List Byte) (r : Option SyncRec) :
    Quiet s (storeLine s pg hint pa bs r) := by
  unfold storeLine
  simp only []
  split
  · have h : Quiet s (if (poisoned s (128 * (pa / 128)) 128).isSome then s else l1Fill s (pa / 128) hint) :=
      Quiet.ite (Quiet.refl s) (quiet_l1Fill s _ _)
    split
    · exact (h.trans (quiet_l1Set _ _ _)).trans (quiet_l1Mend _ _ _)
    · exact (h.trans (quiet_l2touch _ _ _ _ _ _ _)).trans (quiet_orderWrite _ _ _ _)
  · exact ((quiet_l1Drop s _).trans (quiet_l2touch _ _ _ _ _ _ _)).trans (quiet_orderWrite _ _ _ _)

theorem quiet_storeLines (pg : PageInfo) (hint fuel : Nat) (r : Option SyncRec) :
    ∀ (s : State) (pa : Nat) (bs : List Byte), Quiet s (storeLines s pg hint fuel pa bs r) := by
  induction fuel with
  | zero => intro s _ _; exact Quiet.refl s
  | succ fuel ih =>
    intro s pa bs
    unfold storeLines
    split
    · exact Quiet.refl s
    · exact (quiet_storeLine s pg hint pa _ r).trans (ih _ _ _)

theorem quiet_storePieces (s : State) (hint : Nat) (ps : List Piece) (bs : List Byte) : Quiet s (storePieces s hint ps bs) :=
  Quiet.foldl _ (fun s _p => quiet_storeLines _ _ _ _ s _ _) ps s

/-- A plain write that succeeds is quiet. -/
theorem quiet_plainWrite (s s' : State) (va : Nat) (bs : List Byte) (hint : Nat) (h : plainWrite s va bs hint = .ok s') : Quiet s s' := by
  unfold plainWrite at h
  split at h
  · exact absurd h (by simp)
  split at h
  · exact absurd h (by simp)
  · simp only [Except.ok.injEq] at h
    rw [← h]
    exact (((quiet_notePieces s _ _ _).trans (quiet_bring _ _ _ _)).trans (quiet_tagLines _ _ _ _)).trans (quiet_storePieces _ _ _ _)

theorem quiet_l1DropLines (ps : List Piece) (s : State) : Quiet s (ps.foldl (fun s p => (linesOf p.pg.pa p.len).foldl l1Drop s) s) :=
  Quiet.foldl _ (fun s _ => Quiet.foldl _ quiet_l1Drop _ s) ps s

/-- A read at the order point that succeeds is quiet. -/
theorem quiet_orderRead (s s' : State) (va n : Nat) (a : Acc) (ps : List Piece) (h : orderRead s va n a = .ok (ps, s')) : Quiet s s' := by
  unfold orderRead at h
  split at h
  · exact absurd h (by simp)
  simp only [] at h
  split at h
  · exact absurd h (by simp)
  · simp only [Except.ok.injEq, Prod.mk.injEq] at h
    rw [← h.2]
    exact (((quiet_notePieces s _ _ _).trans (quiet_l1DropLines _ _)).trans
      (Quiet.foldl _ (fun s _ => quiet_touchLines s _ _ _ _ _ _) _ _)).trans (quiet_tagLines _ _ _ _)

end Sys2Proof.Machine
end

