-- ==== Sys2Proof/Laws/Bytes.lean ====
section
/-! SUPPORT. Which bytes an access may write: `Within A s u` says that from `s` to `u` memory has changed only in `A`, but for bytes
the core's own L1 held written, and that the L1 holds no more of those outside `A` than it did. One lemma for each operation of the
memory system, where no armed job watches (R324, R368). -/

namespace Sys2Proof.Machine

namespace Still

theorem refl (s : State) : Still s s := ⟨fun _ => ⟨rfl, rfl⟩, fun _ => rfl, ⟨rfl, rfl, rfl, rfl, rfl⟩, fun _ => rfl⟩

theorem trans {s t u : State} (h : Still s t) (k : Still t u) : Still s u :=
  ⟨fun n => ⟨(k.spm_eq n).1.trans (h.spm_eq n).1, (k.spm_eq n).2.trans (h.spm_eq n).2⟩,
    fun n => (k.jobs_eq n).trans (h.jobs_eq n),
    ⟨k.pkg_eq.1.trans h.pkg_eq.1, k.pkg_eq.2.1.trans h.pkg_eq.2.1, k.pkg_eq.2.2.1.trans h.pkg_eq.2.2.1,
      k.pkg_eq.2.2.2.1.trans h.pkg_eq.2.2.2.1, k.pkg_eq.2.2.2.2.trans h.pkg_eq.2.2.2.2⟩,
    fun d => (k.queues_eq d).trans (h.queues_eq d)⟩

theorem unwatched {s u : State} (h : Still s u) (hs : s.unwatched) : u.unwatched := fun n e he => hs n e (h.jobs_eq n ▸ he)

end Still

/-- What an update keeps of what Still names: the core in focus's scratchpad and jobs, the other cores, the queues, and the package's
tables. -/
def Keeps (s u : State) : Prop :=
  (u.cur = s.cur ∧ u.others = s.others ∧ u.c.spm = s.c.spm ∧ u.c.spmPoison = s.c.spmPoison ∧ u.c.jobs = s.c.jobs) ∧
    (u.pkg.counters = s.pkg.counters ∧ u.pkg.scoperec = s.pkg.scoperec ∧ u.pkg.tasks = s.pkg.tasks ∧
      u.pkg.atOnce = s.pkg.atOnce ∧ u.pkg.epoch = s.pkg.epoch) ∧ ∀ d, (getDie u d).queues = (getDie s d).queues

theorem Keeps.still {s u : State} (h : Keeps s u) : Still s u := by
  obtain ⟨⟨h1, h2, h3, h4, h5⟩, hp, hd⟩ := h
  refine ⟨fun n => ?_, fun n => ?_, hp, hd⟩ <;>
  · unfold coreCtx
    rw [h1, h2]
    split
    · first | exact ⟨h3, h4⟩ | exact h5
    · first | exact ⟨rfl, rfl⟩ | rfl

/-- Where no job watches: nothing outside `A` has been written but what the L1 held written, and nothing else is set in motion. -/
def Within (A : Nat → Prop) (s u : State) : Prop :=
  s.unwatched →
    Still s u ∧ (∀ a, ¬A a → peek u a = peek s a ∨ ownDirty s a = some (peek u a)) ∧
      ∀ a b, ¬A a → ownDirty u a = some b → ownDirty s a = some b

namespace Within

theorem refl (A : Nat → Prop) (s : State) : Within A s s := fun _ => ⟨Still.refl s, fun _ _ => .inl rfl, fun _ _ _ k => k⟩

theorem trans {A : Nat → Prop} {s t u : State} (h : Within A s t) (k : Within A t u) : Within A s u := by
  intro hs
  obtain ⟨ht, hb, hd⟩ := h hs
  obtain ⟨hu, kb, kd⟩ := k (ht.unwatched hs)
  refine ⟨ht.trans hu, fun a ha => ?_, fun a b ha e => hd a b ha (kd a b ha e)⟩
  rcases kb a ha with e | e
  · rw [e]; exact hb a ha
  · exact .inr (hd a _ ha e)

theorem mono {A B : Nat → Prop} {s u : State} (h : Within A s u) (hAB : ∀ a, A a → B a) : Within B s u := fun hs =>
  ⟨(h hs).1, fun a ha => (h hs).2.1 a fun x => ha (hAB a x), fun a b ha => (h hs).2.2 a b fun x => ha (hAB a x)⟩

theorem foldl {A : Nat → Prop} {β : Type} (f : State → β → State) (xs : List β)
    (hf : ∀ x ∈ xs, ∀ s, Within A s (f s x)) (s : State) : Within A s (xs.foldl f s) := by
  induction xs generalizing s with
  | nil => exact refl A s
  | cons x rest ih =>
    exact (hf x (by simp) s).trans (ih (fun y hy => hf y (by simp [hy])) _)

theorem ite {A : Nat → Prop} {s t u : State} {p : Prop} [Decidable p] (h : Within A s t) (k : Within A s u) :
    Within A s (if p then t else u) := by
  split <;> assumption

theorem onlyBytes {A : Nat → Prop} {s u : State} (h : Within A s u) : OnlyBytes A s u := fun hs => (h hs).2.1

theorem still {A : Nat → Prop} {s u : State} (h : Within A s u) (hs : s.unwatched) : Still s u := (h hs).1

theorem unwatched {A : Nat → Prop} {s u : State} (h : Within A s u) (hs : s.unwatched) : u.unwatched := (h hs).1.unwatched hs

end Within

/-- Where bytes and L1 lines stay as they are, nothing is written. -/
theorem within_same {A : Nat → Prop} {s u : State} (hm : u.pkg.mem = s.pkg.mem) (hd : u.pkg.dirty = s.pkg.dirty)
    (hl : u.c.l1 = s.c.l1) (hs : Still s u) : Within A s u := by
  refine fun _ => ⟨hs, fun a _ => .inl ?_, fun a b _ h => ?_⟩
  · simp only [peek, hm, hd]
  · simpa only [ownDirty, l1Get, hl] using h

theorem within_onPkg {A : Nat → Prop} (s : State) (f : Pkg → Pkg) (hm : (f s.pkg).mem = s.pkg.mem)
    (hd : (f s.pkg).dirty = s.pkg.dirty)
    (hp : (f s.pkg).counters = s.pkg.counters ∧ (f s.pkg).scoperec = s.pkg.scoperec ∧ (f s.pkg).tasks = s.pkg.tasks ∧
      (f s.pkg).atOnce = s.pkg.atOnce ∧ (f s.pkg).epoch = s.pkg.epoch := by exact ⟨rfl, rfl, rfl, rfl, rfl⟩) : Within A s (onPkg s f) :=
  within_same hm hd rfl (Keeps.still ⟨⟨rfl, rfl, rfl, rfl, rfl⟩, hp, fun _ => rfl⟩)

theorem within_onDie {A : Nat → Prop} (s : State) (d : Nat) (f : Die → Die) (h : (f (getDie s d)).queues = (getDie s d).queues) :
    Within A s (onDie s d f) :=
  within_same rfl rfl rfl (Keeps.still ⟨⟨rfl, rfl, rfl, rfl, rfl⟩, ⟨rfl, rfl, rfl, rfl, rfl⟩, fun k => by
    unfold onDie setDie getDie at *
    simp only [tget_tset]
    split
    · next hk => subst hk; exact h
    · rfl⟩)

theorem within_onT {A : Nat → Prop} (s : State) (f : Task → Task) : Within A s (onT s f) :=
  within_same rfl rfl rfl (Keeps.still ⟨⟨rfl, rfl, rfl, rfl, rfl⟩, ⟨rfl, rfl, rfl, rfl, rfl⟩, fun _ => rfl⟩)

theorem within_bumpFree {A : Nat → Prop} (s : State) : Within A s (bumpFree s) :=
  within_same rfl rfl rfl (Keeps.still ⟨⟨rfl, rfl, rfl, rfl, rfl⟩, ⟨rfl, rfl, rfl, rfl, rfl⟩, fun _ => rfl⟩)

/-! ## Budgets and the L2 -/

theorem within_charge {A : Nat → Prop} (s : State) (die r tint n : Nat) : Within A s (charge s die r tint n) := within_onDie s _ _ rfl

theorem within_chargeHbm {A : Nat → Prop} (s : State) (pa tint n : Nat) (mine : Bool) : Within A s (chargeHbm s pa tint n mine) := by
  unfold chargeHbm
  split
  · simp only []
    split
    · exact (within_charge s _ _ _ _).trans (within_onT _ _)
    · exact within_charge s _ _ _ _
  · exact Within.refl A s

/-- The keys of a slice, moved back, are keys of the table in the range; a byte in the range without one has no entry. -/
theorem tslice_keys {α : Type} (d : α) (m : Tbl α) (lo n a : Nat) (ha : lo ≤ a ∧ a < lo + n)
    (h : ∀ e ∈ tslice m lo n, lo + e.1 ≠ a) : tget d m a = d := by
  induction m with
  | nil => rfl
  | cons x rest ih =>
    have hx : x.1 ≠ a := by
      intro hx
      refine h (x.1 - lo, x.2) ?_ (by simp only []; omega)
      unfold tslice
      exact List.mem_map.2 ⟨x, List.mem_filter.2 ⟨by simp, by simp; omega⟩, rfl⟩
    have hr := ih fun e he => h e (by
      unfold tslice at he ⊢
      rw [List.filter_cons]; split
      · simp only [List.map_cons, List.mem_cons]; exact .inr he
      · exact he)
    obtain ⟨k, v⟩ := x
    simpa [tget, hx] using hr

theorem tget_tclear {α : Type} (d : α) (m : Tbl α) (lo n a : Nat) :
    tget d (tclear m lo n) a = if lo ≤ a ∧ a < lo + n then d else tget d m a := by
  induction m with
  | nil => simp [tclear, tget]
  | cons x rest ih =>
    obtain ⟨k, v⟩ := x
    unfold tclear at ih ⊢
    by_cases hk : lo ≤ k ∧ k < lo + n
    · simp only [List.filter_cons, hk.1, hk.2, decide_true, Bool.and_self, Bool.not_true, Bool.false_eq_true, if_false, ih, tget]
      split
      · rfl
      · next h => rw [if_neg]; rintro rfl; exact h hk
    · have : (!(decide (lo ≤ k) && decide (k < lo + n))) = true := by simp; omega
      simp only [List.filter_cons, this, if_true, tget, ih]
      split
      · next h => subst h; rw [if_neg hk]
      · rfl

/-- Writing to some keys the values a function gives there. -/
theorem tget_foldl_fill {α β : Type} [DecidableEq α] (d : α) (key : β → Nat) (f : Nat → α) (xs : List β) :
    ∀ (m : Tbl α) (a : Nat), tget d (xs.foldl (fun m e => tset d m (key e) (f (key e))) m) a = f a ∨
      (tget d (xs.foldl (fun m e => tset d m (key e) (f (key e))) m) a = tget d m a ∧ ∀ e ∈ xs, key e ≠ a) := by
  induction xs with
  | nil => intro m a; exact .inr ⟨rfl, by simp⟩
  | cons x rest ih =>
    intro m a
    rw [List.foldl_cons]
    rcases ih (tset d m (key x) (f (key x))) a with h | ⟨h, hn⟩
    · exact .inl h
    · rw [h, tget_tset]
      by_cases ha : a = key x
      · subst ha; left; simp
      · right; rw [if_neg ha]; exact ⟨rfl, by simpa using ⟨Ne.symm ha, hn⟩⟩

/-- What goes through to memory of the sync records changes nothing that Still names, and no byte. -/
theorem syncThrough_same (s : State) (pa n : Nat) :
    (syncThrough s pa n).pkg.mem = s.pkg.mem ∧ (syncThrough s pa n).pkg.dirty = s.pkg.dirty ∧ (syncThrough s pa n).c = s.c ∧
      Keeps s (syncThrough s pa n) := by
  unfold syncThrough
  split <;> exact ⟨rfl, rfl, rfl, ⟨rfl, rfl, rfl, rfl, rfl⟩, ⟨rfl, rfl, rfl, rfl, rfl⟩, fun _ => rfl⟩

theorem peek_flushLine (s : State) (line a : Nat) : peek (flushLine s line) a = peek s a := by
  obtain ⟨em, ed, -, -⟩ := syncThrough_same s (128 * line) 128
  have hm := tget_foldl_fill (0 : Byte) (fun e : Nat × Option Byte => 128 * line + e.1) (peek s)
    (tslice s.pkg.dirty (128 * line) 128) s.pkg.mem a
  show (match tget none (tclear (syncThrough s (128 * line) 128).pkg.dirty (128 * line) 128) a with
    | some b => b
    | none => tget 0 (List.foldl (fun m (e : Nat × Option Byte) => tset 0 m (128 * line + e.1) (peek s (128 * line + e.1)))
        (syncThrough s (128 * line) 128).pkg.mem (tslice (syncThrough s (128 * line) 128).pkg.dirty (128 * line) 128)) a) = _
  rw [em, ed, tget_tclear]
  by_cases hr : 128 * line ≤ a ∧ a < 128 * line + 128
  · rw [if_pos hr]
    rcases hm with e | ⟨e, hn⟩
    · exact e
    · refine e.trans ?_
      unfold peek
      rw [tslice_keys none _ _ _ a hr hn]
  · rw [if_neg hr]
    cases hd : tget none s.pkg.dirty a with
    | some b => unfold peek; rw [hd]
    | none =>
      have hp : peek s a = tget 0 s.pkg.mem a := by unfold peek; rw [hd]
      rw [hp] at hm ⊢
      rcases hm with e | ⟨e, _⟩ <;> exact e
/-- A change that no byte shows and that keeps everything else is a change of nothing. -/
theorem within_hidden {A : Nat → Prop} {s u : State} (hp : ∀ a, peek u a = peek s a) (hc : u.c = s.c) (hs : Still s u) :
    Within A s u := by
  refine fun _ => ⟨hs, fun a _ => .inl (hp a), fun a b _ h => ?_⟩
  simpa only [ownDirty, l1Get, hc] using h

/-- `u` differs from `s` in what no byte and no core shows. -/
structure Hidden (s u : State) : Prop where
  peek_eq : ∀ a, peek u a = peek s a
  c_eq : u.c = s.c
  keeps : Keeps s u

namespace Hidden

theorem refl (s : State) : Hidden s s := ⟨fun _ => rfl, rfl, ⟨rfl, rfl, rfl, rfl, rfl⟩, ⟨rfl, rfl, rfl, rfl, rfl⟩, fun _ => rfl⟩

theorem trans {s t u : State} (h : Hidden s t) (k : Hidden t u) : Hidden s u := by
  obtain ⟨h1, h2, ⟨h3, h4, h5, h6, h7⟩, ⟨g1, g2, g3, g4, g5⟩, hq⟩ := h
  obtain ⟨k1, k2, ⟨k3, k4, k5, k6, k7⟩, ⟨f1, f2, f3, f4, f5⟩, kq⟩ := k
  exact ⟨fun a => (k1 a).trans (h1 a), k2.trans h2,
    ⟨k3.trans h3, k4.trans h4, k5.trans h5, k6.trans h6, k7.trans h7⟩,
    ⟨f1.trans g1, f2.trans g2, f3.trans g3, f4.trans g4, f5.trans g5⟩, fun d => (kq d).trans (hq d)⟩

theorem within {A : Nat → Prop} {s u : State} (h : Hidden s u) : Within A s u := within_hidden h.peek_eq h.c_eq h.keeps.still

theorem foldl {β : Type} (f : State → β → State) (hf : ∀ s x, Hidden s (f s x)) (xs : List β) (s : State) : Hidden s (xs.foldl f s) := by
  induction xs generalizing s with
  | nil => exact refl s
  | cons x rest ih => exact (hf s x).trans (ih _)

theorem ite {s t u : State} {p : Prop} [Decidable p] (h : Hidden s t) (k : Hidden s u) : Hidden s (if p then t else u) := by
  split <;> assumption

theorem onPkg (s : State) (f : Pkg → Pkg) (hm : (f s.pkg).mem = s.pkg.mem) (hd : (f s.pkg).dirty = s.pkg.dirty)
    (hp : (f s.pkg).counters = s.pkg.counters ∧ (f s.pkg).scoperec = s.pkg.scoperec ∧ (f s.pkg).tasks = s.pkg.tasks ∧
      (f s.pkg).atOnce = s.pkg.atOnce ∧ (f s.pkg).epoch = s.pkg.epoch := by exact ⟨rfl, rfl, rfl, rfl, rfl⟩) : Hidden s (onPkg s f) :=
  ⟨fun a => by simp only [peek, onPkg_pkg, hm, hd], rfl, ⟨rfl, rfl, rfl, rfl, rfl⟩, hp, fun _ => rfl⟩

end Hidden

theorem hidden_chargeHbm (s : State) (pa tint n : Nat) (mine : Bool) : Hidden s (chargeHbm s pa tint n mine) := by
  have hq : ∀ d, (getDie (charge s (paDie pa) 0 tint n) d).queues = (getDie s d).queues := fun d => by
    unfold charge onDie setDie getDie
    simp only [tget_tset]
    split
    · next h => subst h; rfl
    · rfl
  unfold chargeHbm
  split
  · simp only []
    split
    · exact ⟨fun _ => rfl, rfl, ⟨rfl, rfl, rfl, rfl, rfl⟩, ⟨rfl, rfl, rfl, rfl, rfl⟩, hq⟩
    · exact ⟨fun _ => rfl, rfl, ⟨rfl, rfl, rfl, rfl, rfl⟩, ⟨rfl, rfl, rfl, rfl, rfl⟩, hq⟩
  · exact Hidden.refl s

theorem hidden_l2Clean (s : State) (line : Nat) : Hidden s (l2Clean s line) := by
  unfold l2Clean
  refine Hidden.ite (Hidden.refl s) (Hidden.trans ?_ (hidden_chargeHbm _ _ _ _ _))
  exact ⟨peek_flushLine s line, (syncThrough_same s (128 * line) 128).2.2.1, (syncThrough_same s (128 * line) 128).2.2.2⟩

theorem hidden_l2Drop (s : State) (line : Nat) : Hidden s (l2Drop s line) := (hidden_l2Clean s line).trans (Hidden.onPkg _ _ rfl rfl)

/-- A line that enters the L2 and the one it replaces change no byte. -/
theorem hidden_l2Fill (s : State) (line hint tint : Nat) : Hidden s (l2Fill s line hint tint) := by
  unfold l2Fill
  simp only []
  split
  · exact (hidden_l2Drop s _).trans (Hidden.onPkg _ _ rfl rfl)
  · exact Hidden.onPkg s _ rfl rfl

theorem hidden_l2touch (s : State) (pa n hint tint : Nat) (mine write : Bool) : Hidden s (l2touch s pa n hint tint mine write) := by
  unfold l2touch
  split
  · exact Hidden.refl s
  split
  · split
    · exact Hidden.ite (hidden_chargeHbm s _ _ _ _) (Hidden.refl s)
    · exact Hidden.onPkg s _ rfl rfl
  · split
    · exact hidden_chargeHbm s _ _ _ _
    · exact (hidden_l2Fill s _ _ _).trans (hidden_chargeHbm _ _ _ _ _)

theorem hidden_touchLines (s : State) (pa n hint tint : Nat) (mine write : Bool) : Hidden s (touchLines s pa n hint tint mine write) :=
  Hidden.foldl _ (fun s _ => hidden_l2touch s _ _ _ _ _ _) _ s

theorem hidden_allocLines (s : State) (pa n tint : Nat) : Hidden s (allocLines s pa n tint) := by
  refine Hidden.foldl _ (fun s l => ?_) _ s
  exact Hidden.ite (Hidden.refl s) ((hidden_l2Fill s l 1 tint).trans (hidden_chargeHbm _ _ _ _ _))

theorem hidden_reachSlice (s : State) (pa n : Nat) (how : WHow) : Hidden s (reachSlice s pa n how) := by
  unfold reachSlice
  split
  · exact hidden_touchLines s _ _ _ _ _ _
  · exact Hidden.ite (Hidden.refl s) (hidden_allocLines s _ _ _)

theorem hidden_bring (s : State) (hint : Nat) (write : Bool) (ps : List Piece) : Hidden s (bring s hint write ps) :=
  Hidden.foldl _ (fun s _ => Hidden.ite (Hidden.refl s)
    (Hidden.foldl _ (fun s _ => Hidden.ite (Hidden.refl s) (hidden_l2touch s _ _ _ _ _ _)) _ s)) ps s

theorem within_l2touch {A : Nat → Prop} (s : State) (pa n hint tint : Nat) (mine write : Bool) :
    Within A s (l2touch s pa n hint tint mine write) := (hidden_l2touch s pa n hint tint mine write).within

theorem within_touchLines {A : Nat → Prop} (s : State) (pa n hint tint : Nat) (mine write : Bool) :
    Within A s (touchLines s pa n hint tint mine write) := (hidden_touchLines s pa n hint tint mine write).within

theorem within_l2Drop {A : Nat → Prop} (s : State) (line : Nat) : Within A s (l2Drop s line) := (hidden_l2Drop s line).within

theorem within_bring {A : Nat → Prop} (s : State) (hint : Nat) (write : Bool) (ps : List Piece) :
    Within A s (bring s hint write ps) := (hidden_bring s hint write ps).within

/-! ## Physical bytes -/

theorem peek_poke (s : State) (bypass : Bool) (pa : Nat) (b : Byte) (a : Nat) :
    peek (poke s bypass pa b) a = if a = pa then b else peek s a := by
  unfold poke
  by_cases h : a = pa
  · subst h; split <;> simp [peek]
  · split <;> simp [peek, tget_tset, h]

theorem peek_pokeBytes (bs : List Byte) : ∀ (s : State) (bypass : Bool) (pa a : Nat),
    peek (pokeBytes s bypass pa bs) a = if pa ≤ a ∧ a < pa + bs.length then bs.getD (a - pa) 0 else peek s a := by
  induction bs with
  | nil =>
    intro s _ pa a
    rw [if_neg (by simp only [List.length_nil]; omega)]
    rfl
  | cons b rest ih =>
    intro s bypass pa a
    rw [pokeBytes, ih, peek_poke]
    by_cases h : a = pa
    · subst h
      have h2 : ¬(a + 1 ≤ a ∧ a < a + 1 + rest.length) := by omega
      have h3 : a ≤ a ∧ a < a + (b :: rest).length := by simp
      rw [if_neg h2, if_pos rfl, if_pos h3, Nat.sub_self]; rfl
    · by_cases h2 : pa + 1 ≤ a ∧ a < pa + 1 + rest.length
      · obtain ⟨k, rfl⟩ : ∃ k, a = pa + 1 + k := ⟨a - (pa + 1), by omega⟩
        have h3 : pa ≤ pa + 1 + k ∧ pa + 1 + k < pa + (b :: rest).length := by simp; omega
        rw [if_pos h2, if_pos h3]
        have e1 : pa + 1 + k - (pa + 1) = k := by omega
        have e2 : pa + 1 + k - pa = k + 1 := by omega
        rw [e1, e2, List.getD_cons_succ]
      · have h3 : ¬(pa ≤ a ∧ a < pa + (b :: rest).length) := by simp; omega
        rw [if_neg h2, if_neg h3, if_neg h]

theorem poke_same (s : State) (bypass : Bool) (pa : Nat) (b : Byte) :
    (poke s bypass pa b).c = s.c ∧ Keeps s (poke s bypass pa b) := by
  unfold poke
  split <;> exact ⟨rfl, ⟨rfl, rfl, rfl, rfl, rfl⟩, ⟨rfl, rfl, rfl, rfl, rfl⟩, fun _ => rfl⟩

theorem pokeBytes_same (bs : List Byte) : ∀ (s : State) (bypass : Bool) (pa : Nat),
    (pokeBytes s bypass pa bs).c = s.c ∧ Still s (pokeBytes s bypass pa bs) := by
  induction bs with
  | nil => intro s _ _; exact ⟨rfl, Still.refl s⟩
  | cons b rest ih =>
    intro s bypass pa
    obtain ⟨h1, h2⟩ := ih (poke s bypass pa b) bypass (pa + 1)
    obtain ⟨k1, k2⟩ := poke_same s bypass pa b
    exact ⟨h1.trans k1, k2.still.trans h2⟩

/-- A range of `n` bytes from `pa`. -/
def InRange (pa n a : Nat) : Prop := pa ≤ a ∧ a < pa + n

theorem within_pokeBytes (s : State) (bypass : Bool) (pa : Nat) (bs : List Byte) :
    Within (InRange pa bs.length) s (pokeBytes s bypass pa bs) := by
  obtain ⟨h1, h2⟩ := pokeBytes_same bs s bypass pa
  refine fun _ => ⟨h2, fun a ha => .inl ?_, fun a b _ h => ?_⟩
  · rw [peek_pokeBytes]; exact if_neg ha
  · simpa only [ownDirty, l1Get, h1] using h

/-! ## What a performed write sets off -/

theorem within_setSync {A : Nat → Prop} (s : State) (pa n : Nat) (r : Option SyncRec) (through : Bool) :
    Within A s (setSync s pa n r through) :=
  Within.ite (Within.refl A s) (within_onPkg s _ rfl rfl)

theorem within_clearTags {A : Nat → Prop} (s : State) (pa n : Nat) : Within A s (clearTags s pa n) :=
  Within.ite (Within.refl A s) (within_onPkg s _ rfl rfl)

theorem within_clearPoison {A : Nat → Prop} (s : State) (pa n : Nat) : Within A s (clearPoison s pa n) :=
  Within.ite (Within.refl A s) (within_onPkg s _ rfl rfl)

theorem within_setCoreCtx {A : Nat → Prop} (s : State) (k : Nat) (x : CoreCtx) (hx : x.c = (coreCtx s k).c) :
    Within A s (setCoreCtx s k x) := by
  have hc : ∀ n, (coreCtx (setCoreCtx s k x) n).c = (coreCtx s n).c := fun n => by
    rw [coreCtx_setCoreCtx]
    split
    · next h => subst h; exact hx
    · rfl
  refine within_same ?_ ?_ ?_ ⟨fun n => ?_, fun n => ?_, ?_, fun d => ?_⟩
  · unfold setCoreCtx; split <;> rfl
  · unfold setCoreCtx; split <;> rfl
  · unfold setCoreCtx
    split
    · next h => subst h; simpa [coreCtx] using congrArg CoreHw.l1 hx
    · rfl
  · rw [hc n]; exact ⟨rfl, rfl⟩
  · rw [hc n]
  · unfold setCoreCtx; split <;> exact ⟨rfl, rfl, rfl, rfl, rfl⟩
  · unfold setCoreCtx; split <;> rfl

theorem within_watchSpec {A : Nat → Prop} (s : State) (pa n : Nat) : Within A s (watchSpec s pa n) := by
  refine Within.foldl _ _ (fun k _ s => ?_) s
  simp only []
  split
  · exact within_setCoreCtx s k _ rfl
  · exact Within.refl A s

/-- Where no job watches, no armed tracker or sink is live. -/
theorem no_watchers (s : State) (h : s.unwatched) :
    ((liveJobs s).filter fun x => x.2.2.armed && (x.2.2.eng = 3 || x.2.2.eng = 5)) = [] := by
  rw [List.filter_eq_nil_iff]
  intro x hx
  unfold liveJobs at hx
  rw [List.mem_flatMap] at hx
  obtain ⟨n, _, hx⟩ := hx
  rw [List.mem_map] at hx
  obtain ⟨e, he, rfl⟩ := hx
  rw [List.mem_filter] at he
  intro hc
  simp only [Bool.and_eq_true, Bool.or_eq_true, decide_eq_true_eq] at hc
  have := h n e he.1 he.2 hc.1
  omega

theorem afterWrite_unwatched (fuel : Nat) (s : State) (pa n : Nat) (h : s.unwatched) :
    afterWrite (fuel + 1) s pa n = watchSpec s pa n := by
  unfold afterWrite
  have hw := (within_watchSpec (A := NoByte) s pa n).unwatched h
  simp only [no_watchers _ hw, List.isEmpty_nil, if_true]

/-- What a write does to the L2's lines before its bytes change no byte. -/
theorem hidden_room (s : State) (pa n : Nat) (how : WHow) :
    Hidden s (if how.base then (linesOf pa n).foldl l2Drop s else reachSlice s pa n how) :=
  Hidden.ite (Hidden.foldl _ hidden_l2Drop _ s) (hidden_reachSlice s _ _ _)

theorem unwatched_baseWrite (s : State) (pa : Nat) (bs : List Byte) (how : WHow) :
    Within (InRange pa bs.length) s (baseWrite s pa bs how) :=
  ((((hidden_room s pa bs.length how).within.trans (within_pokeBytes _ _ pa bs)).trans (within_setSync _ _ _ _ _)).trans
    (Within.ite (within_clearTags _ _ _) (Within.refl _ _))).trans (within_clearPoison _ _ _)

theorem orderWrite_unwatched (s : State) (pa : Nat) (bs : List Byte) (how : WHow) (h : s.unwatched) :
    orderWrite s pa bs how = watchSpec (baseWrite s pa bs how) pa bs.length := by
  unfold orderWrite chainBound
  exact afterWrite_unwatched 1023 _ _ _ ((unwatched_baseWrite s pa bs how).unwatched h)

/-- A write at its order point writes no byte outside its range. -/
theorem within_orderWrite (s : State) (pa : Nat) (bs : List Byte) (how : WHow) :
    Within (InRange pa bs.length) s (orderWrite s pa bs how) := by
  intro h
  rw [orderWrite_unwatched s pa bs how h]
  exact ((unwatched_baseWrite s pa bs how).trans (within_watchSpec _ _ _)) h

theorem watchSpec_same (s : State) (pa n : Nat) :
    (watchSpec s pa n).pkg = s.pkg ∧ (watchSpec s pa n).cur = s.cur ∧ (watchSpec s pa n).c = s.c := by
  unfold watchSpec
  generalize coreList s = ks
  induction ks generalizing s with
  | nil => exact ⟨rfl, rfl, rfl⟩
  | cons k rest ih =>
    rw [List.foldl_cons]
    have step : ∀ u : State, u.pkg = s.pkg ∧ u.cur = s.cur ∧ u.c = s.c →
        (rest.foldl _ u).pkg = s.pkg ∧ (rest.foldl _ u).cur = s.cur ∧ (rest.foldl _ u).c = s.c :=
      fun u hu => ⟨(ih u).1.trans hu.1, (ih u).2.1.trans hu.2.1, (ih u).2.2.trans hu.2.2⟩
    apply step
    simp only []
    split
    · unfold setCoreCtx
      split
      · next h => subst h; simp [coreCtx]
      · exact ⟨rfl, rfl, rfl⟩
    · exact ⟨rfl, rfl, rfl⟩

theorem peek_setSync (s : State) (pa n : Nat) (r : Option SyncRec) (through : Bool) (a : Nat) :
    peek (setSync s pa n r through) a = peek s a := by
  unfold setSync; split <;> rfl

theorem peek_clearTags (s : State) (pa n a : Nat) : peek (clearTags s pa n) a = peek s a := by
  unfold clearTags; split <;> rfl

theorem peek_clearPoison (s : State) (pa n a : Nat) : peek (clearPoison s pa n) a = peek s a := by
  unfold clearPoison; split <;> rfl

/-- What memory holds after a write at its order point, where no job watches. -/
theorem peek_orderWrite (s : State) (pa : Nat) (bs : List Byte) (how : WHow) (h : s.unwatched) (a : Nat) :
    peek (orderWrite s pa bs how) a = if pa ≤ a ∧ a < pa + bs.length then bs.getD (a - pa) 0 else peek s a := by
  rw [orderWrite_unwatched s pa bs how h]
  have e : peek (watchSpec (baseWrite s pa bs how) pa bs.length) a = peek (baseWrite s pa bs how) a := by
    simp only [peek, (watchSpec_same _ _ _).1]
  rw [e]
  unfold baseWrite
  simp only [peek_clearPoison]
  have e2 : ∀ u : State, peek (if how.clearTag = true then clearTags u pa bs.length else u) a = peek u a := by
    intro u; split
    · exact peek_clearTags _ _ _ _
    · rfl
  rw [e2, peek_setSync, peek_pokeBytes, (hidden_room s pa bs.length how).peek_eq]

theorem baseWrite_c (s : State) (pa : Nat) (bs : List Byte) (how : WHow) : (baseWrite s pa bs how).c = s.c := by
  have h1 := fun u : State => (pokeBytes_same bs u how.through pa).1
  have a1 : ∀ u : State, (setSync u pa bs.length how.sync how.through).c = u.c := by
    intro u; unfold setSync; split <;> rfl
  have a2 : ∀ u : State, (if how.clearTag = true then clearTags u pa bs.length else u).c = u.c := by
    intro u; split
    · unfold clearTags; split <;> rfl
    · rfl
  have a3 : ∀ u : State, (clearPoison u pa bs.length).c = u.c := by
    intro u; unfold clearPoison; split <;> rfl
  unfold baseWrite
  rw [a3, a2, a1, h1, (hidden_room s pa bs.length how).c_eq]

/-- A write leaves the core in focus as it was, where no job watches. -/
theorem orderWrite_c (s : State) (pa : Nat) (bs : List Byte) (how : WHow) (h : s.unwatched) :
    (orderWrite s pa bs how).c = s.c := by
  rw [orderWrite_unwatched s pa bs how h, (watchSpec_same _ _ _).2.2, baseWrite_c]

/-! ## Tags, translations, records -/

theorem within_tagLines {A : Nat → Prop} (s : State) (x : Agent) (write : Bool) (ls : List Nat) :
    Within A s (tagLines s x write ls) :=
  Within.foldl _ ls (fun _ _ s =>
    Within.ite (within_onPkg s _ rfl rfl)
      (Within.ite (within_onPkg s _ rfl rfl) (Within.ite (within_onPkg s _ rfl rfl) (Within.refl A s)))) s

theorem within_noteLeaf {A : Nat → Prop} (s : State) (asid va : Nat) : Within A s (noteLeaf s asid va) := by
  unfold noteLeaf
  split
  · exact Within.refl A s
  · simp only []
    split
    · exact Within.refl A s
    · have h : ∀ (u : State) (f : CoreHw → Tlb), Within A u (onC u fun c => { c with tlb := f c }) := fun u f =>
        within_same rfl rfl rfl (Keeps.still ⟨⟨rfl, rfl, rfl, rfl, rfl⟩, ⟨rfl, rfl, rfl, rfl, rfl⟩, fun _ => rfl⟩)
      split
      · exact (within_bumpFree s).trans ((h _ _).trans (within_onDie _ _ _ rfl))
      · exact (h _ _).trans (within_onDie _ _ _ rfl)

theorem within_notePieces {A : Nat → Prop} (s : State) (asid va : Nat) (ps : List Piece) :
    Within A s (notePieces s asid va ps) :=
  Within.foldl _ ps (fun _ _ s => within_noteLeaf s _ _) s

theorem within_noteRec {A : Nat → Prop} (s : State) (r : Option SyncRec) : Within A s (noteRec s r) := by
  unfold noteRec
  split
  · exact Within.ite (Within.refl A s) (within_onT s _)
  · exact Within.refl A s

theorem within_noteRecs {A : Nat → Prop} (s : State) (pa n : Nat) : Within A s (noteRecs s pa n) := by
  unfold noteRecs
  exact Within.ite (Within.refl A s) (Within.foldl _ _ (fun _ _ s => within_noteRec s _) s)

theorem within_noteL1 {A : Nat → Prop} (s : State) (l : L1Line) (k n : Nat) : Within A s (noteL1 s l k n) :=
  Within.foldl _ l.recs (fun _ _ s => Within.ite (within_noteRec s _) (Within.refl A s)) s

/-! ## The L1 -/

/-- An L1 line set so that no more bytes outside `A` are held written, in the same way, than before. -/
theorem within_l1Set {A : Nat → Prop} (s : State) (line : Nat) (l : Option L1Line)
    (h : ∀ a b, ¬A a → a / 128 = line → ownDirty (l1Set s line l) a = some b → ownDirty s a = some b) :
    Within A s (l1Set s line l) := by
  refine fun _ =>
    ⟨Keeps.still ⟨⟨rfl, rfl, rfl, rfl, rfl⟩, ⟨rfl, rfl, rfl, rfl, rfl⟩, fun _ => rfl⟩, fun a _ => .inl rfl, fun a b ha hb => ?_⟩
  · by_cases hl : a / 128 = line
    · exact h a b ha hl hb
    · simpa only [ownDirty, l1Get, l1Set, onC_c, tget_tset, hl, if_false] using hb

theorem within_l1Inval {A : Nat → Prop} (s : State) (line : Nat) : Within A s (l1Inval s line) := by
  refine within_l1Set s line none fun a b _ hl hb => ?_
  simp [ownDirty, l1Get, l1Set, hl] at hb

/-- A list of runs tells the truth about a line: each of their bytes is a written byte of the line. -/
def TrueRuns (l : L1Line) (rs : List (Nat × List Byte)) : Prop :=
  ∀ r ∈ rs, ∀ i, i < r.2.length → r.1 + i < 128 ∧ l.isDirty (r.1 + i) = true ∧ r.2.getD i 0 = l.byte (r.1 + i)

theorem trueRuns_writeRuns (l : L1Line) (fuel : Nat) : ∀ (k : Nat) (run : List Byte), k + fuel ≤ 128 → run.length ≤ k →
    (∀ i, i < run.length → l.isDirty (k - run.length + i) = true ∧ run.getD i 0 = l.byte (k - run.length + i)) →
    TrueRuns l (writeRuns l fuel k run) := by
  induction fuel with
  | zero =>
    intro k run hk hr ht r hm i hi
    unfold writeRuns at hm
    split at hm
    · simp at hm
    · simp only [List.mem_singleton] at hm
      subst hm
      obtain ⟨h1, h2⟩ := ht i hi
      simp only at hi
      exact ⟨by omega, h1, h2⟩
  | succ fuel ih =>
    intro k run hk hr ht
    unfold writeRuns
    split
    · next hd =>
      refine ih (k + 1) (run ++ [l.byte k]) (by omega) (by simp; omega) fun i hi => ?_
      have hlen : k + 1 - (run ++ [l.byte k]).length = k - run.length := by simp
      rw [hlen]
      simp only [List.length_append, List.length_singleton] at hi
      by_cases hc : i < run.length
      · obtain ⟨h1, h2⟩ := ht i hc
        refine ⟨h1, ?_⟩
        rw [← h2, List.getD_eq_getElem?_getD, List.getD_eq_getElem?_getD, List.getElem?_append_left hc]
      · have hi2 : i = run.length := by omega
        subst hi2
        have hk2 : k - run.length + run.length = k := by omega
        rw [hk2]
        refine ⟨hd, ?_⟩
        rw [List.getD_eq_getElem?_getD, List.getElem?_append_right (Nat.le_refl _)]
        simp
    · split
      · exact ih (k + 1) [] (by omega) (by simp) fun i hi => by simp at hi
      · intro r hm i hi
        simp only [List.mem_cons] at hm
        rcases hm with hm | hm
        · subst hm
          obtain ⟨h1, h2⟩ := ht i hi
          simp only at hi
          exact ⟨by omega, h1, h2⟩
        · exact ih (k + 1) [] (by omega) (by simp) (fun i hi => by simp at hi) r hm i hi

/-- The runs of a line name every written byte of it. -/
theorem writeRuns_all (l : L1Line) (fuel : Nat) : ∀ (k : Nat) (run : List Byte) (j : Nat), run.length ≤ k →
    (k - run.length ≤ j ∧ j < k) ∨ (k ≤ j ∧ j < k + fuel ∧ l.isDirty j = true) →
    ∃ r ∈ writeRuns l fuel k run, r.1 ≤ j ∧ j < r.1 + r.2.length := by
  induction fuel with
  | zero =>
    intro k run j hr h
    unfold writeRuns
    rcases h with h | h
    · have : run.isEmpty = false := by
        cases run with
        | nil => simp at h; omega
        | cons _ _ => rfl
      rw [this]
      refine ⟨_, List.mem_singleton.mpr rfl, h.1, ?_⟩
      simp only; omega
    · omega
  | succ fuel ih =>
    intro k run j hr h
    unfold writeRuns
    split
    · next hd =>
      refine ih (k + 1) (run ++ [l.byte k]) j (by simp; omega) ?_
      have hlen : k + 1 - (run ++ [l.byte k]).length = k - run.length := by simp
      rw [hlen]
      rcases h with h | ⟨h1, h2, h3⟩
      · exact .inl ⟨h.1, by omega⟩
      · by_cases hj : j = k
        · subst hj; exact .inl ⟨by omega, by omega⟩
        · exact .inr ⟨by omega, by omega, h3⟩
    · next hd =>
      have hjk : ∀ (h3 : l.isDirty j = true), j ≠ k := fun h3 e => hd (e ▸ h3)
      split
      · next he =>
        have he2 : run.length = 0 := by cases run <;> simp_all
        rcases h with h | ⟨h1, h2, h3⟩
        · omega
        · have := hjk h3
          exact ih (k + 1) [] j (by simp) (.inr ⟨by omega, by omega, h3⟩)
      · rcases h with h | ⟨h1, h2, h3⟩
        · exact ⟨_, List.mem_cons_self, h.1, by simp only []; omega⟩
        · have := hjk h3
          obtain ⟨r, hr1, hr2⟩ := ih (k + 1) [] j (by simp) (.inr ⟨by omega, by omega, h3⟩)
          exact ⟨r, List.mem_cons_of_mem _ hr1, hr2⟩

/-- Writing runs back: the bytes named become the line's, and nothing else changes. -/
theorem runs_written (l : L1Line) (line : Nat) (rs : List (Nat × List Byte)) : ∀ (s : State), TrueRuns l rs → s.unwatched →
    let u := rs.foldl (fun s r => wrPlain { tint := tint s } (l2touch s (128 * line) 128 1 (tint s) true true) (128 * line + r.1) r.2) s
    Still s u ∧ u.c = s.c ∧
      ∀ a, (peek u a = peek s a ∧ ¬∃ r ∈ rs, 128 * line + r.1 ≤ a ∧ a < 128 * line + r.1 + r.2.length) ∨
        (a / 128 = line ∧ l.isDirty (a % 128) = true ∧ peek u a = l.byte (a % 128)) := by
  induction rs with
  | nil => intro s _ _; exact ⟨Still.refl s, rfl, fun a => .inl ⟨rfl, by simp⟩⟩
  | cons r rest ih =>
    intro s ht hs
    simp only [List.foldl_cons]
    obtain ⟨hpk1, hc1, hkeep⟩ := hidden_l2touch s (128 * line) 128 1 (tint s) true true
    have hs1 := hkeep.still
    have hw1 := hs1.unwatched hs
    generalize tint s = ti at *
    generalize hu : l2touch s (128 * line) 128 1 ti true true = u at *
    have hs2 := (within_orderWrite u (128 * line + r.1) r.2 { tint := ti }).still hw1
    have hc2 := orderWrite_c u (128 * line + r.1) r.2 { tint := ti } hw1
    have hp2 := peek_orderWrite u (128 * line + r.1) r.2 { tint := ti } hw1
    obtain ⟨k1, k2, k3⟩ := ih (wrPlain { tint := ti } u (128 * line + r.1) r.2) (fun x hx => ht x (List.mem_cons_of_mem _ hx)) (hs2.unwatched hw1)
    refine ⟨(hs1.trans hs2).trans k1, k2.trans (hc2.trans hc1), fun a => ?_⟩
    rcases k3 a with ⟨e, hn⟩ | e
    · have hp := hp2 a
      by_cases hin : 128 * line + r.1 ≤ a ∧ a < 128 * line + r.1 + r.2.length
      · rw [if_pos hin] at hp
        obtain ⟨i, hi⟩ : ∃ i, a = 128 * line + r.1 + i := ⟨a - (128 * line + r.1), by omega⟩
        obtain ⟨t1, t2, t3⟩ := ht r List.mem_cons_self i (by omega)
        have e1 : a - (128 * line + r.1) = i := by omega
        have e2 : a % 128 = r.1 + i := by omega
        rw [e1] at hp
        refine .inr ⟨by omega, by rw [e2]; exact t2, ?_⟩
        rw [e2, ← t3]
        exact e.trans hp
      · rw [if_neg hin] at hp
        refine .inl ⟨e.trans (hp.trans (hpk1 a)), ?_⟩
        rintro ⟨x, hx, hx2⟩
        rcases List.mem_cons.mp hx with rfl | hx
        · exact hin hx2
        · exact hn ⟨x, hx, hx2⟩
    · exact .inr e

theorem within_markPoisoned {A : Nat → Prop} (s : State) (gs : List (Nat × Nat × Nat)) : Within A s (markPoisoned s gs) :=
  Within.ite (Within.refl A s) (within_onPkg s _ rfl rfl)

theorem within_l1Clean {A : Nat → Prop} (s : State) (line : Nat) : Within A s (l1Clean s line) := by
  unfold l1Clean l1CleanBy
  split
  · exact Within.refl A s
  · next l hl =>
    split
    · exact Within.refl A s
    · have hset : ∀ u : State, u.c = s.c → Within A u (l1Set u line (some { l with dirty := 0 })) := by
        intro u hu
        refine within_l1Set u line _ fun a b _ ha hb => ?_
        simp [ownDirty, l1Get, l1Set, ha, L1Line.isDirty] at hb
      simp only []
      split
      · exact hset s rfl
      · intro hs
        obtain ⟨k1, k2, k3⟩ := runs_written l line (writeRuns l 128 0 []) s
          (trueRuns_writeRuns l 128 0 [] (by omega) (by simp) (fun i hi => by simp at hi)) hs
        have hw : Within A s (List.foldl
            (fun s r => wrPlain { tint := tint s } (l2touch s (128 * line) 128 1 (tint s) true true) (128 * line + r.1) r.2) s
            (writeRuns l 128 0 [])) := by
          refine fun _ => ⟨k1, fun a _ => ?_, fun a b _ hb => ?_⟩
          · rcases k3 a with e | ⟨e1, e2, e3⟩
            · exact .inl e.1
            · right
              simp only [ownDirty, e1, hl, e2, if_true, e3]
          · simpa only [ownDirty, l1Get, k2] using hb
        have hk : ∀ u : State, (markPoisoned u (spilled s l line)).c = u.c := fun u => by unfold markPoisoned; split <;> rfl
        exact ((hw.trans (within_markPoisoned _ _)).trans (hset _ ((hk _).trans k2))) hs

end Sys2Proof.Machine
end

