-- ==== Sys2Proof/Laws/Access.lean ====
section
/-! SUPPORT. What the L1 holds after a store, and which bytes a load, a store or an access at the order point of the task in focus may
write: `Within` for each of them, and `Access`, which is what the statements say of a word that has accessed memory. -/

namespace Sys2Proof.Machine

/-! ## Bytes of naturals and of L1 lines -/

theorem leNat_testBit (bs : List Byte) : ∀ j i, i < 8 → (leNat bs).testBit (8 * j + i) = (bs.getD j 0).getLsbD i := by
  induction bs with
  | nil => intro j i _; simp [leNat]
  | cons b rest ih =>
    intro j i hi
    have e : leNat (b :: rest) = 2 ^ 8 * leNat rest + b.toNat := by simp only [leNat]; omega
    rw [e, Nat.testBit_two_pow_mul_add _ b.isLt]
    cases j with
    | zero =>
      rw [if_pos (by omega)]
      simp [BitVec.getLsbD]
    | succ j =>
      rw [if_neg (by omega)]
      have e2 : 8 * (j + 1) + i - 8 = 8 * j + i := by omega
      rw [e2, ih j i hi, List.getD_cons_succ]

/-- A byte of a line after bytes are put into it. -/
theorem byte_put (l : L1Line) (k : Nat) (bs : List Byte) (j : Nat) (hj : j < 128) :
    (l.put k bs).byte j = if k ≤ j ∧ j < k + bs.length then bs.getD (j - k) 0 else l.byte j := by
  apply BitVec.eq_of_getLsbD_eq
  intro i hi
  have hl : ∀ x : BitVec 1024, ((x >>> (8 * j)).setWidth 8).getLsbD i = x.getLsbD (8 * j + i) := by
    intro x; simp [BitVec.getLsbD_ushiftRight, hi]
  have h1024 : 8 * j + i < 1024 := by omega
  unfold L1Line.byte L1Line.put
  simp only [hl]
  split
  · next h =>
    have e : 8 * j + i - 8 * k = 8 * (j - k) + i := by omega
    have hm : (8 * k ≤ 8 * j + i) := by omega
    simp only [BitVec.getLsbD_or, BitVec.getLsbD_and, BitVec.getLsbD_not, BitVec.getLsbD_ofNat, Nat.testBit_mul_two_pow,
      Nat.testBit_two_pow_sub_one, e, leNat_testBit bs (j - k) i hi, h1024, hm, decide_true, Bool.true_and]
    have hlt : 8 * (j - k) + i < 8 * bs.length := by omega
    simp [hlt]
  · next h =>
    rw [hl]
    simp only [BitVec.getLsbD_or, BitVec.getLsbD_and, BitVec.getLsbD_not, BitVec.getLsbD_ofNat, Nat.testBit_mul_two_pow,
      Nat.testBit_two_pow_sub_one, h1024, decide_true, Bool.true_and]
    by_cases hk : k ≤ j
    · have e : 8 * j + i - 8 * k = 8 * (j - k) + i := by omega
      have hlt : ¬(8 * (j - k) + i < 8 * bs.length) := by omega
      have hz : bs.getD (j - k) 0 = 0 := by
        rw [List.getD_eq_getElem?_getD, List.getElem?_eq_none (by omega)]; rfl
      rw [e, leNat_testBit bs (j - k) i hi, hz]
      simp [hlt]
    · have hm : ¬(8 * k ≤ 8 * j + i) := by omega
      simp [hm]

theorem isDirty_put (l : L1Line) (k : Nat) (bs : List Byte) (j : Nat) (hj : j < 128) :
    (l.put k bs).isDirty j = (l.isDirty j || decide (k ≤ j ∧ j < k + bs.length)) := by
  unfold L1Line.isDirty L1Line.put
  simp only [BitVec.getLsbD_or, BitVec.getLsbD_ofNat, Nat.testBit_mul_two_pow, Nat.testBit_two_pow_sub_one, hj, decide_true,
    Bool.true_and]
  congr 1
  by_cases h : k ≤ j
  · have : (j - k < bs.length) ↔ (j < k + bs.length) := by omega
    simp [h, this]
  · simp [h]

/-! ## The L1 -/

theorem within_l1Drop {A : Nat → Prop} (s : State) (line : Nat) : Within A s (l1Drop s line) :=
  (within_l1Clean s line).trans (within_l1Inval _ _)

theorem within_l1DropAll {A : Nat → Prop} (s : State) : Within A s (l1DropAll s) :=
  Within.foldl _ _ (fun _ _ s => within_l1Drop s _) s

theorem within_l1CleanAll {A : Nat → Prop} (s : State) : Within A s (l1CleanAll s) :=
  Within.foldl _ _ (fun _ _ s => within_l1Clean s _) s

/-- The line that makes room, if one has to (R253). -/
theorem within_makeRoom {A : Nat → Prop} (s : State) :
    Within A s (match s.c.l1 with | (old, _) :: _ => if 512 ≤ s.c.l1.length then l1Drop s old else s | [] => s) := by
  split
  · exact Within.ite (within_l1Drop s _) (Within.refl A s)
  · exact Within.refl A s

theorem within_l1Fill {A : Nat → Prop} (s : State) (line hint : Nat) : Within A s (l1Fill s line hint) := by
  unfold l1Fill
  split
  · exact Within.refl A s
  · refine ((within_l2touch s (128 * line) 128 hint (tint s) true false).trans (within_makeRoom _)).trans
      (within_l1Set _ _ _ fun a b _ ha hb => ?_)
    simp [ownDirty, l1Get, l1Set, ha, L1Line.isDirty] at hb

/-! ## Loads -/

theorem within_loadLine {A : Nat → Prop} (s : State) (pg : PageInfo) (hint pa n : Nat) : Within A s (loadLine s pg hint pa n).2 := by
  unfold loadLine
  simp only []
  split
  · have h : Within A s (if (poisoned s (128 * (pa / 128)) 128).isSome then s else l1Fill s (pa / 128) hint) :=
      Within.ite (Within.refl A s) (within_l1Fill s _ _)
    split
    · exact h.trans (within_noteL1 _ _ _ _)
    · exact (h.trans (within_noteRecs _ _ _)).trans (within_l2touch _ _ _ _ _ _ _)
  · exact ((within_l1Drop s _).trans (within_l2touch _ _ _ _ _ _ _)).trans (within_noteRecs _ _ _)

theorem within_loadLines {A : Nat → Prop} (pg : PageInfo) (hint fuel : Nat) :
    ∀ (s : State) (pa n : Nat), Within A s (loadLines s pg hint fuel pa n).2 := by
  induction fuel with
  | zero => intro s _ _; exact Within.refl A s
  | succ fuel ih =>
    intro s pa n
    unfold loadLines
    split
    · exact Within.refl A s
    · exact (within_loadLine s pg hint pa _).trans (ih _ _ _)

theorem within_loadPieces {A : Nat → Prop} (hint : Nat) (ps : List Piece) : ∀ s : State, Within A s (loadPieces s hint ps).2 := by
  induction ps with
  | nil => intro s; exact Within.refl A s
  | cons p rest ih =>
    intro s
    unfold loadPieces
    exact (within_loadLines _ _ _ s _ _).trans (ih _)

/-- A plain read writes nothing. -/
theorem within_plainReadAs {A : Nat → Prop} (s s' : State) (asid : Nat) (sup : Bool) (va n hint : Nat) (bs : List Byte)
    (h : plainReadAs s asid sup va n hint = .ok (bs, s')) : Within A s s' := by
  unfold plainReadAs at h
  split at h
  · exact absurd h (by simp)
  split at h
  · exact absurd h (by simp)
  · next ps _ _ _ =>
    simp only [Except.ok.injEq] at h
    have := within_loadPieces (A := A) hint ps (tagLines (bring (notePieces s asid va ps) hint false ps)
      (meAgent (bring (notePieces s asid va ps) hint false ps)) false (checkedLines ps))
    rw [h] at this
    exact (((within_notePieces s _ _ _).trans (within_bring _ _ _ _)).trans (within_tagLines _ _ _ _)).trans this

theorem within_plainRead {A : Nat → Prop} (s s' : State) (va n hint : Nat) (bs : List Byte)
    (h : plainRead s va n hint = .ok (bs, s')) : Within A s s' := within_plainReadAs s s' _ _ va n hint bs h

/-- What is quiet and writes only in `A` is an access. -/
theorem access_of {A : Nat → Prop} {s u : State} (h : Quiet s u) (k : Within A s u) : Access A s u := ⟨h.frame, k.onlyBytes, k.still⟩

/-- What a word may have changed when its plain read has succeeded. -/
theorem access_plainRead (s s' : State) (va n hint : Nat) (bs : List Byte) (h : plainRead s va n hint = .ok (bs, s')) :
    Access NoByte s s' :=
  access_of (quiet_plainRead s s' va n hint bs h) (within_plainRead s s' va n hint bs h)

/-! ## Stores -/

theorem within_l1Mend {A : Nat → Prop} (s : State) (pa n : Nat) : Within A s (l1Mend s pa n) :=
  Within.ite (Within.refl A s)
    (within_same rfl rfl rfl (Keeps.still ⟨⟨rfl, rfl, rfl, rfl, rfl⟩, ⟨rfl, rfl, rfl, rfl, rfl⟩, fun _ => rfl⟩))

theorem within_storeLine (s : State) (pg : PageInfo) (hint pa : Nat) (bs : List Byte) (r : Option SyncRec) :
    Within (InRange pa bs.length) s (storeLine s pg hint pa bs r) := by
  unfold storeLine
  simp only []
  split
  · have h : Within (InRange pa bs.length) s (if (poisoned s (128 * (pa / 128)) 128).isSome then s else l1Fill s (pa / 128) hint) :=
      Within.ite (Within.refl _ s) (within_l1Fill s _ _)
    revert h
    generalize (if (poisoned s (128 * (pa / 128)) 128).isSome then s else l1Fill s (pa / 128) hint) = u
    intro h
    split
    · next l hl =>
      refine h.trans ((within_l1Set u _ _ fun a b ha hla hd => ?_).trans (within_l1Mend _ _ _))
      have hn : ¬(pa % 128 ≤ a % 128 ∧ a % 128 < pa % 128 + bs.length) := by
        unfold InRange at ha; omega
      have hm : a % 128 < 128 := Nat.mod_lt _ (by omega)
      simp only [ownDirty, l1Get, l1Set, onC_c, hla, tget_tset_same, isDirty_put l _ bs _ hm, byte_put l _ bs _ hm, hn, if_false,
        decide_false, Bool.or_false] at hd
      have hl2 : tget none u.c.l1 (pa / 128) = some l := hl
      simpa only [ownDirty, l1Get, hla, hl2] using hd
    · exact (h.trans (within_l2touch _ _ _ _ _ _ _)).trans (within_orderWrite _ _ _ _)
  · exact ((within_l1Drop s _).trans (within_l2touch _ _ _ _ _ _ _)).trans (within_orderWrite _ _ _ _)

theorem within_storeLines (pg : PageInfo) (hint fuel : Nat) (r : Option SyncRec) :
    ∀ (s : State) (pa : Nat) (bs : List Byte), Within (InRange pa bs.length) s (storeLines s pg hint fuel pa bs r) := by
  induction fuel with
  | zero => intro s _ _; exact Within.refl _ s
  | succ fuel ih =>
    intro s pa bs
    unfold storeLines
    split
    · exact Within.refl _ s
    · have hmin : Nat.min bs.length (128 - pa % 128) ≤ bs.length := Nat.min_le_left _ _
      have hmin2 : Nat.min bs.length (128 - pa % 128) ≤ 128 - pa % 128 := Nat.min_le_right _ _
      have hmod : pa % 128 < 128 := Nat.mod_lt _ (by omega)
      have hlen : (bs.take (Nat.min bs.length (128 - pa % 128))).length = Nat.min bs.length (128 - pa % 128) := by
        rw [List.length_take]; exact Nat.min_eq_left hmin
      refine ((within_storeLine s pg hint pa _ r).mono fun a ha => ?_).trans ((ih _ _ _).mono fun a ha => ?_)
      · unfold InRange at *; omega
      · unfold InRange at *; rw [List.length_drop] at ha; omega

/-! ## Translated ranges -/

/-- The pieces of a range cover it in order: each lies at its offset, and no byte lies beyond the range. -/
theorem piecesFrom_at (s : State) (asid : Nat) (sup : Bool) (acc : Acc) (io : Bool) (fuel : Nat) :
    ∀ (va off n : Nat) (ps : List Piece), piecesFrom s asid sup acc io fuel va off n = .ok ps →
      ∀ p ∈ ps, off ≤ p.off ∧ p.off + p.len ≤ off + n ∧ ∀ i, i < p.len → pieceAt ps (p.off + i) = p.pg.pa + i := by
  induction fuel with
  | zero => intro va off n ps h p hp; simp only [piecesFrom, Except.ok.injEq] at h; subst h; simp at hp
  | succ fuel ih =>
    intro va off n ps h p hp
    unfold piecesFrom at h
    split at h
    · simp only [Except.ok.injEq] at h; subst h; simp at hp
    split at h
    · exact absurd h (by simp)
    · next pg _ =>
      simp only [] at h
      split at h
      · exact absurd h (by simp)
      · next rest hrest =>
        simp only [Except.ok.injEq] at h
        subst h
        have hmin : Nat.min n (2 ^ 16 - va % 2 ^ 16) ≤ n := Nat.min_le_left _ _
        rcases List.mem_cons.mp hp with rfl | hp
        · refine ⟨Nat.le_refl _, by simp only []; omega, fun i hi => ?_⟩
          simp only [] at hi ⊢
          have : off ≤ off + i ∧ off + i < off + Nat.min n (2 ^ 16 - va % 2 ^ 16) := by omega
          unfold pieceAt
          rw [if_pos (by simpa using this)]
          show pg.pa + (off + i - off) = pg.pa + i
          omega
        · obtain ⟨h1, h2, h3⟩ := ih _ _ _ _ hrest p hp
          refine ⟨by omega, by omega, fun i hi => ?_⟩
          have hn : ¬(off ≤ p.off + i ∧ p.off + i < off + Nat.min n (2 ^ 16 - va % 2 ^ 16)) := by omega
          have := h3 i hi
          unfold pieceAt
          simp only [Bool.and_eq_true, decide_eq_true_eq, hn, if_false]
          exact this

theorem accCheck_pieces (s : State) (va n : Nat) (acc : Acc) (ps : List Piece) (io : Bool) (h : accCheck s va n acc io = .ok ps) :
    myPieces s va n acc io = .ok ps := by
  unfold accCheck accCheckAs at h
  split at h
  · exact absurd h (by simp)
  split at h
  · exact absurd h (by simp)
  · next qs hq =>
    split at h
    · exact absurd h (by simp)
    · simp only [Except.ok.injEq] at h; subst h; exact hq

/-- The bytes of the pieces of a checked range are bytes of the range. -/
theorem piece_bytesOf (s : State) (va n : Nat) (acc : Acc) (ps : List Piece) (io : Bool) (h : accCheck s va n acc io = .ok ps) (p : Piece)
    (hp : p ∈ ps) (a : Nat) (ha : InRange p.pg.pa p.len a) : BytesOf ps n a := by
  obtain ⟨_, h2, h3⟩ := piecesFrom_at s _ _ _ _ _ _ _ _ _ (accCheck_pieces s va n acc ps io h) p hp
  obtain ⟨h4, h5⟩ := ha
  have e := h3 (a - p.pg.pa) (by omega)
  exact ⟨p.off + (a - p.pg.pa), by omega, by rw [e]; omega⟩

theorem within_storePieces (s : State) (va hint : Nat) (ps : List Piece) (bs : List Byte) (s0 : State) (acc : Acc) (io : Bool)
    (h : accCheck s0 va bs.length acc io = .ok ps) : Within (BytesOf ps bs.length) s (storePieces s hint ps bs) := by
  unfold storePieces
  refine Within.foldl _ ps (fun p hp s => ?_) s
  refine (within_storeLines _ _ _ _ s _ _).mono fun a ha => ?_
  refine piece_bytesOf s0 va _ acc ps io h p hp a ⟨ha.1, ?_⟩
  have := ha.2
  rw [List.length_take] at this
  have := Nat.min_le_left p.len (bs.drop p.off).length
  omega

/-- A plain write writes no byte outside its range. -/
theorem within_plainWrite (s s' : State) (va : Nat) (bs : List Byte) (hint : Nat) (ps : List Piece)
    (hps : accCheck s va bs.length .write = .ok ps) (h : plainWrite s va bs hint = .ok s') :
    Within (BytesOf ps bs.length) s s' := by
  unfold plainWrite at h
  rw [hps] at h
  simp only [] at h
  split at h
  · exact absurd h (by simp)
  · simp only [Except.ok.injEq] at h
    rw [← h]
    exact (((within_notePieces s _ _ _).trans (within_bring _ _ _ _)).trans (within_tagLines _ _ _ _)).trans
      (within_storePieces _ va hint ps bs s .write false hps)

/-- What a word may have changed when its plain write has succeeded. -/
theorem access_plainWrite (s s' : State) (va : Nat) (bs : List Byte) (hint : Nat) (ps : List Piece)
    (hps : accCheck s va bs.length .write = .ok ps) (h : plainWrite s va bs hint = .ok s') : Access (BytesOf ps bs.length) s s' :=
  access_of (quiet_plainWrite s s' va bs hint h) (within_plainWrite s s' va bs hint ps hps h)

end Sys2Proof.Machine
end

