-- ==== Sys2Proof/Laws/Words.lean ====
section
/-! SUPPORT. What a stream word leaves behind when it completes: `Completes` for each kind of destination, so that no statement about a
word unfolds the loop end rule or a register write. -/

namespace Sys2Proof.Machine

/-! ## The loop end rule -/

theorem pastItem_of_eq {s u : State} (n : Nat) (hc : u.c.trap = s.c.trap) (hp : u.t.pc = s.t.pc) (hl : u.t.loops = s.t.loops)
    (hlc : u.t.lc = s.t.lc) : Past n s (pastItem u n) := by
  constructor <;>
  · unfold pastItem
    simp only [hc, hp, hl, hlc]
    split <;> rfl

theorem pastItem_frame (u : State) (n : Nat) :
    pastItem u n = { u with t := { u.t with
      pc := (pastItem u n).t.pc, loops := (pastItem u n).t.loops, lc := (pastItem u n).t.lc } } := by
  unfold pastItem
  simp only []
  split <;> rfl

/-! ## Registers after a write -/

theorem getS_setS_eq (s : State) (rd n : Nat) (v : Word) : getS (setS s rd v) n = (Dst.s rd v).getS n (getS s n) := by
  unfold Dst.getS getS setS
  by_cases h : rd = 0
  · simp [h]
  · by_cases h2 : n = 0
    · subst h2; simp [Ne.symm h]
    · simp only [h, h2, if_false, tget_tset, ne_eq, not_false_eq_true, and_true]

theorem getQ_setQ_eq (s : State) (qd n : Nat) (v : Bool) : getQ (setQ s qd v) n = (Dst.q qd v).getQ n (getQ s n) := by
  unfold Dst.getQ getQ setQ
  by_cases h : qd = 0
  · simp [h]
  · by_cases h2 : n = 0
    · subst h2; simp [Ne.symm h]
    · simp only [h, h2, if_false, tget_tset, ne_eq, not_false_eq_true, and_true]

theorem getB_setB_eq (s : State) (b n : Nat) (v : Word) : getB (setB s b v) n = (Dst.b b v).getB n (getB s n) := by
  unfold Dst.getB getB setB
  simp only [tget_tset]

/-- The word that a flag mask of a result sets in STS. -/
theorem raiseFlags_eq (s : State) (fl : Nat) : raiseFlags s fl = orSts s (flagBits fl) := by
  unfold raiseFlags flagBits
  split
  · next h => subst h; simp [orSts]
  · rfl

/-! ## Completion -/

/-- A write of a scalar register only takes marks of poison away. -/
theorem setS_poison (s : State) (n : Nat) (v : Word) : ∀ g ∈ (setS s n v).t.poison, g ∈ s.t.poison := by
  intro g
  unfold setS
  split
  · exact id
  · exact fun h => (List.mem_filter.mp h).1

/-- Completion of a word that has brought the machine to `u`: `u` is `s` but for a register write and sticky flags. -/
theorem completes_of {s u : State} {d : Dst} {fl : Word} (hs : ∀ n, getS u n = d.getS n (getS s n))
    (hq : ∀ n, getQ u n = d.getQ n (getQ s n)) (hb : ∀ n, getB u n = d.getB n (getB s n)) (hf : u.t.sts = s.t.sts ||| fl)
    (hm : ∀ g ∈ u.t.poison, g ∈ s.t.poison)
    (hu : u = { s with t := { s.t with s := u.t.s, q := u.t.q, b := u.t.b, sts := u.t.sts, poison := u.t.poison } }) :
    Completes s (advance u) d fl := by
  have hc : u.c.trap = s.c.trap := by rw [hu]
  have hp : u.t.pc = s.t.pc := by rw [hu]
  have hl : u.t.loops = s.t.loops := by rw [hu]
  have hlc : u.t.lc = s.t.lc := by rw [hu]
  have hpkg : u.pkg = s.pkg := by rw [hu]
  have hframe := pastItem_frame u 4
  unfold advance
  refine ⟨fun n => ?_, fun n => ?_, fun n => ?_, ?_, pastItem_of_eq 4 hc hp hl hlc, fun a => ?_, ⟨fun g hg => ?_, fun g hg => ?_⟩, ?_⟩
  · rw [← hs n, hframe]; rfl
  · rw [← hq n, hframe]; rfl
  · rw [← hb n, hframe]; rfl
  · rw [← hf, hframe]
  · rw [hframe]; simp only [peek, hpkg]
  · rw [hframe] at hg; exact hm g hg
  · rw [hframe] at hg; rwa [← hpkg]
  · unfold SameRest
    rw [hframe]
    simp only []
    rw [hu]

theorem completes_setS (s : State) (rd : Nat) (v : Word) : Completes s (advance (setS s rd v)) (.s rd v) 0 := by
  refine completes_of (getS_setS_eq s rd · v) (fun n => ?_) (fun n => ?_) ?_ (setS_poison s rd v) ?_
  · unfold setS; split <;> rfl
  · unfold setS; split <;> rfl
  · unfold setS; split <;> simp
  · unfold setS; split <;> rfl

theorem completes_setS_flags (s : State) (rd fl : Nat) (v : Word) :
    Completes s (advance (raiseFlags (setS s rd v) fl)) (.s rd v) (flagBits fl) := by
  rw [raiseFlags_eq]
  refine completes_of (fun n => ?_) (fun n => ?_) (fun n => ?_) ?_ (setS_poison s rd v) ?_
  · rw [← getS_setS_eq]; rfl
  · unfold setS; split <;> rfl
  · unfold setS; split <;> rfl
  · unfold setS; split <;> rfl
  · unfold setS; split <;> rfl

theorem completes_setQ (s : State) (qd : Nat) (v : Bool) : Completes s (advance (setQ s qd v)) (.q qd v) 0 := by
  refine completes_of (fun n => ?_) (getQ_setQ_eq s qd · v) (fun n => ?_) ?_ ?_ ?_
  · unfold setQ; split <;> rfl
  · unfold setQ; split <;> rfl
  · unfold setQ; split <;> simp
  · unfold setQ; split <;> exact fun _ h => h
  · unfold setQ; split <;> rfl

theorem completes_setQ_flags (s : State) (qd fl : Nat) (v : Bool) :
    Completes s (advance (raiseFlags (setQ s qd v) fl)) (.q qd v) (flagBits fl) := by
  rw [raiseFlags_eq]
  refine completes_of (fun n => ?_) (fun n => ?_) (fun n => ?_) ?_ ?_ ?_
  · unfold setQ; split <;> rfl
  · rw [← getQ_setQ_eq]; rfl
  · unfold setQ; split <;> rfl
  · unfold setQ; split <;> rfl
  · unfold setQ; split <;> exact fun _ h => h
  · unfold setQ; split <;> rfl

theorem completes_setB (s : State) (b : Nat) (v : Word) : Completes s (advance (setB s b v)) (.b b v) 0 := by
  refine completes_of (fun n => rfl) (fun n => rfl) (getB_setB_eq s b · v) ?_ (fun _ h => (List.mem_filter.mp h).1) rfl
  simp [setB]

theorem completes_nothing (s : State) : Completes s (advance s) .none 0 := by
  refine completes_of (fun n => rfl) (fun n => rfl) (fun n => rfl) ?_ (fun _ h => h) rfl
  simp

end Sys2Proof.Machine
end

