-- ==== Sys2Proof/Laws/Elems.lean ====
section
/-! SUPPORT. What the result of a V operation holds, bit by bit: the loop over its elements, the packing of values into a register,
and the exposed result that carries them. -/

namespace Sys2Proof.Machine

/-! ## Packing -/

/-- The keys of a list of placed values rise strictly. -/
def Rising (xs : List (Nat × Nat)) : Prop := xs.Pairwise fun a b => a.1 < b.1

/-- The sum that packs values. -/
def packSum (bits : Nat) (xs : List (Nat × Nat)) : Nat := xs.foldl (fun (a : Nat) (x : Nat × Nat) => a + x.2 % 2 ^ bits * 2 ^ (bits * x.1)) 0

theorem packSum_append (bits : Nat) (ys : List (Nat × Nat)) (y : Nat × Nat) :
    packSum bits (ys ++ [y]) = packSum bits ys + y.2 % 2 ^ bits * 2 ^ (bits * y.1) := by
  simp [packSum]

/-- The bits of a sum of values placed at rising positions: each value's bits are at its place. -/
theorem packSum_testBit (bits : Nat) (xs : List (Nat × Nat)) (hr : Rising xs) (i : Nat) :
    (packSum bits xs).testBit i =
      (xs.any fun x => decide (bits * x.1 ≤ i ∧ i < bits * x.1 + bits) && (x.2 % 2 ^ bits).testBit (i - bits * x.1)) ∧
    ∀ K, (∀ x ∈ xs, x.1 < K) → packSum bits xs < 2 ^ (bits * K) := by
  induction xs using List.reverseRecOn generalizing i with
  | nil => simp [packSum]
  | append_singleton ys y ih =>
    have hys : Rising ys := (List.pairwise_append.1 hr).1
    have hlt : ∀ x ∈ ys, x.1 < y.1 := fun x hx => (List.pairwise_append.1 hr).2.2 x hx y (by simp)
    have hS := (ih hys 0).2 y.1 hlt
    constructor
    · rw [packSum_append, Nat.add_comm, Nat.mul_comm, Nat.testBit_two_pow_mul_add _ hS,
        List.any_append, (ih hys i).1]
      by_cases h : i < bits * y.1
      · have : ¬(bits * y.1 ≤ i ∧ i < bits * y.1 + bits) := by omega
        simp [h, this]
      · have hno : (ys.any fun x => decide (bits * x.1 ≤ i ∧ i < bits * x.1 + bits) && (x.2 % 2 ^ bits).testBit (i - bits * x.1)) = false := by
          rw [List.any_eq_false]
          intro x hx
          have : bits * (x.1 + 1) ≤ bits * y.1 := Nat.mul_le_mul_left _ (hlt x hx)
          have : ¬(bits * x.1 ≤ i ∧ i < bits * x.1 + bits) := by rw [Nat.mul_add] at this; omega
          simp [this]
        rw [hno]
        simp only [h, if_false, Bool.false_or, List.any_cons, List.any_nil, Bool.or_false]
        by_cases h2 : i < bits * y.1 + bits
        · simp [h2, Nat.not_lt.1 h]
        · have : (y.2 % 2 ^ bits).testBit (i - bits * y.1) = false :=
            Nat.testBit_lt_two_pow (lt_of_lt_of_le (Nat.mod_lt _ (by positivity)) (Nat.pow_le_pow_right (by norm_num) (by omega)))
          simp [h2, this]
    · intro K hK
      rw [packSum_append]
      have hyK : y.1 + 1 ≤ K := hK y (by simp)
      have h1 : y.2 % 2 ^ bits + 1 ≤ 2 ^ bits := Nat.mod_lt _ (by positivity)
      calc _ < 2 ^ (bits * y.1) + y.2 % 2 ^ bits * 2 ^ (bits * y.1) := by omega
        _ = (y.2 % 2 ^ bits + 1) * 2 ^ (bits * y.1) := by ring
        _ ≤ 2 ^ bits * 2 ^ (bits * y.1) := Nat.mul_le_mul_right _ h1
        _ = 2 ^ (bits * (y.1 + 1)) := by rw [← pow_add]; ring_nf
        _ ≤ 2 ^ (bits * K) := Nat.pow_le_pow_right (by norm_num) (Nat.mul_le_mul_left _ hyK)

/-- The bits of packed values: at each position the value listed there, and nothing elsewhere. -/
theorem packAt_bit (bits : Nat) (hb : 0 < bits) (xs : List (Nat × Nat)) (hr : Rising xs) (i : Nat) (hi : i < 4096) :
    (packAt bits xs).getLsbD i = xs.any fun x => decide (x.1 = i / bits) && x.2.testBit (i % bits) := by
  have hp : packAt bits xs = BitVec.ofNat 4096 (packSum bits xs) := rfl
  rw [hp, BitVec.getLsbD_ofNat, (packSum_testBit bits xs hr i).1]
  simp only [hi, decide_true, Bool.true_and]
  congr 1
  funext x
  by_cases h : x.1 = i / bits
  · have h1 := Nat.div_add_mod i bits
    have h2 := Nat.mod_lt i hb
    rw [← h] at h1
    have hin : bits * x.1 ≤ i ∧ i < bits * x.1 + bits := ⟨by omega, by omega⟩
    have hs : i - bits * x.1 = i % bits := by omega
    simp [h, Nat.testBit_mod_two_pow]
    rw [← h, hs]
    simp [hin.1, h2]
    intro _; omega
  · have : ¬(bits * x.1 ≤ i ∧ i < bits * x.1 + bits) := by
      rintro ⟨h1, h2⟩
      apply h
      symm
      rw [Nat.div_eq_of_lt_le]
      · rw [Nat.mul_comm]; omega
      · rw [Nat.add_mul, Nat.mul_comm]; omega
    simp [h, this]

/-- The mask of listed positions: all bits of each, and no other. -/
theorem maskAt_bit (bits : Nat) (hb : 0 < bits) (ks : List Nat) (hr : ks.Pairwise (· < ·)) (i : Nat) (hi : i < 4096) :
    (maskAt bits ks).getLsbD i = decide (i / bits ∈ ks) := by
  have hr' : Rising (ks.map fun k => (k, 2 ^ bits - 1)) := by
    unfold Rising; rw [List.pairwise_map]; exact hr
  rw [maskAt, packAt_bit bits hb _ hr' i hi, Bool.eq_iff_iff]
  simp [List.any_map, List.any_eq_true, Nat.testBit_two_pow_sub_one, Nat.mod_lt _ hb]

/-! ## The loop over elements -/

/-- The loop over a list of elements and one more. -/
theorem vloop_append (act : Nat → Bool) (zero : Bool) (el : Nat → Tbl (BitVec 32) → Elem) (ks : List Nat) (k : Nat) :
    ∀ r, vloop act zero el (ks ++ [k]) r =
      (let a := vloop act zero el ks r
       if act k then (a.1 ++ [(k, (el k a.2.2).1)], a.2.1 ||| (el k a.2.2).2.1, (el k a.2.2).2.2)
       else (if zero then a.1 ++ [(k, 0)] else a.1, a.2.1, a.2.2)) := by
  induction ks with
  | nil => intro r; by_cases h : act k <;> cases zero <;> simp [vloop, h]
  | cons x xs ih =>
    intro r
    simp only [List.cons_append, vloop]
    by_cases hx : act x
    · simp only [hx, if_true, ih]
      by_cases h : act k <;> cases zero <;> simp [h, Nat.or_assoc]
    · simp only [hx, if_false, ih, Bool.false_eq_true]
      by_cases h : act k <;> cases zero <;> simp [h]

/-- What the loop over the first `n` elements gives: the residues, the flags, and which values stand where. -/
theorem vloop_range (act : Nat → Bool) (zero : Bool) (mode : Nat) (sat ftz : Bool) (mk : Nat → Made) (r : Tbl (BitVec 32)) (n : Nat) :
    let a := vloop act zero (fun k r => (mk k).store mode sat ftz r) (List.range n) r
    let made := fun k => (mk k).store mode sat ftz (residues act mode sat ftz mk r k)
    a.2.2 = residues act mode sat ftz mk r n ∧
    a.2.1 = orFlags ((List.range n).filter act) (fun k => (made k).2.1) ∧
    Rising a.1 ∧ (∀ x ∈ a.1, x.1 < n) ∧
    ∀ k y, (k, y) ∈ a.1 ↔ k < n ∧ ((act k = true ∧ y = (made k).1) ∨ (act k = false ∧ zero = true ∧ y = 0)) := by
  induction n with
  | zero => simp [vloop, residues, orFlags, Rising]
  | succ n ih =>
    obtain ⟨h1, h2, h3, h4, h5⟩ := ih
    simp only [List.range_succ, vloop_append, List.filter_append] at *
    have rise : ∀ y, Rising ((vloop act zero (fun k r => (mk k).store mode sat ftz r) (List.range n) r).1 ++ [(n, y)]) := by
      intro y
      exact List.pairwise_append.2 ⟨h3, by simp, fun a ha b hb => by simp at hb; subst hb; exact h4 a ha⟩
    have orApp : ∀ fl : Nat → Nat, orFlags ((List.range n).filter act ++ [n]) fl = orFlags ((List.range n).filter act) fl ||| fl n := by
      intro fl
      have : ∀ l : List Nat, orFlags (l ++ [n]) fl = orFlags l fl ||| fl n := by
        intro l
        induction l with
        | nil => simp [orFlags]
        | cons x xs ih => simp only [orFlags, List.cons_append, List.foldr_cons] at *; rw [ih, Nat.or_assoc]
      exact this _
    by_cases hn : act n
    · simp only [hn, if_true, residues, h1]
      refine ⟨trivial, ?_, rise _, ?_, ?_⟩
      · rw [show [n].filter act = [n] by simp [hn], orApp, h2]
      · intro x hx
        rw [List.mem_append] at hx
        rcases hx with hx | hx
        · exact Nat.lt_succ_of_lt (h4 x hx)
        · simp at hx; rw [hx]; exact Nat.lt_succ_self n
      · intro k y
        rw [List.mem_append, h5]
        by_cases hk : k = n
        · subst hk; simp [hn]
        · have : k < n + 1 ↔ k < n := by omega
          simp [hk, this]
    · have hn' : act n = false := by simpa using hn
      simp only [hn', residues, h1, Bool.false_eq_true, if_false]
      refine ⟨trivial, ?_, ?_, ?_, ?_⟩
      · rw [show [n].filter act = [] by simp [hn'], List.append_nil, h2]
      · cases zero
        · exact h3
        · exact rise 0
      · intro x hx
        cases zero
        · exact Nat.lt_succ_of_lt (h4 x hx)
        · simp only [if_true, List.mem_append] at hx
          rcases hx with hx | hx
          · exact Nat.lt_succ_of_lt (h4 x hx)
          · simp at hx; rw [hx]; exact Nat.lt_succ_self n
      · intro k y
        by_cases hk : k = n
        · subst hk
          cases zero
          · simp only [Bool.false_eq_true, if_false, h5]; simp [hn']
          · simp only [if_true, List.mem_append, h5]; simp [hn']
        · have : k < n + 1 ↔ k < n := by omega
          cases zero
          · simp only [Bool.false_eq_true, if_false, h5]; simp [this]
          · simp only [if_true, List.mem_append, h5]; simp [hk, this]

/-! ## Results -/

theorem afterVote_none (s : State) (v : Nat) (x : BCtx) (bits e len : Nat) (xs : List (Nat × Nat)) (h : NoVote s v) :
    afterVote s v x bits e len xs = (xs, s) := by
  unfold afterVote
  rcases h with h | h
  · simp [h]
  · split
    · rfl
    · generalize hd : takeDup s.upsets = d at h
      obtain ⟨a, b⟩ := d
      simp only at h
      subst h
      rfl

theorem raiseFlags_flagged (s : State) (fl : Nat) : raiseFlags s fl = flagged s fl := by
  rw [raiseFlags_eq]; rfl

theorem rising_unique {xs : List (Nat × Nat)} (hr : Rising xs) (a : Nat × Nat) (ha : a ∈ xs) (b : Nat × Nat) (hb : b ∈ xs)
    (h : a.1 = b.1) : a = b := by
  induction xs with
  | nil => cases ha
  | cons x xs ih =>
    obtain ⟨hx, hr⟩ := List.pairwise_cons.1 hr
    rcases List.mem_cons.1 ha with rfl | ha' <;> rcases List.mem_cons.1 hb with rfl | hb'
    · rfl
    · exact absurd h (Nat.ne_of_lt (hx b hb'))
    · exact absurd h.symm (Nat.ne_of_lt (hx a ha'))
    · exact ih hr ha' hb'

/-- The register bits of a list of placed values as an exposed result. -/
theorem puts_vput (s : State) (v : Nat) (x : BCtx) (lat bits : Nat) (d : Dest) (hb : 0 < bits) (hd : ∀ n, d = .pred n 0 → n = v)
    (xs : List (Nat × Nat)) (hr : Rising xs) (rest : List Nat) (hrest : rest.Pairwise (· < ·)) (new : Nat → Option Nat)
    (hv : v < 2)
    (hnew : ∀ i, i < 4096 → ((new (i / bits)).isSome ↔ (∃ y, (i / bits, y) ∈ xs) ∨ i / 8 ∈ rest))
    (hval : ∀ i y, i < 4096 → new (i / bits) = some y → (i / bits, y) ∈ xs ∨ (y = 0 ∧ ∀ z, (i / bits, z) ∉ xs)) :
    Puts s (vput s v x lat d (maskAt bits (xs.map (·.1)) ||| maskAt 8 rest) (packAt bits xs)) d 1 x.idx lat bits new := by
  refine ⟨maskAt bits (xs.map (·.1)) ||| maskAt 8 rest, packAt bits xs, ?_, ?_⟩
  · have hp : (d = .pred v 0) ↔ (d = .pred 0 0 ∨ d = .pred 1 0) := by
      constructor
      · intro h
        have : v = 0 ∨ v = 1 := by omega
        rcases this with rfl | rfl <;> simp [h]
      · rintro (h | h)
        · have := hd 0 h; subst this; exact h
        · have := hd 1 h; subst this; exact h
    unfold vput
    simp only [hp, Bool.or_eq_true, decide_eq_true_eq]
  · intro i hi
    have hk : (xs.map (·.1)).Pairwise (· < ·) := by rw [List.pairwise_map]; exact hr
    constructor
    · rw [BitVec.getLsbD_or, maskAt_bit bits hb _ hk i hi, maskAt_bit 8 (by norm_num) rest hrest i hi, Bool.eq_iff_iff, hnew i hi]
      simp
    · intro y hy
      rw [packAt_bit bits hb xs hr i hi]
      rcases hval i y hi hy with h | ⟨rfl, h⟩
      · rw [Bool.eq_iff_iff, List.any_eq_true]
        constructor
        · rintro ⟨z, hz, hz2⟩
          simp only [Bool.and_eq_true, decide_eq_true_eq] at hz2
          have hzy : z = (i / bits, y) := rising_unique hr z hz _ h hz2.1
          rw [hzy] at hz2; exact hz2.2
        · intro hb2
          exact ⟨_, h, by simp [hb2]⟩
      · rw [Nat.zero_testBit, List.any_eq_false]
        intro z hz
        simp only [Bool.and_eq_true, decide_eq_true_eq, not_and]
        intro hz1
        exact absurd (by rw [← hz1]; exact hz) (h z.2)

/-- A V operation over `n` elements gives them, with zeros from the byte `tail` on. -/
theorem gives_elems {i : Instr} {s : State} {v : Nat} {f : VF} {x : BCtx} {lat e n m tail : Nat} {mk : Nat → Made}
    {r : Tbl (BitVec 32)} {el : Nat → Tbl (BitVec 32) → Elem} (hv : v < 2) (hw : NoVote s v) (he : 0 < e)
    (hel : ∀ k r, el k r = (mk k).store (vmode s f x) (f.sat || fmtSat s x) (fmtFtz s x) r)
    (htail : ∀ i, i < 4096 → ((tail ≤ i / 8 ∧ i / 8 < vlen s f) ↔ (n ≤ i / (8 * e) ∧ i / (8 * e) < m)))
    (hx : exec i s = vnext (velemsTail { s with t := { s.t with rsd := r } } v f x lat e n tail el) v) :
    GivesElems i s v f x lat e n m mk r := by
  have hel' : el = fun k r => (mk k).store (vmode s f x) (f.sat || fmtSat s x) (fmtFtz s x) r := by funext k r; exact hel k r
  subst hel'
  obtain ⟨h1, h2, h3, h4, h5⟩ := vloop_range (activeAt (psrc s v f.pred x) e) f.zero (vmode s f x) (f.sat || fmtSat s x) (fmtFtz s x) mk r n
  simp only at h1 h2 h3 h4 h5
  generalize hl : vloop (activeAt (psrc s v f.pred x) e) f.zero
    (fun k r => (mk k).store (vmode s f x) (f.sat || fmtSat s x) (fmtFtz s x) r) (List.range n) r = l at h1 h2 h3 h4 h5
  obtain ⟨xs, fl, r'⟩ := l
  simp only at h1 h2 h3 h4 h5
  have key : exec i s = .next (slotDone (counted (vput (flagged { s with t := { s.t with rsd := r' } } fl) v x lat (.vec v f.vd)
      (maskAt (8 * e) (xs.map (·.1)) ||| maskAt 8 ((List.range (vlen s f)).filter fun k => tail ≤ k)) (packAt (8 * e) xs))) (2 + v)) := by
    rw [hx]
    unfold velemsTail
    have hl' : vloop (activeAt (psrc { s with t := { s.t with rsd := r } } v f.pred x) e) f.zero
      (fun k r => (mk k).store (vmode s f x) (f.sat || fmtSat s x) (fmtFtz s x) r) (List.range n) r = (xs, fl, r') := hl
    simp only [hl']
    unfold vout
    rw [afterVote_none _ _ _ _ _ _ _ (show NoVote { s with t := { s.t with rsd := r' } } v from hw)]
    simp only [raiseFlags_flagged]
    rfl
  subst h1 h2
  refine ⟨_, ?_, key⟩
  · refine puts_vput _ v x lat (8 * e) (.vec v f.vd) (by omega) (fun n h => by simp at h) xs h3 _ ?_ _ hv ?_ ?_
    · exact List.Pairwise.filter _ List.pairwise_lt_range
    · intro i hi
      simp only [List.mem_filter, List.mem_range, decide_eq_true_eq, h5]
      have := htail i hi
      have hvl : ∀ r', vlen { s with t := { s.t with rsd := r' } } f = vlen s f := fun _ => rfl
      rw [hvl, And.comm (a := i / 8 < vlen s f), this]
      by_cases hn : i / (8 * e) < n
      · have : ¬n ≤ i / (8 * e) := by omega
        by_cases ha : activeAt (psrc s v f.pred x) e (i / (8 * e)) = true
        · simp [hn, ha]
        · cases hz : f.zero <;> simp [hn, ha, this]
      · have : n ≤ i / (8 * e) := by omega
        by_cases hm : i / (8 * e) < m <;> simp [hn, hm, this]
    · intro i y hi hy
      simp only [h5]
      by_cases hn : i / (8 * e) < n
      · left
        refine ⟨hn, ?_⟩
        simp only [hn, if_true] at hy
        by_cases ha : activeAt (psrc s v f.pred x) e (i / (8 * e)) = true
        · simp only [ha, if_true, Option.some.injEq] at hy; exact .inl ⟨ha, hy.symm⟩
        · have ha' : activeAt (psrc s v f.pred x) e (i / (8 * e)) = false := by simpa using ha
          right
          cases hz : f.zero
          · simp [ha', hz] at hy
          · simp [ha', hz] at hy; exact ⟨ha', rfl, hy.symm⟩
      · right
        simp only [hn, if_false] at hy
        by_cases hm : i / (8 * e) < m
        · simp [hm] at hy; exact ⟨hy.symm, fun z h => hn h.1⟩
        · simp [hm] at hy

/-- A V operation over `n` elements that writes a predicate gives their truths. -/
theorem gives_preds {i : Instr} {s : State} {v : Nat} {f : VF} {x : BCtx} {lat e n : Nat} {el : Nat → Bool × Nat}
    (hv : v < 2) (hw : NoVote s v) (he : 0 < e) (hx : exec i s = vnext (vpreds s v f x lat e n el) v) :
    GivesPreds i s v f x lat e n el := by
  let mk : Nat → Made := fun k => .bits (if (el k).1 then 2 ^ e - 1 else 0) (el k).2
  obtain ⟨_, h2, h3, h4, h5⟩ := vloop_range (activeAt (psrc s v f.pred x) e) f.zero 0 false false mk [] n
  simp only at h2 h3 h4 h5
  have hel : (fun k r => (mk k).store 0 false false r) = fun k r => (if (el k).1 then 2 ^ e - 1 else 0, (el k).2, r) := rfl
  rw [hel] at h2 h3 h4 h5
  generalize hl : vloop (activeAt (psrc s v f.pred x) e) f.zero
    (fun k r => (if (el k).1 then 2 ^ e - 1 else 0, (el k).2, r)) (List.range n) [] = l at h2 h3 h4 h5
  obtain ⟨xs, fl, r'⟩ := l
  simp only at h2 h3 h4 h5
  have key : exec i s = .next (slotDone (counted (vput (flagged s fl) v x lat (.pred v f.vd)
      (maskAt e (xs.map (·.1)) ||| maskAt 8 []) (packAt e xs))) (2 + v)) := by
    rw [hx]
    unfold vpreds
    simp only [hl]
    rw [afterVote_none _ _ _ _ _ _ _ hw]
    have h0 : ∀ m : VReg, m ||| maskAt 8 [] = m := fun m => BitVec.or_zero
    simp only [raiseFlags_flagged, h0]
    rfl
  have h2' : fl = orFlags ((List.range n).filter (activeAt (psrc s v f.pred x) e)) fun k => (el k).2 := h2
  subst h2'
  refine ⟨_, ?_, key⟩
  refine puts_vput _ v x lat e (.pred v f.vd) he (fun n h => by simp only [Dest.pred.injEq] at h; exact h.1.symm) xs h3 _
    (by simp) _ hv ?_ ?_
  · intro i _
    simp only [h5, List.not_mem_nil, or_false]
    by_cases hn : i / e < n
    · by_cases ha : activeAt (psrc s v f.pred x) e (i / e) = true
      · simp [hn, ha]
      · cases hz : f.zero <;> simp [hn, ha]
    · simp [hn]
  · intro i y _ hy
    left
    rw [h5]
    by_cases hn : i / e < n
    · refine ⟨hn, ?_⟩
      simp only [hn, if_true] at hy
      by_cases ha : activeAt (psrc s v f.pred x) e (i / e) = true
      · simp only [ha, if_true, Option.some.injEq] at hy; exact .inl ⟨ha, hy.symm⟩
      · have ha' : activeAt (psrc s v f.pred x) e (i / e) = false := by simpa using ha
        right
        cases hz : f.zero
        · simp [ha', hz] at hy
        · simp [ha', hz] at hy; exact ⟨ha', rfl, hy.symm⟩
    · simp [hn] at hy

end Sys2Proof.Machine
end

