-- ==== Sys2Proof/Laws/Point.lean ====
section
/-! SUPPORT. What reaching the order point and writing there may do: `Quiet` and `Within` for the steps that LDLAST, LDA, STL, the
atomics and the reads of envelopes are made of. -/

namespace Sys2Proof.Machine

theorem quiet_toPoint (s : State) (ea : Nat) (ps : List Piece) (write : Bool) : Quiet s (toPoint s ea ps write) :=
  ((quiet_notePieces s _ _ _).trans (quiet_l1DropLines ps _)).trans (Quiet.foldl _ (fun s _ => quiet_touchLines s _ _ _ _ _ _) _ _)

theorem within_l1DropLines {A : Nat → Prop} (ps : List Piece) (s : State) :
    Within A s (ps.foldl (fun s p => (linesOf p.pg.pa p.len).foldl l1Drop s) s) :=
  Within.foldl _ ps (fun _ _ s => Within.foldl _ _ (fun _ _ s => within_l1Drop s _) s) s

theorem within_toPoint {A : Nat → Prop} (s : State) (ea : Nat) (ps : List Piece) (write : Bool) :
    Within A s (toPoint s ea ps write) :=
  ((within_notePieces s _ _ _).trans (within_l1DropLines ps _)).trans
    (Within.foldl _ ps (fun _ _ s => within_touchLines s _ _ _ _ _ _) _)

theorem quiet_recsOf (s : State) (ps : List Piece) : Quiet s (recsOf s ps) := Quiet.foldl _ (fun s _ => quiet_noteRecs s _ _) ps s

theorem within_recsOf {A : Nat → Prop} (s : State) (ps : List Piece) : Within A s (recsOf s ps) :=
  Within.foldl _ ps (fun _ _ s => within_noteRecs s _ _) s

theorem quiet_pointWrite (s : State) (ps : List Piece) (bs : List Byte) (r : Option SyncRec) : Quiet s (pointWrite s ps bs r) :=
  (quiet_tagLines s _ _ _).trans (Quiet.foldl _ (fun s _ => quiet_orderWrite s _ _ _) ps _)

/-- A write at the order point of a checked range writes no byte outside it. -/
theorem within_pointWrite (s s0 : State) (va : Nat) (ps : List Piece) (bs : List Byte) (r : Option SyncRec) (acc : Acc) (io : Bool)
    (h : accCheck s0 va bs.length acc io = .ok ps) : Within (BytesOf ps bs.length) s (pointWrite s ps bs r) := by
  refine (within_tagLines s _ _ _).trans (Within.foldl _ ps (fun p hp s => ?_) _)
  refine (within_orderWrite s _ _ _).mono fun a ha => piece_bytesOf s0 va _ acc ps io h p hp a ⟨ha.1, ?_⟩
  have := ha.2
  rw [List.length_take] at this
  have := Nat.min_le_left p.len (bs.drop p.off).length
  omega

theorem quiet_dropLine (s : State) (line : Nat) : Quiet s (dropLine s line) :=
  ⟨⟨rfl, rfl, rfl, rfl, rfl, rfl, rfl, AccessFrame.core_eq_of rfl rfl rfl rfl, fun _ => rfl⟩, fun h => ⟨h.1, twf_tclear none _ _ _ h.2⟩⟩

/-- A line that is dropped shows what HBM holds of it, and no other byte changes. -/
theorem within_dropLine (s : State) (line : Nat) : Within (fun a => a / 128 = line) s (dropLine s line) := by
  refine fun _ =>
    ⟨Keeps.still ⟨⟨rfl, rfl, rfl, rfl, rfl⟩, ⟨rfl, rfl, rfl, rfl, rfl⟩, fun _ => rfl⟩, fun a ha => .inl ?_, fun _ _ _ h => h⟩
  unfold dropLine peek
  simp only [onPkg_pkg, tget_tclear]
  rw [if_neg]
  intro h
  exact ha (by omega)

/-- A read at the order point that succeeds writes nothing. -/
theorem within_orderRead {A : Nat → Prop} (s s' : State) (va n : Nat) (a : Acc) (ps : List Piece)
    (h : orderRead s va n a = .ok (ps, s')) : Within A s s' := by
  unfold orderRead at h
  split at h
  · exact absurd h (by simp)
  simp only [] at h
  split at h
  · exact absurd h (by simp)
  · simp only [Except.ok.injEq, Prod.mk.injEq] at h
    rw [← h.2]
    exact (((within_notePieces s _ _ _).trans (within_l1DropLines _ _)).trans
      (Within.foldl _ _ (fun _ _ s => within_touchLines s _ _ _ _ _ _) _)).trans (within_tagLines _ _ _ _)

/-- What a word may have changed when its read at the order point has succeeded. -/
theorem access_orderRead (s s' : State) (va n : Nat) (a : Acc) (ps : List Piece) (h : orderRead s va n a = .ok (ps, s')) :
    Access NoByte s s' := access_of (quiet_orderRead s s' va n a ps h) (within_orderRead s s' va n a ps h)

end Sys2Proof.Machine
end

