-- ==== Sys2Proof/Laws/Slots.lean ====
section
/-! SUPPORT. What the slots do when a bundle is passed: `SlotFrame` for each of the operations that deliver results and apply queued
writes, so that no statement about a slot operation or an issue parcel unfolds them. -/

namespace Sys2Proof.Machine

namespace SlotFrame

theorem refl (s : State) : SlotFrame s s := rfl

theorem trans {s t u : State} (h : SlotFrame s t) (k : SlotFrame t u) : SlotFrame s u := by
  unfold SlotFrame at *
  rw [k, h]

/-- A fold of steps that are within the frame is. -/
theorem foldl {β : Type} (f : State → β → State) (hf : ∀ s x, SlotFrame s (f s x)) (xs : List β) (s : State) :
    SlotFrame s (xs.foldl f s) := by
  induction xs generalizing s with
  | nil => rfl
  | cons x rest ih => exact (hf s x).trans (ih _)

theorem onSlots (s : State) (f : Slots → Slots) : SlotFrame s (onSlots s f) := rfl

end SlotFrame

theorem slotFrame_setBase (s : State) (d : Dest) (v : VReg) : SlotFrame s (setBase s d v) := by
  unfold setBase
  split <;> (try split) <;> rfl

theorem slotFrame_deliver (s : State) (m : Nat) : SlotFrame s (deliver s m) := by
  unfold deliver
  simp only []
  split
  · exact SlotFrame.refl s
  · have h := SlotFrame.foldl deliverOne (fun s l => slotFrame_setBase s _ _) (s.t.slots.latches.filter (latchDue s m)) s
    split
    · exact (h.trans (SlotFrame.onSlots _ _)).trans rfl
    · exact h.trans (SlotFrame.onSlots _ _)

theorem slotFrame_foldFmt (s : State) (m : Nat) : SlotFrame s (foldFmt s m) := by
  unfold foldFmt
  split
  · exact SlotFrame.refl s
  · exact SlotFrame.onSlots s _

theorem slotFrame_applyCfg (s : State) (w : CfgWrite) : SlotFrame s (applyCfg s w) := by
  unfold applyCfg
  simp only []
  split <;> rfl

theorem slotFrame_foldCfg (s : State) : SlotFrame s (foldCfg s) := by
  unfold foldCfg
  split
  · exact SlotFrame.refl s
  · exact (SlotFrame.onSlots s _).trans (SlotFrame.foldl applyCfg slotFrame_applyCfg _ _)

theorem slotFrame_passHead (s : State) (k : Nat) : SlotFrame s (passHead s k) := by
  unfold passHead
  split <;> rfl

theorem slotFrame_passAll (fuel : Nat) : ∀ s : State, SlotFrame s (passAll fuel s) := by
  induction fuel with
  | zero => intro s; rfl
  | succ fuel ih =>
    intro s
    unfold passAll
    split
    · exact (slotFrame_passHead s _).trans (ih _)
    · exact SlotFrame.refl s

/-- Everything that settling the slots can do. -/
theorem slotFrame_settle (s : State) : SlotFrame s (settle s) :=
  (slotFrame_passAll _ s).trans ((slotFrame_deliver _ _).trans ((slotFrame_foldFmt _ _).trans (slotFrame_foldCfg _)))

/-- Everything that finishing a slot operation can do. -/
theorem slotFrame_slotDone (s : State) (k : Nat) : SlotFrame s (slotDone s k) := by
  unfold slotDone
  split
  · exact SlotFrame.refl s
  · exact (SlotFrame.onSlots s _).trans (slotFrame_settle _)

end Sys2Proof.Machine
end

