-- ==== Sys2Proof/Tests/Slice0.lean ====
section
/-! SUPPORT. Our own tests: words of every encoding, ill-formed terms, single steps with results of the spec's own examples, and a
state that meets the hypotheses of each statement of Certificates/Slice0/Obligations. -/

set_option maxRecDepth 20000
set_option exponentiation.threshold 5000

open Sys2Proof Sys2Proof.Machine

/-! ## Stream words

Each word is the match value of its row of the opcode table with its fields put in at the places R44 and R46 to R49 give them. -/

theorem test_decode_words_1 : ∀ p ∈ ([
    (0x00AD5981, .add 21 42 51), (0x00AD5982, .sub 21 42 51), (0x00AD5983, .and 21 42 51), (0x00AD5984, .or 21 42 51),
    (0x00AD5985, .xor 21 42 51), (0x00AD5986, .andn 21 42 51), (0x00AD5987, .shl 21 42 51), (0x00AD5988, .shr 21 42 51),
    (0x00AD5989, .sar 21 42 51), (0x00AD598A, .rol 21 42 51), (0x02AD5981, .mul 21 42 51), (0x02AD5982, .mulh 21 42 51),
    (0x02AD5983, .mulhn 21 42 51), (0x02AD5984, .div 21 42 51), (0x02AD5985, .divn 21 42 51), (0x02AD5986, .rem 21 42 51),
    (0x02AD5987, .remn 21 42 51), (0x02AD5988, .min 21 42 51), (0x02AD5989, .max 21 42 51), (0x02AD598A, .minn 21 42 51),
    (0x02AD598B, .maxn 21 42 51), (0x04AD4001, .clz 21 42)] : List (Nat × Instr)), decodeTableWord 32 p.1 = some p.2 := by decide

theorem test_decode_words_2 : ∀ p ∈ ([
    (0x04AD4002, .ctz 21 42), (0x04AD4003, .popc 21 42), (0x04AD4004, .bswap 21 42), (0x04AD5985, .bext 21 42 51),
    (0x04AD5986, .bins 21 42 51), (0x04AD5995, .sel 5 21 42 51), (0x04AD59A5, .cmp 5 21 42 51), (0x042D59B5, .cmpq 5 5 42 51),
    (0x04AD59C0, .sewma 21 42 51), (0x06AD59D1, .fadd 2 1 21 42 51), (0x06AD59D2, .fsub 2 1 21 42 51),
    (0x06AD59D3, .fmul 2 1 21 42 51), (0x06AD59D4, .ffma 2 1 21 42 51), (0x06AD59D5, .fdiv 2 1 21 42 51),
    (0x06AD4056, .fsqrt 2 1 21 42), (0x06AD5997, .fmin 1 21 42 51), (0x06AD5998, .fmax 1 21 42 51),
    (0x062D59D9, .fcmpq 2 1 5 42 51), (0x06AD43CA, .fcvt 2 7 21 42), (0x06AD401B, .fclass 1 21 42), (0x06AD405C, .frcp 2 1 21 42),
    (0x08AD4155, .addi 21 42 341)] : List (Nat × Instr)), decodeTableWord 32 p.1 = some p.2 := by decide

theorem test_decode_words_3 : ∀ p ∈ ([
    (0x0AAD4155, .andi 21 42 341), (0x0CAD4155, .ori 21 42 341), (0x0EAD4155, .xori 21 42 341), (0x10AD402D, .shli 21 42 45),
    (0x10AD406D, .shri 21 42 45), (0x10AD40AD, .sari 21 42 45), (0x122D5555, .cmpqi 5 5 42 341), (0x14ADA5A5, .lui 21 370085),
    (0x16ADA5A5, .addpc 21 370085), (0x196ABCDE, .pbr 5 2800862), (0x1A000001, .nop), (0x1A2D4002, .pbrxLoad 5 42),
    (0x1AA8A082, .pbrxRead 21 5), (0x1A28C083, .br 5 6 1), (0x1A28C084, .call 5 6 1), (0x1A00C085, .ret 6 1),
    (0x1A10C086, .loopx 2 6 1), (0x1A000007, .endTask), (0x1A055988, .cwtld 42 51), (0x1A054009, .cwtclr 42),
    (0x1A286315, .qop 5 5 3 6), (0x1C154155, .loop 2 42 341)] : List (Nat × Instr)), decodeTableWord 32 p.1 = some p.2 := by decide

theorem test_decode_words_4 : ∀ p ∈ ([
    (0x20AD56A5, .ld 21 42 2 1 2 165), (0x22AD56A5, .st 21 42 2 1 2 165), (0x24AD50A5, .ldlast 21 42 2 165),
    (0x26AD50A5, .lda 21 42 2 165), (0x28AD50A5, .stl 21 42 2 165), (0x2AAD598E, .aadd 1 2 21 42 51),
    (0x2AAD5996, .amin 1 2 21 42 51), (0x2AAD599E, .amax 1 2 21 42 51), (0x2AAD59A6, .aminn 1 2 21 42 51),
    (0x2AAD59AE, .amaxn 1 2 21 42 51), (0x2AAD59B6, .aand 1 2 21 42 51), (0x2AAD59BE, .aor 1 2 21 42 51),
    (0x2AAD59C6, .axor 1 2 21 42 51), (0x2AAD59CE, .aswap 1 2 21 42 51), (0x2AAD59D6, .acas 1 2 21 42 51),
    (0x2AAD59DE, .afadd 1 2 21 42 51), (0x2C180001, .fenceFull 3), (0x2C182001, .fenceRel 3), (0x2C184001, .fenceAcq 3),
    (0x2C055982, .clean 42 51), (0x2C080002, .cleanAll), (0x2C055983, .inval 42 51)] : List (Nat × Instr)), decodeTableWord 32 p.1 = some p.2 := by decide

theorem test_decode_words_5 : ∀ p ∈ ([
    (0x2C080003, .invalAll), (0x306D4081, .phcfg 13 42 1), (0x30A9A102, .phqry 21 13 2), (0x40A0DAB3, .eset 5 13 42 51),
    (0x40100540, .egoCopy 21), (0x40300540, .egoGather 21), (0x40500540, .egoScatter 21), (0x40700540, .egoTrack 21),
    (0x40900540, .egoTraj 21), (0x40B00540, .egoSink 21), (0x40D00540, .egoNmred 21), (0x40F00540, .egoPort 21),
    (0x40101573, .estat 21 51), (0x40102573, .ewait 21 51), (0x40103573, .ecancel 21 51), (0x425D4081, .mshapeLoad 11 42 1),
    (0x425D4102, .mshapeWord 11 42 2), (0x42A96103, .mshq 21 11 2), (0x42A80104, .mgeo 21 2), (0x42154085, .maccsave 2 42 1),
    (0x42154086, .maccload 2 42 1), (0x42AD4107, .mstat 21 42 2)] : List (Nat × Instr)), decodeTableWord 32 p.1 = some p.2 := by decide

theorem test_decode_words_6 : ∀ p ∈ ([
    (0x42A80287, .mstatReset 21), (0x44AD5981, .cntinc 21 42 51), (0x44AD5982, .cntwait 21 42 51), (0x44AD4003, .cntrd 21 42),
    (0x44055984, .cntset 42 51), (0x46AD5981, .ocset 21 42 51), (0x46AD4102, .topoq 21 42 2), (0x46055983, .fwset 42 51),
    (0x46AD4084, .fwq 21 42 1), (0x48055981, .vpubStage 42 51), (0x48AD4002, .vpub 21 42), (0x48AD5983, .vpubF 21 42 51),
    (0x48AD4004, .vadoptSeq 21 42), (0x48AD4005, .vadoptStep 21 42), (0x48AD5986, .vpin 21 42 51), (0x48054007, .vunpin 42),
    (0x48AD4108, .vqry 21 42 2), (0x50AD4001, .tspawn 21 42), (0x50AD4002, .twait 21 42), (0x50000003, .yield),
    (0x50054004, .tkillKill 42), (0x50054084, .tkillHalt 42)] : List (Nat × Instr)), decodeTableWord 32 p.1 = some p.2 := by decide

theorem test_decode_words_7 : ∀ p ∈ ([
    (0x50A80105, .tself 21 2), (0x52AD4001, .dbar 21 42), (0x52AD4002, .djoin 21 42), (0x52AD5983, .djoinNew 21 42 51),
    (0x52AD4004, .dleave 21 42), (0x52AD5985, .devict 21 42 51), (0x52AD4106, .dphase 21 42 2), (0x542D5981, .spec 5 42 51),
    (0x54A80002, .scommit 21), (0x54000003, .sabort), (0x54A80104, .sstat 21 2), (0x56000002, .yieldpt 2),
    (0x60D06281, .mfsr 26 197), (0x60D06282, .mtsr 26 197), (0x61280082, .mtsrFmt 37), (0x61281202, .mtsrTimer 37),
    (0x61284082, .mtsrTrappc 37), (0x61288302, .repartition 37 6), (0x61288702, .preempt 37), (0x61290382, .vsealdropClear 37),
    (0x61290982, .bootok 37), (0x61290A02, .resumetask 37)] : List (Nat × Instr)), decodeTableWord 32 p.1 = some p.2 := by decide

theorem test_decode_words_8 : ∀ p ∈ ([
    (0x60055E03, .trap 2748), (0x60000004, .sysretResume), (0x60000084, .sysretSuspend), (0x60000104, .sysretKill),
    (0x60055985, .tlbinvPage 42 51), (0x600D5985, .tlbinvAsid 42 51), (0x60100005, .tlbinvAll), (0x60A80006, .tnoise 21),
    (0x60055987, .bind 42 51), (0x60054008, .wfe 42), (0x62055981, .chkq 42 51), (0x62006302, .chkqQ 3 6),
    (0x62AD4103, .quarq 21 42 2), (0x62AD4303, .quarqQuarantine 21 42), (0x62AD4383, .quarqClear 21 42)] : List (Nat × Instr)), decodeTableWord 32 p.1 = some p.2 := by decide

/-- R466: TLBINV of k = 2 that names registers (42 and 51): the model's constructor holds the first plus 64 (log 47). -/
theorem test_decode_tlbinv_all_named : decodeTableWord 32 0x60155985 = some (.tlbinvAsid 106 51) := rfl

theorem test_decode_parcel : decodeTableWord 16 0xD569 = some (.issueParcel 341 2 9) := by decide

/-! ## Slot fields

The words of R54, R58, R60, R61 and R53, field by field. `vslot`, `lslot`, `mslot` and `xslot` give the instruction that a field
stands for. -/

def vslot (w : Nat) : Option Instr :=
  match decodeV 1 w with | .ok (.op code f) => Instr.ofV code 0 f {} | _ => none
def lslot (w : Nat) : Option Instr := match decodeL w with | .ok (some (op, f)) => Instr.ofL op f {} | _ => none
def mslot (w : Nat) : Option (Instr × MF) :=
  match decodeM w with | .ok (some (op, f)) => (Instr.ofM op).map fun i => (i, f) | _ => none
def xslot (w : Nat) : Option (Instr × XF) :=
  match decodeX w with | .ok (some (op, f)) => (Instr.ofX op).map fun i => (i, f) | _ => none

theorem test_decode_vector_1 : ∀ p ∈ ([
    (0x0600000037937600, .vadd 0 { width := 2, ty := 5, pred := 3, vd := 19, va := 28, vb := 13, sat := true, zero := true } {}),
    (0x0000000037937601, .vsub 0 { width := 2, ty := 5, pred := 3, vd := 19, va := 28, vb := 13 } {}),
    (0x0000000037937602, .vmul 0 { width := 2, ty := 5, pred := 3, vd := 19, va := 28, vb := 13 } {}),
    (0x0000000037937603, .vmulh 0 { width := 2, ty := 5, pred := 3, vd := 19, va := 28, vb := 13 } {}),
    (0x0000000B37937604, .vmad 0 { width := 2, ty := 5, pred := 3, vd := 19, va := 28, vb := 13, vc := 22 } {}),
    (0x0000000037937605, .vmin 0 { width := 2, ty := 5, pred := 3, vd := 19, va := 28, vb := 13 } {}),
    (0x0000000037937606, .vmax 0 { width := 2, ty := 5, pred := 3, vd := 19, va := 28, vb := 13 } {}),
    (0x0000000003936A07, .vabs 0 { width := 2, ty := 2, pred := 3, vd := 19, va := 28 } {}),
    (0x0000000003936A08, .vneg 0 { width := 2, ty := 2, pred := 3, vd := 19, va := 28 } {}),
    (0x0000000037937609, .vand 0 { width := 2, ty := 5, pred := 3, vd := 19, va := 28, vb := 13 } {}),
    (0x000000003793760A, .vor 0 { width := 2, ty := 5, pred := 3, vd := 19, va := 28, vb := 13 } {}),
    (0x000000003793760B, .vxor 0 { width := 2, ty := 5, pred := 3, vd := 19, va := 28, vb := 13 } {}),
    (0x000000000393760C, .vnot 0 { width := 2, ty := 5, pred := 3, vd := 19, va := 28 } {}),
    (0x000000003793760D, .vshl 0 { width := 2, ty := 5, pred := 3, vd := 19, va := 28, vb := 13 } {}),
    (0x000000003793760E, .vshr 0 { width := 2, ty := 5, pred := 3, vd := 19, va := 28, vb := 13 } {}),
    (0x000000003793760F, .vsar 0 { width := 2, ty := 5, pred := 3, vd := 19, va := 28, vb := 13 } {}),
    (0x0000000137857610, .vcmp 0 { width := 2, ty := 5, pred := 3, vd := 5, va := 28, vb := 13, vc := 2 } {}),
    (0x0000000337937611, .vsel 0 { width := 2, ty := 5, pred := 3, vd := 19, va := 28, vb := 13, vc := 6 } {}),
    (0x0081234000137612, .vli 0 { width := 2, ty := 5, pred := 3, vd := 19, form := 1, imm := 4660 } {})] : List (Nat × Instr)), vslot p.1 = some p.2 := by decide

theorem test_decode_vector_2 : ∀ p ∈ ([
    (0x0000000003937613, .vmov 0 { width := 2, ty := 5, pred := 3, vd := 19, va := 28 } {}),
    (0x0060000037936A20, .vfadd 0 { width := 2, ty := 2, pred := 3, vd := 19, va := 28, vb := 13, rnd := 3 } {}),
    (0x0000000037936A21, .vfsub 0 { width := 2, ty := 2, pred := 3, vd := 19, va := 28, vb := 13 } {}),
    (0x0000000037936A22, .vfmul 0 { width := 2, ty := 2, pred := 3, vd := 19, va := 28, vb := 13 } {}),
    (0x0000000B37936A23, .vfma 0 { width := 2, ty := 2, pred := 3, vd := 19, va := 28, vb := 13, vc := 22 } {}),
    (0x0000000B37936A24, .vfms 0 { width := 2, ty := 2, pred := 3, vd := 19, va := 28, vb := 13, vc := 22 } {}),
    (0x0000000B37936A25, .vfnma 0 { width := 2, ty := 2, pred := 3, vd := 19, va := 28, vb := 13, vc := 22 } {}),
    (0x0000000037936A26, .vfmin 0 { width := 2, ty := 2, pred := 3, vd := 19, va := 28, vb := 13 } {}),
    (0x0000000037936A27, .vfmax 0 { width := 2, ty := 2, pred := 3, vd := 19, va := 28, vb := 13 } {}),
    (0x0000000003936A28, .vfabs 0 { width := 2, ty := 2, pred := 3, vd := 19, va := 28 } {}),
    (0x0000000003936A29, .vfneg 0 { width := 2, ty := 2, pred := 3, vd := 19, va := 28 } {}),
    (0x0000000037936A2A, .vfdiv 0 { width := 2, ty := 2, pred := 3, vd := 19, va := 28, vb := 13 } {}),
    (0x0000000003936A2B, .vfsqrt 0 { width := 2, ty := 2, pred := 3, vd := 19, va := 28 } {}),
    (0x0000000003936A2C, .vfrcp 0 { width := 2, ty := 2, pred := 3, vd := 19, va := 28 } {}),
    (0x0000000003936A2D, .vfrsq 0 { width := 2, ty := 2, pred := 3, vd := 19, va := 28 } {}),
    (0x0000000003936A2E, .vfexp2 0 { width := 2, ty := 2, pred := 3, vd := 19, va := 28 } {}),
    (0x0000000003936A2F, .vflog2 0 { width := 2, ty := 2, pred := 3, vd := 19, va := 28 } {}),
    (0x0000000137856A30, .vfcmp 0 { width := 2, ty := 2, pred := 3, vd := 5, va := 28, vb := 13, vc := 2 } {}),
    (0x0000004003936A31, .vfcvt 0 { width := 2, ty := 2, pred := 3, vd := 19, va := 28, imm := 4 } {})] : List (Nat × Instr)), vslot p.1 = some p.2 := by decide

theorem test_decode_vector_3 : ∀ p ∈ ([
    (0x0000004003936A32, .vicvt 0 { width := 2, ty := 2, pred := 3, vd := 19, va := 28, imm := 4 } {}),
    (0x0000004037936A33, .vnarrow 0 { width := 2, ty := 2, pred := 3, vd := 19, va := 28, vb := 13, imm := 4 } {}),
    (0x0000001003936A34, .vwiden 0 { width := 2, ty := 2, pred := 3, vd := 19, va := 28, imm := 1 } {}),
    (0x0000000037937650, .vperm 0 { width := 2, ty := 5, pred := 3, vd := 19, va := 28, vb := 13 } {}),
    (0x0080009003937651, .vbcast 0 { width := 2, ty := 5, pred := 3, vd := 19, va := 28, form := 1, imm := 9 } {}),
    (0x008000BB03937652, .vslide 0 { width := 2, ty := 5, pred := 3, vd := 19, va := 28, vc := 22, form := 1, imm := 11 } {}),
    (0x0000001037937653, .vzip 0 { width := 2, ty := 5, pred := 3, vd := 19, va := 28, vb := 13, imm := 1 } {}),
    (0x0000001037937654, .vunzip 0 { width := 2, ty := 5, pred := 3, vd := 19, va := 28, vb := 13, imm := 1 } {}),
    (0x0080009003937655, .vins 0 { width := 2, ty := 5, pred := 3, vd := 19, va := 28, form := 1, imm := 9 } {}),
    (0x0080009003937656, .vext 0 { width := 2, ty := 5, pred := 3, vd := 19, va := 28, form := 1, imm := 9 } {}),
    (0x0000000003937657, .vcompress 0 { width := 2, ty := 5, pred := 3, vd := 19, va := 28 } {}),
    (0x0000000003937658, .vredaddI 0 { width := 2, ty := 5, pred := 3, vd := 19, va := 28 } {}),
    (0x0000000003937659, .vredmaxI 0 { width := 2, ty := 5, pred := 3, vd := 19, va := 28 } {}),
    (0x000000000393765A, .vredminI 0 { width := 2, ty := 5, pred := 3, vd := 19, va := 28 } {}),
    (0x000000000393765B, .vargmaxI 0 { width := 2, ty := 5, pred := 3, vd := 19, va := 28 } {}),
    (0x000000000393765C, .vscanI 0 { width := 2, ty := 5, pred := 3, vd := 19, va := 28 } {}),
    (0x0000000003936A60, .vredaddF 0 { width := 2, ty := 2, pred := 3, vd := 19, va := 28 } {}),
    (0x0000000003936A61, .vredmaxF 0 { width := 2, ty := 2, pred := 3, vd := 19, va := 28 } {}),
    (0x0000000003936A62, .vredminF 0 { width := 2, ty := 2, pred := 3, vd := 19, va := 28 } {})] : List (Nat × Instr)), vslot p.1 = some p.2 := by decide

theorem test_decode_vector_4 : ∀ p ∈ ([
    (0x0000000003936A63, .vargmaxF 0 { width := 2, ty := 2, pred := 3, vd := 19, va := 28 } {}),
    (0x0000000003936A64, .vscanF 0 { width := 2, ty := 2, pred := 3, vd := 19, va := 28 } {}),
    (0x0000000018657670, .pand 0 { width := 2, ty := 5, pred := 3, vd := 5, va := 3, vb := 6 } {}),
    (0x0000000018657671, .por 0 { width := 2, ty := 5, pred := 3, vd := 5, va := 3, vb := 6 } {}),
    (0x0000000018657672, .pxor 0 { width := 2, ty := 5, pred := 3, vd := 5, va := 3, vb := 6 } {}),
    (0x0000000000657673, .pnot 0 { width := 2, ty := 5, pred := 3, vd := 5, va := 3 } {}),
    (0x0000000000657674, .pfirst 0 { width := 2, ty := 5, pred := 3, vd := 5, va := 3 } {}),
    (0x0000000000657675, .ppop 0 { width := 2, ty := 5, pred := 3, vd := 5, va := 3 } {}),
    (0x008000B000057676, .pcnt 0 { width := 2, ty := 5, pred := 3, vd := 5, form := 1, imm := 11 } {}),
    (0x0000006000137A80, .vrand 0 { width := 2, ty := 6, pred := 3, vd := 19, imm := 6 } {}),
    (0x0000003003807A81, .vrkey 0 { width := 2, ty := 6, pred := 3, va := 28, imm := 3 } {}),
    (0x0000000003807A82, .vrskip 0 { width := 2, ty := 6, pred := 3, va := 28 } {}),
    (0x0000003000137A83, .vrsave 0 { width := 2, ty := 6, pred := 3, vd := 19, imm := 3 } {}),
    (0x0000000037807688, .vchk 0 { width := 2, ty := 5, pred := 3, va := 28, vb := 13 } {}),
    (0x0000002003826A90, .vacc 0 { width := 2, ty := 2, pred := 3, vd := 2, va := 28, imm := 2 } {}),
    (0x0000002003826A91, .vnorm 0 { width := 2, ty := 2, pred := 3, vd := 2, va := 28, imm := 2 } {})] : List (Nat × Instr)), vslot p.1 = some p.2 := by decide

theorem test_decode_memory_slot : ∀ p ∈ ([
    (0x00BFF00B6DC1, .vld { off := 65408, areg := 13, vreg := 22, file := 1, width := 3, pred := 5, mode := 2 } {}),
    (0x00BFF0076DC2, .vst { off := 65408, areg := 13, vreg := 22, file := 1, width := 3, pred := 5, mode := 1 } {}),
    (0x00BFF0076DC3, .vldff { off := 65408, areg := 13, vreg := 22, file := 1, width := 3, pred := 5, mode := 1 } {}),
    (0x00BFF00F6DC4, .vldx { off := 65408, areg := 13, vreg := 22, file := 1, width := 3, pred := 5, mode := 3 } {}),
    (0x00BFF00F6DC5, .vstx { off := 65408, areg := 13, vreg := 22, file := 1, width := 3, pred := 5, mode := 3 } {}),
    (0x00BFF0136DC6, .vldw { off := 65408, areg := 13, vreg := 22, file := 1, width := 3, pred := 5, mode := 4 } {}),
    (0x00BFF0136DC7, .vstw { off := 65408, areg := 13, vreg := 22, file := 1, width := 3, pred := 5, mode := 4 } {}),
    (0x0BBFF0076DC8, .phpop { off := 65408, areg := 13, vreg := 22, file := 1, width := 3, pred := 5, mode := 1, hole := 11 } {}),
    (0x0BBFF0076DC9, .phpush { off := 65408, areg := 13, vreg := 22, file := 1, width := 3, pred := 5, mode := 1, hole := 11 } {}),
    (0x001FF003400A, .ainc { off := 65408, areg := 13 } {}), (0x001FF003400B, .aset { off := 65408, areg := 13 } {})] : List (Nat × Instr)), lslot p.1 = some p.2 := by decide

theorem test_decode_matrix_slot : (decodeM 0).toOption = some none ∧ ∀ p ∈ ([
    (0x0009B241, .mwl, { shape := 9, plane := 1, row := 77 }),
    (0x0009BE62, .mpush, { acc := 2, shape := 9, neg := true, accdis := true, plane := 1, row := 77 }), (0x00000003, .mswap, {}),
    (0x0009B274, .mdrain, { acc := 3, shape := 9, plane := 1, row := 77 }), (0x0009A025, .mclr, { acc := 2, row := 77 }),
    (0x00000026, .mchk, { acc := 2 }), (0x0009A027, .mnorm, { acc := 2, row := 77 })] : List (Nat × Instr × MF)), mslot p.1 = some p.2 := by decide

theorem test_decode_move_slot : ∀ p ∈ ([
    (0xFA11, .xmv, { a := 33, b := 62 }), (0x8512, .xts, { a := 17, b := 33 }), (0x4613, .xfs, { a := 33, b := 17 }),
    (0x84D4, .xta, { a := 13, b := 33 }), (0x3615, .xfa, { a := 33, b := 13 }), (0x9516, .xpc, { a := 17, b := 37 })] : List (Nat × Instr × XF)), xslot p.1 = some p.2 := by decide

theorem test_decode_control_slot : (decodeC 0x7B9529EF).toOption = some
    { trc := true, chk := true, pha := some (1, 11), fmtw := some 0x2A53, rdv := some 5, seg := true, sync := true } := by decide

/-! ## Ill-formed instructions

One for each operand of each stream word, at the first value out of its range, and one for each check beyond a range. -/

theorem test_ill_formed_words_1 : ∀ i ∈ ([
    .issueParcel 512 0 0, .issueParcel 0 4 0, .issueParcel 0 0 16, .add 64 0 0, .add 0 64 0, .add 0 0 64, .sub 64 0 0,
    .sub 0 64 0, .sub 0 0 64, .and 64 0 0, .and 0 64 0, .and 0 0 64, .or 64 0 0, .or 0 64 0, .or 0 0 64, .xor 64 0 0, .xor 0 64 0,
    .xor 0 0 64, .andn 64 0 0, .andn 0 64 0, .andn 0 0 64, .shl 64 0 0, .shl 0 64 0, .shl 0 0 64, .shr 64 0 0, .shr 0 64 0,
    .shr 0 0 64, .sar 64 0 0, .sar 0 64 0, .sar 0 0 64, .rol 64 0 0, .rol 0 64 0, .rol 0 0 64, .mul 64 0 0, .mul 0 64 0,
    .mul 0 0 64, .mulh 64 0 0, .mulh 0 64 0, .mulh 0 0 64, .mulhn 64 0 0, .mulhn 0 64 0, .mulhn 0 0 64, .div 64 0 0, .div 0 64 0,
    .div 0 0 64, .divn 64 0 0, .divn 0 64 0, .divn 0 0 64, .rem 64 0 0, .rem 0 64 0, .rem 0 0 64, .remn 64 0 0, .remn 0 64 0,
    .remn 0 0 64, .min 64 0 0, .min 0 64 0, .min 0 0 64, .max 64 0 0, .max 0 64 0, .max 0 0 64, .minn 64 0 0, .minn 0 64 0,
    .minn 0 0 64, .maxn 64 0 0, .maxn 0 64 0, .maxn 0 0 64, .clz 64 0, .clz 0 64, .ctz 64 0, .ctz 0 64, .popc 64 0, .popc 0 64] : List Instr), i.wf 1 = false := by decide

theorem test_ill_formed_words_2 : ∀ i ∈ ([
    .bswap 64 0, .bswap 0 64, .bext 64 0 0, .bext 0 64 0, .bext 0 0 64, .bins 64 0 0, .bins 0 64 0, .bins 0 0 64, .sel 8 0 0 0,
    .sel 0 64 0 0, .sel 0 0 64 0, .sel 0 0 0 64, .cmp 8 0 0 0, .cmp 0 64 0 0, .cmp 0 0 64 0, .cmp 0 0 0 64, .cmpq 8 0 0 0,
    .cmpq 0 8 0 0, .cmpq 0 0 64 0, .cmpq 0 0 0 64, .sewma 64 0 0, .sewma 0 64 0, .sewma 0 0 64, .fadd 3 0 0 0 0, .fadd 0 2 0 0 0,
    .fadd 0 0 64 0 0, .fadd 0 0 0 64 0, .fadd 0 0 0 0 64, .fsub 3 0 0 0 0, .fsub 0 2 0 0 0, .fsub 0 0 64 0 0, .fsub 0 0 0 64 0,
    .fsub 0 0 0 0 64, .fmul 3 0 0 0 0, .fmul 0 2 0 0 0, .fmul 0 0 64 0 0, .fmul 0 0 0 64 0, .fmul 0 0 0 0 64, .ffma 3 0 0 0 0,
    .ffma 0 2 0 0 0, .ffma 0 0 64 0 0, .ffma 0 0 0 64 0, .ffma 0 0 0 0 64, .fdiv 3 0 0 0 0, .fdiv 0 2 0 0 0, .fdiv 0 0 64 0 0,
    .fdiv 0 0 0 64 0, .fdiv 0 0 0 0 64, .fsqrt 3 0 0 0, .fsqrt 0 2 0 0, .fsqrt 0 0 64 0, .fsqrt 0 0 0 64, .fmin 2 0 0 0,
    .fmin 0 64 0 0, .fmin 0 0 64 0, .fmin 0 0 0 64, .fmax 2 0 0 0, .fmax 0 64 0 0, .fmax 0 0 64 0, .fmax 0 0 0 64,
    .fcmpq 4 0 0 0 0, .fcmpq 0 2 0 0 0, .fcmpq 0 0 8 0 0, .fcmpq 0 0 0 64 0, .fcmpq 0 0 0 0 64, .fcvt 3 0 0 0, .fcvt 0 10 0 0,
    .fcvt 0 0 64 0, .fcvt 0 0 0 64, .fclass 2 0 0, .fclass 0 64 0, .fclass 0 0 64] : List Instr), i.wf 1 = false := by decide

theorem test_ill_formed_words_3 : ∀ i ∈ ([
    .frcp 3 0 0 0, .frcp 0 2 0 0, .frcp 0 0 64 0, .frcp 0 0 0 64, .addi 64 0 0, .addi 0 64 0, .addi 0 0 8192, .andi 64 0 0,
    .andi 0 64 0, .andi 0 0 8192, .ori 64 0 0, .ori 0 64 0, .ori 0 0 8192, .xori 64 0 0, .xori 0 64 0, .xori 0 0 8192,
    .shli 64 0 0, .shli 0 64 0, .shli 0 0 64, .shri 64 0 0, .shri 0 64 0, .shri 0 0 64, .sari 64 0 0, .sari 0 64 0, .sari 0 0 64,
    .cmpqi 8 0 0 0, .cmpqi 0 8 0 0, .cmpqi 0 0 64 0, .cmpqi 0 0 0 1024, .lui 64 0, .lui 0 524288, .addpc 64 0, .addpc 0 524288,
    .pbr 8 0, .pbr 0 4194304, .pbrxLoad 8 0, .pbrxLoad 0 64, .pbrxRead 64 0, .pbrxRead 0 8, .br 8 0 0, .br 0 8 0, .br 0 0 2,
    .call 8 0 0, .call 0 8 0, .call 0 0 2, .ret 8 0, .ret 0 2, .loopx 4 0 0, .loopx 0 8 0, .loopx 0 0 2, .cwtld 64 0, .cwtld 0 64,
    .cwtclr 64, .qop 8 0 0 0, .qop 0 8 0 0, .qop 0 0 8 0, .qop 0 0 0 8, .loop 4 0 3, .loop 0 64 3, .loop 0 0 8192,
    .ld 64 0 0 0 0 0, .ld 0 64 0 0 0 0, .ld 0 0 4 0 0 0, .ld 0 0 0 2 0 0, .ld 0 0 0 0 4 0, .ld 0 0 0 0 0 256, .st 64 0 0 0 0 0,
    .st 0 64 0 0 0 0, .st 0 0 4 0 0 0, .st 0 0 0 2 0 0, .st 0 0 0 0 4 0, .st 0 0 0 0 0 256] : List Instr), i.wf 1 = false := by decide

theorem test_ill_formed_words_4 : ∀ i ∈ ([
    .ldlast 64 0 0 0, .ldlast 0 64 0 0, .ldlast 0 0 4 0, .ldlast 0 0 0 256, .lda 64 0 0 0, .lda 0 64 0 0, .lda 0 0 4 0,
    .lda 0 0 0 256, .stl 64 0 0 0, .stl 0 64 0 0, .stl 0 0 4 0, .stl 0 0 0 256, .aadd 2 0 0 0 0, .aadd 0 4 0 0 0,
    .aadd 0 0 64 0 0, .aadd 0 0 0 64 0, .aadd 0 0 0 0 64, .amin 2 0 0 0 0, .amin 0 4 0 0 0, .amin 0 0 64 0 0, .amin 0 0 0 64 0,
    .amin 0 0 0 0 64, .amax 2 0 0 0 0, .amax 0 4 0 0 0, .amax 0 0 64 0 0, .amax 0 0 0 64 0, .amax 0 0 0 0 64, .aminn 2 0 0 0 0,
    .aminn 0 4 0 0 0, .aminn 0 0 64 0 0, .aminn 0 0 0 64 0, .aminn 0 0 0 0 64, .amaxn 2 0 0 0 0, .amaxn 0 4 0 0 0,
    .amaxn 0 0 64 0 0, .amaxn 0 0 0 64 0, .amaxn 0 0 0 0 64, .aand 2 0 0 0 0, .aand 0 4 0 0 0, .aand 0 0 64 0 0, .aand 0 0 0 64 0,
    .aand 0 0 0 0 64, .aor 2 0 0 0 0, .aor 0 4 0 0 0, .aor 0 0 64 0 0, .aor 0 0 0 64 0, .aor 0 0 0 0 64, .axor 2 0 0 0 0,
    .axor 0 4 0 0 0, .axor 0 0 64 0 0, .axor 0 0 0 64 0, .axor 0 0 0 0 64, .aswap 2 0 0 0 0, .aswap 0 4 0 0 0, .aswap 0 0 64 0 0,
    .aswap 0 0 0 64 0, .aswap 0 0 0 0 64, .acas 2 0 0 0 0, .acas 0 4 0 0 0, .acas 0 0 64 0 0, .acas 0 0 0 64 0, .acas 0 0 0 0 64,
    .afadd 2 0 0 0 0, .afadd 0 4 0 0 0, .afadd 0 0 64 0 0, .afadd 0 0 0 64 0, .afadd 0 0 0 0 64, .fenceFull 5, .fenceRel 5,
    .fenceAcq 5, .clean 64 0, .clean 0 64] : List Instr), i.wf 1 = false := by decide

theorem test_ill_formed_words_5 : ∀ i ∈ ([
    .inval 64 0, .inval 0 64, .phcfg 16 0 0, .phcfg 0 64 0, .phcfg 0 0 2, .phqry 64 0 0, .phqry 0 16 0, .phqry 0 0 4,
    .eset 8 0 0 0, .eset 0 16 0 0, .eset 0 0 64 0, .eset 0 0 0 64, .egoCopy 64, .egoGather 64, .egoScatter 64, .egoTrack 64,
    .egoTraj 64, .egoSink 64, .egoNmred 64, .egoPort 64, .estat 64 0, .estat 0 64, .ewait 64 0, .ewait 0 64, .ecancel 64 0,
    .ecancel 0 64, .mshapeLoad 16 0 0, .mshapeLoad 0 64 0, .mshapeLoad 0 0 2, .mshapeWord 16 0 0, .mshapeWord 0 64 0,
    .mshapeWord 0 0 4, .mshq 64 0 0, .mshq 0 16 0, .mshq 0 0 4, .mgeo 64 0, .mgeo 0 4, .maccsave 4 0 0, .maccsave 0 64 0,
    .maccsave 0 0 2, .maccload 4 0 0, .maccload 0 64 0, .maccload 0 0 2, .mstat 64 0 0, .mstat 0 64 0, .mstat 0 0 7,
    .mstatReset 64, .cntinc 64 0 0, .cntinc 0 64 0, .cntinc 0 0 64, .cntwait 64 0 0, .cntwait 0 64 0, .cntwait 0 0 64,
    .cntrd 64 0, .cntrd 0 64, .cntset 64 0, .cntset 0 64, .ocset 64 0 0, .ocset 0 64 0, .ocset 0 0 64, .topoq 64 0 0,
    .topoq 0 64 0, .topoq 0 0 3, .fwset 64 0, .fwset 0 64, .fwq 64 0 0, .fwq 0 64 0, .fwq 0 0 3, .vpubStage 64 0, .vpubStage 0 64,
    .vpub 64 0, .vpub 0 64] : List Instr), i.wf 1 = false := by decide

theorem test_ill_formed_words_6 : ∀ i ∈ ([
    .vpubF 64 0 0, .vpubF 0 64 0, .vpubF 0 0 64, .vadoptSeq 64 0, .vadoptSeq 0 64, .vadoptStep 64 0, .vadoptStep 0 64,
    .vpin 64 0 0, .vpin 0 64 0, .vpin 0 0 64, .vunpin 64, .vqry 64 0 0, .vqry 0 64 0, .vqry 0 0 6, .tspawn 64 0, .tspawn 0 64,
    .twait 64 0, .twait 0 64, .tkillKill 64, .tkillHalt 64, .tself 64 0, .tself 0 4, .dbar 64 0, .dbar 0 64, .djoin 64 0,
    .djoin 0 64, .djoinNew 64 0 0, .djoinNew 0 64 0, .djoinNew 0 0 64, .dleave 64 0, .dleave 0 64, .devict 64 0 0, .devict 0 64 0,
    .devict 0 0 64, .dphase 64 0 0, .dphase 0 64 0, .dphase 0 0 6, .spec 8 0 0, .spec 0 64 0, .spec 0 0 64, .scommit 64,
    .sstat 64 0, .sstat 0 4, .yieldpt 4, .mfsr 64 0, .mfsr 0 4096, .mtsr 64 0, .mtsr 0 4096, .mtsrFmt 64, .mtsrTimer 64,
    .mtsrTrappc 64, .repartition 64 0, .repartition 0 8, .preempt 64, .vsealdropClear 64, .bootok 64, .resumetask 64, .trap 4096,
    .tlbinvPage 64 0, .tlbinvPage 0 64, .tlbinvAsid 64 0, .tlbinvAsid 128 0, .tlbinvAsid 0 64, .tnoise 64, .bind 64 0, .bind 0 64, .wfe 64,
    .chkq 64 0, .chkq 0 64, .chkqQ 8 0, .chkqQ 0 8, .quarq 64 0 0, .quarq 0 64 0] : List Instr), i.wf 1 = false := by decide

theorem test_ill_formed_words_7 : ∀ i ∈ ([
    .quarq 0 0 6, .quarqQuarantine 64 0, .quarqQuarantine 0 64, .quarqClear 64 0, .quarqClear 0 64, .loop 0 0 2, .mstat 0 0 5,
    .mstat 0 1 0, .mstat 0 1 1, .topoq 0 1 0, .fwq 0 1 0, .fwq 0 1 2, .mtsr 0 1, .mtsr 0 36, .mtsr 0 129, .mtsr 0 256,
    .mtsr 0 270, .mtsr 0 519, .mtsr 0 531, .mtsr 0 532] : List Instr), i.wf 1 = false := by decide
/-! ## Words and fields that the spec writes out -/

/-- The words that the spec's text gives for its own examples (R82, R86, R142, R147, R234, R236, R258, R263, R267, R305, R308, R348,
R357, R420, R463, R500). -/
theorem test_spec_words : ∀ p ∈ ([
    (0x1A102083, .br 2 1 1), (0x18BFFFFA, .pbr 2 0x3FFFFA), (0x1C08A005, .loop 1 5 5), (0x02390484, .div 7 8 9),
    (0x142091A3, .lui 4 0x091A3), (0x42184183, .mshq 3 2 3), (0x42280007, .mstat 5 0 0), (0x2028D902, .ld 5 6 3 0 1 2),
    (0x2A39048E, .aadd 1 2 7 8 9), (0x2C180001, .fenceFull 3), (0x400013C0, .eset 0 1 15 0), (0x40100500, .egoCopy 20),
    (0x46188281, .ocset 3 4 5), (0x46412082, .topoq 8 9 1), (0x4600C383, .fwset 6 7), (0x4818E002, .vpub 3 7),
    (0x48212005, .vadoptStep 4 9), (0x54108281, .spec 2 4 5), (0x54300002, .scommit 6), (0x54000003, .sabort),
    (0x54380004, .sstat 7 0), (0x60180801, .mfsr 3 0x010), (0x60288102, .repartition 5 2), (0x60000004, .sysretResume),
    (0x62008281, .chkq 4 5), (0x62412103, .quarq 8 9 2), (0x56000001, .yieldpt 1)] : List (Nat × Instr)),
    decodeTableWord 32 p.1 = some p.2 := by decide

/-- The VFNMA and the MPUSH fields that R179 and chapter 11 write out. -/
theorem test_spec_fields :
    vslot 0x0020000188231225 = some (.vfnma 0 { width := 2, ty := 4, vd := 3, va := 1, vb := 2, vc := 3, rnd := 1 } {}) ∧
    mslot 0x00011802 = some (.mpush, { accdis := true, plane := 1, row := 8 }) := by decide

/-- Bytes that decode to nothing: a used reserved field (NOP with rb = 1), fn 0 of major opcodes 0x00 and 0x01, an unassigned major
opcode, RM = 3, q8 as a destination, a system register's MTSR with a nonzero reserved operand. -/
theorem test_refused_words : ∀ w ∈ [0x1A000081, 0x00000000, 0x02000000, 0x7E000001, 0x06000061, 0x12400000, 0x60000084 + 2 ^ 13],
    decodeTableWord 32 w = none := by decide

/-- One ill-formed field for each check of a slot (R53 to R61, R160, R161, R176, R182, R195, R275). -/
theorem test_ill_formed_vector : ∀ p ∈ ([
    (0x05, { width := 0 }), (0x05, { width := 3, ty := 3 }), (0x05, { width := 3, form := 3 }), (0x05, { width := 3, sat := true }),
    (0x05, { width := 3, rnd := 1 }), (0x05, { width := 3, vc := 1 }), (0x05, { width := 3, imm := 1 }),
    (0x05, { width := 3, form := 1, imm := 128 }), (0x05, { width := 3, form := 2, imm := 64 }), (0x05, { width := 3, form := 1, vb := 1 }),
    (0x07, { width := 3, ty := 4 }), (0x07, { width := 3, vb := 1 }), (0x10, { width := 3, vd := 8 }), (0x10, { width := 3, vc := 8 }),
    (0x11, { width := 3, vc := 8 }), (0x12, { width := 3 }), (0x13, { width := 3, form := 2, va := 1 }), (0x14, { width := 3 }),
    (0x0D, { width := 3, form := 1, imm := 8 }), (0x20, { width := 3, ty := 1 }), (0x26, { width := 3, ty := 4, rnd := 1 }),
    (0x31, { width := 3, ty := 4, imm := 5 }), (0x32, { width := 3, ty := 2, imm := 4, rnd := 3 }), (0x32, { width := 3, ty := 2, imm := 5 }),
    (0x33, { width := 3, ty := 2, imm := 3 }), (0x34, { width := 3, ty := 4, imm := 1 }), (0x51, { width := 1, form := 1, imm := 32 }),
    (0x53, { width := 3, imm := 2 }), (0x58, { width := 3, zero := true }), (0x64, { width := 3, ty := 4, rnd := 3 }),
    (0x70, { width := 3, va := 8 }), (0x76, { width := 3 }), (0x80, { width := 3, ty := 6, imm := 16 }), (0x80, { width := 3, ty := 5 }),
    (0x81, { width := 3, ty := 6, imm := 5 }), (0x81, { width := 3, ty := 6, imm := 4, pred := 1 }),
    (0x82, { width := 3, ty := 6, form := 1, va := 1 }), (0x88, { width := 3, zero := true }), (0x89, { width := 3 }),
    (0x90, { width := 3, ty := 4, vd := 4 }), (0x90, { width := 3, ty := 4, imm := 16384 }), (0x90, { width := 3, ty := 4, imm := 1024 }),
    (0x05, { width := 4 }), (0x05, { width := 3, vd := 32 }), (0x05, { width := 3, pred := 8 })] : List (Nat × VF)),
    wfV 1 p.1 p.2 = false := by decide

theorem test_ill_formed_slots :
    (∀ p ∈ ([(1, { width := 0 }), (1, { width := 3, mode := 3 }), (1, { width := 3, hole := 1 }), (3, { width := 3 }),
      (3, { width := 3, pred := 1, mode := 2 }), (4, { width := 3 }), (6, { width := 3 }), (8, { width := 3, mode := 2 }),
      (10, { width := 1 }), (10, { mode := 1 }), (11, { vreg := 1 }), (12, { width := 3 }), (1, { width := 3, areg := 16 })] :
        List (Nat × LF)), wfL p.1 p.2 = false) ∧
    (∀ p ∈ ([(0, { row := 1 }), (1, { acc := 1 }), (1, { neg := true }), (3, { acc := 1 }), (4, { accdis := true }), (5, { shape := 1 }),
      (5, { accdis := true, row := 1 }), (6, { row := 1 }), (7, { plane := 1 }), (8, {}), (2, { row := 128 })] : List (Nat × MF)),
      wfM p.1 p.2 = false) ∧
    (∀ p ∈ ([(4, { a := 16 }), (5, { b := 16 }), (6, { b := 8 }), (6, { b := 40 }), (7, {}), (1, { a := 64 })] : List (Nat × XF)),
      wfX p.1 p.2 = false) ∧
    (∀ c ∈ ([{ pha := some (2, 0) }, { pha := some (0, 16) }, { fmtw := some 0x8000 }, { fmtw := some 7 }, { fmtw := some 0x38 },
      { fmtw := some 0x1C0 }, { rdv := some 8 }] : List CSlot), c.wf = false) := by decide

/-- Duplicates that have nothing to copy, or VACC, or a permute, are refused, and each slot's refusal names the slot (R57, R63, R158,
R199). -/
theorem test_ill_formed_entries :
    (match decodeEntry 1 (2 ^ 132) with | .error (k, _) => k = 2 | _ => False) ∧
    (match decodeEntry 1 (2 ^ 196) with | .error (k, _) => k = 3 | _ => False) ∧
    (match decodeEntry 1 (2 ^ 132 + 2 ^ 196) with | .error (k, _) => k = 2 | _ => False) ∧
    (match decodeEntry 1 ((0x90 + 2 ^ 8 + 4 * 2 ^ 10) * 2 ^ 80 + 2 ^ 196) with | .error (k, _) => k = 3 | _ => False) ∧
    (match decodeEntry 1 ((0x50 + 2 ^ 8) * 2 ^ 80 + 2 ^ 196) with | .error (k, _) => k = 3 | _ => False) ∧
    (match decodeEntry 1 ((0x50 + 2 ^ 8) * 2 ^ 80) with | .ok _ => True | _ => False) ∧
    (match decodeEntry 1 (2 ^ 31) with | .error (k, _) => k = 0 | _ => False) ∧
    (match decodeEntry 1 (2 ^ 48) with | .error (k, _) => k = 1 | _ => False) ∧
    (match decodeEntry 1 (2 ^ 228) with | .error (k, _) => k = 4 | _ => False) ∧
    (match decodeEntry 1 (7 * 2 ^ 240) with | .error (k, _) => k = 5 | _ => False) := by
  refine ⟨?_, ?_, ?_, ?_, ?_, ?_, ?_, ?_, ?_, ?_⟩ <;> first | rfl | trivial

/-! ## Single steps -/

/-- A task of one-core width at 0x2000 with these scalar registers. -/
def task (rs : List (Nat × Word)) : State :=
  { State.reset with
    c := { busy := true }
    t := { pc := 0x2000, s := tputs 0 [] rs, hdr := { spm := mib8, cwt := 512, holes := 16, domains := 1024, barriers := 1024, counters := 4096 } } }

/-- The same with supervisor privilege. -/
def super (rs : List (Nat × Word)) : State := let s := task rs; { s with c := { s.c with priv := true } }

/-- The same in trap mode. -/
def inTrap (rs : List (Nat × Word)) : State := let s := super rs; { s with c := { s.c with trap := true } }

/-- The same in an open region. -/
def region (rs : List (Nat × Word)) : State :=
  let s := task rs
  { s with t := { s.t with spec := { isOpen := true, alt := 0x3000, cond := 0x4000000, exp := 5, save := { s := s.t.s } } } }

/-- What holds of the next state of an instruction. -/
def after (i : Instr) (s : State) (p : State → Bool) : Bool := match exec i s with | .next t => p t | _ => false

/-- The scalar register after it. -/
def gives (i : Instr) (s : State) (n : Nat) (v : Word) : Bool := after i s fun t => getS t n = v

/-- R142's table. -/
theorem test_div : gives (.div 1 2 3) (task [(2, -7), (3, 2)]) 1 (-3) ∧ gives (.rem 1 2 3) (task [(2, -7), (3, 2)]) 1 (-1) ∧
    gives (.div 1 2 3) (task [(2, 0x8000000000000000), (3, -1)]) 1 0x8000000000000000 ∧
    gives (.rem 1 2 3) (task [(2, 7), (3, -2)]) 1 1 := by decide
theorem test_div_by_zero : gives (.div 1 2 3) (task [(2, 5)]) 1 (-1) ∧ gives (.rem 1 2 3) (task [(2, 5)]) 1 5 ∧
    gives (.divn 1 2 3) (task [(2, 0xFFFFFFFFFFFFFFF9), (3, 2)]) 1 0x7FFFFFFFFFFFFFFC ∧
    gives (.remn 1 2 3) (task [(2, 0xFFFFFFFFFFFFFFF9), (3, 2)]) 1 1 := by decide
/-- R145's example: position 56, length 8. -/
theorem test_bit_fields : gives (.bext 1 2 3) (task [(2, 0xAB00000000000000), (3, 0x738)]) 1 0xAB ∧
    gives (.bins 1 2 3) (task [(1, 0x1122334455667788), (2, 0xCD), (3, 0x738)]) 1 0xCD22334455667788 := by decide
/-- R147's constant. -/
theorem test_constant : gives (.lui 4 0x091A3) (task []) 4 0x12346000 ∧ gives (.addi 4 4 (8192 - 2440)) (task [(4, 0x12346000)]) 4 0x12345678 := by
  decide
/-- R148's two samples. -/
theorem test_sewma : gives (.sewma 1 2 3) (task [(1, 0x8000), (2, 0xFFFF), (3, 3)]) 1 0x88FFF ∧
    gives (.sewma 1 2 3) (task [(1, 0x8FFF), (2, 0), (3, 3)]) 1 0x77DFF := by decide
/-- R141: MULH is signed, MULHN natural, and a shift ignores the bits of its count above 5. -/
theorem test_products : gives (.mulh 1 2 3) (task [(2, -1), (3, 2)]) 1 (-1) ∧ gives (.mulhn 1 2 3) (task [(2, -1), (3, 2)]) 1 1 ∧
    gives (.shl 1 2 3) (task [(2, 1), (3, 65)]) 1 2 := by decide
/-- R22: s0 discards, also where it is the destination of a load of an immediate. -/
theorem test_s0 : gives (.lui 0 1) (task []) 0 0 := by decide
/-- R153: -3.7 truncates to -3 with NX, and 1e19 is clamped with NV. -/
theorem test_fcvt : after (.fcvt 2 3 1 2) (task [(2, 0xC00D99999999999A)]) (fun t => getS t 1 = -3 && t.t.sts = 16) ∧
    after (.fcvt 2 3 1 2) (task [(2, 0x43E158E460913D00)]) (fun t => getS t 1 = 0x7FFFFFFFFFFFFFFF && t.t.sts = 1) ∧
    after (.fcvt 2 5 1 2) (task [(2, 0xC00D99999999999A)]) (fun t => getS t 1 = 0 && t.t.sts = 17) := by decide
/-- R150: 1 / -0 is minus infinity with DZ, and the root of -0 is -0. -/
theorem test_float_corners : after (.frcp 0 0 1 2) (task [(2, 0x80000000)]) (fun t => getS t 1 = 0xFF800000 && t.t.sts = 2) ∧
    gives (.fsqrt 0 0 1 2) (task [(2, 0x80000000)]) 1 0x80000000 ∧
    gives (.fadd 0 0 1 2 3) (task [(2, 0x3F800000), (3, 0x40000000)]) 1 0x40400000 := by decide
/-- R151: -0 lies below +0, and a number is chosen over a NaN. -/
theorem test_fmin : gives (.fmin 0 1 2 3) (task [(2, 0), (3, 0x80000000)]) 1 0x80000000 ∧
    gives (.fmax 0 1 2 3) (task [(2, 0x7FC00000), (3, 0x3F800000)]) 1 0x3F800000 := by decide
/-- R83: CALL through b7 branches to the old b7 and leaves the return address there. -/
theorem test_call_b7 : after (.call 7 0 0) (let s := task []; { s with t := { s.t with b := [(7, 0x5000)] } })
    (fun t => t.t.pc = 0x5000 && getB t 7 = 0x2004) := by decide
/-- The worked case of R88's chapter: LOOP at 0x2000 with imm13 = 5 and a trip count of 3 enters [0x2004, 0x200A). -/
theorem test_loop : after (.loop 1 5 5) (task [(5, 3)]) (fun t => t.t.pc = 0x2004 && getLc t 1 = 3 &&
    decide (t.t.loops = [{ lc := 1, s := 0x2004, e := 0x200A }])) ∧ after (.loop 1 5 5) (task []) (fun t => t.t.pc = 0x200A && t.t.loops.isEmpty) := by
  decide
/-- R87: at 0x2006 the word before E goes back while iterations remain, and the last one leaves the loop. -/
theorem test_loop_end :
    let at3 := fun n : BitVec 32 => (let s := task []
      { s with t := { s.t with pc := 0x2006, lc := tset 0 [] 1 n, loops := [{ lc := 1, s := 0x2004, e := 0x200A }] } } : State)
    after .nop (at3 3) (fun t => t.t.pc = 0x2004 && getLc t 1 = 2) ∧ after .nop (at3 1) (fun t => t.t.pc = 0x200A && t.t.loops.isEmpty && getLc t 1 = 0) := by
  decide
/-- R463 and R456: a task may not read TRAPCAUSE; the fault is taken at the trap vector with the PC saved and s60 exchanged. -/
theorem test_privilege_fault : after (.mfsr 3 0x080) (let s := task [(60, 7)]
    { s with dies := [(0, { trapvec := 0x9000 })], c := { s.c with bank := [(0, 0xAA)] } }) (fun t =>
      t.c.trap && t.c.priv && !t.c.prior && t.t.pc = 0x9000 && t.c.trappc = 0x2000 && t.c.cause = 0x09) ∧
    gives (.mfsr 3 0x080) (super []) 3 0 := by decide
/-- R464, R465: TRAP saves the address after it, SYSRET returns there. -/
theorem test_trap_return : after (.trap 0x123) (task []) (fun t => t.c.trappc = 0x2004 && tget 0 t.c.info 2 = 0x123 && t.c.cause = 0x28) ∧
    after .sysretResume (let s := inTrap []; { s with c := { s.c with trappc := 0x2004 } }) (fun t => !t.c.trap && !t.c.priv && t.t.pc = 0x2004) := by
  decide
/-- R470: a system register written and read. -/
theorem test_mtsr : after (.mtsr 3 0x109) (super [(3, 0x123456789)]) (fun t => sysReg t 0x109 = 0x6789) ∧
    gives (.mfsr 3 0x10D) (super []) 3 50 := by decide
/-- R298, R328: CNTINC waits for a tick of the release epoch, and then the counter wraps. -/
theorem test_counter : after (.cntinc 0 2 3) (let s := task [(2, 9), (3, 0xFFFFFFFF)]; { s with t := { s.t with tick := some 0 }, pkg := { s.pkg with epoch := 1, counters := [(9, 2)] } })
    (fun t => getCnt t 9 = 1) ∧
    after (.cntinc 0 2 3) (task [(2, 9), (3, 1)]) (fun t => getCnt t 9 = 0 && t.pkg.tickWanted && t.t.pc = 0x2000) := by decide
/-- R305: ESET writes parameters k and k + 1 of its engine. -/
theorem test_eset : after (.eset 1 2 3 4) (task [(3, 5), (4, 6)]) (fun t => tget 0 t.t.eng (32 + 4) = 5 || tget 0 t.t.eng (32 + 2) = 5) := by
  decide
/-- R420: SPEC in a region raises SpecState; R428: SABORT goes to SALT. -/
theorem test_region : after (.spec 1 2 3) (region []) (fun t => t.c.trap && t.c.cause = 0x24) ∧
    after .sabort (region []) (fun t => t.t.pc = 0x3000 && !t.t.spec.isOpen && t.t.spec.last = 1) := by decide

/-! ## Slot operations -/

/-- A task whose slot `k` holds an operation at index 40. -/
def atSlot (k : Nat) (i : Instr) (code : Nat) (f : VF) (v : List (Nat × VReg)) : State :=
  let s := task []
  { s with t := { s.t with v, slots := { front := [(k, 40)], next := 41, queue := [(k, [{ idx := 40, ctx := { idx := 40 }, ops := [i], code, vf := f }])] } } }

/-- The words of a vector, from element 0. -/
def vec (ws : List Nat) : VReg := BitVec.ofNat 4096 (ws.foldr (fun w r => w + 2 ^ 32 * r) 0)

/-- The register as bundle 60 reads it. -/
def x5 (i : Instr) (f : VF) (v : List (Nat × VReg)) (out : List Nat) : Bool :=
  after i (atSlot 2 i 0 f v) fun t => readAt t (.vec 0 5) 60 = vec out

def xs : List (Nat × VReg) := [(1, vec [10, 11, 12, 13, 14, 15, 16, 17]), (2, vec [20, 21, 22, 23, 24, 25, 26, 27])]
def fi : VF := { width := 1, ty := 2, vd := 5, va := 1 }

/-- The worked case of the data movement chapter: eight i32 elements. -/
theorem test_slide : x5 (.vslide 0 { fi with vc := 2, form := 1, imm := 3 } { idx := 40 }) {} xs [13, 14, 15, 16, 17, 20, 21, 22] ∧
    x5 (.vslide 0 { fi with vc := 2, form := 1, imm := 0xFFFE } { idx := 40 }) {} xs [26, 27, 10, 11, 12, 13, 14, 15] := by decide
theorem test_zip : x5 (.vzip 0 { fi with vb := 2 } { idx := 40 }) {} xs [10, 20, 11, 21, 12, 22, 13, 23] ∧
    x5 (.vunzip 0 { fi with vb := 2 } { idx := 40 }) {} xs [10, 12, 14, 16, 20, 22, 24, 26] := by decide
theorem test_scan : x5 (.vscanI 0 fi { idx := 40 }) {} xs [10, 21, 33, 46, 60, 75, 91, 108] ∧
    x5 (.vredaddI 0 fi { idx := 40 }) {} xs [108] ∧ x5 (.vargmaxI 0 fi { idx := 40 }) {} xs [17, 7] := by decide
/-- The same case's VCOMPRESS under xp3, true at elements 1, 2 and 5. -/
theorem test_compress : after (.vcompress 0 { fi with pred := 3, zero := true } { idx := 40 })
    (let s := atSlot 2 (.vcompress 0 { fi with pred := 3, zero := true } { idx := 40 }) 0 {} xs
     { s with t := { s.t with p := [(3, 0xF00FF0)] } }) (fun t => readAt t (.vec 0 5) 60 = vec [11, 12, 15]) := by decide
/-- R173's narrowing: 300 saturates to 127 with SATV and wraps to 44 without; VADD wraps and saturates. -/
theorem test_narrow : after (.vicvt 0 { width := 1, ty := 0, vd := 5, va := 1, imm := 18, sat := true } { idx := 40 })
      (atSlot 2 .nop 0 {} [(1, 300)]) (fun t => readAt t (.vec 0 5) 60 = 127 && t.t.sts = 64) ∧
    after (.vicvt 0 { width := 1, ty := 0, vd := 5, va := 1, imm := 18 } { idx := 40 }) (atSlot 2 .nop 0 {} [(1, 300)])
      (fun t => readAt t (.vec 0 5) 60 = 44) := by decide
/-- R32: an exposed result is not seen before its index. -/
theorem test_exposed : after (.vredaddI 0 fi { idx := 40 }) (atSlot 2 .nop 0 {} xs)
    (fun t => readAt t (.vec 0 5) 45 = 0 && readAt t (.vec 0 5) 46 = 108) := by decide

/-- SHA-256 of 64 zero bytes, as FIPS 180-4 gives it. -/
theorem test_sha256 : Sha.extend 0 0 = 0xf5a5fd42d16a20302798ef6ed309979b43003d2320d9f0e8ea9831a92759fb4b := by decide

/-- R249: at most 8 ways of a set are sticky; of a full set a streaming line goes first, then the least recently used default line. -/
theorem test_l2_sets :
    (l2Mark ((List.range 8).map fun k => (k, { hint := 2, last := k })) 2 {}).hint = 1 ∧
    (l2Mark ((List.range 7).map fun k => (k, { hint := 2, last := k })) 2 {}).hint = 2 ∧
    l2Victim ((List.range 15).map fun k => (k, { last := k })) = none ∧
    l2Victim ((List.range 16).map fun k => (k, { hint := if k = 5 then 0 else 1, last := k })) = some 5 ∧
    l2Victim ((List.range 16).map fun k => (k, { hint := if k < 3 then 2 else 1, last := 20 - k })) = some 15 := by decide
/-- Two lines 65536 lines apart on one die share a set; neighbours do not. -/
theorem test_l2_set_of_line : l2Set 0x20 = l2Set 0x10020 ∧ l2Set 0x20 ≠ l2Set 0x21 ∧ l2Set 0x20 ≠ l2Set 0x40 := by decide

/-! ## The statements' hypotheses are met

For each statement with hypotheses, a state and operands that meet those of each clause, at the ends of ranges where clauses meet. -/

/-- The state that withFetchWord makes with a word, with these scalar registers: VA 0x4000000 is a page of HBM. -/
def placed (w : Nat) (rs : List (Nat × Word)) : State :=
  let s := State.reset.withFetchWord 32 w
  { s with t := { s.t with s := tputs 0 [] rs } }
def mapped (rs : List (Nat × Word)) : State := placed 0x1A000001 rs
/-- The page with these bytes at its offset 0x1000. -/
def holding (bs : List Byte) (rs : List (Nat × Word)) : State := pokeBytes (mapped rs) true 0x4001000 bs
/-- The same with a tick of the release epoch past. -/
def ticked (s : State) : State := { s with t := { s.t with tick := some 0 }, pkg := { s.pkg with epoch := 1 } }

/-- The same with a second page at VA 0x8000000, whose leaf is this word (R443). -/
def leafAt (s : State) (w : Nat) : State := pokeBytes s true 0x6010 (leBytes 8 w)

def okWith {α : Type} (r : Except Trap α) (p : α → Bool) : Bool := match r with | .ok x => p x | .error _ => false
def failed {α : Type} (r : Except Trap α) : Bool := match r with | .ok _ => false | .error _ => true
def itemIs (f : State) (i : Instr) : Bool :=
  okWith (fetchBytes f) fun bs => !straddles f bs.length && (match decodeBytes bs with | .ok (j, _) => decide (j = i) | .error _ => false)
/-- No budget withholds the fetch. -/
def itemsFree (f : State) : Bool := !fetchWithheld f
def isReady (f : State) : Bool :=
  f.c.busy && f.c.leaving.isNone && (!stopDue f || wordFirst f) && f.t.begun ≠ 1 && f.pkg.atOnce = [] && (firstWork f).isNone &&
    itemsFree f
/-- Nothing is due before the core in focus. -/
def alone (f : State) : Bool :=
  f.turns = [] && f.cur < 256 && !f.pkg.tickWanted && (dueJob f (liveJobs f)).isNone && (portWork f).isNone && f.t.slots.beats = [] &&
    f.pkg.atOnce = [] && (firstWork f).isNone && f.c.busy && f.c.leaving.isNone && f.t.begun = 0
/-- A slot that holds one operation for bundle 40. -/
def holds (s : State) (k : Nat) (i : Instr) (e : QEntry) : State :=
  { s with t := { s.t with slots := { s.t.slots with
    front := [(k, 40)], next := 41, queue := [(k, [{ e with idx := 40, ctx := { idx := 40 }, ops := [i] }])] } } }

/-- Every condition holds. -/
def met (cs : List Bool) : Bool := cs.all id

theorem met_StepRunsDecoded : met [
    (let f := focus (State.withFetchWord { State.reset with cur := 255 } 32 0x1A000001) 255
     isReady f && itemIs f .nop && itemIllegal f .nop = none && !scalarDue f [] && (poisonedReg f (itemReads f .nop)).isNone),
    (let f := holds (placed 0x00094001 []) 5 .xts { code := 2, xf := { a := 10 } }
     isReady f && itemIs f (.add 1 10 0) && itemIllegal f (.add 1 10 0) = none && scalarDue f [10]),
    (let s := placed 0x00094001 []
     let f := { s with t := { s.t with poison := [10] } }
     isReady f && itemIs f (.add 1 10 0) && !scalarDue f [10, 0, 1] && (poisonedReg f (itemReads f (.add 1 10 0))).isSome),
    isReady (task []) && failed (fetchBytes (task [])),
    (let s := placed 0x1A000001 []
     let f := { s with
      dies := (List.range 4).map fun d => (d, { getDie s d with budget := [(0, 0)] }), pkg := { s.pkg with l2 := [] } }
     f.c.busy && f.c.leaving.isNone && !stopDue f && f.t.begun ≠ 1 && fetchWithheld f),
    (let f := placed 0x601BFF81 []
     isReady f && itemIs f (.mfsr 3 0x7FF) && (itemIllegal f (.mfsr 3 0x7FF)).isSome),
    (let f := placed 0x7E000001 []
     isReady f && okWith (fetchBytes f) fun bs => match decodeBytes bs with | .error _ => true | .ok _ => false),
    (let s := placed 0x1A000001 []
     let f := { s with t := { s.t with loops := [{ lc := 1, s := s.t.pc, e := s.t.pc + 2 }] } }
     isReady f && okWith (fetchBytes f) fun bs => straddles f bs.length),
    (let f := holds (mapped []) 5 .xts { xf := { a := 10 } }
     isReady f && !f.c.trap && !stopDue f && slotReady f 5 = some (40, .xts) && (slotPoison f 5 .xts).isNone),
    (let s := holds (mapped []) 1 (.phpop { hole := 2 } {}) {}
     let f := { s with t := { s.t with poison := [200] } }
     isReady f && !f.c.trap && slotReady f 1 = some (40, .phpop { hole := 2 } {}) && (slotPoison f 1 (.phpop { hole := 2 } {})).isSome),
    (let s := holds (mapped []) 0 .sync {}
     let f := { s with t := { s.t with undo := some {}, regs := { s.t.regs with timerPending := true } } }
     stopDue f && midBundle f && !slotHeld f 0 && slotReady f 0 = some (40, .sync) && (slotPoison f 0 .sync).isNone && slotHeld f 1),
    isEvent .timerExpiry,
    (let f := mapped []
     alone f && !f.c.trap && f.c.rewind.isNone && !midBundle f && !stopDue f && (firstReady f).isNone && !fetchWithheld f && itemIs f .nop &&
       f.t.poison = []),
    (let s := mapped []
     let f := { s with
      c := { s.c with trap := true }, dies := [(0, { getDie s 0 with trapvec := s.t.pc, trapext := 0x1000 })] }
     alone f && f.c.trap && !fetchWithheld f && itemIs f .nop && f.t.poison = []),
    (let s := mapped []
     let r := { s with c := { s.c with rewind := some 3 } }
     let a := { s with t := { s.t with spec := { pending := some 3 } } }
     let z := { s with c := { s.c with frozenDue := true } }
     let e := { s with t := { s.t with regs := { s.t.regs with timerPending := true } } }
     [r, a, z, e].all alone && r.c.rewind.isSome && [a, z, e].all (fun f => !f.c.trap && f.c.rewind.isNone && !midBundle f) &&
       a.t.spec.pending.isSome && z.t.spec.pending.isNone && z.c.frozenDue && e.t.spec.pending.isNone && !e.c.frozenDue && eventPending e),
    (let f := holds (mapped []) 5 .xts { xf := { a := 10 } }
     alone f && !stopDue f && firstReady f = some (5, 40, .xts) && (slotPoison f 5 .xts).isNone),
    (let s := mapped []
     let u := raiseAt s { code := cIllegal } 0 0
     let w := holds s 5 .xts { xf := { a := 10 } }
     tookTrap s u && !tookTrap s s && faultPlace u = none && placedBefore 40 5 none && slotReady (beforeTrap w u) 5 = some (40, .xts))] := by decide

theorem met_MemoryStaysCanonical : met [
    (let s := mapped []
     Memory.wf s.pkg.mem && twf none s.pkg.dirty && s.pkg.mem.length ≠ 0 && match step s with | .next _ => true | _ => false)] := by
  decide

/-- b = 0; overflow; b = -1 without overflow. -/
theorem met_DivisionAndRemainder : met [
    getS (task []) 2 = 0,
    (let s := task [(1, 0x8000000000000000), (2, -1)]
     (getS s 1).toInt = -(2 ^ 63) && (getS s 2).toInt = -1),
    (let s := task [(1, 0x8000000000000001), (2, -1)]
     getS s 2 ≠ 0 && (getS s 1).toInt ≠ -(2 ^ 63))] := by decide

theorem met_CompareSelectAndImmediates : met [(7 : Nat) < 8, (63 : Nat) < 64] := by decide

/-- RM names FMT outside and in trap mode, and RM of its own; the operands at the ends of each class. -/
theorem met_FloatArithmetic : met [
    !fmtPending (task []) 0, (inTrap []).c.trap,
    (let z := fun x : Nat => x % 2 ^ 31 = 0
     let inf := fun x : Nat => x % 2 ^ 31 = 0x7F800000
     let num := fun x : Nat => decide (0 < x % 2 ^ 31 ∧ x % 2 ^ 31 < 0x7F800000)
     z 0x80000000 && inf 0x7F800000 && num 1 && num 0xFF7FFFFF && 0x80000001 / 2 ^ 31 = 1 && num 0x80000001)] := by decide

theorem met_FloatComparesClassesConversions : met [!fmtPending (task []) 0, (2 : Nat) ≠ 0] := by decide

theorem met_BranchWords : met [
    (getS (task [(1, 1)]) 1).toNat % 2 = 1,
    (let w := getS (task [(1, 0x100000000000000)]) 1
     w.toNat % 2 = 0 && 2 ^ 56 ≤ w.toNat),
    (let w := getS (task [(1, 0xFFFFFFFFFFFFFE)]) 1
     w.toNat % 2 = 0 && w.toNat < 2 ^ 56),
    (getQ (task []) 0 != (0 == 1)) = true, (getQ (task []) 0 != (1 == 1)) = false] := by decide

/-- A loop that is active, one whose end lies beyond, the trip counts 0 and not 0, and LOOPX out of the older of two loops. -/
theorem met_LoopEntryAndExit : met [
    (let s := task [(5, 3)]
     let two := [{ lc := 2, s := 0x1F00, e := 0x2010 }, { lc := 1, s := 0x1E00, e := 0x2020 }]
     let u := { s with t := { s.t with loops := two } }
     let stop := fun imm => (s.t.pc + BitVec.ofNat 64 (2 * imm)).toNat
     !s.c.trap && (u.t.loops.any fun l => l.lc = 1) && (u.t.loops.all fun l => l.lc ≠ 0) && 0x2010 < stop 9 && stop 8 = 0x2010 &&
       (getS u 5).setWidth 32 ≠ (0 : BitVec 32) && (getS u 4).setWidth 32 = (0 : BitVec 32) &&
       (getQ u 0 != (0 == 1)) && !(getQ u 0 != (1 == 1)) && two = [{ lc := 2, s := 0x1F00, e := 0x2010 }] ++ { lc := 1, s := 0x1E00, e := 0x2020 } :: [])] := by
  decide

theorem met_LoopEndRule : met [
    (let at' := fun n : BitVec 32 => (let s := task []
      { s with t := { s.t with lc := tset 0 [] 1 n, loops := [{ lc := 1, s := 0x1F00, e := 0x2004 }] } } : State)
     (inTrap []).c.trap && (task []).t.loops.all (fun l => l.e ≠ 0x2004) && !(at' 2).c.trap && (at' 2).t.pc + 4 = 0x2004 &&
       tget 0 (at' 2).t.lc 1 - 1 ≠ 0 && tget 0 (at' 1).t.lc 1 - 1 = 0)] := by decide

theorem met_EndOfTask : met [
    (inTrap []).c.trap,
    (let s := holds (task []) 2 (.vnot 0 {} {}) {}
     !s.c.trap && !s.t.stub && !s.t.spec.isOpen && (queueOf s 2).any fun e => e.ops ≠ []),
    (let s := { task [] with t := { (task []).t with slots := { beats := [(0, 0, 0, 0)] } } }
     !s.c.trap && !s.t.stub && !s.t.spec.isOpen && s.t.slots.beats ≠ []),
    !(task []).c.trap && !(task []).t.stub && (List.range 6).all fun k => (queueOf (task []) k).isEmpty,
    !(region []).c.trap && !(region []).t.stub && (region []).t.spec.isOpen] := by decide

/-- The range of entries at both ends: 511 alone, none, one past 512; the header's bound; an image in the scratchpad and one in
memory. -/
theorem met_TableWordsAndIssue : met [
    (let shaped := fun w : Word => decide (w &&& 0xFFFFFFFEFC00FE00 = 0 ∧ w.toNat / 2 ^ 16 % 2 ^ 10 ≠ 0 ∧
      w.toNat % 2 ^ 9 + w.toNat / 2 ^ 16 % 2 ^ 10 ≤ 512)
     shaped 0x101FF && shaped 0x2000000 && !shaped 0x2000001 && !shaped 0x1FF && !shaped 0x200010000 && shaped 0x100010000 &&
       (0x100010000 : Word).getLsbD 32 && !(0x10000 : Word).getLsbD 32),
    (let s := mapped [(1, 0x4001000), (2, 0x101FF), (3, 0x4001010), (4, 0)]
     let u := { s with t := { s.t with hdr := { s.t.hdr with cwt := 511 } } }
     !s.c.trap && !s.t.spec.isOpen && u.t.hdr.cwt < 511 + 1 && 511 + 1 ≤ s.t.hdr.cwt && (getS s 1).toNat % 32 = 0 && (getS s 3).toNat % 32 ≠ 0 &&
       !lmBusy s && okWith (eaOf s 4 0) (· = 0) && okWith (spmRead s 0 32) (fun bs => badEntry 1 bs 1 0 = none) &&
       okWith (eaOf s 1 0) (· = 0x4001000) && !withheld s 0x4001000 32 .read &&
       okWith (plainRead s 0x4001000 32 1) (fun x => badEntry 1 x.1 1 0 = none)),
    (let s := mapped []
     let full := { s with t := { s.t with slots := { s.t.slots with
      queue := [(2, List.replicate 64 { idx := 0, ops := [(.vnot 0 {} {})] })] } } }
     (inTrap []).c.trap && !s.c.trap && tget none s.t.cwt 5 = none && (tget none s.t.cwt 0).isSome && (match decodeEntry 1 0 with | .ok b => !scalarDue s (captures b) | .error _ => false) &&
       !queueFull s && s.t.poison = [] && queueFull full),
    (let b : Bundle := {
      c := { trc := true, chk := true, pha := some (1, 15), fmtw := some 0x24, rdv := some 7, seg := true, sync := true },
      l := some (1, { width := 1, vreg := 31, areg := 15 }), v0 := .op 0 { width := 1, ty := 2, form := 2, imm := 63, vd := 31 }, v1 := .dup,
      m := some (2, { row := 127, acc := 3 }), x := some (3, { b := 10, a := 1 }) }
     let d : Bundle := { v1 := .op 0x60 { width := 1, ty := 2 } }
     let s := mapped [(10, 5)]
     let u := { s with t := { s.t with cwt := [(511, some (BitVec.ofNat 256 (encodeEntry b)))] } }
     (match decodeEntry 1 (encodeEntry b) with | .ok x => x = b | .error _ => false) && !queueFull u && u.t.poison = [] &&
       !scalarDue u (captures b) && getQ u 0 && (match decodeEntry 1 (encodeEntry d) with | .ok x => x = d | .error _ => false))] := by decide

/-- A memory address of R259: whether it is legal, and what it is. -/
def addrOf (w : Word) (off sz : Nat) : Option Nat :=
  let ea : Int := ((w.toNat % 2 ^ 56 : Nat) : Int) + (BitVec.ofNat 8 off).toInt * ((2 ^ sz : Nat) : Int)
  if w.toNat < 2 ^ 59 ∧ 0 ≤ ea ∧ ea < 2 ^ 56 then some ea.toNat else none

/-- No job watches writes: no core holds a job. -/
def noJobs (s : State) : Bool := s.c.jobs.isEmpty && s.others.isEmpty

theorem met_Loads : met [
    addrOf 0x800000000000000 0 3 = none, addrOf 0 0xFF 0 = none, addrOf 0xFFFFFFFFFFFFF8 1 3 = none,
    addrOf 0x7FFFFFFFFFFFFF8 0 3 = some 0xFFFFFFFFFFFFF8,
    (let s := mapped []
     addrOf 0x7FFFF9 0 3 = some 0x7FFFF9 && spmSize s < 0x7FFFF9 + 8 && 0x7FFFF7 + 8 ≤ spmSize s && 0x7FFFF7 % 8 ≠ 0 &&
       0x7FFFF8 + 8 ≤ spmSize s && !lmBusy s && okWith (spmRead s 0x7FFFF8 8) (fun bs => bs.length = 8)),
    (let s := mapped []
     !inSpec s && kindAt s 0x4000FF8 8 .read ≠ some 3 && !withheld s 0x4000FF8 8 .read && failed (plainRead s 0x9000000 8 0) &&
       kindAt s 0x9000000 8 .read ≠ some 3 && !withheld s 0x9000000 8 .read && okWith (plainRead s 0x4000FF8 8 0) fun _ => true),
    (let s := mapped []
     noJobs s && okWith (accCheck s 0x4000FF8 8 .read) (fun ps => ps.head?.isSome) && okWith (plainRead s 0x4000FF8 8 3) (fun _ => true) &&
       okWith (plainRead s 0x4000FF8 8 1) fun _ => true)] := by decide

theorem met_Stores : met [
    (let s := mapped [(2, -1)]
     !lmBusy s && okWith (spmWrite s 0x7FFFF8 (leBytes 8 (getS s 2).toNat)) fun _ => true),
    (let s := mapped [(2, -1)]
     !inSpec s && kindAt s 0x4000FF8 8 .write ≠ some 3 && !withheld s 0x4000FF8 8 .write && failed (plainWrite s 0x9000000 (leBytes 8 0) 1) &&
       noJobs s && okWith (accCheck s 0x4000FF8 8 .write) (fun ps => ps.head?.isSome) &&
       okWith (plainWrite s 0x4000FF8 (leBytes 8 (getS s 2).toNat) 1) fun _ => true),
    (let s := mapped []
     let r := { s with t := { s.t with spec := { isOpen := true, store := List.replicate 63 {} } } }
     inSpec r && !r.t.spec.full && r.t.spec.store.length < 64 && okWith (accCheck r 0x4000FF8 8 .write) fun ps =>
       ps.all fun p => p.pg.kind ≠ 3 && !p.pg.checked)] := by decide

theorem met_OrderPointWords : met [
    (let s := mapped [(1, 0x300000004000FF8)]
     !inSpec s && okWith (pointCheck s 1 0 8 true .read) (fun x => !withheld s x.1 8 .read && softCheck s x.1 x.2 = none) &&
       okWith (pointCheck s 1 0 8 false .read) (fun x => raceCheck s (meAgent s) false x.1 x.2 = none) &&
       okWith (pointCheck s 1 0 8 true .write) (fun x => !withheld s x.1 8 .write) && !lmBusy s && s.t.slots.beats = [] && s.t.tick = none &&
       noJobs s && (ticked s).t.tick = some 0 && (ticked s).pkg.epoch ≠ 0),
    (let s := mapped [(1, 0x4000FF8)]
     let u := { s with pkg := { s.pkg with l2 := [(0x8001F, some {})], dirty := [(0x4000FF8, some 5)] } }
     okWith (pointCheck u 1 0 8 false .read) fun x => !withheld u x.1 8 .read 1 true && raceCheck u (meAgent u) false x.1 x.2 = none &&
       softCheck u x.1 x.2 = none && x.2.any fun p => p.pg.kind = 0 && (linesOf p.pg.pa p.len).any fun l => (tget none u.pkg.l2 l).isSome)] := by decide

theorem met_Atomics : met [
    (let s := ticked (mapped [(1, 0x300000004000FF8)])
     !inSpec s && okWith (pointCheck s 1 0 8 true .atomic) (fun x => !withheld s x.1 8 .atomic && softCheck s x.1 x.2 = none &&
       !overBudget s (paDie (pieceAt x.2 0)) 2 s.t.me.tint) && okWith (pointCheck s 1 0 2 true .atomic) (fun _ => true) &&
       !lmBusy s && s.t.slots.beats = [] && s.t.tick = some 0 && s.pkg.epoch ≠ 0 && noJobs s)] := by decide

theorem met_FencesAndCacheWords : met [
    (let s := holds (mapped []) 2 (.vnot 0 {} {}) {}
     !inSpec s && slotsBusy s),
    (let s := ticked (mapped [(1, 0x4000F81), (2, 0xFF)])
     let s := { s with c := { s.c with l1 := [(0x8001E, some {}), (0x8001F, some {}), (0x80020, some {}), (0x80021, some {})] } }
     !inSpec s && !slotsBusy s && s.t.slots.beats = [] && s.t.tick = some 0 && s.pkg.epoch ≠ 0 && noJobs s &&
       okWith (rangeLines s 1 2) fun ls => ls.length = 2),
    (let s := mapped []
     let near : SyncRec := { tag := 1, scope := 4 }
     let far : SyncRec := { tag := 2, scope := 0, core := 9 }
     let u := { s with t := { s.t with seen := [near, far] } }
     s.t.seen = [] && mutually u near 4 && !mutually u far 4 && !slotsBusy u),
    (let s := mapped [(1, 0x800000000000000), (2, 0x10000000001)]
     2 ^ 59 ≤ (getS s 1).toNat && (getS s 0).toNat < 2 ^ 59 && 2 ^ 40 < (getS s 2).toNat && (getS s 0).toNat = 0),
    (let s := mapped [(1, 0x4001000), (2, 128)]
     let s := { s with c := { s.c with l1 := [(0x80020, some { dirty := 1, data := 7 })], l1Poison := [0x800200] } }
     let u := { s with dies := [(0, { getDie s 0 with budget := [(0, 0), (1, 0), (2, 0), (3, 0)] })] }
     !inSpec s && !cleanWithheld s [0x80020] && cleanWithheld u [0x80020] && (l1Get s 0x80020).isSome && noJobs s)] := by decide

/-- An image of a local handle of one slot of one line, in the scratchpad and in memory; one that is bad; one past the header. -/
theorem met_HandleWords : met [
    (let s := mapped [(1, 0x4001000)]
     !s.c.trap && !s.t.spec.isOpen && !lmBusy s && okWith (holeAddr s 0 1) (· = 0) && okWith (spmRead s 0 32) (fun bs => !holeBad (spmSize s) (BitVec.ofNat 256 (leNat bs))) &&
       okWith (holeAddr s 1 0) (· = 0x4001000) && !withheld s 0x4001000 32 .read && okWith (plainRead s 0x4001000 32 1) (fun _ => true) &&
       15 < s.t.hdr.holes && s.t.hdr.holes ≤ 16 && !holeInUse s 15 && s.t.slots.cfg = [] && pending s 0 = [] && pending s 1 = []),
    holeBad (spmSize (mapped [])) (BitVec.ofNat 256 (2 ^ 255)),
    (let s := mapped []
     let u := { s with c := { s.c with jobs := [(0, { used := true, tag := 1, par := [(2, 0x26000)] })] } }
     let v := holds s 0 .pha { cf := { hole := 3 } }
     holeInUse u 3 && pending v 0 ≠ []),
    (let peer := (2 + 8 : BitVec 256) <<< 56
     let s := mapped []
     let w : BitVec 256 := ((3 + 8 : BitVec 256) <<< 56) + ((1 : BitVec 256) <<< 128)
     let u := { s with others := [(1, { c := { busy := true }, t := { hole := [(0, peer)] } })] }
     phKind w = 3 && okWith (holeRef (setHole u 0 0 w) 0 true) (· = (1, 0)) && pending u 0 = [] && pending u 1 = []),
    phKind (holeNow (mapped []) 0) ≠ 3] := by decide

/-- Parameters of each engine that pass the checks of EGO. -/
def engines : List (Nat × Word) := [
  (12, 16), (45, 1), (46, 1), (77, 1), (78, 1), (98, 0x1000), (109, 1), (110, 1),
  (128, 0x100000000000000), (132, 0x100000000000000), (133, 32), (136, 0x1000), (137, 512), (138, 0x2000), (139, 8), (140, 0x1000),
  (141, 16), (142, 0x2000), (143, 1), (168, 0x1000), (169, 576), (173, 128), (174, 1), (175, 1), (176, 0x1000), (177, 1), (205, 256),
  (207, 1), (224, 0x1000), (225, 0x80000000000000), (228, 0x1000), (229, 16), (237, 16)]

/-- A used job of the task at entry 3 of core 0, with SEQ 9, in this state. -/
def withJob (st : Nat) (rs : List (Nat × Word)) : State :=
  let s := mapped rs
  { s with c := { s.c with jobs := [(3, { used := true, st, seq := 9, tag := 1 })] } }

theorem met_EngineJobs : met [
    (inTrap []).c.trap, (region []).t.spec.isOpen && !(region []).c.trap,
    (let s := mapped []
     let u := ticked { s with t := { s.t with eng := engines } }
     let common := fun eng : Nat =>
       let j := captured u eng
       egoFault u j false (kindBad j) ((addrPars eng).any fun k => isFabricPar (jpar j k))
     let p := captured u 7
     ((List.range 7).all fun e => common e = none) && egoFault u p (portOver u p) (portBad u p) false = none && portStale u p = none &&
       !u.c.trap && !u.t.spec.isOpen && !lmBusy u && u.t.slots.beats = [] && u.t.tick = some 0 && u.pkg.epoch ≠ 0 && !(getJob u 0 0).live),
    (let s := mapped []
     let j := captured s 0
     egoFault s j false (kindBad j) false ≠ none),
    (let full := (List.range 32).map fun e => (e, ({ used := true } : Job))
     let s := mapped []
     let u := { s with c := { s.c with jobs := full }, t := { s.t with eng := engines } }
     let j := captured u 0
     (List.range 32).all (fun e => (getJob u 0 e).live) && egoFault u j false (kindBad j) false = none),
    (let full := (List.range 31).map fun e => (e, ({ used := true } : Job))
     let s := mapped []
     let u := { s with c := { s.c with jobs := full } }
     (List.range 31).all (fun e => (getJob u 0 e).live) && !(getJob u 0 31).live),
    (let s := mapped [(1, 0x12003)]
     let u := { s with c := { s.c with jobs := [(3, { used := true, seq := 10, tag := 1 }), (35, { used := true, st := 3, seq := 9, tag := 1 })] } }
     let w := getS u 1
     let old := getJob u 0 35
     (getJob u (fld w 12 5) (fld w 4 0)).live && (getJob u 0 3).seq ≠ fld w 44 13 && old.used && old.seq = fld w 44 13 && old.tag = u.t.me.tag),
    (getS (mapped [(1, 0x200000000000)]) 1).toNat = 2 ^ 45,
    (let w := getS (mapped [(1, 0x1FFFFFFFFFFF)]) 1
     w.toNat < 2 ^ 45 && !(getJob (mapped []) (fld w 12 5) (fld w 4 0)).used),
    ([0, 2, 3, 4, 5, 6, 7] : List Nat).all (fun st =>
      let s := withJob st [(1, 0x12003)]
      let w := getS s 1
      let j := getJob s (fld w 12 5) (fld w 4 0)
      w.toNat < 2 ^ 45 && j.used && j.seq = fld w 44 13 && j.tag = s.t.me.tag && !j.ack && j.live = (st < 3) &&
        shownState s 0 j = (if st = 0 then shownState s 0 j else st) && !s.t.spec.isOpen && !s.c.trap),
    (let s := withJob 2 [(1, 0x12003)]
     let j := getJob s 0 3
     let f := setJob s 0 3 { j with flight := [{ pkt := {} }], stopping := some 7 }
     let d := setJob s 1 31 { used := true, st := 1, tag := 1, deps := [(0, 3, 9)] }
     j.live && j.stopping.isNone && j.flight = [] && (getJob f 0 3).flight ≠ [] && (getJob f 0 3).stopping = some 7 &&
       (match getJob d 1 31 with | x => x.live && x.tag = 1 && x.deps.contains (0, 3, 9)))] := by decide

theorem met_ShapeAndMatrixState : met [
    (let s := mapped [(1, 0x4001000)]
     !s.c.trap && !s.t.spec.isOpen && okWith (matrixAddr s 0 1 32 32) (· = 0) && !lmBusy s && okWith (spmRead s 0 32) (fun _ => true) &&
       okWith (matrixAddr s 1 0 32 32) (· = 0x4001000) && !withheld s 0x4001000 32 .read && okWith (plainRead s 0x4001000 32 1) (fun _ => true) &&
       s.t.slots.cfg = [] && pending s 4 = [] && !fmtPending s s.t.slots.next && !accBusy s && (3 : Nat) < 4),
    (let s := holds (mapped [(1, 2), (2, 4)]) 4 .mclr { code := 6 }
     pending s 4 ≠ [] && accBusy s && 2 * s.t.g ≤ (getS s 2).toNat / 2 % 8 && (getS s 1).toNat / 2 % 8 < 2 * s.t.g),
    ([0, 1, 2, 3, 4, 5] : List Nat).all fun f => scalarFmt { mapped [] with t := { (mapped []).t with slots := { fmt := f } } } % 8 = f] := by
  decide

/-- An image of 204800 bytes: in the scratchpad and in memory; a row of zeros, and one with a reserved field used. -/
theorem met_AccumulatorImages : met [
    (let s := mapped [(1, 0x4001000)]
     !s.c.trap && !accBusy s && !s.t.spec.isOpen && 128 * (64 + 1536 * s.t.g) = 204800 && okWith (matrixAddr s 0 1 204800 64) (· = 0) &&
       okWith (matrixAddr s 1 0 204800 64) (· = 0x4001000) && tget none s.t.mat.win 0 = none && !lmBusy s &&
       !withheld s 0x4001000 204800 .write && !withheld s 0x4001000 204800 .read && okWith (accCheck s 0x4001000 204800 .write) (fun ps => ps.length ≠ 0) &&
       okWith (accCheck s 0x4001000 204800 .read) (fun ps => ps.length ≠ 0)),
    imageOk 1 (List.replicate 1600 0) && !imageOk 1 (List.replicate 1600 0xFF)] := by decide

theorem met_Counters : met [
    (let s := ticked (mapped [(1, 4096), (2, 4095), (3, 1), (4, 0x80000000)])
     let u := { s with t := { s.t with hdr := { s.t.hdr with counters := 4095 } } }
     !s.c.trap && !s.t.spec.isOpen && 2 ^ 12 ≤ (getS s 1).toNat && (getS s 2).toNat < 2 ^ 12 && u.t.hdr.counters ≤ (getS s 2).toNat &&
       (getS s 2).toNat < s.t.hdr.counters && ¬((0 : BitVec 32) - (getS s 3).setWidth 32).toNat < 2 ^ 31 && ((0 : BitVec 32) - 0).toNat < 2 ^ 31 &&
       !lmBusy s && s.t.slots.beats = [] && s.t.tick = some 0 && s.pkg.epoch ≠ 0 && noJobs s)] := by decide

/-- A task that may set the topology. -/
def topo (bs : List Byte) (rs : List (Nat × Word)) : State :=
  let s := holding bs rs
  { s with t := { s.t with regs := { s.t.regs with topoen := 1 } } }

theorem met_TopologyWords : met [
    (mapped []).t.regs.topoen % 2 ≠ 1,
    (let s := topo (leBytes 8 1 ++ leBytes 8 0) [(1, 0x4001000)]
     !s.c.trap && !s.t.spec.isOpen && s.t.regs.topoen % 2 = 1 && s.pkg.ocset.isNone && okWith (eaOf s 1 0) (fun ea => ea % 8 = 0) &&
       !withheld s 0x4001000 8 .read && okWith (plainRead s 0x4001000 8 1) fun x => leNat x.1 = 1 && !withheld x.2 0x4001008 8 .read &&
         okWith (plainRead x.2 0x4001008 8 1) fun y => !ocsEntryBad (leNat (y.1.take 8))),
    (let s := topo [] []
     let u := { s with pkg := { s.pkg with ocset := some { core := 0, tg := 7, answer := some (false, 1) } }, t := { s.t with begun := 1 } }
     u.t.regs.topoen % 2 = 1 && u.t.begun = 1 && u.cur = 0),
    (let s := topo [] [(1, 0), (2, 0x200000FFF), (3, 0x100000FFF)]
     !fwEntryBad (getS s 1) && fld (getS s 2) 31 12 = 0 && fld (getS s 2) 63 32 ≠ (s.pkg.fg + 1) % 2 ^ 32 && fld (getS s 3) 31 12 = 0 &&
       fld (getS s 3) 63 32 = (s.pkg.fg + 1) % 2 ^ 32),
    32 ≤ (getS (mapped [(1, 32)]) 1).toNat && (getS (mapped [(1, 31)]) 1).toNat < 32 && 2 ^ 12 ≤ (getS (mapped [(1, 4096)]) 1).toNat &&
      (getS (mapped [(1, 4095)]) 1).toNat < 2 ^ 12] := by decide

/-- A task whose handle 63 has the first entry STAGING, over one page of weights. -/
def staged (bs : List Byte) (rs : List (Nat × Word)) : State :=
  let s := ticked (holding bs rs)
  { s with pkg := { s.pkg with versions := [(16 * 63, { st := 1, version := 5, wbase := 0x4010000, wlen := 1 })] } }

theorem met_VersionAccessAndPublish : met [
    64 ≤ (getS (mapped [(1, 64)]) 1).toNat,
    (let s := mapped [(1, 63)]
     let u := { s with pkg := { s.pkg with vowner := [(63, 1)] } }
     !s.c.trap && !s.t.spec.isOpen && (getS s 1).toNat < 64 && tget 0 u.pkg.vowner 63 ≠ u.t.me.asid && tget 0 s.pkg.vowner 63 = s.t.me.asid),
    (let s := holding (leBytes 8 5 ++ leBytes 8 0x4010000 ++ leBytes 8 0 ++ leBytes 8 1) [(1, 63), (2, 0x4001000)]
     let u := { s with pkg := { s.pkg with versions := [(16 * 63, { st := 2, version := 5 })] } }
     okWith (eaOf s 2 0) (fun ea => ea % 32 = 0) && !withheld s 0x4001000 32 .read &&
       okWith (plainRead s 0x4001000 32 1) fun x => match stageEntry x.1 with
         | none => false
         | some e => okWith (entryPages s s.t.me.asid e) (fun _ => true) && entryIn s 63 0 = some 0 && !stageRefused s 63 e.version &&
           entryIn u 63 0 = some 1 && stageRefused u 63 e.version),
    entryIn (mapped []) 63 1 = none,
    (let s := staged [] [(1, 63)]
     entryIn s 63 1 = some 0 && okWith (entryPages s s.t.me.asid (getVE s 63 0)) (fun _ => true) && !lmBusy s && s.t.slots.beats = [] &&
       s.t.tick = some 0 && s.pkg.epoch ≠ 0),
    (let s := staged (leBytes 8 0x1FFF001 ++ leBytes 8 0 ++ leBytes 8 0xFFF) [(1, 63), (2, 0x4001000)]
     okWith (eaOf s 2 0) (fun ea => ea % 8 = 0) && !withheld s 0x4001000 8 .read && okWith (plainRead s 0x4001000 8 1) fun x =>
       let w := leNat x.1
       !listBad w && w / 2 ^ 12 % 2 ^ 12 < s.t.hdr.counters && !withheld x.2 0x4001010 2 .read &&
         okWith (plainRead x.2 0x4001010 2 1) fun y =>
           let u := y.2
           leNat (y.1.take 2) < 2 ^ 12 && entryIn u 63 1 = some 0 && okWith (entryPages u u.t.me.asid (getVE u 63 0)) (fun _ => true) &&
             !lmBusy u && u.t.slots.beats = [] && u.t.tick = some 0 && u.pkg.epoch ≠ 0)] := by decide

/-- Handle 63 with its entry 2 CURRENT under `pins` pins, and this hold. -/
def current (pins : Nat) (w : Word) (pol : Nat) (rs : List (Nat × Word)) : State :=
  let s := mapped rs
  { s with pkg := { s.pkg with versions := [(16 * 63 + 2, { st := 2, version := 5, pins })] },
           t := { s.t with regs := { s.t.regs with vhold := w, adoptpol := pol } } }

theorem met_VersionHolds : met [
    (let s := mapped [(1, 63)]
     let u := current 0 (holdWord 63 1 4) 2 []
     !s.c.trap && !s.t.spec.isOpen && (getS s 1).toNat < 64 && tget 0 s.pkg.vowner 63 = s.t.me.asid && (entryIn s 63 2).isNone &&
       !holdValid s.t.regs.vhold && holdValid u.t.regs.vhold && holdH u.t.regs.vhold = 63 && u.t.regs.adoptpol = 2),
    (let u := current 0 (holdWord 63 1 4) 2 []
     entryIn u 63 2 = some 2 && holdI u.t.regs.vhold ≠ 2 && u.t.regs.adoptpol ≠ 1),
    (let u := current 1 (holdWord 63 2 5) 2 []
     entryIn u 63 2 = some 2 && holdValid u.t.regs.vhold && holdH u.t.regs.vhold = 63 && holdI u.t.regs.vhold = 2),
    (let u := current 65535 (holdWord 63 1 4) 1 []
     let v := current 65534 0 0 []
     entryIn u 63 2 = some 2 && holdI u.t.regs.vhold ≠ 2 && u.t.regs.adoptpol = 1 && 65535 ≤ (getVE u 63 2).pins &&
       entryIn v 63 2 = some 2 && !holdValid v.t.regs.vhold && (getVE v 63 2).pins < 65535),
    (let u := current 65535 0 0 [(2, 5)]
     ((List.range 16).find? fun i => 2 ≤ (getVE u 63 i).st && (getVE u 63 i).version = (getS u 2).toNat % 2 ^ 32) = some 2 &&
       ((List.range 4).find? fun k => !holdValid (tget 0 u.t.regs.vpins k)) = some 0),
    (let u := current 1 (holdWord 63 2 5) 0 [(1, 4), (2, 5)]
     4 < (getS u 2).toNat && (getS u 1).toNat ≤ 4 && holdValid u.t.regs.vhold && !holdValid (tget 0 u.t.regs.vpins 3) &&
       !holdValid (mapped []).t.regs.vhold),
    (let s := mapped [(1, 0xF3F), (2, 0x1000), (3, 0x40)]
     getS s 1 &&& 0xFFFFFFFFFFFFF0C0 = 0 && getS s 2 &&& 0xFFFFFFFFFFFFF0C0 ≠ 0 && getS s 3 &&& 0xFFFFFFFFFFFFF0C0 ≠ 0 &&
       tget 0 s.pkg.vowner (fld (getS s 1) 5 0) = s.t.me.asid && tget 0 [(63, 1)] 63 ≠ s.t.me.asid),
    (let u := current 1 (holdWord 63 1 4) 1 []
     let v := { u with pkg := { u.pkg with versions := (16 * 63 + 1, { st := 3, pins := 1 }) :: u.pkg.versions }, c := { u.c with l1 := [(512, some {})], l1Poison := [0x2000] } }
     entryIn v 63 2 = some 2 && holdValid v.t.regs.vhold && holdI v.t.regs.vhold ≠ 2 && v.t.regs.adoptpol = 1 && (getVE v 63 2).pins < 65535 &&
       (getVE v 63 1).st = 3)] := by decide

/-- The page holds an envelope at 0x4001000 with this status, for a task of tint 2; s1 names it. -/
def envelope (status : Nat) : State :=
  ticked (holding (leBytes 8 0x4000000 ++ leBytes 8 0x4002000 ++ leBytes 8 0x4004000 ++ leBytes 8 0 ++ leBytes 16 0 ++
    leBytes 4 status ++ leBytes 4 0 ++ leBytes 8 2) [(1, 0x4001000)])
/-- The same with a live task of this tag there. -/
def living (tag asid : Nat) (priv : Bool) : State :=
  let s := envelope 0x304
  let r : TaskRec := { tag, env := 0x4001000, asid, tint := 2 }
  { s with c := { s.c with priv }, pkg := { s.pkg with tasks := [(tag, some r)] } }
def target (s : State) : Option TaskRec :=
  match envRead s 1 with | .ok (_, _, ps, _) => taskAtPa s (pieceAt ps 0) | .error _ => none

theorem met_TaskAndYieldWords : met [
    (let s := envelope 0
     !s.c.trap && !s.t.spec.isOpen && !envWithheld s 1 && okWith (envRead s 1) fun x =>
       let u := x.2.2.2
       let task := spawned s x.2.1 x.1
       !edgeWithheld s task && !envNotNew x.2.1 && !envBad x.2.1 && target s = none && s.t.me.result.isNone &&
         okWith (spawnCheck u x.1 x.2.1 x.2.2.1 task) fun q => !lmBusy q.2 && q.2.t.slots.beats = [] && q.2.t.tick = some 0 && q.2.pkg.epoch ≠ 0),
    (let s := envelope 5
     !envWithheld s 1 && okWith (envRead s 1) fun x => envN x.2.1 48 4 % 16 = 5 && envNotNew x.2.1 &&
       failed (spawnCheck x.2.2.2 x.1 x.2.1 x.2.2.1 (spawned s x.2.1 x.1)) && target s = none),
    (let s := envelope 6
     okWith (envRead s 1) fun x => envN x.2.1 48 4 % 16 = 6 && target s = none),
    (let s := living 1 0 true
     (target s).isSome && s.t.me.tag = 1 && !jobsOnSpm s && s.t.me.result.isNone && !s.t.stub && !s.t.spec.isOpen && !s.c.trap),
    (let s := living 2 0 false
     (match target s with | some x => x.tag ≠ s.t.me.tag && x.asid = s.t.me.asid && runningOn s x.tag = none | none => false)),
    (let s := pokeBytes (living 2 1 false) true ((mapped []).pkg.ptbase + 8) (leBytes 8 0x2000)
     (match target s with | some x => !s.c.priv && x.asid ≠ s.t.me.asid | none => false)),
    (let s := envelope 0
     let v := { s with t := { s.t with me := { s.t.me with result := some 7 } } }
     v.t.me.result = some (7 : Word) && !v.c.trap && !v.t.spec.isOpen),
    (let s := mapped []
     let u := { s with c := { s.c with req := some 1 } }
     let r := { region [] with c := { (region []).c with req := some 0 } }
     !s.c.trap && s.c.req.isNone && u.c.req = some 1 && (0 : Nat) < 1 && r.t.spec.isOpen && !u.t.spec.isOpen && !u.t.stub &&
       (match stubLookup u 0x4000000 1 with | .ok (none, v) => !jobsOnSpm v | _ => false)),
    (let s := holding (leBytes 8 1 ++ leBytes 56 0 ++ leBytes 8 0x4000000 ++ leBytes 8 0x4000004 ++ leBytes 8 0x4000100 ++ leBytes 40 3) []
     let u := { s with c := { s.c with req := some 3 }, t := { s.t with hdr := { s.t.hdr with stubs := 0x4001000 } } }
     let v := { u with t := { u.t with hdr := { u.t.hdr with stubs := 0x9000000 } } }
     match stubLookup u u.t.pc.toNat 3, stubLookup v v.t.pc.toNat 3 with | .ok (some _, _), .ok (none, _) => true | _, _ => false),
    (let s := living 2 0 true
     let r : TaskRec := { tag := 2, env := 0x4001000, st := 1, tint := 2 }
     let s := { s with pkg := { s.pkg with tasks := [(2, some r)] } }
     target s = some r && r.tag ≠ s.t.me.tag && runningOn s 2 = none && getTask s 2 = some r && r.st = 1 && noJobs s && !lmBusy s &&
       s.t.slots.beats = [] && s.t.tick = some 0 && s.pkg.epoch ≠ 0),
    (let s := living 2 0 true
     let r : TaskRec := { tag := 2, env := 0x4001000, st := 2, tint := 2 }
     let s := { s with pkg := { s.pkg with tasks := [(2, some r)] }, others := [(255, { c := { busy := true }, t := { me := r } })] }
     target s = some r && runningOn s 2 = some 255 && (coreCtx s 255).t.begun ≠ 1 && (coreCtx s 255).c.leaving.isNone &&
       !jobsOnSpm (focus s 255) && !jobsOnSpm (stopped (focus s 255)))] := by decide

/-- Domain 1023 with these members, those that have arrived, and the task's tag 1; s1 names it. -/
def inDomain (level : Nat) (members : List (Nat × Nat × Bool)) (arrived : List Nat) (rs : List (Nat × Word)) : State :=
  let s := ticked (mapped ((1, 1023) :: rs))
  { s with pkg := { s.pkg with domains := [(1023, some { level, members, arrived, anchor := 0 })] } }

theorem met_DomainsAndBarriers : met [
    (let s := mapped [(1, 1024), (2, 1023)]
     !s.c.trap && !s.t.spec.isOpen && 1024 ≤ (getS s 1).toNat && (getS s 2).toNat < 1024 && (myDom s 1023).isNone),
    (let s := inDomain 0 [(0, 2, false)] [] []
     let few := { s with t := { s.t with hdr := { s.t.hdr with domains := 0 } } }
     (match myDom s 1023 with
      | some x => !x.has 1 && x.members.length < 64 && anchorAdmits x 0 && !anchorAdmits x 1 && (membershipsOf s 1).length < s.t.hdr.domains &&
        few.t.hdr.domains ≤ (membershipsOf few 1).length
      | none => false)),
    (let s := inDomain 0 ((List.range 64).map fun i => (i, i + 2, false)) [] []
     (match myDom s 1023 with | some x => !x.has 1 && 64 ≤ x.members.length | none => false)),
    (let s := inDomain 0 [(0, 1, false)] [] []
     (match myDom s 1023 with | some x => x.has 1 | none => false)),
    newDomBad 5 && !newDomBad 4,
    (let s := mapped [(2, 4)]
     (getS s 1).toNat = 0 && !newDomBad (getS s 2) && (membershipsOf s 1).length < s.t.hdr.domains && getDom s 1 = none),
    (let s := inDomain 0 [(0, 5, false)] [] [(2, 5), (3, 6)]
     let u := { s with c := { s.c with priv := false } }
     s.c.priv && !u.c.priv && (match liveDom s 1023 with
      | some x => x.has ((getS s 2).toNat % 2 ^ 20) && !x.has ((getS s 3).toNat % 2 ^ 20)
      | none => false)),
    (let s := inDomain 0 [(0, 1, true)] [] []
     let v := inDomain 0 [(0, 1, false), (1, 2, false)] [2] []
     let w := inDomain 0 [(0, 1, false), (1, 2, false)] [] []
     s.t.me.result.isNone && !lmBusy s && s.t.slots.beats = [] && s.t.tick = some 0 && s.pkg.epoch ≠ 0 && !jobsOnSpm w &&
       barrierCount v 1 < v.t.hdr.barriers && [v, w].all fun s => (match myDom s 1023 with | some x => x.has 1 | none => false)),
    (let s := inDomain 4 [(0, 1, false)] [] []
     let u := { s with pkg := { s.pkg with domains := [(1023, some { level := 4, home := some 2, members := [(0, 1, false)] })] } }
     (match myDom u 1023 with | some x => x.has 1 && x.home ≠ none | none => false) && !jobsOnSpm u),
    (let s := inDomain 0 [(0, 1, true)] [] []
     let v := { s with t := { s.t with me := { s.t.me with result := some 7 } } }
     v.t.me.result = some (7 : Word) && !v.t.spec.isOpen),
    (let s := inDomain 4 [(0, 1, false)] [] [(2, 1)]
     let d : Domain := { level := 4, home := some 2, members := [(0, 1, false)], anchor := 0 }
     let ask := fun a => ({ s with pkg := { s.pkg with domains := [(1023, some { d with asks := a })] } } : State)
     (match myDom (ask []) 1023 with | some x => x.home = some 2 && (x.asks.all fun a => a.1 ≠ 1) | none => false) &&
       ([none, some none, some (some 7)].all fun a => (myDom (ask [(2, none), (1, a)]) 1023).any fun x => x.asks = [(2, none)] ++ (1, a) :: []) &&
       (liveDom (ask [(1, none)]) 1023).isSome)] := by decide

/-- A region whose condition word, at 0x4001000, holds `now`, and that expects 5. -/
def condition (now : Nat) (maps : Option Nat) : State :=
  let s := holding (leBytes 8 now) []
  { s with t := { s.t with spec := { isOpen := true, exp := 5, pa := 0x4001000, map0 := maps, map1 := some 3, store := [{ va := 0x4002000, sz := 3 }] } } }

theorem met_SpeculationRegions : met [
    (region []).t.spec.isOpen && !(region []).c.trap,
    (let s := holding (leBytes 8 5) [(1, 0x400000004001000), (2, 5), (3, 6), (4, 0x4001004)]
     !s.t.spec.isOpen && okWith (eaOf s 1 0) (· = 0x4001000) && fld (getS s 1) 58 56 ≤ 4 && okWith (eaOf s 4 0) (fun w => w % 8 ≠ 0) &&
       !slotsBusy s && !withheld s 0x4001000 8 .read && okWith (accCheck s 0x4001000 8 .read) fun ps => (ps.all fun p => p.pg.kind < 2) && softCheck s 0x4001000 ps = none &&
         peekN (toPoint s 0x4001000 ps false) (pieceAt ps 0) 8 = (getS s 2).toNat && peekN (toPoint s 0x4001000 ps false) (pieceAt ps 0) 8 ≠ (getS s 3).toNat),
    (let s := holds (condition 5 none) 2 (.vnot 0 {} {}) {}
     slotsBusy s && s.t.spec.isOpen),
    (let s := condition 6 none
     !slotsBusy s && poisoned s s.t.spec.pa 8 = none && peekN s s.t.spec.pa 8 ≠ s.t.spec.exp.toNat),
    (let s := condition 5 (some 0)
     !slotsBusy s && poisoned s s.t.spec.pa 8 = none && peekN s s.t.spec.pa 8 = s.t.spec.exp.toNat && twf {} s.t.mat.acc &&
       s.t.spec.map0 ≠ s.t.spec.map1 && okWith (accCheck s 0x4002000 8 .write) (fun _ => true) &&
       okWith (plainWrite s 0x4002000 (leBytes 8 0) 1) (fun _ => true) && failed (plainWrite s 0x9000000 (leBytes 8 0) 1)),
    (let s := leafAt (mapped [(1, 0x8000000)]) (0x20000000000 + 0x300 + 0x3F)
     !s.c.trap && !s.t.spec.isOpen && okWith (eaOf s 1 0) (· = 0x8000000) && okWith (accCheck s 0x8000000 8 .read true) fun ps => ps.any fun p => p.pg.kind = 3),
    (let r := region []
     let s := condition 5 none
     let u := { s with t := { s.t with spec := { s.t.spec with pending := some 3 } } }
     r.t.spec.pending.isNone && !commitWithheld s && u.t.spec.pending.isSome)] := by decide

theorem met_ChecksAndQuarantine : met [
    (let s := holds (mapped []) 2 (.vchk 0 {} {}) { code := 0x88 }
     !s.c.trap && checksPending s),
    (let s := mapped [(1, 1)]
     let seg : Nat → State := fun n => { s with t := { s.t with seg := some { rewinds := n } } }
     let rewinds : Nat → Nat := fun n => match (seg n).t.seg with | some g => g.rewinds | none => 9
     !checksPending s && !s.t.mismatch && decide (getS s 1 ≠ getS s 2) && decide (getS s 2 = getS s 3) && (getQ s 0 != getQ s 1) &&
       (getQ s 1 == getQ s 2) && s.t.seg.isNone && decide (rewinds 1 < 2) && decide (2 ≤ rewinds 2) && { s.t with mismatch := true }.mismatch),
    (let names := fun n : Nat => decide (n < 2 ^ 10 ∧ n / 2 % 16 ≤ 8)
     names 0x3F1 && !names 0x3F2 && !names 0x400 && decide (0xFF < 2 ^ 8) && decide (3 < 4) && (mapped []).c.priv && !(task []).c.priv)] := by decide

theorem met_SystemRegisters : met [
    0xF00 ≤ 0xFFF, srRead 0x7FF = none, srRead 0x080 = some true && !(task []).c.priv && (mapped []).c.priv, srRead 0x000 = some false,
    (let s := holds (mapped []) 2 (.vnot 0 {} {}) {}
     srBusy s 0x000 && !srBusy (mapped []) 0x000),
    inSpec (region []) && !inSpec (mapped []), srWrite 0x7FF = none, srWrite 0x10C = some true && srWrite 0x000 = some false,
    (let s := mapped []
     (([0x000, 0x003, 0x018, 0x01F, 0x016, 0x020, 0x123, 0x206, 0x021, 0x022, 0x205, 0x109, 0x10C, 0x121, 0x122, 0x202, 0x110] : List Nat).all
       fun n => (writeReg s n (2 ^ 64 - 1)).isSome && (srWrite n).isSome) && writeReg s 0x10D 0 = none && writeReg s 0x010 3 = none &&
       (srRead 0x20F).isSome)] := by decide

theorem met_SystemRegisterActions : met [
    !inSpec (mapped []) && (mapped []).c.priv && !(mapped []).c.trap && (mapped []).t.slots.fmtw = [],
    !fmtOk 0x8000 && fmtOk 0, (inTrap []).c.trap && (inTrap []).c.priv && !inSpec (inTrap []),
    (getS (inTrap [(1, 1)]) 1).toNat % 2 = 1 && (getS (inTrap [(1, 0xFFFFFFFFFFFFFFFE)]) 1).toNat % 2 = 0,
    tintBad 0x04 && !tintBad 0x0303030303030303 && (7 : Nat) < 8,
    (let s := living 2 0 true
     (match taskAt s 0x4001000 0 with | some x => !(x.st = 3 && x.susp = 6) | none => false)),
    (let s := living 2 0 true
     let r : TaskRec := { tag := 2, env := 0x4001000, st := 3, susp := 6 }
     let u := { s with pkg := { s.pkg with tasks := [(2, some r)] } }
     taskAt u 0x4001000 0 = some r && !lmBusy u && u.t.slots.beats = [] && u.t.tick = some 0 && u.pkg.epoch ≠ 0),
    (let s := task [(1, 0)]
     !inSpec s && !s.c.priv && s.t.slots.fmtw = [] && fmtOk 0 && (2 : Nat) ^ 32 - 1 < 2 ^ 64)] := by decide

theorem met_ExceptionEntry : met [!(task []).c.trap, (inTrap []).c.trap && !jobsOnSpm (inTrap [])] := by decide

theorem met_ForbiddenWords : met [(inTrap []).c.trap, !(region []).c.trap && (region []).t.spec.isOpen, !(region []).t.stub, (srWrite 0x000).isSome,
    (let io := 0x20000000000 + 0x300 + 0x3F
     let checked := 0x4000000 + 0x40 + 0x3F
     [io, checked].all fun w =>
       let s := leafAt (mapped [(1, 0x8000000)]) w
       let r := { s with t := { s.t with spec := { isOpen := true } } }
       okWith (eaOf r 1 (dispOf 3 0)) fun ea => ea % 8 = 0 && okWith (accCheck r ea 8 .write true) fun ps => ps.any fun p => p.pg.kind = 3 || p.pg.checked)] := by
  decide

theorem met_TrapWords : met [
    !(task []).c.trap && !(task []).t.spec.isOpen,
    (let s := inTrap []
     let u := { s with t := { s.t with regs := { timerPending := true } } }
     s.c.trap && !s.c.frozenDue && !eventPending s && eventPending u && !jobsOnSpm s),
    (let s := inTrap []
     let z := { s with c := { s.c with frozenDue := true } }
     z.c.trap && z.c.frozenDue && !jobsOnSpm z)] := by decide

theorem met_TranslationsNoiseBinding : met [
    !inSpec (mapped []) && (mapped []).c.priv && !(task []).c.priv && !inSpec (task []),
    (let s := mapped [(1, 0x80000000000000), (2, 256), (3, 255), (4, 0x7FFFFFFFFFFFFF)]
     2 ^ 55 ≤ (getS s 1).toNat % 2 ^ 56 && 256 ≤ (getS s 2).toNat && (getS s 3).toNat < 256 && (getS s 4).toNat % 2 ^ 56 < 2 ^ 55 &&
       getS s 1 ≠ 0 && getS s 0 = 0 && !lmBusy s && s.t.slots.beats = []),
    lmBusy (holds (mapped []) 1 (.ainc {} {}) {}),
    (let s := { mapped [] with pkg := { (mapped []).pkg with noiseBad := true } }
     s.pkg.noiseBad && !(mapped []).pkg.noiseBad),
    (let s := mapped []
     bindBad s 255 1 && bindBad s 256 0 && bindBad s 0 3 && !bindBad s 255 3 && !bindBad s 255 0),
    (let s := mapped []
     let u := { s with c := { s.c with req := some 3 } }
     (inTrap []).c.trap && !inSpec (inTrap []) && u.c.req.isSome && !eventPending s && s.c.req.isNone && s.t.begun < 2 &&
       2 ≤ { s.t with begun := 3 }.begun && { s.c with woken := true }.woken)] := by decide

/-- A V slot without a duplicate meets no vote; slot 1 is the last. -/
def voteless (s : State) : Bool := (List.range 2).all fun v => !(headOf s (2 + v)).dup

theorem met_VectorIntegerElements : met [voteless (task []), (1 : Nat) < 2] := by decide
theorem met_VectorPredicates : met [voteless (task []), (1 : Nat) < 2] := by decide
theorem met_VectorFloatElements : met [voteless (task []), (1 : Nat) < 2] := by decide
theorem met_VectorConversions : met [voteless (task []), 7 / 8 % 4 = 0, 15 / 8 % 4 = 1, 2 ≤ 16 / 8 % 4, 2 ≤ 31 / 8 % 4] := by decide
theorem met_VectorPermutes : met [
    (let s := task []
     let f : VF := { width := 1, ty := 2, imm := 8 }
     voteless s && vlen s f / esizeI f.ty = 8 && 8 ≤ f.imm && (7 : Nat) < 8)] := by decide

/-- No active element, and two equal greatest ones of which the first counts; the same of floats. -/
theorem met_VectorReductions : met [
    (let s := task []
     let f : VF := { width := 1, ty := 2, va := 1, pred := 3 }
     voteless s && !f.sat && { f with sat := true }.sat && (List.range (vlen s f / 4)).all fun k => !activeAt (psrc s 0 f.pred {}) 4 k),
    (let s := { task [] with t := { (task []).t with v := [(1, vec [1, 9, 9, 2])] } }
     let f : VF := { width := 1, ty := 2, va := 1 }
     let int := fun k => intVal f.ty (elemAt (vsrc s 0 f.va {}) 4 k)
     (List.range 8).all fun j => activeAt (psrc s 0 f.pred {}) 4 j && decide (int j ≤ int 1 ∧ (j < 1 → int j < int 1))),
    (let s := { task [] with t := { (task []).t with v := [(1, vec [0x3F800000, 0x7FC00000, 0x40000000, 0x40000000])] } }
     let f : VF := { width := 1, ty := 4, va := 1 }
     let value := fun k => decodeF (fmtOf f.ty) (elemAt (vsrc s 0 f.va {}) 4 k)
     (List.range 8).any fun k => (List.range 8).all fun j =>
       !argLess (value k) (value j) && (decide (k ≤ j) || argLess (value j) (value k)))] := by decide

theorem met_VectorAccumulateCheckGenerate : met [
    (let f : VF := { width := 1, ty := 4, va := 1, vb := 2 }
     let s := fun ws => ({ task [] with t := { (task []).t with v := [(1, vec ws)] } } : State)
     let value := fun ws k => decodeF (fmtOf f.ty) (elemAt (vsrc (s ws) 0 f.va {}) 4 k)
     (value [0x7F800000] 0).isInf && (List.range 8).all fun k => !(value [0x3F800000] k).isNan && !(value [0x3F800000] k).isInf),
    failed (namedWrite (task []) 0 0 [(0, { m := 1, e := 600 })] false) &&
      okWith (namedWrite (task []) 0 0 [(0, { m := 1, e := 0 })] false) (fun _ => true),
    (let s := { task [] with t := { (task []).t with v := [(1, vec [1])] } }
     let f : VF := { width := 1, ty := 2, va := 1, vb := 2 }
     activeAt (psrc s 0 f.pred {}) 4 0 && elemAt (vsrc s 0 f.va {}) 4 0 ≠ elemAt (vsrc s 0 f.vb {}) 4 0 && elemAt (vsrc s 0 3 {}) 4 0 = 0),
    voteless (task []), (4 : Nat) = 4, (3 : Nat) ≠ 4] := by decide

theorem met_ControlAndMoveSlots : met [
    (let s := task []
     let member := fun n : Nat => ({ members := [(0, 1, false), (1, n, false)] } : Domain)
     let u := { s with t := { s.t with regs := { rdvdom := 5 }, me := { tag := 1 } }, pkg := { s.pkg with domains := [(5, some (member 2))] } }
     rdvMet s 0 1 && !rdvMet u 0 1 && !s.t.mismatch && s.t.slots.votes = []),
    (let s := task []
     let u := { s with t := { s.t with mismatch := true, seg := some { rewinds := 1 } } }
     u.t.mismatch && (u.t.seg.map fun g => decide (g.rewinds < 2)) = some true)] := by decide

theorem met_ResultsBecomeVisible : met [
    (let a : Latch := { tgt := 44, cls := 1, iss := 40 }
     let l : Latch := { tgt := 44, cls := 2, iss := 40 }
     a.before l && a.dest = l.dest && a.tgt ≤ 44)] := by decide

theorem met_EncodingRoundTrip : met [
    Instr.wf 1 (.add 63 63 63) && (encodeBytes (.add 63 63 63)).isSome, wfV 1 0x05 { width := 3, vd := 31 } && wfL 1 { width := 3, vreg := 31 },
    (Instr.vParts (.vadd 1 {} {})).isSome && (Instr.lParts (.vld {} {})).isSome] := by decide

theorem met_DecodingDropsNoBit : met [
    (match decodeBytes (wordBytes 0x1A000001) with | .ok (i, rest) => i = .nop && rest.isEmpty | .error _ => false),
    (match decodeEntry 1 0 with | .ok _ => true | .error _ => false)] := by decide

/-- The last 32 bytes of a scratchpad, one byte beyond, a hole left for VLDFF, and a misaligned address. -/
theorem met_ScratchpadVectors : met [
    (let s := task []
     lFault s 0x7FFFE0 [(0, 0x7FFFE0), (31, 0x7FFFFF)] true = none && lFault s 0x7FFFE0 [(0, 0x7FFFE0), (31, 0x7FFFFF)] false = none &&
       lFault s 0x7FFFE0 [(32, 0x800000)] true ≠ none && lFault s 1 [(0, 1)] false ≠ none),
    (let beyond := fun (ea : Nat) (b : Nat × Nat) => decide (mib8 < ea + 32 * (b.1 / 32) + 32)
     let bytes := fun ea => (List.range 64).map fun k => (k, ea + k)
     !(bytes 0x7FFFC0).any (beyond 0x7FFFC0) && (bytes 0x7FFFE0).find? (beyond 0x7FFFE0) = some (32, 0x800000) &&
       (bytes 0x7FFFE0).head? ≠ some (32, 0x800000) && (bytes 0x800000).find? (beyond 0x800000) = (bytes 0x800000).head? &&
       lFault (task []) 0x7FFFE0 ((bytes 0x7FFFE0).filter fun y => y.1 < 32) true = none)] := by decide

/-- A local handle with two slots of one line, with `fill` of them filled, as handle 15 of a task. -/
def ringOf (fill : Nat) : State :=
  let s := task []
  let w : BitVec 256 := ((1 : BitVec 256) <<< 32) + ((1 : BitVec 256) <<< 48) + ((8 : BitVec 256) <<< 56) + ((BitVec.ofNat 256 fill) <<< 64)
  { s with t := { s.t with hole := [(15, w)] } }

theorem met_WindowsAndPigeonholes : met [
    (let s := task []
     windowFault s 0 [(0, 0)] true = none && windowFault s 0 [(0, 0)] false = none && windowFault s 0 [(0, 8 * mib8)] true ≠ none &&
       windowFault s 1 [(0, 1)] false ≠ none),
    failed (holeRef (task []) 15 false) && failed (holeRef (task []) 15 true),
    okWith (holeRef (ringOf 1) 15 false) (· = (0, 15)) && holeBlocks (ringOf 0) 15 false 1 && !holeBlocks (ringOf 1) 15 false 1,
    okWith (holeRef (ringOf 1) 15 true) (· = (0, 15)) && holeBlocks (ringOf 2) 15 true 1 && !holeBlocks (ringOf 1) 15 true 1 &&
      !beatsBlock (ringOf 1) 15 true,
    phSlot (holeOf (ringOf 0) 0 15) * 128 = 128 && 128 < 96 + 64 && 64 + 64 ≤ 128 && phKind (holeOf (ringOf 0) 0 15) ≠ 3 &&
      spmPoisoned (ringOf 0) 64 64 = none,
    (let s := ringOf 1
     let w : BitVec 256 := ((3 + 8 : BitVec 256) <<< 56) + ((1 : BitVec 256) <<< 128)
     let p : BitVec 256 := ((1 : BitVec 256) <<< 32) + ((2 + 8 : BitVec 256) <<< 56)
     let u := { s with t := { s.t with hole := [(0, w)] }, others := [(1, { c := { busy := true }, t := { hole := [(0, p)] } })] }
     let b := { u with t := { u.t with slots := { u.t.slots with beats := [(1, 0, 0, 0)] } } }
     okWith (holeRef u 0 true) (· = (1, 0)) && !holeBlocks u 0 true 1 && phKind (holeOf u 0 0) = 3 && beatsBlock b 0 true)] := by decide

/-- An open window of one beat whose checks hold, and others below with a column or two beats off. -/
def windowed (beats : List Beat) (exact : Bool) : State :=
  let s := task []
  { s with t := { s.t with mat := { s.t.mat with win := [(0, some { beats, exact })] } } }

theorem met_MatrixRows : met [
    (let w := fun beats => ({ beats } : Window)
     let off : Beat := { bad := true }
     let failing := fun x : Window => x.beats.filter (·.bad)
     let m : Mat := {}
     ((List.range 4).all fun a => tget none (task []).t.mat.win (accRead (task []) a) = none) &&
       failing (w [{}]) = [] && badColumns m (w [{}]) 2 = [] && failing (w [off]) ≠ [] && 1 < (failing (w [off, off])).length &&
       badColumns m { w [{}] with sum := [(0, { m := 1, e := 0 })] } 2 = [0] &&
       !({ exact := false : Window }).exact && tget none (windowed [{}] true).t.mat.win 0 ≠ none && !(w [off]).spoiled),
    !(task []).t.spec.isOpen && (127 : Nat) < 128 && (3 : Nat) < 4,
    (let s := task []
     let old : AccRow := { e := 0, m := [(5, 1)] }
     let u := { s with t := { s.t with mat := { s.t.mat with acc := [(128 * 3 + 127, old)] } } }
     getRow u 3 127 = old && old.e ≠ -512 && old.m ≠ [] && okWith (namedWrite u 3 127 [(0, { m := 1, e := 0 })] false) fun v =>
       (getRow v 3 127).e = old.e)] := by decide

/-- A shape record of one element in each of its rows, at the start of the scratchpad, as record 0 of a task in these formats. -/
def shaped (fmt : Nat) (k : Nat) (f : MF) : State :=
  let s := holds (task []) 4 .mnop { code := k, mf := f }
  let w : BitVec 256 := ((1 : BitVec 256) <<< 80) + ((2 : BitVec 256) <<< 96) + ((1 : BitVec 256) <<< 162)
  { s with t := { s.t with mat := { s.t.mat with sh := [(0, w)], cls := [(0, 1)] }, slots := { s.t.slots with fmt } } }

theorem met_MatrixBeats : met [
    (let s := shaped 0x24 3 {}
     let w := tget 0 s.t.mat.sh 0
     let u := useOf w 256 1
     fmtAt s 40 / 8 % 8 = 4 && clsOf 4 = some 1 && useFault s w u 1 (scaleRange w 0 2) true = none &&
       ((useRead s u 1).flatMap (eltVals 4)).all (fun y => y ≠ none) && (List.range 4).all fun a => tget none s.t.mat.win (accRead s a) = none),
    clsOf (shaped 0x04 3 {}).t.slots.fmt ≠ none && clsOf (0x20 % 8) ≠ clsOf (0x20 / 8 % 8) && clsOf (0x20 / 8 % 8) = some 1,
    (let s := shaped 0x24 3 {}
     useFault s 0 (useOf 0 256 1) 1 (scaleRange 0 0 2) true ≠ none),
    (let s := shaped 0x24 4 {}
     let w := tget 0 s.t.mat.sh 0
     let u := useOf w 128 1
     fmtAt s 40 % 8 = 4 && clsOf (fmtAt s 40 / 8 % 8) = some 1 && tget 0 s.t.mat.cls 0 = 1 && tget 0 s.t.mat.cls 1 ≠ 1 &&
       useFault s w u 1 (scaleRange w 0 1) true = none && (takeChunk s.upsets).1.isNone && !mustCheck s 0 0 false &&
       (scaleProducts s 0 (useScale s w) 2).isSome && okWith (namedWrite s 0 0 [] false) (fun _ => true)),
    (let s := shaped 0x24 5 {}
     let w := tget 0 s.t.mat.sh 0
     let out := decodeF f32 (useScale s w)
     fmtAt s 40 / 64 % 8 ≠ 5 && drainCols 0x24 1 = 256 && useFault s w (useOf w 256 1) 1 (scaleRange w 0 1) false = none && 0 < 256 * 1 &&
       !out.isNan && !out.isInf && tget none s.t.mat.win (accRead s 0) = none)] := by decide

theorem met_TaskEvents : met [
    (let s := task []
     let u := { s with t := { s.t with regs := { timerPending := true } } }
     let v := { s with t := { s.t with regs := { rnmPending := true, rnme := true, timer := 5 } } }
     s.c.busy && !s.c.trap && s.c.leaving.isNone && !midBundle s && u.t.begun = 0 && u.t.regs.timerPending && !v.t.regs.timerPending && v.t.regs.rnmPending &&
       v.t.regs.rnme && 0 < v.t.regs.timer && (4 : Nat) < v.t.regs.timer && v.t.regs.timer ≤ 5),
    (let r := region []
     let u := { r with t := { r.t with spec := { r.t.spec with pending := some 5 } } }
     let v := { u with t := { u.t with spec := { u.t.spec with isOpen := false } } }
     u.c.busy && !u.c.trap && u.t.spec.isOpen && u.t.spec.pending = some 5 && !v.t.spec.isOpen && v.t.spec.pending = some 5),
    (let s := task []
     let u := { s with c := { s.c with rewind := some 3 }, t := { s.t with seg := some {} } }
     u.c.rewind = some 3 && u.t.seg = some {} && u.c.leaving.isNone),
    { (task []).t with begun := 2 }.begun = 2,
    (let s := mapped []
     let r : TaskRec := { tag := 2, st := 1, tint := 2, cls := 1 }
     let u := { s with
      c := { s.c with tint := 2 },
      dies := [(0, { getDie s 0 with queues := [(queueKey 2 1 0, [2])] })], pkg := { s.pkg with tasks := [(2, some r)] } }
     u.c.busy && u.c.lead.isNone && (quantumOf u).isSome && workWaits u),
    (let s := task []
     let u := { s with c := { s.c with req := some 0 } }
     let v := { inTrap [] with c := { (inTrap []).c with req := some 0 } }
     u.c.busy && u.c.req.isSome && u.c.leaving.isNone && u.t.begun ≠ 1 && !u.c.trap && u.c.rewind.isNone && u.t.spec.pending.isNone && !jobsOnSpm u &&
       v.c.trap && v.c.req.isSome),
    (let b : Nat × Nat × BitVec 32 × BitVec 256 := (255, 2 ^ 23 - 32, 1, 0)
     let s := task []
     let o := { s with others := [(7, { c := { busy := true }, t := { me := { tag := 2, asid := 1 } } })] }
     [b][0]? = some b && 2 ^ 23 - 32 + 32 ≤ (2 : Nat) ^ 23 && sharesWindow s 0 && !sharesWindow o 7),
    (let f : LF := { width := 1 }
     let s := holds (task []) 1 (.vldw f {}) { lf := f }
     slotReady s 1 = some (40, .vldw f {}) && (lBytes s f {})[0]? = some (0, 0) && windowFault s (lEA s f {}) (lBytes s f {}) true = none &&
       tget none s.t.slots.early 0 = none),
    (let s := task []
     let u := { s with c := { s.c with grace := true } }
     u.c.grace && u.c.req.isNone && !midBundle u),
    (let s := task []
     let r := { s with c := { s.c with rewind := some 3 } }
     r.c.busy && !r.c.trap && r.c.leaving.isNone && r.t.begun ≠ 1 && r.c.rewind = some 3 && r.t.seg = none && { r.t with seg := some {} }.seg = some {}),
    (let s := task []
     let f := { s with c := { s.c with frozenDue := true } }
     f.c.busy && f.c.frozenDue && f.c.leaving.isNone && f.t.begun ≠ 1 && !f.c.trap && !midBundle f && f.c.rewind.isNone &&
       f.t.spec.pending.isNone && !jobsOnSpm f)] := by decide

/-- Core 0 idle, serving tint 2, with one task in its frame. -/
def waiting (r : TaskRec) : State :=
  let s := State.reset
  { s with
    c := { s.c with tint := 2 }, pkg := { s.pkg with tasks := [(r.tag, some r)] },
    dies := [(0, { getDie s 0 with
      tintmap := tset 3 (getDie s 0).tintmap 0 2, bindmap := tset 0 (getDie s 0).bindmap 0 3,
      queues := [(queueKey r.tint r.cls (effPrio r), [r.tag])] })] }

/-- Core 0 idle in the package of `s`, serving tint 2, with these tasks of it in its frame. -/
def idleWith (s : State) (rs : List TaskRec) : State :=
  { s with
    c := { tint := 2 }, t := {}, pkg := { s.pkg with tasks := rs.map fun r => (r.tag, some r) },
    dies := [(0, { getDie s 0 with
      tintmap := tset 3 (getDie s 0).tintmap 0 2, bindmap := tset 0 (getDie s 0).bindmap 0 3,
      queues := rs.map fun r => (queueKey r.tint r.cls (effPrio r), [r.tag]) })] }
/-- A suspended task that waits, its save area at 0x4010000 in a page that holds these bytes there at an offset. -/
def savedTask (off : Nat) (bs : List Byte) : State :=
  idleWith (pokeBytes (mapped []) true (0x4010000 + off) bs) [{ tag := 1, st := 1, tint := 2, ran := true, save := 0x4010000 }]
def chosen (s : State) : Option (TaskRec × State) := selectFor s s.cur
/-- The tags of the classes that core 0 finds at priority 0, with two classes in its frame. -/
def twoClasses (served : Option Nat) (deficit : Tbl Nat) (weight : Tbl Nat) : State :=
  let s := idleWith State.reset [{ tag := 2, st := 1, tint := 2, cls := 1 }, { tag := 3, st := 1, tint := 2, cls := 3 }]
  { s with dies := [(0, { getDie s 0 with served := tset none [] 2 served, deficit, weight })] }

theorem met_SchedulerEvents : met [
    (selectFor State.reset 0).isNone,
    (match selectFor (waiting { tag := 2, st := 1, tint := 2 }) 0 with | some (r, _) => r.tag = 2 | none => false),
    (let s := holding (leBytes 4 0 ++ leBytes 2 1 ++ [0, 0] ++ leBytes 8 0 ++ leBytes 8 4 ++ leBytes 8 0x4000000 ++ leBytes 32 0) []
     let r : TaskRec := { tag := 2, hdr := 0x4001000, tint := 2 }
     okWith (readHeader s r) fun bs => headerOk bs r),
    (let r : TaskRec := { tag := 2, st := 1, tint := 2, age := 2, held := true }
     let s := waiting r
     getTask s 2 = some r && r.age < 3 && effPrio r < 3 && (getDie s 0).ageLimit ≠ 0 && r.held),
    (let header := leBytes 4 0 ++ leBytes 2 1 ++ [0, 0] ++ leBytes 8 0 ++ leBytes 8 4 ++ leBytes 8 0x4000000 ++ leBytes 32 0
     let r : TaskRec := { tag := 2, hdr := 0x4001000, tint := 2, st := 1, pc := 0x4000000, age := 1, env := 0x4003000 }
     let s := idleWith (holding header []) [r]
     let z := idleWith (holding (leBytes 64 0) []) [r]
     let x := idleWith (mapped []) [{ r with hdr := 0x9000000 }]
     (match chosen s, chosen z, chosen x with
      | some (a, u), some (b, v), some (c, w) => !a.ran && okWith (readHeader u a) (fun bs => headerOk bs a) &&
          okWith (readHeader v b) (fun bs => !headerOk bs b) && failed (readHeader w c)
      | _, _, _ => false)),
    (let stays := twoClasses (some 1) [(9, 1)] []
     let passes := twoClasses (some 1) [] []
     let none' := twoClasses (some 3) [] [(1, 0), (3, 0)]
     (match chosen stays, chosen passes, chosen none' with
      | some (a, u), some (b, v), some (c, w) => a.tag = 2 && tget 0 (getDie u 0).deficit 9 = 0 && b.tag = 3 &&
          tget 0 (getDie v 0).deficit 11 = 0 && c.tag = 2 && tget none (getDie w 0).served 2 = some 1
      | _, _, _ => false))] := by decide

/-- A save area that holds a task, one that cannot be read, one that breaks the rules of R415, and a task with an open region. -/
theorem met_SchedulerEventsResumed : met [
    (let lost := idleWith State.reset [{ tag := 1, st := 1, tint := 2, ran := true, save := 0x4010000 }]
     let area := fun s : State => match chosen s with
       | some (r, u) => if r.ran then (match readSave u r {} with | .ok m => some (m, r) | .error _ => none) else none
       | none => none
     (area lost).isNone && (chosen lost).isSome &&
       (match area (savedTask 0 [2]), area (savedTask 0 [0xFF]), area (savedTask (offSpec 1) [1]) with
        | some (m, r), some (n, q), some (o, p) => saveOk m r.gw && !saveOk n q.gw && saveOk o p.gw && !(restore m {} r 1).spec.isOpen &&
            cellN m 0 4 % 16 ≠ 1 && (restore o {} p 1).spec.isOpen
        | _, _, _ => false))] := by decide

/-- The fields of SavedContext: a task whose tables lie within their registers, an accumulator row at the ends of its fields, and a queue
that begins with the operation of code 0. -/
theorem met_SavedContext : met [
    (let t : Task := {
      s := [(63, 1)], b := [(7, 2)], lc := [(3, 3)], a := [(15, 4)], hole := [(15, 5)], eng := [(255, 6)], v := [(63, 7)], ctr := [(31, 8)],
      rsd := [(31, 1), (159, 2)], cwt := [(511, some 0)], loops := [{ lc := 3, s := 0x1F00, e := 0x2010 }, { lc := 0, s := 1, e := 2 }],
      mat := { sh := [(15, 9)] }, regs := { vpins := [(3, 1)], rdvcnt := [(7, 1)] }, slots := { fmt := 0x7DF, next := 2 ^ 64 - 1 } }
     twf 0 t.s && twf 0 t.b && twf 0 t.lc && twf 0 t.a && twf 0 t.hole && twf 0 t.eng && twf 0 t.v && twf 0 t.ctr && twf 0 t.rsd &&
       twf none t.cwt && twf 0 t.mat.sh && twf 0 t.regs.vpins && twf 0 t.regs.rdvcnt && (t.loops.map (·.lc)).Nodup && t.g = 1 && !t.stub),
    (let row : AccRow := { m := [(0, 2 ^ 47 - 1), (255, -(2 ^ 47))], e := -(2 ^ 15) }
     let m : Mat := { acc := [(767, row)] }
     twf 0 (tget {} m.acc 767).m && (tget {} m.acc 0).m = [] && -(2 : Int) ^ 15 ≤ (tget {} m.acc 0).e),
    (let f : VF := { width := 3, form := 3, rnd := 3, imm := 2 ^ 16 - 1, vd := 31, pred := 7, ty := 7 }
     (Instr.ofV 0 0 f {}).isSome && (Instr.ofV 255 0 f {}).isNone)] := by decide

/-- A save area that can be written, with one cell for each of its bytes: their offsets rise. -/
theorem met_SavedContextWritten : met [
    (let s := mapped []
     let s := { s with t := { s.t with me := { s.t.me with save := 0x4010000 }, hdr := { s.t.hdr with spm := 0 } } }
     let offsets := (saveCells s 3 0x4000020).map (·.1)
     Memory.wf s.pkg.mem && noJobs s && okWith (pieces s s.t.me.asid s.t.me.sup s.t.me.save (saveLen s 3) .write) (fun ps => ps.all fun p => p.pg.kind < 2) &&
       (offsets.zip (offsets.drop 1)).all fun p => p.1 < p.2)] := by decide

theorem met_MemoryEvents : met [
    (let s := mapped []
     let u := { s with c := { s.c with l1 := [(0x80020, some {})] }, pkg := { s.pkg with l2 := [(0x80020, some {})] } }
     Memory.wf u.pkg.mem && twf none u.pkg.dirty && (l1Get u 0x80020).isSome && (tget none u.pkg.l2 0x80020).isSome && noJobs u),
    (let s := mapped []
     let host := hostBase
     paKind host = some 2 && tget none s.pkg.l2 (host / 128) = none && (2 : Nat) < 3 &&
       tget none (tset none s.pkg.l2 (host / 128) (some {})) (host / 128) = some {}),
    (let s := mapped []
     let s := { s with pkg := { s.pkg with hdm := [(0, (0, 0x10000000))] } }
     (match hostKind s 0x4001000 64 with | some k => k ≠ 3 | none => false) && (hostKind s 0x10000000 64).isNone && !s.pkg.minimal && !sealedPage s 0x4001000 &&
       (let v := { s with pkg := { s.pkg with versions := [(0, { st := 2, pages := [0x400] })] } }
        sealedPage v 0x4001000)),
    (15 : Nat) < 16, { (mapped []).pkg with tickWanted := true }.tickWanted, 2 ^ 23 - 1 < (2 : Nat) ^ 23, !granulePoisoned (task []) 0x10FF,
    (1 : Nat) ≤ 5,
    (let s := mapped []
     let u := { s with c := { s.c with l1 := [(0x80020, some {})] }, pkg := { s.pkg with l2 := [(0x80020, some {})], minimal := true, poison := [(0x4001000, 128, 5)] } }
     (l1Get u (0x4001078 / 128)).isSome && u.pkg.minimal && 2 ^ 18 - 8 < (2 : Nat) ^ 18 && holdsByte u 4 0x4001000 && holdsByte u 5 0x4001000 &&
       u.pkg.poison.all fun g => g.1 % 128 + g.2.1 ≤ 128)] := by decide

/-- An arrived packet for node 7, within the package's window; `s` serves the node. -/
def arrived (p : Packet) : State :=
  let s := mapped []
  { s with arg := .packet p, pkg := { s.pkg with nodeid := 0x1007, fwinbase := 0x4001000, fwinlen := 0x1000 } }

/-- Core 0's entry 31 holds this job of the task, over these bytes at 0x4001000. -/
def jobbed (j : Job) (bs : List Byte) : State :=
  let s := holding bs []
  { s with c := { s.c with jobs := [(31, { j with used := true, tag := 1, priv := true, spm := 2 ^ 23 })] }, arg := .job 0 31 }
/-- Reads and writes may go to 4 KiB at 0x4001000 and 4 KiB of the scratchpad, or at 0x4002000 and there. -/
def footprints : List (Nat × Word) := [
  (4, 0x4001000), (5, 0x1000), (6, 0x100000000000000), (7, 0x1000), (8, 0x4002000), (9, 0x1000), (10, 0x100000000000000), (11, 0x1000)]
/-- A PUT of 8 bytes from 0x4001000 to node 9 at offset 0xFFC, by package 3 on fibre 31. -/
def putting (st : Nat) (route : Option (Nat × Nat)) : State :=
  let s := jobbed { eng := 7, st, route, par := [(0, 0x4001000), (1, 0x80480000000FFC)] ++ footprints ++ [(13, 8)] } (leBytes 8 1)
  { s with pkg := { s.pkg with circuit := [(31, some (3, 0))] } }

theorem met_JobEvents : met [
    (let s := mapped []
     let j : Job := { used := true, eng := 3, tag := 1, par := [(2, 0x1000), (12, 0x4001000), (13, 128), (14, 1)] }
     let u := { s with c := { s.c with jobs := [(31, j)] }, arg := .job 0 31 }
     jobReady u 0 31 && okWith (jobRegion u j) fun ps => (ps.all fun p => p.pg.kind < 2) && refusedPage j ps = none),
    (let k : Job := { used := true, st := 2 }
     let s := mapped []
     let u := { s with c := { s.c with jobs := [(1, k)] } }
     jobResumable u 0 1),
    canEnd { used := true, st := 2, stopping := some 3 },
    armDue { used := true, st := 2, eng := 7, armed := true, fired := true, par := [(12, 3)] } && ({} : Job).route.isNone,
    (let s := mapped []
     let u := { s with c := { s.c with jobs := [(31, { used := true, st := 2, eng := 7, seq := 9 })] } }
     respJob u { jobEntry := 31, jobSeq := 9 } = some (0, 31)),
    ([0, 1, 2, 4, 7] : List Nat).all fun eng => jobReady (jobbed { eng } []) 0 31 && !isArmput { eng, par := [(12, 3)] } = (eng ≠ 7),
    (jobReady (putting 0 none) 0 31 && (getJob (putting 0 none) 0 31).route.isNone),
    (let s := jobbed { eng := 7, st := 2, armed := true, fired := true, par := [(12, 3)], route := some (31, 3), tg := 5 } []
     let u := { s with pkg := { s.pkg with fibgen := [(31, 6)] } }
     armDue (getJob s 0 31) && !genAfter (fibGen s 31) 5 && genAfter (fibGen u 31) 5),
    (let s := putting 2 (some (31, 3))
     let j := getJob s 0 31
     let p := (portPackets s j 0 31).headD {}
     let k := { j with armed := false, unsent := portPackets s j 0 31 }
     let u := setJob s 0 31 k
     j.resend = [] && j.stopping.isNone && !genAfter (fibGen s 31) j.tg && !circuitMisses s 31 3 && !fibreBlocked s 0 31 j.tint && 0 < portLen j &&
       portTurn u 0 31 && !payloadWithheld u k p && !stalled s 31 p.vc && p.kind = 1 && p.len = 4 &&
       (match jobRead u k (parSpm (portNear j)) (parAddr (portNear j) : Nat) p.len with | .ok _ => true | .error _ => false))] := by decide

/-- Jobs whose unit reads and writes what their footprints hold: a COPY, a GATHER and a SCATTER with an index in and out of bounds, and one
whose index is known; a record of TRAJ and its publication. -/
theorem met_JobTransfers : met [
    (let j : Job := { par := footprints, priv := true, spm := 2 ^ 23 }
     let s := jobbed j []
     let ok := fun r : Except JErr (List Piece) => match r with | .ok ps => softCheck s 0x4001FF0 ps = none | .error _ => false
     ok (jobCheck s j jobKinds 0x4001FF0 16 .read) && ok (jobCheck s j jobKinds 0x4002FF0 16 .write) && Memory.wf s.pkg.mem && noJobs (mapped []) &&
       coveredBy (readFp j) false 3 0x4001FF0 16 && coveredBy (writeFp j) false 3 0x4002FF0 16 && coveredBy (readFp j) true 3 0xFF0 16 &&
       coveredBy (writeFp j) true 3 0xFF0 16 && !jobSpmBad j 0xFF0 16 && !jobSpmPoison s j 0xFF0 16),
    (let run := fun (eng : Nat) (ps : List (Nat × Word)) (idx : Option (Nat × Nat)) =>
       let s := jobbed { eng, st := 2, idx, par := [(0, 0x4001000), (1, 0x4002000)] ++ footprints ++ ps } (leBytes 8 5)
       let j := getJob s 0 31
       !ringGone s j && j.pos < jobTotal j && !jobPaused s j && !jobHen j &&
         (match nextUnit s j with
          | .ok (u, v) => 0 < u.n && (match unitBytes v j u with
            | .ok (bs, w) => bs = [] || (match jobWrite w j false (unitSpm j) u.dst bs jobKinds none with | .ok _ => true | .error _ => false)
            | .error _ => false)
          | .error _ => false)
     run 0 [(12, 16), (13, 0x100000001)] none && [1, 2].all fun eng =>
       run eng [(12, 0x4001000), (13, 2), (14, 8), (15, 8), (16, 6)] none && run eng [(12, 0x4001000), (13, 2), (14, 8), (15, 8), (16, 5)] none &&
         run eng [(12, 0x4001000), (13, 2), (14, 8), (15, 8), (16, 6)] (some (0, 5))),
    (let j : Job := { eng := 4, st := 2, par := [(0, 0x100000000000000)] ++ footprints ++ [(12, 0x4002000), (13, 4), (14, 0x4002FF8), (15, 1), (16, 3)] }
     let s := jobbed j []
     let k := getJob s 0 31
     !jobPaused s k && k.pos < 1 && (match jobRead s k true (0 : Nat) 32 with
       | .ok (bs, u) => bs.length = 32 && (match jobWrite u k false false (0x4002060 : Nat) bs [0, 2] none with | .ok _ => true | .error _ => false)
       | .error _ => false) &&
       (match jobWrite (tickEpoch s) k false false (0x4002FF8 : Nat) (leBytes 8 4) jobKinds (some { tag := 1, core := 0, pkg := s.pkg.number, scope := 3 }) with
        | .ok _ => true
        | .error _ => false))] := by decide

/-- A job of core 0 in flight with these packets. -/
def inFlight (stopping : Option Nat) (fl : List InFlight) : State :=
  let s := jobbed { eng := 7, st := 2, seq := 9, stopping, flight := fl, par := [(0, 0x80480000000000), (1, 0x4002000)] ++ footprints ++ [(12, 2), (13, 8)] } []
  { s with arg := .packet { jobEntry := 31, jobSeq := 9, payload := leBytes 8 1 } }

theorem met_ResponseEvents : met [
    (let s := mapped []
     let u := { s with pkg := { s.pkg with replay := [(31, { flit := 17 * 8, vc := 1, count := 1 })], circuit := [(31, some (3, 0))] } }
     mustHold u { vc := 1, srcPkg := 3, seq := 9 } && !mustHold u { vc := 1, srcPkg := 3, seq := 8 } && s.pkg.replay = [] && s.pkg.reseq = []),
    (let s := inFlight none [{ pkt := { len := 8 } }]
     let p : Packet := { jobEntry := 31, jobSeq := 9, payload := leBytes 8 1 }
     let j := getJob s 0 31
     let far := { s with c := { s.c with jobs := [(31, { j with par := [(1, 0x4003000)] ++ footprints ++ [(12, 2)] })] } }
     let write := fun s : State => jobWrite s (getJob s 0 31) false (parSpm (portNear (getJob s 0 31))) (parAddr (portNear (getJob s 0 31)) : Nat) p.payload jobKinds none
     respJob s p = some (0, 31) && respJob s { p with jobEntry := 30 } = none && !accessesOver j && farOff j = 0 &&
       (match write s, write far with | .ok _, .error _ => true | _, _ => false)),
    accessesOver { stopping := some 5 } && accessesOver { stopping := some 7 } && !accessesOver { stopping := some 4 } && !accessesOver { stopping := some 8 },
    (let x : InFlight := { pkt := { node := 9, len := 8 } }
     let s := inFlight none [x]
     let go := { s with pkg := { s.pkg with fwd := [(9, 0x80001F0000030000)], circuit := [(31, some (3, 0))] } }
     let f := routeOf go 9
     routeOf s 9 = none && f.isSome && f = some (31, 3) && !circuitMisses go 31 3 && !fibreBlocked go 0 31 0 && !stalled go 31 0 &&
       (getJob s 0 31).resend = [] && { x with moved := true }.moved && (getJob (inFlight (some 4) [x]) 0 31).stopping.isSome)] := by decide

theorem met_ArrivalEvents : met [
    (let s := arrived { node := 7, off := 0xFF8, len := 8, payload := leBytes 8 1 }
     let p : Packet := { node := 7, off := 0xFF8, len := 8, payload := leBytes 8 1 }
     fibreShut s (fibreTo s p.srcPkg) = false && !stalled s (fibreTo s p.srcPkg) 1 && s.pkg.held = [] && stalled { s with pkg := { s.pkg with stall := [(8 * 0 + 1, 1)] } } 0 1 &&
     !servesNode s 6 && servesNode s 7 && (match windowPieces s p .write with
       | .ok ps => p.payload.length = p.len && noJobs s && !(p.ren && p.last) && (regionOf s ps true).isNone && (regionOf s ps false).isNone &&
          ps.all (fun q => q.pg.pa % 4 = 0 && poisoned s q.pg.pa q.len = none)
       | .error _ => false)),
    (let s := arrived { node := 7, off := 0xFFA, len := 4 }
     (match windowPieces s { node := 7, off := 0xFFA, len := 4 } .write with | .ok ps => ps.any (fun q => q.pg.pa % 4 ≠ 0) | .error _ => false)),
    (let s := arrived {}
     let u := { s with pkg := { s.pkg with poison := [(0x4001FF8, 8, 4)] } }
     (match windowPieces s { off := 0xFF9, len := 8 } .read with | .error r => r = 3 | .ok _ => false) &&
       (match windowPieces u { off := 0xFF8, len := 8 } .read with | .ok ps => ps.any (fun q => (poisoned u q.pg.pa q.len).isSome) | .error _ => false)),
    (let j : Job := { used := true, st := 2, eng := 6, armed := true, ranges := [(0x4001000, 256)], par := [(13, 256), (15, 128)] }
     let s := arrived {}
     let u := { s with c := { s.c with jobs := [(0, j)] } }
     (match windowPieces u { off := 0, len := 8 } .write with
      | .ok ps => regionOf u ps true = some (0, 0) && !inData j { off := 0, len := 8 } ps
      | .error _ => false)),
    (let s := arrived {}
     let h := { s with pkg := { s.pkg with held := [{ vc := 1, tgtPkg := 3 }, { vc := 4 }] } }
     h.pkg.held.all (fun q => q.tgtPkg ≠ 0 || q.vc ≠ 1) && h.pkg.held.any (fun q => q.tgtPkg = 3 && q.vc = 1)),
    (let s := arrived {}
     let r : Packet := { node := 7, ren := true, last := true, first := true }
     let u := { s with pkg := { s.pkg with replay := [(0, { flit := 0, vc := 2, count := 1 })] } }
     (r.ren && r.last) && r.first && jobTag { r with first := false } ∉ s.pkg.spoilt && mustHold u { node := 7, vc := 2, seq := 1 })] := by decide

/-- PUTADDs of whole elements outside a region, f32 and bf16, of bytes that lie misaligned and that are poisoned, at a region that has ended,
and at a region without a reduction tag: open, closed, and where the packet lies beside its data. -/
theorem met_PutAdds : met [
    (let s := arrived {}
     let at' := fun (off : Nat) (fmt : Nat) (ok : State → List Piece → Bool) =>
       match windowPieces s { node := 7, off, len := 8, addfmt := fmt } .write with | .ok ps => ok s ps | .error _ => false
     let whole := fun (z : Nat) (ps : List Piece) => (List.range 8).all fun k => pieceAt ps k = pieceAt ps (k / z * z) + k % z
     at' 0xFF8 0 (fun s ps => whole 4 ps && ps.all (fun q => q.pg.pa % 4 = 0 && (poisoned s q.pg.pa q.len).isNone) && (regionOf s ps true).isNone &&
         (regionOf s ps false).isNone && noJobs s && Memory.wf s.pkg.mem) &&
       at' 0xFF6 1 (fun s ps => whole 2 ps && ps.all (fun q => q.pg.pa % 2 = 0) && !(ps.all fun q => q.pg.pa % 4 = 0) && noJobs s &&
         (let lane := fun k => 32 * adderUnit (pieceAt ps (2 * k)) + pieceAt ps (2 * k) % 128 / 4
          lane 0 ≠ lane 1 && lane 1 = lane 2)) &&
       at' 0xFF7 1 (fun _ ps => ps.any fun q => q.pg.pa % 2 ≠ 0) &&
       at' 0xFF8 0 (fun s ps => ps.any fun q => (poisoned { s with pkg := { s.pkg with poison := [(0x4001FF8, 8, 5)] } } q.pg.pa q.len).isSome)),
    (let j : Job := { used := true, st := 2, eng := 6, armed := true, ranges := [(0x4001000, 256)], par := [(13, 256), (15, 128)] }
     let with' := fun (j : Job) (state : Nat) => (let s := arrived {}
       pokeBytes { s with c := { s.c with jobs := [(0, j)] } } true 0x4001000 (leBytes 4 state) : State)
     let p : Packet := { node := 7, off := 248, len := 8 }
     let s := with' j 2
     (match windowPieces s p .write with
      | .ok ps => regionOf s ps true = some (0, 0) && inData j p ps && !inData j { p with off := 252 } ps = false && nmGet s j 0 4 ≤ 2 &&
          2 < nmGet (with' j 3) j 0 4 && p.dom = 0 && ((List.range 8).all fun k => nmBase j + 128 ≤ pieceAt ps k) &&
          (let e := with' { j with st := 3, armed := false } 3
           (regionOf e ps true).isNone && (regionOf e ps false).isSome)
      | .error _ => false) && (match windowPieces s { p with off := 0 } .write with | .ok ps => !inData j { p with off := 0 } ps | .error _ => false))] := by decide

/-- A domain of fabric level whose one member is tag 2, as domain 5. -/
def fabric : State :=
  let s := mapped []
  { s with pkg := { s.pkg with domains := [(5, some { level := 4, members := [(0, 2, false)] })] } }

/-- A reduction region of domain 5, bound, with members 0 and 1 and a share of 8 bytes, member 0's acknowledged. -/
def bound (state : Nat) : State :=
  let s := pokeBytes (mapped []) true 0x4001000 (leBytes 4 state ++ leBytes 2 5 ++ leBytes 2 0 ++ leBytes 8 3 ++ leBytes 24 0 ++ leBytes 4 8)
  { s with
    c := { s.c with jobs := [(0, { used := true, st := 2, eng := 6, armed := true, ranges := [(0x4001000, 256)], par := [(15, 128)], acked := [(0, 8)] })] },
    arg := .notice { dom := 5, gen := 1, member := 1, live := 1 } }
/-- The entry of domain 5 is at package 2; tag 2 is a member, and this task asks. -/
def elsewhere (asks : List (Nat × Option (Option Nat))) (arrived : List Nat) : State :=
  let s := mapped []
  let r : TaskRec := { tag := 2, st := 3, susp := 3, awaits := some 5 }
  { s with pkg := { s.pkg with
    domains := [(5, some { level := 4, home := some 2, members := [(0, 2, false)], asks, arrived })], tasks := [(2, some r)] } }

theorem met_NoticeEvents : met [
    (matchStaged (mapped []) {}).isNone,
    (match matchStaged (staged [] []) { handle := 63, version := 5, wlen := 1 } with | some (i, _) => i = 0 | none => false),
    (let b : Publish := { handle := 1, version := 5, waiting := [7, 8] }
     let last : Publish := { b with waiting := [7] }
     ([b].find? fun b => decide (b.handle = 1) && decide (b.version = 5) && b.waiting.contains 7) = some b && b.waiting.erase 7 ≠ [] &&
       last.waiting.erase 7 = [] && [last].contains last),
    (match fabricDom fabric 5 with | some x => x.has 2 && !x.has 3 && !domFull x | none => false), (fabricDom fabric 6).isNone && getDom fabric 6 = none && (match fabricDom fabric 5 with | some x => x.home.isNone && x.phase.toNat = 0 | none => false),
    (match matchStaged (staged [] []) { handle := 63, version := 5, wlen := 1 } with
     | some (_, ws, ss) => (ws ++ ss).Nodup && ws ++ ss ≠ [] && noJobs (staged [] []) && twf 0 [((65535 : Nat), (1 : Byte))]
     | none => false),
    (let b : Publish := { handle := 1, version := 5, waiting := [7], cen := true }
     let s := mapped []
     b.cen && !({ b with cen := false }).cen && noJobs s &&
       (match pieces s 0 true (0x4001000 + 8) 8 .write with
        | .ok ps => (List.range 8).all fun i => (List.range 8).all fun k => pieceAt ps i ≠ pieceAt ps k || i = k
        | .error _ => false)),
    (let s := bound 2
     let j := getJob s 0 0
     liveJobs s = [(0, 0, j)] && j.eng = 6 && j.armed && Memory.wf s.pkg.mem && nmGet s j 0 4 = 2 && nmGet s j 4 2 = 5 && nmGet s j 8 8 = 3 &&
       nmGet s j 40 4 = 8 && (3 : Nat).testBit 1 && tget 0 j.acked 1 ≠ 8 && tget 0 j.acked 0 = 8)] := by decide

/-- At the entry: a join, a leave and an arrival, each with the last of its cases; a member that waits; elsewhere: what the entry answers a task
that asked and one that did not, a completion of this phase and of another; a new entry. -/
theorem met_BarrierNotices : met [
    (let s := fabric
     let two := { s with pkg := { s.pkg with domains := [(5, some { level := 4, members := [(0, 2, false), (1, 3, false)], arrived := [3] })] } }
     (match fabricDom s 5, fabricDom two 5 with
      | some x, some y => x.home.isNone && !x.has 3 && !domFull x && x.has 2 && (x.members.filter fun m => m.2.1 ≠ 2) = [] && x.asks = [] &&
          (y.members.filter fun m => m.2.1 ≠ 2) ≠ [] && (y.members.all fun m => (y.arrived ++ [2]).contains m.2.1) &&
          !(y.members.all fun m => (y.arrived ++ [3]).contains m.2.1)
      | _, _ => false)),
    (let s := elsewhere [(2, none), (4, some (some 1))] [2]
     (match fabricDom s 5, getTask s 2 with
      | some x, some r => x.home = some 2 && x.has 2 && !x.has 3 && x.phase.toNat = 0 && x.arrived.contains 2 && r.awaits = some 5 && r.susp = 3 &&
          r.st = 3 && (x.asks.any fun a => a.1 = 2 && a.2 = none) && noJobs s && (s.pkg.tasks.all fun e => match e.2 with | some r => r.tag = e.1 | none => true)
      | _, _ => false)),
    (0 : Nat) < 1023 && (1023 : Nat) < 1024 && getDom (mapped []) 1023 = none && (fabricDom (mapped []) 1023).isNone] := by decide

theorem met_LinkAndPackageEvents : met [
    (([{ fibre := 0 }, { fibre := 31, peer := some (1, 2) }] : List Circuit).map (·.fibre)).Nodup, ({ core := 0 } : Ocset).answer.isNone,
    (31 : Nat) < 32 && (7 : Nat) < 8,
    (let s := mapped []
     let x := getLane s 255
     !x.out && 0x8000 ≤ s.pkg.laneLimit.toNat % 2 ^ 32 && s.pkg.laneLimit.toNat % 2 ^ 32 < 0x8001 && { x with out := true }.out && !x.cut &&
       0x800 ≤ s.pkg.laneLimit.toNat / 2 ^ 32 && { x with cut := true }.cut),
    (let s := mapped []
     let n := (tget {} s.pkg.replay (32 * 5 + 31)).count
     n < 8 && 8 ≤ (tget {} (tset {} s.pkg.replay (32 * 5 + 31) { count := 8 }) (32 * 5 + 31)).count),
    (let s := { mapped [] with pkg := { (mapped []).pkg with portDown := [31] } }
     s.pkg.portDown.contains 31 && 4 ≤ inService s 31 && !s.pkg.minimal),
    bootFault 0 { romOk := false } ≠ 0 && bootFault 0 {} = 0 && ({} : Boot).envelope.isNone && ({} : Boot).image = [],
    { (mapped []).pkg with bootCount := 3 }.bootCount = 3 && (mapped []).pkg.bootCount < 3 && (2 : Nat) < 3,
    { (mapped []).pkg with bootWatch := true, bootCount := 2 }.bootWatch,
    { (mapped []).pkg with minimal := true }.minimal && (mapped []).pkg.minSecver ≤ 0,
    (let x : Lane := { win := 5, out := true }
     let back := (mapped []).pkg.laneLimit.toNat / 2 ^ 32
     x.win + (back - 5) ≤ back && back < x.win + (back - 4) && x.out && !x.cut),
    (let s := mapped []
     let some' := { s with pkg := { s.pkg with bootWatch := true, bootCount := 1 } }
     some'.pkg.bootWatch && some'.pkg.bootCount < 2 && bootFault some'.pkg.minSecver { romOk := false } ≠ 0 && bootFault some'.pkg.minSecver {} = 0 &&
       Memory.wf s.pkg.mem && [Instr.warmReset, .mailboxReset].length = 2)] := by decide
end

section
/-! SUPPORT. The loop end rule (R87) as equations of `loopEnd` and `pastItem`, and NOP (R90), which runs that rule and nothing else. -/

namespace Sys2Proof.Machine

/-! ## The loop end rule over the active loops -/

@[simp] theorem loopEnd_nil (next : Word) (lc : Tbl (BitVec 32)) : loopEnd next [] lc = ([], lc, next) := rfl

theorem loopEnd_cons_of_ne {next : Word} {l : LoopRec} (rest : List LoopRec) (lc : Tbl (BitVec 32)) (h : l.e ≠ next) :
    loopEnd next (l :: rest) lc = (l :: (loopEnd next rest lc).1, (loopEnd next rest lc).2) := by
  rw [loopEnd, if_neg h]

theorem loopEnd_cons_again {next : Word} {l : LoopRec} (rest : List LoopRec) {lc : Tbl (BitVec 32)} (h : l.e = next)
    (hn : tget 0 lc l.lc - 1 ≠ 0) :
    loopEnd next (l :: rest) lc = (l :: rest, tset 0 lc l.lc (tget 0 lc l.lc - 1), l.s) := by
  simp only [loopEnd, if_pos h, if_pos hn]

theorem loopEnd_cons_ends {next : Word} {l : LoopRec} (rest : List LoopRec) {lc : Tbl (BitVec 32)} (h : l.e = next)
    (hn : tget 0 lc l.lc - 1 = 0) : loopEnd next (l :: rest) lc = loopEnd next rest (tset 0 lc l.lc 0) := by
  simp only [loopEnd, if_pos h, hn, ne_eq, not_true_eq_false, if_false]

/-- The rule passes over the loops that end elsewhere and leaves them active. -/
theorem loopEnd_append_of_ne {next : Word} {pre : List LoopRec} (ls : List LoopRec) (lc : Tbl (BitVec 32))
    (h : ∀ x ∈ pre, x.e ≠ next) : loopEnd next (pre ++ ls) lc = (pre ++ (loopEnd next ls lc).1, (loopEnd next ls lc).2) := by
  induction pre with
  | nil => rfl
  | cons x pre ih =>
    obtain ⟨hx, hpre⟩ := List.forall_mem_cons.mp h
    rw [List.cons_append, loopEnd_cons_of_ne _ _ hx, ih hpre, List.cons_append]

theorem loopEnd_of_noEnd {next : Word} {ls : List LoopRec} (lc : Tbl (BitVec 32)) (h : ∀ l ∈ ls, l.e ≠ next) :
    loopEnd next ls lc = (ls, lc, next) := by
  simpa using loopEnd_append_of_ne [] lc h

/-- A loop that ends is as if it had not been active, its counter at 0: the rule goes on with the loops that are left. -/
theorem loopEnd_append_ends {next : Word} {pre : List LoopRec} {l : LoopRec} (rest : List LoopRec) {lc : Tbl (BitVec 32)}
    (hpre : ∀ x ∈ pre, x.e ≠ next) (h : l.e = next) (hn : tget 0 lc l.lc - 1 = 0) :
    loopEnd next (pre ++ l :: rest) lc = loopEnd next (pre ++ rest) (tset 0 lc l.lc 0) := by
  rw [loopEnd_append_of_ne _ _ hpre, loopEnd_append_of_ne _ _ hpre, loopEnd_cons_ends rest h hn]

/-! ## Moving past an item -/

/-- In trap mode the PC moves on and no loop ends (R458). -/
theorem pastItem_of_trap {s : State} (n : Nat) (h : s.c.trap = true) :
    pastItem s n = { s with t := { s.t with pc := s.t.pc + BitVec.ofNat 64 n } } := by
  simp [pastItem, h]

/-- Outside trap mode the loop end rule gives the loops, the counters and the PC, with active loops or without. -/
theorem pastItem_of_noTrap {s : State} (n : Nat) (h : s.c.trap = false) :
    pastItem s n =
      let r := loopEnd (s.t.pc + BitVec.ofNat 64 n) s.t.loops s.t.lc
      { s with t := { s.t with loops := r.1, lc := r.2.1, pc := r.2.2 } } := by
  cases hl : s.t.loops with
  | nil => simp [pastItem, hl]
  | cons l rest => simp [pastItem, h, hl]

theorem pastItem_of_noEnd {s : State} (n : Nat) (h : ∀ l ∈ s.t.loops, l.e ≠ s.t.pc + BitVec.ofNat 64 n) :
    pastItem s n = { s with t := { s.t with pc := s.t.pc + BitVec.ofNat 64 n } } := by
  cases ht : s.c.trap with
  | true => exact pastItem_of_trap n ht
  | false => rw [pastItem_of_noTrap n ht, loopEnd_of_noEnd _ h]

section AtTheEndOfALoop
variable {s : State} {n : Nat} {pre rest : List LoopRec} {l : LoopRec} (ht : s.c.trap = false) (hs : s.t.loops = pre ++ l :: rest)
  (hpre : ∀ x ∈ pre, x.e ≠ s.t.pc + BitVec.ofNat 64 n) (hl : l.e = s.t.pc + BitVec.ofNat 64 n)
include ht hs hpre hl

/-- The body runs again: the loops stay as they are, the inner ones too. -/
theorem pastItem_again (hn : tget 0 s.t.lc l.lc - 1 ≠ 0) :
    pastItem s n = { s with t := { s.t with pc := l.s, lc := tset 0 s.t.lc l.lc (tget 0 s.t.lc l.lc - 1) } } := by
  rw [pastItem_of_noTrap n ht, hs, loopEnd_append_of_ne _ _ hpre, loopEnd_cons_again rest hl hn, ← hs]

theorem pastItem_ends (hn : tget 0 s.t.lc l.lc - 1 = 0) :
    pastItem s n = pastItem { s with t := { s.t with loops := pre ++ rest, lc := tset 0 s.t.lc l.lc 0 } } n := by
  rw [pastItem_of_noTrap n ht, pastItem_of_noTrap n (by exact ht), hs, loopEnd_append_ends rest hpre hl hn]

end AtTheEndOfALoop

/-! ## NOP -/

theorem exec_nop (s : State) : exec .nop s = .next (pastItem s 4) := rfl

/-- Settles O15: NOP is `pastItem` of its 4 bytes, whose three outcomes are the clauses. -/
theorem loopEndRule : Obligations.LoopEndRule := by
  intro s
  have run {t : State} (h : pastItem s 4 = t) : exec .nop s = .next t := (exec_nop s).trans (congrArg _ h)
  refine ⟨fun h => ?_, fun ht pre l rest hs hpre hl => ⟨fun hn => ?_, fun hn => ?_⟩⟩
  · obtain ht | hne := h
    · exact run (pastItem_of_trap 4 ht)
    · exact run (pastItem_of_noEnd 4 hne)
  · exact run (pastItem_again ht hs hpre hl hn)
  · rw [exec_nop, exec_nop, pastItem_ends ht hs hpre hl hn]

end Sys2Proof.Machine
end

section
/-! SUPPORT. The integer words of majors 0x01 and 0x02: each gives a function of its operands, and what that function is: the quotients and
remainders (R142), the counts and the reversed bytes (R144), the fields (R145) and the running average (R148). -/

namespace Sys2Proof.Machine

/-! ## A word that writes one scalar register -/

theorem givesS_of_done {i : Instr} {s : State} {rd : Nat} {v : Word} (h : exec i s = done (setS s rd v)) : GivesS i s rd v :=
  ⟨_, h, completes_setS s rd v⟩

section
variable (s : State) (rd ra rb : Nat)

theorem div_gives : GivesS (.div rd ra rb) s rd (divS (getS s ra) (getS s rb)) := givesS_of_done rfl
theorem rem_gives : GivesS (.rem rd ra rb) s rd (remS (getS s ra) (getS s rb)) := givesS_of_done rfl
theorem divn_gives : GivesS (.divn rd ra rb) s rd (divU (getS s ra) (getS s rb)) := givesS_of_done rfl
theorem remn_gives : GivesS (.remn rd ra rb) s rd (remU (getS s ra) (getS s rb)) := givesS_of_done rfl
theorem clz_gives : GivesS (.clz rd ra) s rd (clz64 (getS s ra)) := givesS_of_done rfl
theorem ctz_gives : GivesS (.ctz rd ra) s rd (BitVec.ofNat 64 (ctzFrom (getS s ra) 64 0)) := givesS_of_done rfl
theorem popc_gives : GivesS (.popc rd ra) s rd (BitVec.ofNat 64 (popCount 64 (getS s ra).toNat)) := givesS_of_done rfl
theorem bswap_gives : GivesS (.bswap rd ra) s rd (bswap64 (getS s ra)) := givesS_of_done rfl
theorem bext_gives : GivesS (.bext rd ra rb) s rd (bext64 (getS s ra) (getS s rb)) := givesS_of_done rfl
theorem bins_gives : GivesS (.bins rd ra rb) s rd (bins64 (getS s rd) (getS s ra) (getS s rb)) := givesS_of_done rfl
theorem sewma_gives : GivesS (.sewma rd ra rb) s rd (sewma (getS s rd) (getS s ra) (getS s rb)) := givesS_of_done rfl

end

/-! ## Division and remainder (R142) -/

section
variable (a : Word) {b : Word} (hb : b = 0)
include hb

theorem divS_of_zero : divS a b = 0xFFFFFFFFFFFFFFFF := if_pos hb
theorem divU_of_zero : divU a b = 0xFFFFFFFFFFFFFFFF := if_pos hb
theorem remS_of_zero : remS a b = a := if_pos hb
theorem remU_of_zero : remU a b = a := if_pos hb

end

/-- The wrapped quotient is the library's signed division, overflow included. -/
theorem divS_eq_sdiv (a : Word) {b : Word} (hb : b ≠ 0) : divS a b = a.sdiv b := by
  apply BitVec.eq_of_toInt_eq
  rw [divS, if_neg hb, BitVec.toInt_ofInt, BitVec.toInt_sdiv]

/-- The remainder is the library's for a zero divisor too. -/
theorem remS_eq_srem (a b : Word) : remS a b = a.srem b := by
  by_cases hb : b = 0
  · subst hb
    exact (remS_of_zero a rfl).trans BitVec.srem_zero.symm
  · rw [remS, if_neg hb, ← BitVec.toInt_srem, BitVec.ofInt_toInt]

theorem toNat_divU (a : Word) {b : Word} (hb : b ≠ 0) : (divU a b).toNat = a.toNat / b.toNat := by
  have hlt : a.toNat / b.toNat < 2 ^ 64 := (Nat.div_le_self _ _).trans_lt a.isLt
  rw [divU, if_neg hb, BitVec.toNat_ofNat, Nat.mod_eq_of_lt hlt]

theorem toNat_remU (a : Word) {b : Word} (hb : b ≠ 0) : (remU a b).toNat = a.toNat - a.toNat / b.toNat * b.toNat := by
  have hlt : a.toNat % b.toNat < 2 ^ 64 := (Nat.mod_le _ _).trans_lt a.isLt
  rw [remU, if_neg hb, BitVec.toNat_ofNat, Nat.mod_eq_of_lt hlt, Nat.mod_eq_sub_div_mul]

/-- Signed overflow is the division of the least word by -1. -/
theorem overflow_iff (a b : Word) : a.toInt = -(2 ^ 63) ∧ b.toInt = -1 ↔ a = BitVec.intMin 64 ∧ b = -1#64 := by
  rw [← BitVec.toInt_inj, ← BitVec.toInt_inj (x := b)]
  rfl

theorem toInt_divS {a b : Word} (hb : b ≠ 0) (h : ¬(a.toInt = -(2 ^ 63) ∧ b.toInt = -1)) :
    (divS a b).toInt = a.toInt.tdiv b.toInt := by
  rw [overflow_iff, not_and_or] at h
  rw [divS_eq_sdiv a hb, BitVec.toInt_sdiv_of_ne_or_ne a b h]

theorem toInt_remS (a b : Word) : (remS a b).toInt = a.toInt - a.toInt.tdiv b.toInt * b.toInt := by
  rw [remS_eq_srem, BitVec.toInt_srem, Int.tmod_def, Int.mul_comm]

/-- Settles O8: the words give `divS`, `remS`, `divU` and `remU`, which are the library's divisions but for the rule's table. -/
theorem divisionAndRemainder : Obligations.DivisionAndRemainder := by
  intro s rd ra rb a b overflow
  refine ⟨fun hb => ?_, fun ho => ?_, fun hb ho => ?_, fun hb => ?_⟩
  · exact ⟨divS_of_zero a hb ▸ div_gives s rd ra rb, remS_of_zero a hb ▸ rem_gives s rd ra rb,
      divU_of_zero a hb ▸ divn_gives s rd ra rb, remU_of_zero a hb ▸ remn_gives s rd ra rb⟩
  · obtain ⟨ha, hb⟩ := (overflow_iff _ _).mp ho
    have hdiv : divS a b = 0x8000000000000000 := by rw [ha, hb]; decide
    have hrem : remS a b = 0 := by rw [ha, hb]; decide
    exact ⟨hdiv ▸ div_gives s rd ra rb, hrem ▸ rem_gives s rd ra rb⟩
  · exact ⟨⟨_, div_gives s rd ra rb, toInt_divS hb ho⟩, ⟨_, rem_gives s rd ra rb, toInt_remS a b⟩⟩
  · exact ⟨⟨_, divn_gives s rd ra rb, toNat_divU a hb⟩, ⟨_, remn_gives s rd ra rb, toNat_remU a hb⟩⟩

/-! ## Counts of bits (R144) -/

theorem bitlen_le_iff (n k : Nat) : bitlen n ≤ k ↔ n < 2 ^ k := by
  unfold bitlen
  split
  · next h => simp [h]
  · next h => rw [Nat.succ_le_iff, Nat.log2_lt h]

theorem testBit_of_bitlen_le {n i : Nat} (h : bitlen n ≤ i) : n.testBit i = false :=
  Nat.testBit_lt_two_pow ((bitlen_le_iff n i).mp h)

theorem testBit_bitlen_sub_one {n : Nat} (h : 0 < bitlen n) : n.testBit (bitlen n - 1) = true := by
  have hn : n ≠ 0 := by
    rintro rfl
    exact absurd h (by decide)
  rw [bitlen, if_neg hn, Nat.add_sub_cancel]
  exact Nat.testBit_log2 hn

theorem toNat_clz64 (a : Word) : (clz64 a).toNat = 64 - bitlen a.toNat := by
  rw [clz64, BitVec.toNat_ofNat]
  omega

/-- As many zeros above the highest 1 as `clz64` says. -/
theorem clz64_spec (a : Word) :
    (clz64 a).toNat ≤ 64 ∧ (∀ i, i < 64 → 64 - (clz64 a).toNat ≤ i → a.getLsbD i = false) ∧
      ((clz64 a).toNat < 64 → a.getLsbD (63 - (clz64 a).toNat) = true) := by
  have hlen : bitlen a.toNat ≤ 64 := (bitlen_le_iff _ 64).mpr a.isLt
  rw [toNat_clz64]
  refine ⟨by omega, fun i _ hi => testBit_of_bitlen_le (by omega), fun h => ?_⟩
  have htop : 63 - (64 - bitlen a.toNat) = bitlen a.toNat - 1 := by omega
  rw [htop]
  exact testBit_bitlen_sub_one (by omega)

/-- What the search for the lowest 1 finds among the `n` bits from bit `k` on: only zeros before its answer, and a 1 at it if it is
one of these bits. -/
theorem ctzFrom_spec (a : Word) (n k : Nat) :
    ctzFrom a n k ≤ k + n ∧ (∀ i, k ≤ i → i < ctzFrom a n k → a.getLsbD i = false) ∧
      (ctzFrom a n k < k + n → a.getLsbD (ctzFrom a n k) = true) := by
  induction n generalizing k with
  | zero => exact ⟨le_rfl, fun i hk hi => absurd hi (by simpa [ctzFrom] using hk), fun h => absurd h (by simp [ctzFrom])⟩
  | succ n ih =>
    obtain ⟨hle, hzero, hone⟩ := ih (k + 1)
    rw [ctzFrom]
    split
    · next hk => exact ⟨by omega, fun i hi hlt => by omega, fun _ => hk⟩
    · next hk =>
      refine ⟨by omega, fun i hi hlt => ?_, fun h => hone (by omega)⟩
      obtain rfl | hlt' := hi.eq_or_lt
      · simpa using hk
      · exact hzero i hlt' hlt

theorem toNat_ctz (a : Word) : (BitVec.ofNat 64 (ctzFrom a 64 0)).toNat = ctzFrom a 64 0 := by
  obtain ⟨hle, -⟩ := ctzFrom_spec a 64 0
  rw [BitVec.toNat_ofNat]
  omega

/-- As many zeros below the lowest 1 as the search over the whole word says. -/
theorem ctz_spec (a : Word) {r : Word} (hr : r = BitVec.ofNat 64 (ctzFrom a 64 0)) :
    r.toNat ≤ 64 ∧ (∀ i, i < r.toNat → a.getLsbD i = false) ∧ (r.toNat < 64 → a.getLsbD r.toNat = true) := by
  obtain ⟨hle, hzero, hone⟩ := ctzFrom_spec a 64 0
  rw [hr, toNat_ctz]
  exact ⟨by omega, fun i => hzero i (Nat.zero_le i), fun h => hone (by omega)⟩

theorem toNat_popc (a : Word) :
    (BitVec.ofNat 64 (popCount 64 a.toNat)).toNat = ((List.range 64).filter fun i => a.getLsbD i).length := by
  have hle : popCount 64 a.toNat ≤ 64 := (List.length_filter_le _ _).trans_eq List.length_range
  rw [BitVec.toNat_ofNat, Nat.mod_eq_of_lt (by omega)]
  rfl

/-! ## The bytes in reverse order (R144) -/

@[simp] theorem length_leBytes (n v : Nat) : (leBytes n v).length = n := by
  induction n generalizing v with
  | zero => rfl
  | succ n ih => rw [leBytes, List.length_cons, ih]

/-- Byte `j` of a natural holds its bits from `8 * j` on. -/
theorem getLsbD_getD_leBytes (n v : Nat) {j i : Nat} (hj : j < n) (hi : i < 8) :
    ((leBytes n v).getD j 0).getLsbD i = v.testBit (8 * j + i) := by
  induction n generalizing v j with
  | zero => exact absurd hj (Nat.not_lt_zero j)
  | succ n ih =>
    cases j with
    | zero => rw [leBytes, List.getD_cons_zero, BitVec.getLsbD_ofNat, decide_eq_true hi, Bool.true_and, Nat.mul_zero, Nat.zero_add]
    | succ j =>
      have hbit : 8 * j + i + 8 = 8 * (j + 1) + i := by omega
      rw [leBytes, List.getD_cons_succ, ih (v / 256) (by omega), ← hbit]
      exact Nat.testBit_div_two_pow (n := 8) v _

theorem bswap64_byte (a : Word) {k : Nat} (hk : k < 8) :
    (bswap64 a).extractLsb' (8 * k) 8 = a.extractLsb' (8 * (7 - k)) 8 := by
  apply BitVec.eq_of_getLsbD_eq
  intro i hi
  have hrev : (leBytes 8 a.toNat).reverse.getD k 0 = (leBytes 8 a.toNat).getD (7 - k) 0 := by
    rw [List.getD_reverse k (by simpa using hk), length_leBytes]
  have hin : 8 * k + i < 64 := by omega
  rw [BitVec.getLsbD_extractLsb', BitVec.getLsbD_extractLsb', bswap64, BitVec.getLsbD_ofNat, leNat_testBit _ k i hi, hrev,
    getLsbD_getD_leBytes 8 _ (by omega) hi, decide_eq_true hin, Bool.true_and]
  rfl

/-! ## Fields (R145) -/

theorem fieldDesc_eq (b : Word) : fieldDesc b = (b.toNat % 64, b.toNat / 256 % 64 + 1) := by
  simp [fieldDesc, fld]

theorem getLsbD_bext64 (a b : Word) {i : Nat} (hi : i < 64) :
    (bext64 a b).getLsbD i = (decide (i < b.toNat / 256 % 64 + 1) && a.getLsbD (b.toNat % 64 + i)) := by
  rw [bext64, fieldDesc_eq, BitVec.getLsbD_ofNat, Nat.testBit_mod_two_pow, Nat.testBit_div_two_pow, decide_eq_true hi,
    Bool.true_and, Nat.add_comm i]
  rfl

/-- The mask of `len` bits at `pos`. -/
theorem getLsbD_fieldMask (pos len : Nat) {i : Nat} (hi : i < 64) :
    (BitVec.ofNat 64 ((2 ^ len - 1) * 2 ^ pos)).getLsbD i = decide (pos ≤ i ∧ i < pos + len) := by
  have hlen : pos ≤ i → (i - pos < len ↔ i < pos + len) := by omega
  rw [BitVec.getLsbD_ofNat, Nat.testBit_mul_two_pow, Nat.testBit_two_pow_sub_one, decide_eq_true hi, Bool.true_and,
    ← Bool.decide_and]
  exact decide_eq_decide.mpr (and_congr_right hlen)

theorem getLsbD_bins64 (d a b : Word) {i : Nat} (hi : i < 64) :
    (bins64 d a b).getLsbD i =
      if b.toNat % 64 ≤ i ∧ i < b.toNat % 64 + (b.toNat / 256 % 64 + 1) then a.getLsbD (i - b.toNat % 64) else d.getLsbD i := by
  rw [bins64, fieldDesc_eq]
  simp only [BitVec.getLsbD_or, BitVec.getLsbD_and, BitVec.getLsbD_not, getLsbD_fieldMask _ _ hi, BitVec.getLsbD_shiftLeft]
  split
  · next h => simp [h, hi, Nat.not_lt.mpr h.1]
  · next h => simp [h, hi]

/-! ## The running average (R148) -/

/-- A step of the average takes the floor of a part of the distance to the sample: it never passes the sample. -/
theorem average_between (e x : Int) {p : Int} (hp : 0 < p) : min e x ≤ e + (x - e) / p ∧ e + (x - e) / p ≤ max e x := by
  obtain h | h := le_total 0 (x - e)
  · have hlo := Int.ediv_nonneg h hp.le
    have hhi := Int.ediv_le_self p h
    omega
  · have hlo : x - e ≤ (x - e) / p := by
      rw [Int.le_ediv_iff_mul_le hp]
      nlinarith
    have hhi : (x - e) / p ≤ 0 := Int.ediv_nonpos_of_nonpos_of_neg h hp
    omega

theorem sewma_eq (d a b : Word) :
    ∃ n : Nat, sewma d a b = BitVec.ofNat 64 (n / 2 ^ 12 * 2 ^ 16 + n) ∧ n < 2 ^ 16 ∧
      (n : Int) = (d.toNat % 2 ^ 16 : Nat) + ((a.toNat % 2 ^ 16 : Nat) - (d.toNat % 2 ^ 16 : Nat)) / ((2 ^ (b.toNat % 16) : Nat) : Int) := by
  have hp : (0 : Int) < (2 : Int) ^ (b.toNat % 16) := by positivity
  obtain ⟨hlo, hhi⟩ := average_between (d.toNat % 2 ^ 16 : Nat) (a.toNat % 2 ^ 16 : Nat) hp
  refine ⟨_, rfl, ?_, ?_⟩
  · omega
  · rw [Nat.cast_pow, Nat.cast_ofNat]
    exact Int.toNat_of_nonneg (by omega)

/-- The average and its bucket, taken apart from the word that holds both. -/
theorem average_and_bucket {n : Nat} (h : n < 2 ^ 16) :
    (BitVec.ofNat 64 (n / 2 ^ 12 * 2 ^ 16 + n)).toNat = n / 2 ^ 12 * 2 ^ 16 + n ∧
      (BitVec.ofNat 64 (n / 2 ^ 12 * 2 ^ 16 + n)).toNat % 2 ^ 16 = n := by
  rw [BitVec.toNat_ofNat]
  omega

/-- Settles O9: each word gives a function whose bits, or whose average, the lemmas above say. -/
theorem countsFieldsAndAverages : Obligations.CountsFieldsAndAverages := by
  refine ⟨fun s rd ra => ⟨?_, ?_, ?_, ?_⟩, fun s rd ra rb => ⟨?_, ?_⟩, fun s rd ra rb => ?_⟩
  · exact ⟨_, clz_gives s rd ra, clz64_spec _⟩
  · exact ⟨_, ctz_gives s rd ra, ctz_spec _ rfl⟩
  · exact ⟨_, popc_gives s rd ra, toNat_popc _⟩
  · exact ⟨_, bswap_gives s rd ra, fun _ hk => bswap64_byte _ hk⟩
  · exact ⟨_, bext_gives s rd ra rb, fun _ hi => getLsbD_bext64 _ _ hi⟩
  · exact ⟨_, bins_gives s rd ra rb, fun _ hi => getLsbD_bins64 _ _ _ hi⟩
  · obtain ⟨n, hn, hlt, hval⟩ := sewma_eq (getS s rd) (getS s ra) (getS s rb)
    obtain ⟨hword, hmod⟩ := average_and_bucket hlt
    refine ⟨_, hn ▸ sewma_gives s rd ra rb, ?_⟩
    simp only [hmod]
    refine ⟨hval, by omega, by omega, hword, fun hk => ?_⟩
    rw [hk] at hval
    simpa using hval

end Sys2Proof.Machine
end
